-- ==== Sys2Proof/Word.lean ====
section
/-! DEFINITION. The word types of the JT40: the 16-bit Shared Work Memory word, the 32-bit tick count, the 12-bit
conversion result and the byte of the port and of tags. -/

namespace Sys2Proof

/-- A word of the Shared Work Memory: 16 data bits (R163, R167). -/
abbrev Word := BitVec 16

/-- An absolute time: a value of NOW, 32 bits, wrapping (00_scope.md 4.1). -/
abbrev Tick := BitVec 32

/-- The output of a conversion, RAW, 0 to 4095 (R90). -/
abbrev Raw := BitVec 12

/-- An opcode byte of a port frame, or the tag or code byte of a command word (R163, R174). -/
abbrev Byte := BitVec 8

end Sys2Proof
end

