-- ==== Sys2Proof/Syntax.lean ====
section
/-! DEFINITION. The names of the JT40's parts that commands mention, and the commands: one constructor of Instr for
every row of spec/opcode_table.json. -/

namespace Sys2Proof

/-- The three timing channels: the drum, pump 1 and pump 2 (00_scope.md 4.3). -/
inductive Channel where
  | d | p1 | p2
deriving DecidableEq, Repr

/-- The two pump channels, PTC1 and PTC2. -/
inductive PumpId where
  | p1 | p2
deriving DecidableEq, Repr

/-- The two plan banks of a channel (R1). -/
inductive Bank where
  | b0 | b1
deriving DecidableEq, Repr

/-- The two converters, CVA and CVB (R89). -/
inductive Conv where
  | a | b
deriving DecidableEq, Repr

/-- The three phases of a motor. -/
inductive Phase where
  | u | v | w
deriving DecidableEq, Repr

/-- ORIGIN of a sample request (R92). -/
inductive Origin where
  | d | p1 | p2 | calA | calB
deriving DecidableEq, Repr

/-- SLOT of a sample request (R92). -/
inductive Slot where
  | shuntA | shuntB | u1 | u2 | slot0 | slot1 | cal
deriving DecidableEq, Repr

/-- The three Hall inputs (R40). -/
inductive HallPin where
  | h1 | h2 | h3
deriving DecidableEq, Repr

/-- The six trip inputs (R135). -/
inductive TripPin where
  | ocD | ocP1 | ocP2 | busOv | gateOkD | gateOkP
deriving DecidableEq, Repr

/-- The two gate-supply inputs that have a qualification timer: GATE_OK_D and GATE_OK_P (R137). -/
inductive Supply where
  | d | p
deriving DecidableEq, Repr

/-- The commands: the operations of the port and the events of the part, one constructor per row of
spec/opcode_table.json, in the table's order. An event that the part's own timers bring about carries only what tells
it from its fellows (a pump, a phase, a converter) and what comes from outside with it (a comparator level, a RAW). -/
inductive Instr where
  /-- FRAME_OPEN: CSn goes low. `four` is the level of LANES, then the opcode byte and the start address (R163). -/
  | frameOpen (four : Bool) (opcode : Byte) (addr : Word)
  /-- FRAME_CLOSE: CSn goes high (R163). -/
  | frameClose
  /-- MEM_WRITE_WORD: a data word of a MEM_WRITE frame (R164). -/
  | memWriteWord (data : Word)
  /-- MEM_READ_WORD: a data word of a MEM_READ frame (R164). -/
  | memReadWord
  /-- SLEEP_GRANT_WRITE: the host writes a channel's SLEEP_GRANT word (R123). -/
  | sleepGrantWrite (ch : Channel) (value : Word)
  /-- SWITCH_TAKE: the host writes TAKE_0 or TAKE_1 into a channel's SWITCH word (R5). -/
  | switchTake (ch : Channel) (bank : Bank)
  /-- SWITCH_CANCEL: the host writes CANCEL into a channel's SWITCH word (R6). -/
  | switchCancel (ch : Channel)
  /-- SWITCH_BAD_REQUEST: the host writes any other value into a channel's SWITCH word (R4). -/
  | switchBadRequest (ch : Channel) (value : Word)
  /-- START: the host writes START with a tag into a channel's COMMAND word (R29, R69). -/
  | start (ch : Channel) (tag : Byte)
  /-- STOP, likewise. -/
  | stop (ch : Channel) (tag : Byte)
  /-- BRAKE, likewise. -/
  | brake (ch : Channel) (tag : Byte)
  /-- CLEAR_TRIP, likewise. -/
  | clearTrip (ch : Channel) (tag : Byte)
  /-- RELEASE, likewise. -/
  | release (ch : Channel) (tag : Byte)
  /-- COMMAND_BAD_CODE: a COMMAND write with a code outside the table (R29). -/
  | commandBadCode (ch : Channel) (code : Byte) (tag : Byte)
  /-- APPLY_CONFIG: a GCMD write (R155). -/
  | applyConfig (tag : Byte)
  /-- CLEAR_PROFILE: a GCMD write (R133, R160). -/
  | clearProfile (tag : Byte)
  /-- CLEAR_FAULTS: a GCMD write (R161). -/
  | clearFaults (tag : Byte)
  /-- RECALIBRATE: a GCMD write (R119, R160). -/
  | recalibrate (tag : Byte)
  /-- GCMD_BAD_CODE: a GCMD write with a code outside the table (R153). -/
  | gcmdBadCode (code : Byte) (tag : Byte)
  /-- CONFIG_WORD_READ: the end of the read of one word of an APPLY_CONFIG (R156). -/
  | configWordRead
  /-- INT_EN_WRITE: a register write to INT_EN (R169). -/
  | intEnWrite (value : Word)
  /-- INT_CLR_WRITE: a register write to INT_CLR (R170). -/
  | intClrWrite (value : Word)
  /-- SOFT_RESET: a register write to CONTROL with bit 0 set (R172). -/
  | softReset (value : Word)
  /-- REG_WRITE_IGNORED: a register write that the port ignores (R169). -/
  | regWriteIgnored (addr : Word) (value : Word)
  /-- RESETN_ASSERT: RESETn goes low (R171). -/
  | resetnAssert
  /-- RESETN_RELEASE: RESETn goes high (R171). -/
  | resetnRelease
  /-- MEMORY_SWEEP: the clock has locked and the memory sweep begins (R171). -/
  | memorySweep
  /-- SWEEP_END: the memory sweep ends (R171). -/
  | sweepEnd
  /-- DRUM_BOUNDARY (R33). -/
  | drumBoundary
  /-- PUMP_BOUNDARY (R64). -/
  | pumpBoundary (p : PumpId)
  /-- PHASE_EDGE: the up edge or the down edge of a drum phase (R26). -/
  | phaseEdge (ph : Phase)
  /-- DEAD_TIME_END: the dead time in one phase of one channel ends (R27, R66). -/
  | deadTimeEnd (ch : Channel) (ph : Phase)
  /-- PUMP_PWM_EDGE: the modulation edge at t = Tp - d or t = Tp + d (R66). -/
  | pumpPwmEdge (p : PumpId)
  /-- HALL_INPUT_CHANGE: a Hall pin takes a raw level (R40). -/
  | hallInputChange (pin : HallPin) (level : Bool)
  /-- HALL_EDGE: the new Hall state is accepted (R41). -/
  | hallEdge
  /-- PEAK: the top of a pump timebase. `level` is what the comparator of the floating phase reads (R75). -/
  | peak (p : PumpId) (level : Bool)
  /-- ALIGN_TIMER_EXPIRY (R72). -/
  | alignTimerExpiry (p : PumpId)
  /-- RAMP_STEP_END (R73). -/
  | rampStepEnd (p : PumpId)
  /-- SCHEDULED_COMMUTATION (R79). -/
  | scheduledCommutation (p : PumpId)
  /-- TIMEOUT (R81). -/
  | timeout (p : PumpId)
  /-- ELIGIBILITY: NOW reaches the INSTANT of listed entries (R98). -/
  | eligibility
  /-- EXPIRY of the listed entry with this origin and slot (R101). -/
  | expiry (origin : Origin) (slot : Slot)
  /-- COMPLETION of the conversion in flight on a converter; `raw` is what it converted (R90, R105). -/
  | completion (cv : Conv) (raw : Raw)
  /-- CAL_DUE of a converter (R114). -/
  | calDue (cv : Conv)
  /-- CAL_RAISE_TIME of a converter's sweep (R116). -/
  | calRaiseTime (cv : Conv)
  /-- ENTER_SLEEP (R122). -/
  | enterSleep
  /-- WAKE_REACH (R123). -/
  | wakeReach
  /-- WAKING_END (R123). -/
  | wakingEnd
  /-- TRIP_INPUT_CHANGE: a trip pin takes a raw level (R135). -/
  | tripInputChange (pin : TripPin) (level : Bool)
  /-- INPUT_ASSERTION: a trip input's filtered level reaches its fault level (R138). -/
  | inputAssertion (pin : TripPin)
  /-- INPUT_RELEASE: a trip input's filtered level leaves its fault level (R135). -/
  | inputRelease (pin : TripPin)
  /-- QUALIFICATION: a gate-supply timer reaches QualTime (R137). -/
  | qualification (supply : Supply)
deriving DecidableEq, Repr

end Sys2Proof
end

