-- ==== Sys2Proof/Decode.lean ====
section
/-! DEFINITION. The decoder of the table's words. No row of spec/opcode_table.json gives bits (every row's "fields" is
empty and none has "fixed"), so no word spells a command and the decoder answers none for every word. The words the
host does write over the port (COMMAND, GCMD, SWITCH, the plans, the configuration) are decoded in
Sys2Proof/Machine/Operands.lean, at the event that uses them (R174). -/

namespace Sys2Proof

/-- The command that a word spells by the table's bits: none, since the table gives no row any bits. -/
def decodeTableWord (_nbits _w : Nat) : Option Instr := none

end Sys2Proof
end

