-- ==== Sys2Proof/Config.lean ====
section
/-! DEFINITION. What the implementation fixes: the constants of the part that the manual states once, and the values
that come from outside the part and that nothing in the manual fixes (opaque: nothing in Lean can evaluate them). -/

namespace Sys2Proof.Config

/-- The words of the Shared Work Memory: 2048 (R163, R171). -/
def swmWords : Nat := 2048

/-- The memory sweep lasts 8192 ticks, 4 for each word (R171). -/
def sweepTicks : Nat := 8192

/-- A conversion completes 40 ticks after its start (R90). -/
def conversionTicks : Nat := 40

/-- WAKING lasts 400 ticks (R123), which is also the reach of R122 and R123. -/
def wakeTicks : Nat := 400

/-- A trip filter takes a new level after 4 ticks (R135). -/
def tripFilterTicks : Nat := 4

/-- The pending list holds no more than 8 entries (R93). -/
def listCapacity : Nat := 8

/-- The guard G of the shift limit, 32 ticks (R45). -/
def guardTicks : Nat := 32

/-- The half-period of a drum period without a LIVE bank (R23). -/
def drumIdleHalf : Nat := 1250

/-- Intervals and step estimates go no further than 1,048,575 (R77). -/
def maxInterval : Nat := 1048575

/-- One millisecond in ticks (R72, R113). -/
def ticksPerMs : Nat := 40000

/-- The constant that the ID register reads (R169). -/
def idWord : Word := 0x4A40#16

/-- The RAW that the analogue side gives the n-th conversion whose completion the part's own timer brings up in an
idle step. It comes from the motor and the converter's analogue error, which the manual leaves outside (R90, R113). -/
opaque freeRaw : Nat → Raw

/-- The level of the phase-sense comparator at the n-th peak that the part's own timer brings up in an idle step. It
comes from the motor's back-EMF (R75). -/
opaque freeLevel : Nat → Bool

end Sys2Proof.Config
end

