-- ==== Sys2Proof/Machine/Blocks.lean ====
section
/-! DEFINITION. The pieces of state of the twelve blocks (00_scope.md 2), as plain data: one type for each record the
manual names. What each block writes out into the Shared Work Memory is computed from these records
(Sys2Proof/Machine/Layout.lean). -/

namespace Sys2Proof.Machine

/-! ### Shared Work Memory and the port -/

/-- One word of the Shared Work Memory: 16 data bits and a parity bit (R167). -/
structure SwmWord where
  data : Word
  parity : Bool
deriving DecidableEq, Repr

/-- The Shared Work Memory as (address, word) pairs in canonical form (Sys2Proof/Machine/Memory.lean). -/
abbrev Memory := List (Nat × SwmWord)

/-- Where the part stands between RESETn low and normal running (R171). -/
inductive RunPhase where
  /-- RESETn is low. -/
  | held
  /-- RESETn is high and the clock multiplier has not locked. -/
  | locking
  /-- The memory sweep has run for this many ticks. -/
  | sweeping (ticks : Nat)
  /-- The sweep has ended: READY is 1. -/
  | running
deriving DecidableEq, Repr

/-- What a port frame does, from its opcode byte; an unknown opcode makes the port ignore the frame (R163). -/
inductive FrameKind where
  | memRead | memWrite | regRead | regWrite | ignored
deriving DecidableEq, Repr

/-- A frame in progress: its kind, the address of its next data word, and whether it runs on four lanes (R163). -/
structure Frame where
  kind : FrameKind
  addr : Word
  fourLanes : Bool
deriving DecidableEq, Repr

/-- The Serial Memory Port: whether CSn is low, the frame in progress, and the last word it took for shifting out. -/
structure Port where
  csLow : Bool
  frame : Option Frame
  readOut : Word
deriving DecidableEq, Repr

/-- KIND of the access fault record (11.8). -/
inductive FaultKind where
  | none | outOfRange | engineWord | bankBusy | configBusy
deriving DecidableEq, Repr

/-- The four bank roles (R2). -/
inductive Role where
  | host | pending | live | retiring
deriving DecidableEq, Repr

/-- The access fault record of the global block (R166); `role` is none for every kind but BANK_BUSY. -/
structure AccessRecord where
  addr : Word
  kind : FaultKind
  role : Option Role
  count : BitVec 8
deriving DecidableEq, Repr

/-- SOURCE of the parity record (11.8). -/
inductive ParitySource where
  | none | planD | planP1 | planP2 | config | table
deriving DecidableEq, Repr

/-- The parity record of the global block (R167). -/
structure ParityRecord where
  addr : Word
  source : ParitySource
  count : BitVec 8
deriving DecidableEq, Repr

/-! ### Plan Exchange Logic -/

/-- What PXL holds for one channel: the roles of its two banks, LIVE_SEQ and RETIRED_SEQ (R2, R19). -/
structure Exchange where
  role0 : Role
  role1 : Role
  liveSeq : Word
  retiredSeq : Word
deriving DecidableEq, Repr

/-- The drum plan as read at its take (R37, 11.6); a user slot whose SEL is OFF has no input (R174). -/
structure UserSlot where
  input : Option (Fin 8)
  atTick : Word
  lateMax : BitVec 8
deriving DecidableEq, Repr

/-- One value for each phase. -/
structure Tri (α : Type) where
  u : α
  v : α
  w : α
deriving DecidableEq, Repr

/-- The drum plan copy (R37). -/
structure DrumPlan where
  seq : Word
  period : Word
  duty : Tri Word
  shunt : Bool
  u1 : UserSlot
  u2 : UserSlot
deriving DecidableEq, Repr

/-- The pump plan copy, as written (R84). -/
structure PumpPlan where
  seq : Word
  duty : Word
  advance : Word
  every0 : Word
  input1 : Word
  valley1 : Bool
  every1 : Word
deriving DecidableEq, Repr

/-! ### Sample slots and the Shunt Window Calculator -/

/-- STATUS of a sample slot (11.8). -/
inductive SlotStatus where
  | notRequested | queued | converting | valid | late | evicted | narrow | badInstant
  | droppedBoundary | droppedStop | droppedTrip
deriving DecidableEq, Repr

/-- A sample result record (R106, 11.6). `clamped` is not shown: it says whether the correction clamp of VALUE acted,
which SWC tells from the record (R60). -/
structure SlotRecord where
  status : SlotStatus
  conv : Conv
  lateness : Word
  raw : Raw
  value : BitVec 12
  clamped : Bool
deriving DecidableEq, Repr

/-- WIN_A and WIN_B (R44). -/
inductive Window where
  | unused | open | narrow
deriving DecidableEq, Repr

/-- The window record of SWC (R44). A current is none while it is absent. -/
structure WindowRecord where
  computed : Bool
  hi : Phase
  mid : Phase
  lo : Phase
  clamped : Tri Bool
  shift : Tri Nat
  up : Tri Nat
  down : Tri Nat
  t1 : Nat
  t2 : Nat
  t3 : Nat
  winA : Window
  winB : Window
  shiftClamped : Bool
  current : Tri (Option Int)
  sat : Bool
deriving DecidableEq, Repr

/-- A Hall edge record (R41). -/
structure HallRecord where
  time : Tick
  state : BitVec 3
  valid : Bool
deriving DecidableEq, Repr

/-- What the part keeps of one drum bank while it runs it: the plan copy read at the take, and the run's results, which
it writes out into the bank's result words (R13, R44, 11.6). -/
structure DrumBank where
  plan : DrumPlan
  repeats : Word
  window : WindowRecord
  shuntA : SlotRecord
  shuntB : SlotRecord
  u1 : SlotRecord
  u2 : SlotRecord
  hall : List HallRecord
  hallDropped : BitVec 8
deriving DecidableEq, Repr

/-- The results of one pump slot in its bank (R87). -/
structure PumpSlot where
  status : SlotStatus
  lateCount : Word
  evictedCount : Word
  last : SlotRecord
  sum : BitVec 32
  count : Word
deriving DecidableEq, Repr

/-- What the part keeps of one pump bank while it runs it (R84, R85, R87). -/
structure PumpBank where
  plan : PumpPlan
  periods : BitVec 32
  commutations : BitVec 32
  misses : Word
  early : Word
  lateComm : Word
  stepEst : Nat
  lastInterval : Nat
  dutyRaised : Bool
  dutyClamped : Bool
  advanceClamped : Bool
  everyClamped : Bool
  inputClamped : Bool
  slot0 : PumpSlot
  slot1 : PumpSlot
deriving DecidableEq, Repr

/-! ### Gate outputs -/

/-- The commanded position of a phase: low, high, or floating with both switches off. -/
inductive LegPos where
  | float | low | high
deriving DecidableEq, Repr

/-- The two switches of a phase. -/
inductive Side where
  | low | high
deriving DecidableEq, Repr

/-- A switch that waits out a dead time before it turns on, and the ticks left of the dead time that stood when the wait
began (R27, R66, R152; notes/assumptions/26.md). -/
structure TurnOn where
  side : Side
  left : Nat
deriving DecidableEq, Repr

/-- One phase of a channel's power stage: the two gate outputs, for how many ticks each switch has been off (kept to
255, the longest dead time), the commanded position, and the turn-on that waits for its dead time. -/
structure Leg where
  high : Bool
  low : Bool
  highOffFor : BitVec 8
  lowOffFor : BitVec 8
  pos : LegPos
  waiting : Option TurnOn
deriving DecidableEq, Repr

/-- An input pin with its filter: the raw level of the pin, the accepted (filtered) level, and the count of ticks for
which the two have differed (R40, R135). -/
structure PinFilter where
  raw : Bool
  level : Bool
  count : BitVec 8
deriving DecidableEq, Repr

/-! ### Channels -/

/-- OFF or SHORT: SafeAction, OvAction and the trip ACTION (11.8). -/
inductive SafeOut where
  | off | short
deriving DecidableEq, Repr

/-- FIRST_CAUSE and the members of CAUSES, by the channel's own inputs (11.8). -/
inductive TripCause where
  | oc | busOv | gate
deriving DecidableEq, Repr

/-- The fields of a trip record that the drum and the pumps share (R141); `first` is none for NONE. -/
structure TripRecord where
  first : Option TripCause
  oc : Bool
  busOv : Bool
  gate : Bool
  action : SafeOut
  time : Tick
  liveSeq : Word
deriving DecidableEq, Repr

/-- The five channel command codes (11.8). -/
inductive ChannelCode where
  | start | stop | brake | clearTrip | release
deriving DecidableEq, Repr

/-- A command that waits for the next boundary, with its tag (R29). -/
structure WaitingCommand where
  code : ChannelCode
  tag : Byte
deriving DecidableEq, Repr

/-- The drum states (R25). -/
inductive DrumState where
  | stopped | running | braking | starved | tripped
deriving DecidableEq, Repr

/-- What the drum's outputs do: OFF, SHORT, or PWM from the LIVE plan (R25). -/
inductive DrumOut where
  | off | short | pwm
deriving DecidableEq, Repr

/-- The Drum Timing Channel (02_drum_timing_channel.md). `tripNow`, the model's own, says whether the drum's last trip took
place at this NOW: events of one tick that R144 orders are told by it. -/
structure Drum where
  state : DrumState
  out : DrumOut
  periodStart : Tick
  half : Nat
  periodCount : BitVec 32
  missCount : Nat
  waiting : Option WaitingCommand
  bank0 : DrumBank
  bank1 : DrumBank
  upAt : Tri (Option Tick)
  downAt : Tri (Option Tick)
  legs : Tri Leg
  h1 : PinFilter
  h2 : PinFilter
  h3 : PinFilter
  hallUnrecorded : Word
  trip : TripRecord
  tripPrior : DrumState
  tripPeriodCount : BitVec 32
  tripNow : Bool
deriving DecidableEq, Repr

/-- The stall reasons (R68). -/
inductive StallReason where
  | noLock | zcLost
deriving DecidableEq, Repr

/-- The pump states; STALLED carries its reason (R68). -/
inductive PumpState where
  | stopped | align | ramp | run | braking | stalled (r : StallReason) | tripped
deriving DecidableEq, Repr

/-- The zero-crossing state of a step (R76): the run, the time of its first sample, whether that was the first sample
after blanking, whether a crossing is confirmed, and whether any sample has been taken in the step. -/
structure ZcState where
  run : Nat
  firstTime : Tick
  firstAfterBlank : Bool
  confirmed : Bool
  sampled : Bool
deriving DecidableEq, Repr

/-- The commutation state of a pump (R83). `prevConfirmed` says whether a crossing was confirmed in the step before the
present one, `lastZc` is the ZC_TIME of the last confirmed crossing; the two intervals are none when not valid (R77). -/
structure CommState where
  alignAt : Option Tick
  rampAt : Option Tick
  entry : Nat
  begun : Nat
  good : Nat
  zc : ZcState
  prevConfirmed : Bool
  lastZc : Tick
  interval : Option Nat
  prevInterval : Option Nat
  lastValid : Option Nat
  est : Nat
  blankEnd : Tick
  commAt : Option Tick
  timeoutAt : Option Tick
  missCount : Nat
deriving DecidableEq, Repr

/-- A Pump Timing Channel (04_pump_timing_channels.md). `tripNow` is as the drum's. -/
structure Pump where
  state : PumpState
  periodStart : Tick
  half : Nat
  peakDue : Bool
  duty : Nat
  pwmOn : Bool
  onAt : Option Tick
  offAt : Option Tick
  stepIndex : Nat
  comm : CommState
  waiting : Option WaitingCommand
  countdown0 : Nat
  countdown1 : Nat
  bank0 : PumpBank
  bank1 : PumpBank
  legs : Tri Leg
  trip : TripRecord
  tripPrior : PumpState
  tripStep : Nat
  tripEst : Nat
  tripNow : Bool
deriving DecidableEq, Repr

/-! ### Sample Arbiter -/

/-- The input of a request (R89). -/
inductive SampleInput where
  | ext (n : Fin 8)
  | ref
deriving DecidableEq, Repr

/-- CLASS of a request (R92). -/
inductive ReqClass where
  | forcedCal | drum | urgentCal | pump | routineCal
deriving DecidableEq, Repr

/-- A sample request (R92); `lateMax` is none when it is unbounded. -/
structure Request where
  origin : Origin
  slot : Slot
  bank : Option Bank
  tag : BitVec 32
  input : SampleInput
  inst : Tick
  lateMax : Option (BitVec 8)
  cls : ReqClass
  pin : Option Conv
deriving DecidableEq, Repr

/-- A listed request, and whether its eligibility event has been taken (R98). -/
structure Entry where
  req : Request
  eligible : Bool
deriving DecidableEq, Repr

/-- The in-flight record of a converter (R99). -/
structure InFlight where
  req : Request
  start : Tick
  lateness : Tick
deriving DecidableEq, Repr

/-- The power state of the converter pair (R122). -/
inductive Power where
  | awake | sleep | waking
deriving DecidableEq, Repr

/-- ARB, the converters and the power control (R89 to R112, R122). `wakeNow`, the model's own, says whether the pair, AWAKE,
has taken a wake cause at this NOW (R123; notes/assumptions/32.md). -/
structure Arbiter where
  list : List Entry
  cva : Option InFlight
  cvb : Option InFlight
  power : Power
  wakeEnd : Tick
  idleStart : Tick
  wakeNow : Bool
deriving DecidableEq, Repr

/-! ### Calibration Unit -/

/-- CLASS of a calibration record (R113). -/
inductive CalClass where
  | none | routine | urgent | forced
deriving DecidableEq, Repr

/-- PHASE of a calibration record (R113). -/
inductive CalPhase where
  | waiting | listed | converting | setAside
deriving DecidableEq, Repr

/-- A calibration record (R113); `keptInst` is the INSTANT kept from an eviction (R117). -/
structure CalRecord where
  offset : Int
  due : Tick
  cls : CalClass
  phase : CalPhase
  progress : Nat
  sum : Nat
  lastCal : Tick
  count : Word
  range : Bool
  keptInst : Tick
deriving DecidableEq, Repr

/-! ### Lateness Profiler, Trip Monitor, Global Command Unit -/

/-- The ten counters of LPR, BIN0 to BIN7, DROPPED, EVICTED, and the SATURATED set (R126). -/
structure Profiler where
  counters : Vector (BitVec 32) 10
  saturated : BitVec 10
deriving DecidableEq, Repr

/-- A gate-supply qualification timer and the QUALIFIED flag (R137). -/
structure QualTimer where
  timer : BitVec 16
  qualified : Bool
deriving DecidableEq, Repr

/-- TRM: the six filters and the two qualification timers (R135, R137). -/
structure TripMonitor where
  ocD : PinFilter
  ocP1 : PinFilter
  ocP2 : PinFilter
  busOv : PinFilter
  gateD : PinFilter
  gateP : PinFilter
  qualD : QualTimer
  qualP : QualTimer
deriving DecidableEq, Repr

/-- Direction of a pump (R65). -/
inductive Direction where
  | forward | reverse
deriving DecidableEq, Repr

/-- One entry of a start table (R73). -/
structure RampEntry where
  interval : Nat
  duty : Nat
  steps : Nat
deriving DecidableEq, Repr

/-- The fields of the shadow that exist once per pump (R150, R151). -/
structure PumpConfig where
  ovAction : SafeOut
  tp : Nat
  deadTime : Nat
  direction : Direction
  table : List RampEntry
deriving DecidableEq, Repr

/-- The configuration shadow: the 32 fields of R150 and the two start tables of R151. -/
structure Shadow where
  dtD : Nat
  settle : Nat
  lead : Nat
  missLimit : Nat
  safeAction : SafeOut
  ovActionD : SafeOut
  qualTime : Nat
  hallFilter : Nat
  p1 : PumpConfig
  p2 : PumpConfig
  alignDuty : Nat
  alignTime : Nat
  lockCount : Nat
  zcFilter : Nat
  blankMin : Nat
  blankFrac : Nat
  zcMinDuty : Nat
  missLimitP : Nat
  pumpLateMax : Nat
  idleLimit : Nat
  calInterval : Nat
  profileEnable : Bool
  originMask : BitVec 4
  combineMask : BitVec 10
deriving DecidableEq, Repr

/-- An APPLY_CONFIG in flight: its tag, the time it was taken, and the words read so far, in order (R155, R156). -/
structure ApplyRun where
  tag : Byte
  start : Tick
  words : List Word
deriving DecidableEq, Repr

/-- GCU: the shadow and the APPLY_CONFIG in flight (R149, R155). -/
structure GlobalUnit where
  shadow : Shadow
  apply : Option ApplyRun
deriving DecidableEq, Repr

end Sys2Proof.Machine
end

