-- ==== Sys2Proof/Machine/Memory.lean ====
section
/-! DEFINITION. The Shared Work Memory: what an unlisted address reads as, parity, the read and the write of one word,
and the canonical form (R163, R167, R171). -/

namespace Sys2Proof.Machine

/-- What an address that the list does not hold reads as: data 0x0000 with good parity, which is what the power-on
sweep writes into every word (R171). -/
def blankWord : SwmWord := { data := 0, parity := true }

/-- The parity bit that makes the 17 bits of a word hold an odd number of ones (R167). -/
def parityBit (d : Word) : Bool :=
  (List.range 16).foldl (fun p i => p ^^ d.getLsbD i) true

/-- A word as any write stores it: the data with its parity (R167). -/
def wordOf (d : Word) : SwmWord := { data := d, parity := parityBit d }

/-- Whether a stored word passes its parity check (R167). -/
def SwmWord.good (w : SwmWord) : Bool := w.parity == parityBit w.data

/-- The word at an address. -/
def Memory.read : Memory → Nat → SwmWord
  | [], _ => blankWord
  | (k, v) :: m, a => if k = a then v else Memory.read m a

/-- The list with the word at an address replaced, in canonical form. -/
def Memory.insert : Memory → Nat → SwmWord → Memory
  | [], a, w => if w = blankWord then [] else [(a, w)]
  | (k, v) :: m, a, w =>
    if a < k then (if w = blankWord then (k, v) :: m else (a, w) :: (k, v) :: m)
    else if a = k then (if w = blankWord then m else (a, w) :: m)
    else (k, v) :: Memory.insert m a w

/-- The write of one word with good parity (R167). There is no word at 0x800 or above (R163), and nothing is stored
there. -/
def Memory.write (m : Memory) (a : Nat) (d : Word) : Memory :=
  if a < Config.swmWords then Memory.insert m a (wordOf d) else m

/-- The canonical form: addresses strictly rising and inside the memory, and no entry that an unlisted address would
read as. -/
abbrev Memory.wf (m : Memory) : Prop :=
  m.Pairwise (fun x y => x.1 < y.1) ∧ ∀ c ∈ m, c.2 ≠ blankWord ∧ c.1 < Config.swmWords

/-- Words written one after the other from an address on. -/
def Memory.writeList : Memory → Nat → List Word → Memory
  | m, _, [] => m
  | m, a, w :: ws => Memory.writeList (m.write a w) (a + 1) ws

/-- The words of a record that is given as quantities, each of one word or of two (R173). -/
def wordsOf (qs : List (List Word)) : List Word := qs.flatten

/-- Words that are each a quantity of its own. -/
def singles (ws : List Word) : List (List Word) := ws.map (fun w => [w])

/-- The quantities that show a record, written where they change: the part writes what changed in the event that changes
it (R25, R69, R113, R132, R136), and a quantity of two words is written whole (R173). -/
def Memory.writeChanged : Memory → Nat → List (List Word) → List (List Word) → Memory
  | m, a, o :: os, n :: ns => Memory.writeChanged (if o = n then m else m.writeList a n) (a + n.length) os ns
  | m, _, _, _ => m

end Sys2Proof.Machine
end

