-- ==== Sys2Proof/Machine/Layout.lean ====
section
/-! DEFINITION. The memory map and the record layouts (11_memory_map_and_record_layouts.md): the address of every block
and bank, the numeric codes of 11.8, and the words that show each record. -/

namespace Sys2Proof.Machine

/-! ### Words from fields -/

/-- A word from a number, modulo 2^16. -/
def w16 (n : Nat) : Word := BitVec.ofNat 16 n

/-- A flag as a number. -/
def bit (b : Bool) : Nat := if b then 1 else 0

/-- A word from fields, each a value and its lowest bit; every other bit is 0 (R173). -/
def pack (fields : List (Nat × Nat)) : Word :=
  w16 (fields.foldl (fun acc f => acc + f.1 * 2 ^ f.2) 0)

/-- A signed quantity as a two's complement word (R173). -/
def signedWord (x : Int) : Word := BitVec.ofInt 16 x

/-- A 32-bit quantity as two words, the lower 16 bits first (R173). -/
def twoWords (x : BitVec 32) : List Word := [x.extractLsb' 0 16, x.extractLsb' 16 16]

/-- A count that stays within 32 bits as two words. -/
def twoWordsNat (n : Nat) : List Word := twoWords (BitVec.ofNat 32 n)

/-! ### Addresses (11.2 to 11.5) -/

/-- GCMD (11.3). -/
def gcmdAddr : Nat := 0x000
/-- GCMD_DONE, three words (11.3). -/
def gcmdDoneAddr : Nat := 0x001
/-- GCMD_REFUSED, two words (11.3). -/
def gcmdRefusedAddr : Nat := 0x004
/-- The access fault record, two words (11.3). -/
def accessAddr : Nat := 0x006
/-- The parity record, two words (11.3). -/
def parityAddr : Nat := 0x008
/-- The converter status word of a converter (11.3). -/
def convStatusAddr : Conv → Nat
  | .a => 0x00A
  | .b => 0x00B
/-- The power word (11.3). -/
def powerAddr : Nat := 0x00C
/-- The seven calibration words of a converter (11.3). -/
def calAddr : Conv → Nat
  | .a => 0x00D
  | .b => 0x014
/-- The profiler block (11.3). -/
def profilerAddr : Nat := 0x020
/-- The SATURATED set (11.3). -/
def saturatedAddr : Nat := 0x034
/-- The configuration block (11.4). -/
def configAddr : Nat := 0x040
/-- The start table of a pump (11.4). -/
def tableAddr : PumpId → Nat
  | .p1 => 0x080
  | .p2 => 0x0A0

/-- The control block of a channel (11.5). -/
def controlBase : Channel → Nat
  | .d => 0x0C0
  | .p1 => 0x0E0
  | .p2 => 0x100

/-- Offset of SWITCH in a control block (11.5). -/
def offSwitch : Nat := 0
/-- Offset of SWITCH_RESULT. -/
def offSwitchResult : Nat := 1
/-- Offset of BANK_ROLES, LIVE_SEQ and RETIRED_SEQ. -/
def offRoles : Nat := 2
/-- Offset of LIVE_SEQ. -/
def offLiveSeq : Nat := 3
/-- Offset of RETIRED_SEQ. -/
def offRetiredSeq : Nat := 4
/-- Offset of COMMAND. -/
def offCommand : Nat := 5
/-- Offset of CMD_DONE, two words. -/
def offCmdDone : Nat := 6
/-- Offset of CMD_REFUSED, two words. -/
def offCmdRefused : Nat := 8
/-- Offset of SLEEP_GRANT. -/
def offGrant : Nat := 10
/-- Offset of DRUM_STATE or PUMP_STATE and the words after it. -/
def offState : Nat := 11
/-- Offset of MISS_COUNT. -/
def offMissCount : Nat := 12
/-- Offset of a pump's STEP_INDEX. -/
def offStepIndex : Nat := 13
/-- Offset of TRIP_INPUTS. -/
def offTripInputs : Nat := 17
/-- Offset of the trip record. -/
def offTrip : Nat := 18

/-- The address of a word of a channel's control block. -/
def controlAddr (ch : Channel) (off : Nat) : Nat := controlBase ch + off

/-- The first word of a bank (R1). -/
def bankBase : Channel → Bank → Nat
  | .d, .b0 => 0x120
  | .d, .b1 => 0x170
  | .p1, .b0 => 0x1C0
  | .p1, .b1 => 0x1F0
  | .p2, .b0 => 0x220
  | .p2, .b1 => 0x250

/-- How many plan words a bank has (R1). -/
def planWords : Channel → Nat
  | .d => 16
  | _ => 12

/-- How many words a bank has (R1). -/
def bankWords : Channel → Nat
  | .d => 80
  | _ => 48

/-- The bank that an address lies in (11.2). -/
def bankOf (a : Nat) : Option (Channel × Bank) :=
  if a < 0x120 then none
  else if a < 0x170 then some (.d, .b0)
  else if a < 0x1C0 then some (.d, .b1)
  else if a < 0x1F0 then some (.p1, .b0)
  else if a < 0x220 then some (.p1, .b1)
  else if a < 0x250 then some (.p2, .b0)
  else if a < 0x280 then some (.p2, .b1)
  else none

/-- The channel and offset of a control block word (11.2). -/
def controlOf (a : Nat) : Option (Channel × Nat) :=
  if a < 0x0C0 then none
  else if a < 0x0E0 then some (.d, a - 0x0C0)
  else if a < 0x100 then some (.p1, a - 0x0E0)
  else if a < 0x120 then some (.p2, a - 0x100)
  else none

/-! ### Codes (11.8) -/

/-- Bank role codes. -/
def Role.code : Role → Nat
  | .host => 0
  | .pending => 1
  | .live => 2
  | .retiring => 3

/-- BANK_STATUS codes. -/
inductive BankStatus where
  | none | live | retired | cancelled | rejParity | rejPeriodRange | rejPeriodStep
deriving DecidableEq, Repr

/-- The number of a BANK_STATUS. -/
def BankStatus.code : BankStatus → Nat
  | .none => 0
  | .live => 1
  | .retired => 2
  | .cancelled => 3
  | .rejParity => 4
  | .rejPeriodRange => 5
  | .rejPeriodStep => 6

/-- The Switch outcomes. -/
inductive SwitchOutcome where
  | none | staged | restaged | refusedLive | refusedRetiring | cancelled | nothingPending | badRequest
deriving DecidableEq, Repr

/-- The number of a Switch outcome. -/
def SwitchOutcome.code : SwitchOutcome → Nat
  | .none => 0
  | .staged => 1
  | .restaged => 2
  | .refusedLive => 3
  | .refusedRetiring => 4
  | .cancelled => 5
  | .nothingPending => 6
  | .badRequest => 7

/-- The number of a channel command code. -/
def ChannelCode.code : ChannelCode → Byte
  | .start => 1
  | .stop => 2
  | .brake => 3
  | .clearTrip => 4
  | .release => 5

/-- The command outcomes, channel and global. -/
inductive Outcome where
  | none | done | noChange | wrongState | noPlan | inputsActive | configBusy | badCode | busy | superseded
  | invalid | parity
deriving DecidableEq, Repr

/-- The number of a command outcome. -/
def Outcome.code : Outcome → Nat
  | .none => 0
  | .done => 1
  | .noChange => 2
  | .wrongState => 3
  | .noPlan => 4
  | .inputsActive => 5
  | .configBusy => 6
  | .badCode => 7
  | .busy => 8
  | .superseded => 9
  | .invalid => 10
  | .parity => 11

/-- Drum state codes. -/
def DrumState.code : DrumState → Nat
  | .stopped => 0
  | .running => 1
  | .braking => 2
  | .starved => 3
  | .tripped => 4

/-- Pump state codes. -/
def PumpState.code : PumpState → Nat
  | .stopped => 0
  | .align => 1
  | .ramp => 2
  | .run => 3
  | .braking => 4
  | .stalled _ => 5
  | .tripped => 6

/-- The reason a pump state shows: NONE outside STALLED. -/
def PumpState.reason : PumpState → Nat
  | .stalled .noLock => 2
  | .stalled .zcLost => 3
  | _ => 0

/-- The reason a drum state shows: PLAN_MISS in STARVED. -/
def DrumState.reason : DrumState → Nat
  | .starved => 1
  | _ => 0

/-- Slot status codes. -/
def SlotStatus.code : SlotStatus → Nat
  | .notRequested => 0
  | .queued => 1
  | .converting => 2
  | .valid => 3
  | .late => 4
  | .evicted => 5
  | .narrow => 6
  | .badInstant => 7
  | .droppedBoundary => 8
  | .droppedStop => 9
  | .droppedTrip => 10

/-- Window codes. -/
def Window.code : Window → Nat
  | .unused => 0
  | .open => 1
  | .narrow => 2

/-- Phase numbers in ORDER (11.6). -/
def phaseCode : Phase → Nat
  | .u => 0
  | .v => 1
  | .w => 2

/-- Trip cause codes. -/
def TripCause.code : TripCause → Nat
  | .oc => 1
  | .busOv => 2
  | .gate => 3

/-- OFF and SHORT. -/
def SafeOut.code : SafeOut → Nat
  | .off => 0
  | .short => 1

/-- Access fault KIND codes. -/
def FaultKind.code : FaultKind → Nat
  | .none => 0
  | .outOfRange => 1
  | .engineWord => 2
  | .bankBusy => 3
  | .configBusy => 4

/-- Parity SOURCE codes. -/
def ParitySource.code : ParitySource → Nat
  | .none => 0
  | .planD => 1
  | .planP1 => 2
  | .planP2 => 3
  | .config => 4
  | .table => 5

/-- Request ORIGIN codes. -/
def originCode : Origin → Nat
  | .d => 1
  | .p1 => 2
  | .p2 => 3
  | .calA => 4
  | .calB => 5

/-- Request SLOT codes. -/
def slotCode : Slot → Nat
  | .shuntA => 1
  | .shuntB => 2
  | .u1 => 3
  | .u2 => 4
  | .slot0 => 5
  | .slot1 => 6
  | .cal => 7

/-- Input numbers in the converter status word; REF is 8 (11.3). -/
def SampleInput.code : SampleInput → Nat
  | .ext n => n.val
  | .ref => 8

/-- Calibration CLASS codes. -/
def CalClass.code : CalClass → Nat
  | .none => 0
  | .routine => 1
  | .urgent => 2
  | .forced => 3

/-- Power state codes. -/
def Power.code : Power → Nat
  | .awake => 0
  | .sleep => 1
  | .waking => 2

/-- Converter codes in a result record: 0 is A, 1 is B (11.6). -/
def convCode : Conv → Nat
  | .a => 0
  | .b => 1

/-! ### Records as words -/

/-- The access fault record (11.3). -/
def AccessRecord.words (r : AccessRecord) : List Word :=
  [r.addr, pack [(r.kind.code, 0), ((r.role.map Role.code).getD 0, 4), (r.count.toNat, 8)]]

/-- The parity record (11.3). -/
def ParityRecord.words (r : ParityRecord) : List Word :=
  [r.addr, pack [(r.source.code, 0), (r.count.toNat, 8)]]

/-- The converter status word; while IDLE every field reads 0 (R91). -/
def convStatusWord : Option InFlight → Word
  | none => 0
  | some f => pack [(originCode f.req.origin, 0), (slotCode f.req.slot, 4), (f.req.input.code, 8), (1, 15)]

/-- The calibration record as quantities: OFFSET, CLASS with PROGRESS and CAL_RANGE, DUE, LAST_CAL_TIME, CAL_COUNT
(11.3). -/
def CalRecord.quantities (r : CalRecord) : List (List Word) :=
  [[signedWord r.offset], [pack [(r.cls.code, 0), (r.progress, 4), (bit r.range, 8)]], twoWords r.due,
    twoWords r.lastCal, [r.count]]

/-- The calibration words (11.3). -/
def CalRecord.words (r : CalRecord) : List Word := wordsOf r.quantities

/-- The account as quantities: ten counters of two words, then the SATURATED set (11.3). -/
def Profiler.quantities (l : Profiler) : List (List Word) :=
  l.counters.toList.map twoWords ++ [[l.saturated.setWidth 16]]

/-- The profiler block's 21 words (11.3). -/
def Profiler.words (l : Profiler) : List Word := wordsOf l.quantities

/-- BANK_ROLES, LIVE_SEQ, RETIRED_SEQ (11.5). -/
def Exchange.words (e : Exchange) : List Word :=
  [pack [(e.role0.code, 0), (e.role1.code, 8)], e.liveSeq, e.retiredSeq]

/-- The Hall state H1 + 2 H2 + 4 H3 of the accepted levels (R40). -/
def Drum.hallState (d : Drum) : BitVec 3 :=
  BitVec.ofNat 3 (bit d.h1.level + 2 * bit d.h2.level + 4 * bit d.h3.level)

/-- DRUM_STATE, MISS_COUNT, HALL_STATE, HALL_UNRECORDED and PERIOD_COUNT as quantities (11.5). -/
def Drum.quantities (d : Drum) : List (List Word) :=
  [[pack [(d.state.code, 0), (d.state.reason, 4)]], [w16 d.missCount], [w16 d.hallState.toNat], [d.hallUnrecorded],
    twoWords d.periodCount]

/-- DRUM_STATE, MISS_COUNT, HALL_STATE, HALL_UNRECORDED, PERIOD_COUNT (11.5, offsets 11 to 16). -/
def Drum.words (d : Drum) : List Word := wordsOf d.quantities

/-- PUMP_STATE, STEP_INDEX and MISS_COUNT in the order of their words: PUMP_STATE, MISS_COUNT, STEP_INDEX
(11.5, offsets 11 to 13). -/
def Pump.words (p : Pump) : List Word :=
  [pack [(p.state.code, 0), (p.state.reason, 4)], w16 p.comm.missCount, w16 p.stepIndex]

/-- The part of a trip record that the drum and the pumps share, as quantities: the causes with ACTION, TRIP_TIME,
PRIOR_STATE and LIVE_SEQ (11.5, offsets 18 to 22). -/
def tripQuantities (r : TripRecord) (prior : Nat) : List (List Word) :=
  [[pack [((r.first.map TripCause.code).getD 0, 0), (bit r.oc, 4), (bit r.busOv, 5), (bit r.gate, 6),
      (r.action.code, 8)]], twoWords r.time, [w16 prior], [r.liveSeq]]

/-- The drum trip record as quantities (11.5). -/
def Drum.tripQuantities (d : Drum) : List (List Word) :=
  Machine.tripQuantities d.trip d.tripPrior.code ++ [twoWords d.tripPeriodCount]

/-- The drum trip record (11.5, offsets 18 to 24). -/
def Drum.tripWords (d : Drum) : List Word := wordsOf d.tripQuantities

/-- The pump trip record as quantities (11.5). -/
def Pump.tripQuantities (p : Pump) : List (List Word) :=
  Machine.tripQuantities p.trip p.tripPrior.code ++ [[w16 p.tripStep], twoWordsNat p.tripEst]

/-- The pump trip record (11.5, offsets 18 to 25). -/
def Pump.tripWords (p : Pump) : List Word := wordsOf p.tripQuantities

/-- The TRIP_INPUTS word of a channel (11.5, offset 17): the filtered OC, BUS_OV and gate-supply levels, QUALIFIED. -/
def TripMonitor.inputsWord (t : TripMonitor) : Channel → Word
  | .d => pack [(bit t.ocD.level, 0), (bit t.busOv.level, 1), (bit t.gateD.level, 2), (bit t.qualD.qualified, 3)]
  | .p1 => pack [(bit t.ocP1.level, 0), (bit t.busOv.level, 1), (bit t.gateP.level, 2), (bit t.qualP.qualified, 3)]
  | .p2 => pack [(bit t.ocP2.level, 0), (bit t.busOv.level, 1), (bit t.gateP.level, 2), (bit t.qualP.qualified, 3)]

/-- A sample result record (11.6). -/
def SlotRecord.words (r : SlotRecord) : List Word :=
  [pack [(r.status.code, 0), (convCode r.conv, 4)], r.lateness, r.raw.setWidth 16, r.value.setWidth 16]

/-- A phase current as a word; an absent current is written 0 (R59). -/
def currentWord (c : Option Int) : Word := signedWord (c.getD 0)

/-- The window results (11.6, offsets 22 to 38). -/
def WindowRecord.words (r : WindowRecord) : List Word :=
  [pack [(bit r.computed, 0), (bit r.shiftClamped, 1), (bit r.sat, 2), (bit r.clamped.u, 4), (bit r.clamped.v, 5),
      (bit r.clamped.w, 6), (r.winA.code, 8), (r.winB.code, 10), (bit r.current.u.isSome, 12),
      (bit r.current.v.isSome, 13), (bit r.current.w.isSome, 14)],
    pack [(phaseCode r.hi, 0), (phaseCode r.mid, 4), (phaseCode r.lo, 8)],
    w16 r.shift.u, w16 r.shift.v, w16 r.shift.w, w16 r.up.u, w16 r.up.v, w16 r.up.w, w16 r.down.u, w16 r.down.v,
    w16 r.down.w, w16 r.t1, w16 r.t2, w16 r.t3, currentWord r.current.u, currentWord r.current.v,
    currentWord r.current.w]

/-- A Hall record as quantities: TIME, then STATE with VALID (11.6). -/
def HallRecord.quantities (h : HallRecord) : List (List Word) :=
  [twoWords h.time, [pack [(h.state.toNat, 0), (bit h.valid, 8)]]]

/-- What a place of the Hall list beyond COUNT shows: 0 (11.6, notes/assumptions/6.md). -/
def blankHall : HallRecord := { time := 0, state := 0, valid := false }

/-- The Hall list with its records, oldest first, in the four places (11.6). -/
def hallQuantities (l : List HallRecord) (dropped : BitVec 8) : List (List Word) :=
  [pack [(l.length, 0), (dropped.toNat, 8)]]
    :: [0, 1, 2, 3].flatMap (fun i => (l.getD i blankHall).quantities)

/-- The results of a drum bank as quantities, from REPEATS to the last Hall record (11.6); offset 39 gives no field. -/
def DrumBank.quantities (b : DrumBank) : List (List Word) :=
  singles (b.repeats :: b.window.words ++ [0] ++ b.shuntA.words ++ b.shuntB.words ++ b.u1.words ++ b.u2.words)
    ++ hallQuantities b.hall b.hallDropped

/-- The result words of a drum bank (11.6, offsets 21 to 68). -/
def DrumBank.words (b : DrumBank) : List Word := wordsOf b.quantities

/-- Offset of BANK_STATUS in a bank (11.6, 11.7). -/
def offStatus : Channel → Nat
  | .d => 16
  | _ => 12

/-- Offset of TAKE_TIME in a bank. -/
def offTakeTime : Channel → Nat
  | .d => 17
  | _ => 13

/-- Offset of RETIRE_TIME in a bank. -/
def offRetireTime : Channel → Nat
  | .d => 19
  | _ => 15

/-- Offset of the first run result of a bank: REPEATS, or PERIODS. -/
def offResults : Channel → Nat
  | .d => 21
  | _ => 17

/-- The offset of a slot in the banks of its origin: of a drum slot's result record (11.6), of a pump slot's request
status (11.7). -/
def slotOffset : Origin → Slot → Option Nat
  | .d, .shuntA => some 40
  | .d, .shuntB => some 44
  | .d, .u1 => some 48
  | .d, .u2 => some 52
  | .p1, .slot0 => some 29
  | .p1, .slot1 => some 39
  | .p2, .slot0 => some 29
  | .p2, .slot1 => some 39
  | _, _ => none

/-- The flags word of a pump bank (11.7, offset 28). -/
def PumpBank.flagsWord (b : PumpBank) : Word :=
  pack [(bit b.dutyRaised, 0), (bit b.dutyClamped, 1), (bit b.advanceClamped, 2), (bit b.everyClamped, 3),
    (bit b.inputClamped, 4)]

/-- A pump slot's request status, its LATE and EVICTED counts and its LAST record, as quantities (11.7). -/
def PumpSlot.quantities (x : PumpSlot) : List (List Word) :=
  singles ([w16 x.status.code, x.lateCount, x.evictedCount] ++ x.last.words)

/-- The results of a pump bank as quantities, from PERIODS to SLOT1's LAST record (11.7). -/
def PumpBank.quantities (b : PumpBank) : List (List Word) :=
  [twoWords b.periods, twoWords b.commutations, [b.misses], [b.early], [b.lateComm], twoWordsNat b.stepEst,
      twoWordsNat b.lastInterval, [b.flagsWord]]
    ++ b.slot0.quantities ++ [twoWords b.slot0.sum, [b.slot0.count]] ++ b.slot1.quantities

/-- The result words of a pump bank (11.7, offsets 17 to 45). -/
def PumpBank.words (b : PumpBank) : List Word := wordsOf b.quantities

end Sys2Proof.Machine
end

