-- ==== Sys2Proof/Machine/Defaults.lean ====
section
/-! DEFINITION. The value each block has right after either reset, block by block, as its own chapter gives it
(R21, R43, R62, R88, R111, R121, R125, R134, R147, R152, R162). -/

namespace Sys2Proof.Machine

/-- Both banks HOST, LIVE_SEQ and RETIRED_SEQ 0 (R21). -/
def resetExchange : Exchange :=
  { role0 := .host, role1 := .host, liveSeq := 0, retiredSeq := 0 }

/-- The same value on the three phases. -/
def Tri.const {α : Type} (x : α) : Tri α := { u := x, v := x, w := x }

/-- A user slot that is OFF. -/
def offUserSlot : UserSlot := { input := none, atTick := 0, lateMax := 0 }

/-- The plan copy of a bank that no take has read: every word 0. DESIGN CHOICE, with blankPumpPlan: no rule gives a copy
before the first take, and nothing reads it then (notes/assumptions/30.md). -/
def blankDrumPlan : DrumPlan :=
  { seq := 0, period := 0, duty := Tri.const 0, shunt := false, u1 := offUserSlot, u2 := offUserSlot }

/-- The plan copy of a pump bank that no take has read. -/
def blankPumpPlan : PumpPlan :=
  { seq := 0, duty := 0, advance := 0, every0 := 0, input1 := 0, valley1 := false, every1 := 0 }

/-- A slot record in its initial state: NOT_REQUESTED, every other field 0 (R13). -/
def blankSlot : SlotRecord :=
  { status := .notRequested, conv := .a, lateness := 0, raw := 0, value := 0, clamped := false }

/-- The window results 'not computed' (R44): COMPUTED clear, WIN_A and WIN_B UNUSED, the currents absent, SAT clear
and every other window field 0. -/
def notComputed : WindowRecord :=
  { computed := false, hi := .u, mid := .u, lo := .u, clamped := Tri.const false, shift := Tri.const 0,
    up := Tri.const 0, down := Tri.const 0, t1 := 0, t2 := 0, t3 := 0, winA := .unused, winB := .unused,
    shiftClamped := false, current := Tri.const none, sat := false }

/-- The initial result state of a drum bank (R13) under a plan. -/
def freshDrumBank (plan : DrumPlan) : DrumBank :=
  { plan := plan, repeats := 0, window := notComputed, shuntA := blankSlot, shuntB := blankSlot,
    u1 := blankSlot, u2 := blankSlot, hall := [], hallDropped := 0 }

/-- The initial results of a pump slot (R13, R87): every count and sum 0, NOT_REQUESTED, LAST reading NONE. -/
def blankPumpSlot : PumpSlot :=
  { status := .notRequested, lateCount := 0, evictedCount := 0, last := blankSlot, sum := 0, count := 0 }

/-- A pump bank before any take. -/
def blankPumpBank : PumpBank :=
  { plan := blankPumpPlan, periods := 0, commutations := 0, misses := 0, early := 0, lateComm := 0, stepEst := 0,
    lastInterval := 0, dutyRaised := false, dutyClamped := false, advanceClamped := false, everyClamped := false,
    inputClamped := false, slot0 := blankPumpSlot, slot1 := blankPumpSlot }

/-- A phase with both switches off for longer than any dead time. -/
def offLeg : Leg :=
  { high := false, low := false, highOffFor := 255, lowOffFor := 255, pos := .float, waiting := none }

/-- A trip record cleared to zero: FIRST_CAUSE NONE, CAUSES empty, ACTION OFF, every other field 0 (R141). -/
def clearTripRecord : TripRecord :=
  { first := none, oc := false, busOv := false, gate := false, action := .off, time := 0, liveSeq := 0 }

/-- A filter started at an accepted level with its count at 0, on a pin at a raw level (R40, R136). -/
def startFilter (raw level : Bool) : PinFilter := { raw := raw, level := level, count := 0 }

/-- The drum channel after either reset (R43, R23): STOPPED, outputs OFF, a period with T = 1250 starting at NOW 0,
every count 0, no waiting command; the Hall filters take the raw levels of their pins (R40); `legs` are the phases,
already off. -/
def resetDrum (r1 r2 r3 : Bool) (legs : Tri Leg) : Drum :=
  { state := .stopped, out := .off, periodStart := 0, half := Config.drumIdleHalf, periodCount := 0, missCount := 0,
    waiting := none, bank0 := freshDrumBank blankDrumPlan, bank1 := freshDrumBank blankDrumPlan,
    upAt := Tri.const none, downAt := Tri.const none, legs := legs,
    h1 := startFilter r1 r1, h2 := startFilter r2 r2, h3 := startFilter r3 r3,
    hallUnrecorded := 0, trip := clearTripRecord, tripPrior := .stopped, tripPeriodCount := 0,
    tripNow := false }

/-- The zero-crossing state that a commutation leaves: run 0, nothing confirmed, no sample taken (R76). The time of the
run's first sample and its flag are 0 and clear: DESIGN CHOICE, unread at run 0 (notes/assumptions/30.md). -/
def clearZc : ZcState :=
  { run := 0, firstTime := 0, firstAfterBlank := false, confirmed := false, sampled := false }

/-- The commutation state cleared: no timer pending, every count 0, S 0 (R83). The last ZC_TIME and the end of the blanking
are 0: DESIGN CHOICE, since R83 does not name them (notes/assumptions/30.md). The last valid interval is cleared with the
validity of the last two, so that a bank taken before the next one begins with LAST_INTERVAL 0 (R85): DESIGN CHOICE, since R83
names the validity alone (notes/assumptions/33.md). -/
def clearComm : CommState :=
  { alignAt := none, rampAt := none, entry := 0, begun := 0, good := 0, zc := clearZc, prevConfirmed := false,
    lastZc := 0, interval := none, prevInterval := none, lastValid := none, est := 0, blankEnd := 0, commAt := none,
    timeoutAt := none, missCount := 0 }

/-- A pump channel after either reset (R88, R63): STOPPED, outputs OFF, a period with Tp = 1000 starting at NOW 0,
step index 0, commutation state cleared, countdowns 0, no waiting command. The duty of the period is 0: DESIGN CHOICE, unread
with the outputs OFF (notes/assumptions/30.md). -/
def resetPump (legs : Tri Leg) : Pump :=
  { state := .stopped, periodStart := 0, half := 1000, peakDue := true, duty := 0, pwmOn := false, onAt := none,
    offAt := none, stepIndex := 0, comm := clearComm, waiting := none, countdown0 := 0, countdown1 := 0,
    bank0 := blankPumpBank, bank1 := blankPumpBank, legs := legs, trip := clearTripRecord, tripPrior := .stopped,
    tripStep := 0, tripEst := 0, tripNow := false }

/-- The pending list empty, the converters IDLE, the pair AWAKE with the idle start at NOW 0 (R111, R125). The kept end of
a wake is 0: DESIGN CHOICE, since R125 gives it no value; nothing reads it while the pair is not WAKING, and each entry into
WAKING writes it (notes/assumptions/30.md). -/
def resetArbiter : Arbiter :=
  { list := [], cva := none, cvb := none, power := .awake, wakeEnd := 0, idleStart := 0, wakeNow := false }

/-- A calibration record after either reset (R121). The INSTANT kept from an eviction is 0: DESIGN CHOICE, since R121 gives
it no value; nothing reads it before an eviction writes it (notes/assumptions/30.md). -/
def resetCal : CalRecord :=
  { offset := 0, due := 0, cls := .none, phase := .waiting, progress := 0, sum := 0, lastCal := 0, count := 0,
    range := false, keptInst := 0 }

/-- The account of LPR after either reset: all zero (R134). -/
def resetProfiler : Profiler :=
  { counters := Vector.replicate 10 0, saturated := 0 }

/-- TRM after either reset (R136, R147), on the raw levels its pins have: the overcurrent and bus inputs filtered low,
the gate-supply inputs filtered low, which is their fault level; counts and timers 0, nothing qualified. -/
def resetTrm (ocD ocP1 ocP2 busOv gateD gateP : Bool) : TripMonitor :=
  { ocD := startFilter ocD false, ocP1 := startFilter ocP1 false, ocP2 := startFilter ocP2 false,
    busOv := startFilter busOv false, gateD := startFilter gateD false, gateP := startFilter gateP false,
    qualD := { timer := 0, qualified := false }, qualP := { timer := 0, qualified := false } }

/-- The default start table: one entry, INTERVAL 200,000, DUTY 150, STEPS 12 (R152). -/
def defaultTable : List RampEntry := [{ interval := 200000, duty := 150, steps := 12 }]

/-- The default fields of either pump (R150). -/
def defaultPumpConfig : PumpConfig :=
  { ovAction := .off, tp := 1000, deadTime := 40, direction := .forward, table := defaultTable }

/-- The shadow loaded with the defaults (R150, R152). -/
def defaultShadow : Shadow :=
  { dtD := 40, settle := 60, lead := 24, missLimit := 3, safeAction := .off, ovActionD := .short, qualTime := 4000,
    hallFilter := 40, p1 := defaultPumpConfig, p2 := defaultPumpConfig, alignDuty := 100, alignTime := 200,
    lockCount := 6, zcFilter := 2, blankMin := 400, blankFrac := 8, zcMinDuty := 120, missLimitP := 6,
    pumpLateMax := 100, idleLimit := 0, calInterval := 100, profileEnable := false, originMask := 7,
    combineMask := 0 }

/-- GCU after either reset: the default shadow, no APPLY_CONFIG in flight (R162). -/
def resetGlobal : GlobalUnit := { shadow := defaultShadow, apply := none }

/-- The access fault record, empty (R166). -/
def emptyAccess : AccessRecord := { addr := 0, kind := .none, role := none, count := 0 }

/-- The parity record, empty (R167). -/
def emptyParity : ParityRecord := { addr := 0, source := .none, count := 0 }

/-- The port with CSn high and no frame. -/
def idlePort : Port := { csLow := false, frame := none, readOut := 0 }

end Sys2Proof.Machine
end

