-- ==== Sys2Proof/Machine/State.lean ====
section
/-! DEFINITION. The machine state: everything the manual gives the twelve blocks, the pins that reach them, and the
queue of waiting commands; why a step can stop; and the state right after a power-on reset. -/

namespace Sys2Proof.Machine

/-- Why a step faults: never. The manual gives every operation and event of its table an effect in every state (a
faulted host write is recorded and the part goes on, R165), so there is no fault to raise and no constructor. -/
inductive Fault where
deriving DecidableEq, Repr

/-- Why a step is refused. -/
inductive Refusal where
  /-- Raised by an arm of exec whose command has no meaning yet; safe (the model stops where the part goes on). No arm
  is refused in this model. -/
  | notModelled (mnemonic : String)
deriving DecidableEq, Repr

/-- The machine state. -/
structure State where
  /-- The commands that wait, first in, first out. -/
  pending : List Instr
  /-- How many values from outside the part's own timers have drawn in idle steps (the model's own counter). -/
  draws : Nat
  /-- Reset, lock, sweep or running (R171). -/
  phase : RunPhase
  /-- NOW, the free-running tick count (00_scope.md 4.1). -/
  now : Tick
  /-- The Shared Work Memory (R163, R167). -/
  mem : Memory
  /-- The Serial Memory Port (R163). -/
  port : Port
  /-- The interrupt pending set (R170). -/
  intPend : BitVec 12
  /-- The interrupt enable set (R170). -/
  intEn : BitVec 12
  /-- STATUS.HPAR (R168). -/
  hpar : Bool
  /-- The access fault record (R166). -/
  access : AccessRecord
  /-- The parity record (R167). -/
  parity : ParityRecord
  /-- PXL for the drum. -/
  exchD : Exchange
  /-- PXL for pump 1. -/
  exchP1 : Exchange
  /-- PXL for pump 2. -/
  exchP2 : Exchange
  /-- DTC with SWC. -/
  drum : Drum
  /-- PTC1. -/
  pump1 : Pump
  /-- PTC2. -/
  pump2 : Pump
  /-- ARB, CVA, CVB and the power control. -/
  arb : Arbiter
  /-- CAL for CVA. -/
  calA : CalRecord
  /-- CAL for CVB. -/
  calB : CalRecord
  /-- LPR. -/
  lpr : Profiler
  /-- TRM. -/
  trm : TripMonitor
  /-- GCU. -/
  gcu : GlobalUnit
deriving DecidableEq, Repr

/-- The machine right after a power-on reset, that is, right after the event that ends the memory sweep (R171): READY
is 1, NOW is 0, every word of the Shared Work Memory is 0 with good parity, and every block is at its power-on state.
The manual gives no level for the pins; they are low here (a value the model names, notes/assumptions/3.md). -/
def State.reset : State :=
  { pending := [], draws := 0, phase := .running, now := 0, mem := [], port := idlePort, intPend := 0, intEn := 0,
    hpar := false, access := emptyAccess, parity := emptyParity,
    exchD := resetExchange, exchP1 := resetExchange, exchP2 := resetExchange,
    drum := resetDrum false false false (Tri.const offLeg),
    pump1 := resetPump (Tri.const offLeg), pump2 := resetPump (Tri.const offLeg),
    arb := resetArbiter, calA := resetCal, calB := resetCal, lpr := resetProfiler,
    trm := resetTrm false false false false false false, gcu := resetGlobal }

end Sys2Proof.Machine
end

