-- ==== Sys2Proof/Machine/Flags.lean ====
section
/-! DEFINITION. The interrupt causes and INTn (R170), the STATUS register, and the read of a port register (R169). -/

namespace Sys2Proof.Machine

/-- The twelve interrupt causes (R170). -/
inductive Cause where
  | retD | retP1 | retP2 | hold | lock | stall | trip | cmd | access | parity | late | calr
deriving DecidableEq, Repr

/-- The bit of a cause in the pending and enable sets (R170). -/
def Cause.bitNo : Cause → Nat
  | .retD => 0
  | .retP1 => 1
  | .retP2 => 2
  | .hold => 3
  | .lock => 4
  | .stall => 5
  | .trip => 6
  | .cmd => 7
  | .access => 8
  | .parity => 9
  | .late => 10
  | .calr => 11

/-- The set that holds one cause. -/
def Cause.mask (c : Cause) : BitVec 12 := BitVec.ofNat 12 (2 ^ c.bitNo)

/-- A cause raised: its pending flag is set, whether or not it is enabled (R170). -/
def raise (c : Cause) (s : State) : State := { s with intPend := s.intPend ||| c.mask }

/-- Whether a cause is pending. -/
def isPending (c : Cause) (s : State) : Bool := s.intPend &&& c.mask != 0

/-- The return cause of a channel (R20). -/
def retCause : Channel → Cause
  | .d => .retD
  | .p1 => .retP1
  | .p2 => .retP2

/-- READY: 0 from RESETn until the power-on sweep ends, 1 after it (R169). -/
def ready (s : State) : Bool := decide (s.phase = .running)

/-- INTn is driven low while a flag is set in both sets, and released otherwise; it is released while RESETn is low and
during the sweep (R170). True is low. -/
def intnLow (s : State) : Bool := ready s && (s.intPend &&& s.intEn != 0)

/-- STATUS: READY bit 0, HPAR bit 1, APPLYING bit 2 (R169, 11.9). -/
def statusWord (s : State) : Word :=
  pack [(bit (ready s), 0), (bit s.hpar, 1), (bit s.gcu.apply.isSome, 2)]

/-- The value that a REG_READ of a register address returns (R169). While the part is locking or sweeping ID reads as
itself, STATUS with READY 0, and every other register 0 (R171). Reading a register changes no state (R164). -/
def regRead (s : State) (addr : Word) : Word :=
  if addr = 0 then Config.idWord
  else if addr = 1 then statusWord s
  else if ready s then
    if addr = 2 then s.intPend.setWidth 16
    else if addr = 3 then s.intEn.setWidth 16
    else 0
  else 0

end Sys2Proof.Machine
end

