-- ==== Sys2Proof/Machine/Time.lean ====
section
/-! DEFINITION. Arithmetic that many blocks share: the modulo comparison of absolute times, and saturating counters
(00_scope.md 4.1, 4.2). -/

namespace Sys2Proof.Machine

/-- Whether NOW has reached a time: NOW - t, taken modulo 2^32, lies in 0 to 2^31 - 1 (R98). -/
def reached (now t : Tick) : Bool := decide ((now - t).toNat < 2 ^ 31)

/-- Whether NOW has reached a time that may be absent. -/
def reachedOpt (now : Tick) : Option Tick → Bool
  | none => false
  | some t => reached now t

/-- Whether one absolute time is earlier than another: the second minus the first, modulo 2^32, lies in
1 to 2^31 - 1 (R94). -/
def earlier (a b : Tick) : Bool := decide (0 < (b - a).toNat) && decide ((b - a).toNat < 2 ^ 31)

/-- A number of ticks as a 32-bit quantity. -/
def ticks (n : Nat) : Tick := BitVec.ofNat 32 n

/-- A saturating counter of n bits raised by one (00_scope.md 4.2). -/
def satInc {n : Nat} (x : BitVec n) : BitVec n := if x = BitVec.allOnes n then x else x + 1

/-- A saturating sum of n bits. -/
def satAdd {n : Nat} (x : BitVec n) (k : Nat) : BitVec n :=
  if x.toNat + k < 2 ^ n then BitVec.ofNat n (x.toNat + k) else BitVec.allOnes n

/-- A value clamped to a range (00_scope.md 4.2). -/
def clampInt (x lo hi : Int) : Int := if x < lo then lo else if hi < x then hi else x

/-- A natural value clamped to a range. -/
def clampNat (x lo hi : Nat) : Nat := min (max x lo) hi

/-- One value of three, by phase. -/
def Tri.get {α : Type} (t : Tri α) : Phase → α
  | .u => t.u
  | .v => t.v
  | .w => t.w

/-- Three values with one of them replaced. -/
def Tri.set {α : Type} (t : Tri α) (ph : Phase) (x : α) : Tri α :=
  match ph with
  | .u => { t with u := x }
  | .v => { t with v := x }
  | .w => { t with w := x }

/-- A function applied to each of three values. -/
def Tri.map {α β : Type} (f : α → β) (t : Tri α) : Tri β := { u := f t.u, v := f t.v, w := f t.w }

end Sys2Proof.Machine
end

