-- ==== Sys2Proof/Machine/Operands.lean ====
section
/-! DEFINITION. The decoding of host-written words at the events that use them (R174): commands, the Switch request,
the plans read at a take, and the words of an APPLY_CONFIG with their range and consistency checks (R150, R151,
R157). -/

namespace Sys2Proof.Machine

/-! ### Command words -/

/-- The tag of a COMMAND or GCMD word: bits 7 to 0. -/
def wordTag (w : Word) : Byte := w.extractLsb' 0 8

/-- The code of a COMMAND or GCMD word: bits 15 to 8. -/
def wordCode (w : Word) : Byte := w.extractLsb' 8 8

/-- A COMMAND or GCMD word from its code and tag. -/
def commandWord (code tag : Byte) : Word := code ++ tag

/-- The channel command that a code byte names, if any (11.8). -/
def channelCodeOf (c : Byte) : Option ChannelCode :=
  if c = 1 then some .start
  else if c = 2 then some .stop
  else if c = 3 then some .brake
  else if c = 4 then some .clearTrip
  else if c = 5 then some .release
  else none

/-- The global commands (11.8). -/
inductive GlobalCode where
  | applyConfig | clearProfile | clearFaults | recalibrate
deriving DecidableEq, Repr

/-- The number of a global command code (11.8). -/
def GlobalCode.code : GlobalCode → Byte
  | .applyConfig => 1
  | .clearProfile => 2
  | .clearFaults => 3
  | .recalibrate => 4

/-- The global command that a code byte names, if any (11.8). -/
def globalCodeOf (c : Byte) : Option GlobalCode :=
  if c = 1 then some .applyConfig
  else if c = 2 then some .clearProfile
  else if c = 3 then some .clearFaults
  else if c = 4 then some .recalibrate
  else none

/-- A Switch request (R4). -/
inductive SwitchRequest where
  | take (b : Bank) | cancel | bad
deriving DecidableEq, Repr

/-- The request that a SWITCH word makes (R174). -/
def switchRequestOf (w : Word) : SwitchRequest :=
  if w = 1 then .take .b0
  else if w = 2 then .take .b1
  else if w = 3 then .cancel
  else .bad

/-- The SWITCH word of TAKE_0 or TAKE_1. -/
def takeWord : Bank → Word
  | .b0 => 1
  | .b1 => 2

/-! ### Plans -/

/-- A drum user slot from its three plan words: SEL 0 or above 8 is OFF, 1 to 8 select inputs 0 to 7, LATEMAX is
applied as min(value, 255) (R174). -/
def userSlotOf (sel atTick late : Word) : UserSlot :=
  { input := if h : 1 ≤ sel.toNat ∧ sel.toNat ≤ 8 then some ⟨sel.toNat - 1, by omega⟩ else none,
    atTick := atTick,
    lateMax := BitVec.ofNat 8 (min late.toNat 255) }

/-- The drum plan from the words of a bank, in address order (11.6). -/
def drumPlanOf (ws : List Word) : DrumPlan :=
  let w := fun i => ws.getD i 0
  { seq := w 0, period := w 1, duty := { u := w 2, v := w 3, w := w 4 }, shunt := (w 5).getLsbD 0,
    u1 := userSlotOf (w 6) (w 7) (w 8), u2 := userSlotOf (w 9) (w 10) (w 11) }

/-- The pump plan from the words of a bank (11.7); SLOT1_POSITION 0 is PEAK and any other value is VALLEY (R174). -/
def pumpPlanOf (ws : List Word) : PumpPlan :=
  let w := fun i => ws.getD i 0
  { seq := w 0, duty := w 1, advance := w 2, every0 := w 3, input1 := w 4, valley1 := w 5 != 0, every1 := w 6 }

/-- The applied advance A = min(ADVANCE, 24) (R79). -/
def PumpPlan.appliedAdvance (p : PumpPlan) : Nat := min p.advance.toNat 24

/-- The applied SLOT0_EVERY and SLOT1_EVERY, at most 16 (R84). -/
def appliedEvery (w : Word) : Nat := min w.toNat 16

/-- The applied SLOT1_INPUT, at most 7 (R84). -/
def PumpPlan.appliedInput (p : PumpPlan) : Fin 8 :=
  ⟨min p.input1.toNat 7, Nat.lt_succ_of_le (Nat.min_le_right _ _)⟩

/-! ### The configuration (R150, R151, R157) -/

/-- The range of each configuration field in the order of its number, 1 to 32 (R150); a field with named values takes
their codes, and a mask field the values whose flags it defines. -/
def fieldRanges : List (Nat × Nat) :=
  [(8, 255), (16, 511), (16, 255), (1, 15), (0, 1), (0, 1), (0, 1), (0, 1), (1, 65535), (0, 255), (500, 4000),
    (500, 4000), (8, 255), (8, 255), (0, 1), (0, 1)]
  ++ [(0, 4000), (1, 2000), (1, 8), (1, 8), (3, 12), (1, 3), (0, 65535), (0, 32), (0, 4000), (1, 15), (0, 255),
    (0, 65535), (10, 1000), (0, 1), (0, 15), (0, 1023)]

/-- Whether the word of the field at an index (its number less one) lies in its range. -/
def fieldInRange (i : Nat) (w : Word) : Bool :=
  let r := fieldRanges.getD i (0, 65535)
  decide (r.1 ≤ w.toNat) && decide (w.toNat ≤ r.2)

/-- A word read so far, by its place in the order of reading. -/
def readWord (ws : List Word) (i : Nat) : Nat := (ws.getD i 0).toNat

/-- TableLength of a pump as just read: fields 19 and 20 (R151). -/
def readTableLength (ws : List Word) : PumpId → Nat
  | .p1 => readWord ws 18
  | .p2 => readWord ws 19

/-- How many words the full read takes: 32, then four for each entry of both tables (R156). It is meaningful once
the 32 field words have been read. -/
def readLength (ws : List Word) : Nat := 32 + 4 * (readTableLength ws .p1 + readTableLength ws .p2)

/-- The address of the word at a place in the order of reading (R156). -/
def readAddr (ws : List Word) (i : Nat) : Nat :=
  if i < 32 then configAddr + i
  else if i - 32 < 4 * readTableLength ws .p1 then tableAddr .p1 + (i - 32)
  else tableAddr .p2 + (i - 32 - 4 * readTableLength ws .p1)

/-- The first consistency condition that fails, as the detail it gives, 0 when all hold (R157): Settle at least
DT_D + 8, then AlignDuty and ZcMinDuty no greater than either Tp. -/
def consistencyDetail (ws : List Word) : Nat :=
  if readWord ws 1 < readWord ws 0 + 8 then 2
  else if readWord ws 10 < readWord ws 16 ∨ readWord ws 11 < readWord ws 16 then 17
  else if readWord ws 10 < readWord ws 24 ∨ readWord ws 11 < readWord ws 24 then 25
  else 0

/-- The field number that makes a start-table word INVALID, 0 when it passes (R151, R157): INTERVAL is judged with its
second word, DUTY never, STEPS with its word. `k` is the place of the word in its table, `at0` the place of the table's
first word in the order of reading, `first` the number of INTERVAL in entry 0. -/
def tableDetail (ws : List Word) (at0 first k : Nat) : Nat :=
  let j := k / 4
  if k % 4 = 1 then
    let interval := readWord ws (at0 + 4 * j) + 65536 * readWord ws (at0 + 4 * j + 1)
    if 2000 ≤ interval ∧ interval ≤ Config.maxInterval then 0 else first + 3 * j
  else if k % 4 = 3 then
    let steps := readWord ws (at0 + k)
    if 1 ≤ steps ∧ steps ≤ 255 then 0 else first + 2 + 3 * j
  else 0

/-- The detail of INVALID for the last word of the words read, 0 when its checks pass (R157). -/
def invalidDetail (ws : List Word) : Nat :=
  let i := ws.length - 1
  if i < 32 then
    if fieldInRange i (ws.getD i 0) then (if i = 31 then consistencyDetail ws else 0) else i + 1
  else if i - 32 < 4 * readTableLength ws .p1 then tableDetail ws 32 64 (i - 32)
  else tableDetail ws (32 + 4 * readTableLength ws .p1) 96 (i - 32 - 4 * readTableLength ws .p1)

/-- OFF or SHORT from its code. -/
def safeOutOf (n : Nat) : SafeOut := if n = 1 then .short else .off

/-- FORWARD or REVERSE from its code. -/
def directionOf (n : Nat) : Direction := if n = 1 then .reverse else .forward

/-- The entries of a start table in the order they were read (R151). -/
def tableOf (ws : List Word) (at0 len : Nat) : List RampEntry :=
  (List.range len).map (fun j =>
    { interval := readWord ws (at0 + 4 * j) + 65536 * readWord ws (at0 + 4 * j + 1),
      duty := readWord ws (at0 + 4 * j + 2),
      steps := readWord ws (at0 + 4 * j + 3) })

/-- The shadow from the words of a full read (R150, R151, R158). -/
def shadowOf (ws : List Word) : Shadow :=
  let f := readWord ws
  { dtD := f 0, settle := f 1, lead := f 2, missLimit := f 3, safeAction := safeOutOf (f 4),
    ovActionD := safeOutOf (f 5), qualTime := f 8, hallFilter := f 9,
    p1 := { ovAction := safeOutOf (f 6), tp := f 10, deadTime := f 12, direction := directionOf (f 14),
            table := tableOf ws 32 (f 18) },
    p2 := { ovAction := safeOutOf (f 7), tp := f 11, deadTime := f 13, direction := directionOf (f 15),
            table := tableOf ws (32 + 4 * f 18) (f 19) },
    alignDuty := f 16, alignTime := f 17, lockCount := f 20, zcFilter := f 21, blankMin := f 22, blankFrac := f 23,
    zcMinDuty := f 24, missLimitP := f 25, pumpLateMax := f 26, idleLimit := f 27, calInterval := f 28,
    profileEnable := f 29 = 1, originMask := BitVec.ofNat 4 (f 30), combineMask := BitVec.ofNat 10 (f 31) }

end Sys2Proof.Machine
end

