-- ==== Sys2Proof/Machine/Ops.lean ====
section
/-! DEFINITION. The named operations over the state that every block shares: the writes of the part into the Shared
Work Memory, the access to each channel's and converter's record with the words that show it, the access fault and
parity records, and the outcome records of commands. -/

namespace Sys2Proof.Machine

/-! ### Memory -/

/-- The part writes one word (R167). -/
def putWord (a : Nat) (v : Word) (s : State) : State := { s with mem := s.mem.write a v }

/-- The part writes words from an address on, in one event (R173). -/
def putWords (a : Nat) (ws : List Word) (s : State) : State := { s with mem := s.mem.writeList a ws }

/-- The part writes the quantities of a record that changed, in the event that changes them, each whole (R173). -/
def showWords (a : Nat) (old new : List (List Word)) (s : State) : State :=
  { s with mem := s.mem.writeChanged a old new }

/-- The data of a word of the memory. -/
def dataAt (s : State) (a : Nat) : Word := (s.mem.read a).data

/-! ### Channels, banks, converters -/

/-- The channel that a pump is. -/
def pumpChannel : PumpId → Channel
  | .p1 => .p1
  | .p2 => .p2

/-- The origin of a channel's requests (R92). -/
def channelOrigin : Channel → Origin
  | .d => .d
  | .p1 => .p1
  | .p2 => .p2

/-- The other bank of the channel. -/
def otherBank : Bank → Bank
  | .b0 => .b1
  | .b1 => .b0

/-- The origin of a converter's calibration requests (R92). -/
def convOrigin : Conv → Origin
  | .a => .calA
  | .b => .calB

/-- The role of a bank. -/
def Exchange.role (e : Exchange) : Bank → Role
  | .b0 => e.role0
  | .b1 => e.role1

/-- The roles with one of them changed. -/
def Exchange.setRole (e : Exchange) (b : Bank) (r : Role) : Exchange :=
  match b with
  | .b0 => { e with role0 := r }
  | .b1 => { e with role1 := r }

/-- The first bank in a role, if there is one; the law of R3 leaves at most one for PENDING, LIVE and RETIRING. -/
def Exchange.bankIn (e : Exchange) (r : Role) : Option Bank :=
  if e.role0 = r then some .b0 else if e.role1 = r then some .b1 else none

/-- PXL's record of a channel. -/
def State.exch (s : State) : Channel → Exchange
  | .d => s.exchD
  | .p1 => s.exchP1
  | .p2 => s.exchP2

/-- PXL's record of a channel replaced. -/
def State.setExch (s : State) (ch : Channel) (e : Exchange) : State :=
  match ch with
  | .d => { s with exchD := e }
  | .p1 => { s with exchP1 := e }
  | .p2 => { s with exchP2 := e }

/-- PXL changes a channel's record and writes the words of BANK_ROLES, LIVE_SEQ and RETIRED_SEQ that change (R2,
R19). -/
def modExch (ch : Channel) (f : Exchange → Exchange) (s : State) : State :=
  showWords (controlAddr ch offRoles) (singles (s.exch ch).words) (singles (f (s.exch ch)).words)
    (s.setExch ch (f (s.exch ch)))

/-- PXL changes a channel's record and writes LIVE_SEQ, whatever value it had: at an accepted take and at RELEASE (R13,
R18, R19). -/
def modLiveSeq (ch : Channel) (f : Exchange → Exchange) (s : State) : State :=
  putWord (controlAddr ch offLiveSeq) (f (s.exch ch)).liveSeq (modExch ch f s)

/-- PXL changes a channel's record and writes RETIRED_SEQ, whatever value it had: at a retirement (R16, R19). -/
def modRetiredSeq (ch : Channel) (f : Exchange → Exchange) (s : State) : State :=
  putWord (controlAddr ch offRetiredSeq) (f (s.exch ch)).retiredSeq (modExch ch f s)

/-- The LIVE bank of a channel. -/
def liveBank (ch : Channel) (s : State) : Option Bank := (s.exch ch).bankIn .live

/-- The PENDING bank of a channel. -/
def pendingBank (ch : Channel) (s : State) : Option Bank := (s.exch ch).bankIn .pending

/-- A pump's record. -/
def State.pump (s : State) : PumpId → Pump
  | .p1 => s.pump1
  | .p2 => s.pump2

/-- A pump's record replaced. -/
def State.setPump (s : State) (p : PumpId) (x : Pump) : State :=
  match p with
  | .p1 => { s with pump1 := x }
  | .p2 => { s with pump2 := x }

/-- DTC changes its record and writes DRUM_STATE, MISS_COUNT, HALL_STATE, HALL_UNRECORDED and PERIOD_COUNT where they
change (R25). -/
def modDrum (f : Drum → Drum) (s : State) : State :=
  showWords (controlAddr .d offState) s.drum.quantities (f s.drum).quantities { s with drum := f s.drum }

/-- A pump changes its record and writes PUMP_STATE, MISS_COUNT and STEP_INDEX where they change (R69). -/
def modPump (p : PumpId) (f : Pump → Pump) (s : State) : State :=
  showWords (controlAddr (pumpChannel p) offState) (singles (s.pump p).words) (singles (f (s.pump p)).words)
    (s.setPump p (f (s.pump p)))

/-- MISS_COUNT of a pump written as its record stands, whatever value it had (R81, R83). Which clearings of the commutation
state write it so is the model's choice (DESIGN CHOICE, leavePump, notes/assumptions/35.md). -/
def writeMissCount (p : PumpId) (s : State) : State :=
  putWord (controlAddr (pumpChannel p) offMissCount) (w16 (s.pump p).comm.missCount) s

/-- Whether a pump state drives the six-step pattern: ALIGN, RAMP or RUN (R66). -/
def PumpState.drives : PumpState → Bool
  | .align => true
  | .ramp => true
  | .run => true
  | _ => false

/-- A pump goes to a state outside ALIGN, RAMP and RUN by a change that clears its commutation state; where it leaves
one of the three, MISS_COUNT is written 0 whatever the word held (R83). DESIGN CHOICE: R69 and R139 clear the commutation state
also at a STOP in BRAKING or STALLED and at a trip from STOPPED, BRAKING or STALLED, while R83 names as the clearings, of
which it says that MISS_COUNT is written 0, those of a pump that leaves ALIGN, RAMP or RUN, the entry into ALIGN and a
reset. From a state that does not drive, the word is written here only where the count changes, as every word that shows a
record; the count is 0 there already, so only bad parity of the word shows the difference (notes/assumptions/35.md). -/
def leavePump (p : PumpId) (f : Pump → Pump) (s : State) : State :=
  if (s.pump p).state.drives then writeMissCount p (modPump p f s) else modPump p f s

/-- What the drum keeps of a bank. -/
def Drum.bank (d : Drum) : Bank → DrumBank
  | .b0 => d.bank0
  | .b1 => d.bank1

/-- What the drum keeps of a bank, replaced. -/
def Drum.setBank (d : Drum) (b : Bank) (x : DrumBank) : Drum :=
  match b with
  | .b0 => { d with bank0 := x }
  | .b1 => { d with bank1 := x }

/-- What a pump keeps of a bank. -/
def Pump.bank (p : Pump) : Bank → PumpBank
  | .b0 => p.bank0
  | .b1 => p.bank1

/-- What a pump keeps of a bank, replaced. -/
def Pump.setBank (p : Pump) (b : Bank) (x : PumpBank) : Pump :=
  match b with
  | .b0 => { p with bank0 := x }
  | .b1 => { p with bank1 := x }

/-- The results of a drum bank change, and the words of the bank that show what changed are written. -/
def modDrumBank (b : Bank) (f : DrumBank → DrumBank) (s : State) : State :=
  showWords (bankBase .d b + offResults .d) (s.drum.bank b).quantities (f (s.drum.bank b)).quantities
    { s with drum := s.drum.setBank b (f (s.drum.bank b)) }

/-- The results of a pump bank change, and the words of the bank that show what changed are written (R85, R87). -/
def modPumpBank (p : PumpId) (b : Bank) (f : PumpBank → PumpBank) (s : State) : State :=
  showWords (bankBase (pumpChannel p) b + offResults (pumpChannel p)) ((s.pump p).bank b).quantities
    (f ((s.pump p).bank b)).quantities
    (s.setPump p ((s.pump p).setBank b (f ((s.pump p).bank b))))

/-- The result words that show what the part keeps of a bank. -/
def bankResults (ch : Channel) (b : Bank) (s : State) : List Word :=
  match ch with
  | .d => (s.drum.bank b).words
  | .p1 => (s.pump1.bank b).words
  | .p2 => (s.pump2.bank b).words

/-- n result words of a bank, from an offset in the bank on, written as the record stands, whatever values they had: the
results that a rule has the part write (R14, R44, R58, R85, R87, R106). -/
def rewriteResults (ch : Channel) (b : Bank) (off n : Nat) (s : State) : State :=
  putWords (bankBase ch b + (offResults ch + (off - offResults ch)))
    (((bankResults ch b s).drop (off - offResults ch)).take n) s

/-- Result words of a pump's LIVE bank written as the record stands, if it has one. -/
def rewriteLive (p : PumpId) (off n : Nat) (s : State) : State :=
  match liveBank (pumpChannel p) s with
  | some b => rewriteResults (pumpChannel p) b off n s
  | none => s

/-- The results of a pump's LIVE bank change, if it has one. -/
def modLivePumpBank (p : PumpId) (f : PumpBank → PumpBank) (s : State) : State :=
  match liveBank (pumpChannel p) s with
  | some b => modPumpBank p b f s
  | none => s

/-- CAL's record of a converter. -/
def State.cal (s : State) : Conv → CalRecord
  | .a => s.calA
  | .b => s.calB

/-- CAL's record of a converter replaced. -/
def State.setCal (s : State) (cv : Conv) (r : CalRecord) : State :=
  match cv with
  | .a => { s with calA := r }
  | .b => { s with calB := r }

/-- CAL changes a record and writes the calibration words that change (R113). -/
def modCal (cv : Conv) (f : CalRecord → CalRecord) (s : State) : State :=
  showWords (calAddr cv) (s.cal cv).quantities (f (s.cal cv)).quantities (s.setCal cv (f (s.cal cv)))

/-- DUE of a calibration record written, whatever value it had (R120). -/
def writeDue (cv : Conv) (s : State) : State := putWords (calAddr cv + 2) (twoWords (s.cal cv).due) s

/-- The shadow's fields of a pump. -/
def Shadow.pump (c : Shadow) : PumpId → PumpConfig
  | .p1 => c.p1
  | .p2 => c.p2

/-- The configuration shadow, which every rule that names a configuration field means (R149). -/
def cfg (s : State) : Shadow := s.gcu.shadow

/-! ### Gate-supply and trip inputs, as the channels see them -/

/-- Whether the channel's gate-supply input is qualified (R137). -/
def gateQualified (ch : Channel) (s : State) : Bool :=
  match ch with
  | .d => s.trm.qualD.qualified
  | _ => s.trm.qualP.qualified

/-- Whether the channel's gate-supply input is asserted: its filtered level is low (R135). -/
def gateAsserted (ch : Channel) (s : State) : Bool :=
  match ch with
  | .d => !s.trm.gateD.level
  | _ => !s.trm.gateP.level

/-- Whether the channel's overcurrent input is asserted (R135). -/
def ocAsserted (ch : Channel) (s : State) : Bool :=
  match ch with
  | .d => s.trm.ocD.level
  | .p1 => s.trm.ocP1.level
  | .p2 => s.trm.ocP2.level

/-- Whether CLEAR_TRIP finds the channel's inputs active: OC or BUS_OV asserted, or the gate supply not qualified
(R31, R71, R146). -/
def inputsActive (ch : Channel) (s : State) : Bool :=
  ocAsserted ch s || s.trm.busOv.level || !gateQualified ch s

/-! ### Access fault and parity records -/

/-- The access fault record after one more faulted write (R166). -/
def AccessRecord.record (r : AccessRecord) (addr : Word) (kind : FaultKind) (role : Option Role) : AccessRecord :=
  if r.count = 0 then { addr := addr, kind := kind, role := role, count := 1 }
  else { r with count := satInc r.count }

/-- A faulted host write: the record takes it and ACCESS is raised (R166). -/
def recordFault (addr : Word) (kind : FaultKind) (role : Option Role) (s : State) : State :=
  raise .access
    (showWords accessAddr (singles s.access.words) (singles (s.access.record addr kind role).words)
      { s with access := s.access.record addr kind role })

/-- The parity record after one more failure (R167). -/
def ParityRecord.record (r : ParityRecord) (addr : Word) (src : ParitySource) : ParityRecord :=
  if r.count = 0 then { addr := addr, source := src, count := 1 }
  else { r with count := satInc r.count }

/-- A parity failure reported by a plan read or an APPLY_CONFIG read: the record takes it and PARITY is raised
(R167). -/
def recordParity (src : ParitySource) (addr : Nat) (s : State) : State :=
  raise .parity
    (showWords parityAddr (singles s.parity.words) (singles (s.parity.record (w16 addr) src).words)
      { s with parity := s.parity.record (w16 addr) src })

/-! ### Outcome records of commands -/

/-- The two words of an outcome record: tag and outcome, then the code (11.3, 11.5). -/
def outcomeWords (tag : Byte) (o : Outcome) (code : Byte) : List Word :=
  [pack [(tag.toNat, 0), (o.code, 8)], code.setWidth 16]

/-- CMD_DONE written whole, and CMD raised (R30). -/
def commandDone (ch : Channel) (tag code : Byte) (o : Outcome) (s : State) : State :=
  raise .cmd (putWords (controlAddr ch offCmdDone) (outcomeWords tag o code) s)

/-- CMD_REFUSED written whole, and CMD raised (R30). -/
def commandRefused (ch : Channel) (tag code : Byte) (o : Outcome) (s : State) : State :=
  raise .cmd (putWords (controlAddr ch offCmdRefused) (outcomeWords tag o code) s)

/-- GCMD_DONE written whole, with its DETAIL, and CMD raised (R153, R154). -/
def globalDone (tag : Byte) (code : Byte) (o : Outcome) (detail : Nat) (s : State) : State :=
  raise .cmd (putWords gcmdDoneAddr (outcomeWords tag o code ++ [w16 detail]) s)

/-- GCMD_REFUSED written whole, and CMD raised (R153, R154). -/
def globalRefused (tag : Byte) (code : Byte) (o : Outcome) (s : State) : State :=
  raise .cmd (putWords gcmdRefusedAddr (outcomeWords tag o code) s)

/-! ### Power of the converter pair -/

/-- A new power state of the pair, with the power word written in the event that changes it (R122). -/
def setPower (p : Power) (s : State) : State :=
  showWords powerAddr [[w16 s.arb.power.code]] [[w16 p.code]] { s with arb := { s.arb with power := p } }

/-- A wake cause (R123): while the pair is SLEEP it begins WAKING, which lasts 400 ticks; in AWAKE it changes no power state,
and the pair stays AWAKE on this tick (notes/assumptions/32.md); in WAKING it changes nothing. -/
def wakeCause (s : State) : State :=
  if s.arb.power = .sleep then
    setPower .waking { s with arb := { s.arb with wakeEnd := s.now + ticks Config.wakeTicks } }
  else if s.arb.power = .awake then { s with arb := { s.arb with wakeNow := true } }
  else s

/-- Whether a SLEEP_GRANT word is set as the power control reads it: nonzero, and clear where its parity fails (R122,
R167, R174). -/
def grantSet (ch : Channel) (s : State) : Bool :=
  let w := s.mem.read (controlAddr ch offGrant)
  w.good && w.data != 0

/-- Whether all three SLEEP_GRANT words are set (R122). -/
def allGranted (s : State) : Bool := grantSet .d s && grantSet .p1 s && grantSet .p2 s

end Sys2Proof.Machine
end

