-- ==== Sys2Proof/Machine/Profiler.lean ====
section
/-! DEFINITION. The Lateness Profiler: the filter and the count of one report, saturation, the LATE cause, and the
clearing of the account (07_lateness_profiler.md). -/

namespace Sys2Proof.Machine

/-- The OriginMask flag of an origin; CAL_A and CAL_B are both given as CAL (R110, R127). -/
def originFlag : Origin → Nat
  | .d => 0
  | .p1 => 1
  | .p2 => 2
  | .calA => 3
  | .calB => 3

/-- The bin of a start: L div 8 below 56, and 7 from 56 on (R128). -/
def lateBin (late : Tick) : Fin 10 := if h : late.toNat < 56 then ⟨late.toNat / 8, by omega⟩ else 7

/-- The counter of a drop report (R126). -/
def counterDropped : Fin 10 := 8

/-- The counter of an eviction report (R126). -/
def counterEvicted : Fin 10 := 9

/-- The account with one counter raised; the counter's flag is set in the event in which it reaches 4,294,967,295, and
a counter at that value keeps it (R130). -/
def Profiler.count (l : Profiler) (k : Fin 10) : Profiler :=
  let c := l.counters.get k
  if c = BitVec.allOnes 32 then l
  else
    { counters := l.counters.set k.val (c + 1) k.isLt,
      saturated := if c + 1 = BitVec.allOnes 32 then l.saturated ||| BitVec.ofNat 10 (2 ^ k.val) else l.saturated }

/-- Whether a report of an origin is counted (R127). -/
def reportCounted (o : Origin) (s : State) : Bool :=
  (cfg s).profileEnable && (cfg s).originMask.getLsbD (originFlag o)

/-- A report from ARB against counter k: filtered, counted, mirrored into the profiler block where a word changes, and
raising LATE when the counter's CombineMask flag is set (R127 to R132). -/
def report (o : Origin) (k : Fin 10) (s : State) : State :=
  if reportCounted o s then
    let s' := showWords profilerAddr s.lpr.quantities (s.lpr.count k).quantities { s with lpr := s.lpr.count k }
    if (cfg s).combineMask.getLsbD k.val then raise .late s' else s'
  else s

/-- The account set to zero, and the whole profiler block written to zero (R133, R134). -/
def clearAccount (s : State) : State :=
  putWords profilerAddr resetProfiler.words { s with lpr := resetProfiler }

end Sys2Proof.Machine
end

