-- ==== Sys2Proof/Machine/Windows.lean ====
section
/-! DEFINITION. The arithmetic of the Shunt Window Calculator (03_single_shunt_windows_and_current_reconstruction.md):
the phase order, the windows and shifts of a RUNNING layout, the compare values, and the reconstruction of the phase
currents. -/

namespace Sys2Proof.Machine

/-- The applied duty of a phase: d = min(DUTY, T) (R45). -/
def appliedDuty (half : Nat) (duty : Word) : Nat := min duty.toNat half

/-- The phases by applied duty, largest first; phases with equal duties keep the order U, V, W (R46). -/
def phaseOrder (d : Tri Nat) : Phase × Phase × Phase :=
  if d.v ≤ d.u then
    if d.w ≤ d.v then (.u, .v, .w)
    else if d.w ≤ d.u then (.u, .w, .v)
    else (.w, .u, .v)
  else
    if d.w ≤ d.u then (.v, .u, .w)
    else if d.w ≤ d.v then (.v, .w, .u)
    else (.w, .v, .u)

/-- The shift limit L = min(d, max(0, T - d - G)); a phase of duty 0 has limit 0 (R48). -/
def shiftLimit (half d : Nat) : Nat := min d (half - d - Config.guardTicks)

/-- What the decision of one window gives: the window, the shift applied to the phase that closes it, and the window's
closing edge after the limits (R49, R50). -/
structure WindowChoice where
  win : Window
  shift : Nat
  edge : Nat
deriving DecidableEq, Repr

/-- The decision of one window (R47, R49, R50): it opens at `start`, the phase with applied duty `d` closes it, and
it is wanted `wMin` long. -/
def decideWindow (half wMin start d : Nat) : WindowChoice :=
  let on := half - d
  let wanted := max on (start + wMin) - on
  if wanted = 0 then { win := .open, shift := 0, edge := on }
  else if wanted ≤ shiftLimit half d ∧ 0 < d then { win := .open, shift := wanted, edge := start + wMin }
  else
    let applied := if d = 0 then 0 else shiftLimit half d
    { win := .narrow, shift := applied, edge := on + applied }

/-- The window record of a RUNNING layout (R44 to R53). With the SHUNT flag clear nothing is shifted and both windows
are UNUSED (R52). -/
def layoutWindows (half settle lead : Nat) (plan : DrumPlan) : WindowRecord :=
  let d : Tri Nat := plan.duty.map (appliedDuty half)
  let order := phaseOrder d
  let hi := order.1
  let mid := order.2.1
  let lo := order.2.2
  let t1 := half - d.get hi
  let a : WindowChoice :=
    if plan.shunt then decideWindow half (settle + lead) t1 (d.get mid)
    else { win := .unused, shift := 0, edge := half - d.get mid }
  let b : WindowChoice :=
    if plan.shunt then decideWindow half (settle + lead) a.edge (d.get lo)
    else { win := .unused, shift := 0, edge := half - d.get lo }
  let shift := ((Tri.const 0).set mid a.shift).set lo b.shift
  { computed := true, hi := hi, mid := mid, lo := lo,
    clamped := plan.duty.map (fun w => decide (half < w.toNat)),
    shift := shift,
    up := { u := half - d.u + shift.u, v := half - d.v + shift.v, w := half - d.w + shift.w },
    down := { u := half - d.u - shift.u, v := half - d.v - shift.v, w := half - d.w - shift.w },
    t1 := t1, t2 := a.edge, t3 := b.edge, winA := a.win, winB := b.win,
    shiftClamped := decide (a.win = .narrow) || decide (b.win = .narrow),
    current := Tri.const none, sat := false }

/-- The signed count c = VALUE - 2048 (R57). -/
def signedCount (v : BitVec 12) : Int := (v.toNat : Int) - 2048

/-- The reconstruction of the currents from the two shunt slots (R59, R60). A slot counts when its STATUS is VALID. -/
def reconstruct (r : WindowRecord) (a b : SlotRecord) : WindowRecord :=
  let okA := decide (a.status = .valid)
  let okB := decide (b.status = .valid)
  let iHi := signedCount a.value
  let loExact := - signedCount b.value
  let iLo := clampInt loExact (-2048) 2047
  let midExact := -(iHi + iLo)
  let iMid := clampInt midExact (-2048) 2047
  let cur : Tri (Option Int) := Tri.const none
  let cur := cur.set r.hi (if okA then some iHi else none)
  let cur := cur.set r.lo (if okB then some iLo else none)
  let cur := cur.set r.mid (if okA && okB then some iMid else none)
  { r with
    current := cur,
    sat := (okA && a.clamped) || (okB && b.clamped) || (okB && decide (iLo ≠ loExact))
      || (okA && okB && decide (iMid ≠ midExact)) }

/-- Whether a shunt slot is still open: QUEUED or CONVERTING (R58). -/
def SlotStatus.isOpen (st : SlotStatus) : Bool := decide (st = .queued) || decide (st = .converting)

end Sys2Proof.Machine
end

