-- ==== Sys2Proof/Machine/Slots.lean ====
section
/-! DEFINITION. The sample slots in the banks: the statuses that ARB and the channels write (R39, R87), the settling of
the drum's window pair (R58), the retirement of a bank (R16), and the ordered removal of listed requests (R103). -/

namespace Sys2Proof.Machine

/-- A drum bank with one of its slot records changed. -/
def DrumBank.modSlot (b : DrumBank) (sl : Slot) (f : SlotRecord → SlotRecord) : DrumBank :=
  match sl with
  | .shuntA => { b with shuntA := f b.shuntA }
  | .shuntB => { b with shuntB := f b.shuntB }
  | .u1 => { b with u1 := f b.u1 }
  | .u2 => { b with u2 := f b.u2 }
  | _ => b

/-- A pump bank with one of its slots changed. -/
def PumpBank.modSlot (b : PumpBank) (sl : Slot) (f : PumpSlot → PumpSlot) : PumpBank :=
  match sl with
  | .slot0 => { b with slot0 := f b.slot0 }
  | .slot1 => { b with slot1 := f b.slot1 }
  | _ => b

/-- A change of the slot that a request names, in the bank that it names: `fd` on a drum slot record, `fp` on a pump
slot. A CAL request names none (R96). -/
def modNamedSlot (r : Request) (fd : SlotRecord → SlotRecord) (fp : PumpSlot → PumpSlot) (s : State) : State :=
  match r.bank with
  | none => s
  | some b =>
    match r.origin with
    | .d => modDrumBank b (fun x => x.modSlot r.slot fd) s
    | .p1 => modPumpBank .p1 b (fun x => x.modSlot r.slot fp) s
    | .p2 => modPumpBank .p2 b (fun x => x.modSlot r.slot fp) s
    | _ => s

/-- Result words of the slot that a request names, n of them from the k-th on, written as the record stands. -/
def rewriteSlot (r : Request) (k n : Nat) (s : State) : State :=
  match r.bank, slotOffset r.origin r.slot with
  | some b, some off =>
    match r.origin with
    | .d => rewriteResults .d b (off + k) n s
    | .p1 => rewriteResults .p1 b (off + k) n s
    | .p2 => rewriteResults .p2 b (off + k) n s
    | _ => s
  | _, _ => s

/-- The slot that a request names changes, and its STATUS is written, whatever it was (R39, R87). -/
def modSlotStatus (r : Request) (fd : SlotRecord → SlotRecord) (fp : PumpSlot → PumpSlot) (s : State) : State :=
  rewriteSlot r 0 1 (modNamedSlot r fd fp s)

/-- A status written into the slot that a request names: the drum slot's status, or the pump slot's request status
(R39, R87). -/
def writeStatus (r : Request) (st : SlotStatus) (s : State) : State :=
  modSlotStatus r (fun x => { x with status := st }) (fun x => { x with status := st }) s

/-- LATE written into the slot, and for a pump slot its LATE count raised (R101). -/
def writeLate (r : Request) (s : State) : State :=
  modSlotStatus r (fun x => { x with status := .late })
    (fun x => { x with status := .late, lateCount := satInc x.lateCount }) s

/-- EVICTED written into the slot, and for a pump slot its EVICTED count raised (R97). -/
def writeEvicted (r : Request) (s : State) : State :=
  modSlotStatus r (fun x => { x with status := .evicted })
    (fun x => { x with status := .evicted, evictedCount := satInc x.evictedCount }) s

/-! ### The window pair -/

/-- The reconstruction of the period's currents, in the event that settles the shunt pair of a bank laid out in
RUNNING: neither slot QUEUED or CONVERTING (R58). The currents and the flags word with SAT are written (R44). -/
def settlePair (b : Bank) (s : State) : State :=
  let x := s.drum.bank b
  if x.window.computed && !x.shuntA.status.isOpen && !x.shuntB.status.isOpen then
    rewriteResults .d b 22 1
      (rewriteResults .d b 36 3
        (modDrumBank b (fun y => { y with window := reconstruct y.window y.shuntA y.shuntB }) s))
  else s

/-- Whether a slot is one of the drum's two shunt slots. -/
def isShunt (sl : Slot) : Bool := decide (sl = .shuntA) || decide (sl = .shuntB)

/-- What the end of a drum shunt request brings: the pair may settle (R58). -/
def settleAfter (r : Request) (s : State) : State :=
  if r.origin = .d ∧ isShunt r.slot then
    match r.bank with
    | some b => settlePair b s
    | none => s
  else s

/-! ### Retirement -/

/-- The SEQ of a bank, as read at its take (R19). -/
def bankSeq (ch : Channel) (b : Bank) (s : State) : Word :=
  match ch with
  | .d => (s.drum.bank b).plan.seq
  | .p1 => (s.pump1.bank b).plan.seq
  | .p2 => (s.pump2.bank b).plan.seq

/-- Whether a request names a bank of a channel. -/
def Request.names (r : Request) (ch : Channel) (b : Bank) : Bool :=
  decide (r.origin = channelOrigin ch) && decide (r.bank = some b)

/-- Whether a converter's in-flight record names a bank of a channel. -/
def inFlightNames (f : Option InFlight) (ch : Channel) (b : Bank) : Bool :=
  match f with
  | some x => x.req.names ch b
  | none => false

/-- Whether a bank has a request in the pending list or a conversion in flight (R16). -/
def outstanding (ch : Channel) (b : Bank) (s : State) : Bool :=
  s.arb.list.any (fun e => e.req.names ch b) || inFlightNames s.arb.cva ch b || inFlightNames s.arb.cvb ch b

/-- The status word of a bank written (11.6, 11.7). -/
def writeBankStatus (ch : Channel) (b : Bank) (st : BankStatus) (s : State) : State :=
  putWord (bankBase ch b + offStatus ch) (w16 st.code) s

/-- The retirement of a bank (R16): RETIRE_TIME, BANK_STATUS, RETIRED_SEQ, the role HOST, and the channel's RET
cause. -/
def retire (ch : Channel) (b : Bank) (s : State) : State :=
  raise (retCause ch)
    (modRetiredSeq ch (fun e => { e.setRole b .host with retiredSeq := bankSeq ch b s })
      (writeBankStatus ch b .retired (putWords (bankBase ch b + offRetireTime ch) (twoWords s.now) s)))

/-- PXL's look at the retirement condition of a channel's RETIRING bank (R16). -/
def retireCheck (ch : Channel) (s : State) : State :=
  match (s.exch ch).bankIn .retiring with
  | some b => if outstanding ch b s then s else retire ch b s
  | none => s

/-- ARB's report of a removal or completion of a request to PXL (R16); a CAL request concerns no bank. -/
def reportToPxl (o : Origin) (s : State) : State :=
  match o with
  | .d => retireCheck .d s
  | .p1 => retireCheck .p1 s
  | .p2 => retireCheck .p2 s
  | _ => s

/-! ### Ordered removals -/

/-- The removal of a channel's listed entries that satisfy a condition, with a status written into each one's slot; a
drum shunt removal may settle the window pair, and the removal is reported to PXL (R103). -/
def dropEntries (ch : Channel) (st : SlotStatus) (which : Request → Bool) (s : State) : State :=
  let hit := fun (e : Entry) => decide (e.req.origin = channelOrigin ch) && which e.req
  let gone := (s.arb.list.filter hit).map Entry.req
  let s1 := { s with arb := { s.arb with list := s.arb.list.filter (fun e => !hit e) } }
  let s2 := gone.foldl (fun t r => writeStatus r st t) s1
  let s3 := gone.foldl (fun t r => settleAfter r t) s2
  retireCheck ch s3

end Sys2Proof.Machine
end

