-- ==== Sys2Proof/Machine/Arbiter.lean ====
section
/-! DEFINITION. The Sample Arbiter: rank, insertion and eviction, eligibility, assignment and start, expiry, and the
raise of a listed class (05_converters_and_the_sample_arbiter.md). -/

namespace Sys2Proof.Machine

/-! ### Rank (R94) -/

/-- Class, best first (R94). -/
def ReqClass.rank : ReqClass → Nat
  | .forcedCal => 0
  | .drum => 1
  | .urgentCal => 2
  | .pump => 3
  | .routineCal => 4

/-- Whether the first request ranks above the second: class, then instant, then origin, then slot (R94). -/
def outranks (a b : Request) : Bool :=
  if a.cls.rank = b.cls.rank then
    if a.inst = b.inst then
      if originCode a.origin = originCode b.origin then decide (slotCode a.slot < slotCode b.slot)
      else decide (originCode a.origin < originCode b.origin)
    else earlier a.inst b.inst
  else decide (a.cls.rank < b.cls.rank)

/-- An entry placed at its rank in the list (R93, R96). -/
def placeEntry (e : Entry) : List Entry → List Entry
  | [] => [e]
  | x :: xs => if outranks e.req x.req then e :: x :: xs else x :: placeEntry e xs

/-- Whether two requests have the same ORIGIN and SLOT (R93). -/
def Request.sameKey (a b : Request) : Bool := decide (a.origin = b.origin) && decide (a.slot = b.slot)

/-- The list replaced. -/
def setList (l : List Entry) (s : State) : State := { s with arb := { s.arb with list := l } }

/-! ### Converters -/

/-- The in-flight record of a converter; none while it is IDLE. -/
def State.inFlight (s : State) : Conv → Option InFlight
  | .a => s.arb.cva
  | .b => s.arb.cvb

/-- The in-flight record of a converter replaced, with its converter status word written (R91). -/
def setConverter (cv : Conv) (f : Option InFlight) (s : State) : State :=
  putWord (convStatusAddr cv) (convStatusWord f)
    (match cv with
    | .a => { s with arb := { s.arb with cva := f } }
    | .b => { s with arb := { s.arb with cvb := f } })

/-- Whether a converter is IDLE (R89). -/
def convIdle (cv : Conv) (s : State) : Bool := (s.inFlight cv).isNone

/-- Whether a converter may serve a request: its PIN is none or names the converter (R98). -/
def mayServe (r : Request) (cv : Conv) : Bool := decide (r.pin = none) || decide (r.pin = some cv)

/-- The converter whose calibration an origin is. -/
def originConv : Origin → Option Conv
  | .calA => some .a
  | .calB => some .b
  | _ => none

/-- The PHASE of a sweep, for a request of CAL. -/
def setCalPhase (o : Origin) (ph : CalPhase) (s : State) : State :=
  match originConv o with
  | some cv => modCal cv (fun r => { r with phase := ph }) s
  | none => s

/-! ### Start and assignment (R98, R99) -/

/-- The start of a conversion (R99): the entry leaves the list and becomes the in-flight record, the converter status
word is written, CONVERTING is written into the slot or told to CAL, the lateness is reported to LPR, and the removal
to PXL. -/
def startConversion (cv : Conv) (e : Entry) (s : State) : State :=
  let late := s.now - e.req.inst
  let s1 := setList (s.arb.list.filter (fun x => !x.req.sameKey e.req)) s
  let s2 := setConverter cv (some { req := e.req, start := s.now, lateness := late }) s1
  let s3 := setCalPhase e.req.origin .converting (writeStatus e.req .converting s2)
  reportToPxl e.req.origin (report e.req.origin (lateBin late) s3)

/-- The best-ranked eligible entry that a converter may serve (R98). -/
def bestFor (cv : Conv) (l : List Entry) : Option Entry := l.find? (fun e => e.eligible && mayServe e.req cv)

/-- One converter's part of an assignment (R98). -/
def assignTo (cv : Conv) (s : State) : State :=
  if convIdle cv s then
    match bestFor cv s.arb.list with
    | some e => startConversion cv e s
    | none => s
  else s

/-- An assignment, CVA first; none is made while the pair is not AWAKE (R98, R100). -/
def assign (s : State) : State :=
  if s.arb.power = .awake then assignTo .b (assignTo .a s) else s

/-! ### Offers (R96, R97) -/

/-- The removal of a listed entry with the same ORIGIN and SLOT as an offer, with DROPPED_BOUNDARY written into its
slot (R96). -/
def replaceSame (r : Request) (s : State) : State :=
  match s.arb.list.find? (fun e => e.req.sameKey r) with
  | some e =>
    reportToPxl r.origin
      (writeStatus e.req .droppedBoundary (setList (s.arb.list.filter (fun x => !x.req.sameKey r)) s))
  | none => s

/-- Whether a request that is listed now wakes a sleeping pair: it is not ROUTINE_CAL and its INSTANT lies at or before
NOW + 400 (R122, R123). -/
def withinReach (now : Tick) (r : Request) : Bool :=
  decide (r.cls ≠ .routineCal) && reached (now + ticks Config.wakeTicks) r.inst

/-- An insertion at the rank place (R96): QUEUED is written into the slot, or the sweep is LISTED; a request within
reach wakes a sleeping pair (R123). An entry offered with its INSTANT at or before NOW is eligible (R98). -/
def insertOffer (r : Request) (s : State) : State :=
  let s1 := setList (placeEntry { req := r, eligible := reached s.now r.inst } s.arb.list) s
  let s2 := setCalPhase r.origin .listed (writeStatus r .queued s1)
  if withinReach s.now r then wakeCause s2 else s2

/-- An eviction, of a listed entry or of the offer itself (R97): EVICTED in the slot with the pump's count, the report
to LPR and to PXL, and for a CAL request the sweep SET_ASIDE with its INSTANT kept (R117). -/
def evict (r : Request) (s : State) : State :=
  let s1 := report r.origin counterEvicted (writeEvicted r s)
  let s2 := match originConv r.origin with
    | some cv => modCal cv (fun c => { c with phase := .setAside, keptInst := r.inst }) s1
    | none => s1
  reportToPxl r.origin s2

/-- An offer without the assignment that may end it (R96, R97). -/
def offerListed (r : Request) (s : State) : State :=
  let s0 := replaceSame r s
  if s0.arb.list.length < Config.listCapacity then insertOffer r s0
  else
    match s0.arb.list.getLast? with
    | some low =>
      if outranks r low.req then insertOffer r (evict low.req (setList s0.arb.list.dropLast s0))
      else evict r s0
    | none => insertOffer r s0

/-- Whether the request is listed and eligible, and a converter that may serve it is IDLE (R96). -/
def insertedReady (r : Request) (s : State) : Bool :=
  s.arb.list.any (fun e => e.req.sameKey r && e.eligible)
    && ((convIdle .a s && mayServe r .a) || (convIdle .b s && mayServe r .b))

/-- An offer (R96, R97): an insertion of its own, which ends with an assignment when the entry is eligible and a
converter that may serve it is IDLE in an AWAKE pair. -/
def offer (r : Request) (s : State) : State :=
  let s1 := offerListed r s
  if insertedReady r s1 then assign s1 else s1

/-! ### Eligibility, expiry, class raise -/

/-- Whether an entry's eligibility event is due (R98). -/
def eligibilityDue (s : State) : Bool :=
  s.arb.list.any (fun e => !e.eligible && reached s.now e.req.inst)

/-- The eligibility event: every entry whose INSTANT NOW has reached becomes eligible, and ARB makes an assignment
(R98). -/
def becomeEligible (s : State) : State :=
  assign (setList (s.arb.list.map (fun e => { e with eligible := e.eligible || reached s.now e.req.inst })) s)

/-- Whether NOW has reached the expiry tick INSTANT + LATE_MAX of an entry; a CAL entry has none (R101, R102). -/
def expiryReached (now : Tick) (r : Request) : Bool :=
  match r.lateMax with
  | some m => reached now (r.inst + m.setWidth 32)
  | none => false

/-- The listed entry of an origin and slot that is due to expire (R101). -/
def expiringEntry (o : Origin) (sl : Slot) (s : State) : Option Entry :=
  s.arb.list.find? (fun e => decide (e.req.origin = o) && decide (e.req.slot = sl) && expiryReached s.now e.req)

/-- The expiry of an entry (R101): it leaves the list, LATE is written into its slot with the pump's count, the drop is
reported to LPR, the removal to PXL, and for a drum shunt slot the window pair may settle. -/
def expireEntry (e : Entry) (s : State) : State :=
  let s1 := setList (s.arb.list.filter (fun x => !x.req.sameKey e.req)) s
  let s2 := report e.req.origin counterDropped (writeLate e.req s1)
  reportToPxl e.req.origin (settleAfter e.req s2)

/-- The request class of a calibration class (R92). -/
def CalClass.reqClass : CalClass → ReqClass
  | .urgent => .urgentCal
  | .forced => .forcedCal
  | _ => .routineCal

/-- A raise of a listed CAL entry: its CLASS changes and it moves to its new rank; no bank word is written and LPR is
not told (R95). -/
def raiseListed (cv : Conv) (cls : ReqClass) (s : State) : State :=
  match s.arb.list.find? (fun e => decide (e.req.origin = convOrigin cv)) with
  | some e =>
    setList
      (placeEntry { e with req := { e.req with cls := cls } }
        (s.arb.list.filter (fun x => !decide (x.req.origin = convOrigin cv)))) s
  | none => s

end Sys2Proof.Machine
end

