-- ==== Sys2Proof/Machine/Calibration.lean ====
section
/-! DEFINITION. The Calibration Unit and the power control of the converter pair
(06_calibration_and_converter_sleep.md), and the completion of a conversion (R105 to R109), in whose steps CAL takes
part. -/

namespace Sys2Proof.Machine

/-! ### Sweeps -/

/-- The interval I: CalInterval in ticks (R113). -/
def calTicks (s : State) : Nat := (cfg s).calInterval * Config.ticksPerMs

/-- A calibration request of a converter (R114). -/
def calRequest (cv : Conv) (inst : Tick) (cls : CalClass) : Request :=
  { origin := convOrigin cv, slot := .cal, bank := none, tag := 0, input := .ref, inst := inst, lateMax := none,
    cls := cls.reqClass, pin := some cv }

/-- The start of a sweep with a class (R114, R120): PROGRESS and SUM 0, and the first request offered with
INSTANT = DUE. -/
def beginSweep (cv : Conv) (cls : CalClass) (s : State) : State :=
  let s1 := modCal cv (fun r => { r with cls := cls, progress := 0, sum := 0 }) s
  offer (calRequest cv (s1.cal cv).due cls) s1

/-- Whether a converter's due event is due: no sweep in progress and NOW has reached DUE (R114). -/
def calDueNow (cv : Conv) (s : State) : Bool :=
  decide ((s.cal cv).phase = .waiting) && reached s.now (s.cal cv).due

/-- The class to which a sweep is due to rise, if any: URGENT_CAL from ROUTINE_CAL at DUE + (I div 2), FORCED_CAL from
URGENT_CAL at DUE + I (R116). -/
def raiseDue (cv : Conv) (s : State) : Option CalClass :=
  let r := s.cal cv
  match r.cls with
  | .routine => if reached s.now (r.due + ticks (calTicks s / 2)) then some .urgent else none
  | .urgent => if reached s.now (r.due + ticks (calTicks s)) then some .forced else none
  | _ => none

/-- A raise of a sweep's class, by its PHASE, which is also a wake cause (R116). -/
def raiseSweep (cv : Conv) (cls : CalClass) (s : State) : State :=
  let s1 := modCal cv (fun r => { r with cls := cls }) s
  let s2 := match (s1.cal cv).phase with
    | .listed => raiseListed cv cls.reqClass s1
    | .setAside => offer (calRequest cv (s1.cal cv).keptInst cls) s1
    | _ => s1
  wakeCause s2

/-- A raise that is due is acted on. -/
def actOnRaise (cv : Conv) (s : State) : State :=
  match raiseDue cv s with
  | some cls => raiseSweep cv cls s
  | none => s

/-- The new offset before its clamp: the mean of the sixteen RAW values, rounded, less mid-scale (R118). -/
def offsetOfSum (sum : Nat) : Int := (((sum + 8) / 16 : Nat) : Int) - 2048

/-- The end of a sweep (R118). -/
def endSweep (cv : Conv) (sum : Nat) (s : State) : State :=
  let exact := offsetOfSum sum
  let off := clampInt exact (-64) 63
  let s1 := modCal cv (fun r =>
    { r with offset := off, range := decide (off ≠ exact), lastCal := s.now, count := satInc r.count,
             due := s.now + ticks (calTicks s), cls := .none, progress := 0, sum := 0, phase := .waiting }) s
  if off ≠ exact then raise .calr s1 else s1

/-- RAW of REF handed to CAL, step 3 of the completion (R109, R115, R118). -/
def calResult (cv : Conv) (raw : Raw) (s : State) : State :=
  let r := s.cal cv
  if r.progress + 1 = 16 then endSweep cv (r.sum + raw.toNat) s
  else modCal cv (fun x => { x with progress := x.progress + 1, sum := x.sum + raw.toNat }) s

/-- A re-offer of a SET_ASIDE sweep at a completion, made only while the list holds fewer than 8 entries (R117). -/
def reofferAtCompletion (cv : Conv) (s : State) : State :=
  if (s.cal cv).phase = .setAside ∧ s.arb.list.length < Config.listCapacity then
    offerListed (calRequest cv (s.cal cv).keptInst (s.cal cv).cls) s
  else s

/-- Step 6 of a completion (R105, R115, R117): the next offer of the sweep whose conversion completed, if it is still in
progress, then the re-offers, CAL_A before CAL_B. -/
def calAfterCompletion (o : Origin) (s : State) : State :=
  let s1 := match originConv o with
    | some cv =>
      if (s.cal cv).cls = .none then s else offerListed (calRequest cv s.now (s.cal cv).cls) s
    | none => s
  reofferAtCompletion .b (reofferAtCompletion .a s1)

/-! ### Completion -/

/-- The exact correction RAW - offset (R106). -/
def correctedExact (raw : Raw) (offset : Int) : Int := (raw.toNat : Int) - offset

/-- VALUE = clamp(RAW - offset, 0, 4095) (R57, R106). -/
def correctedValue (raw : Raw) (offset : Int) : BitVec 12 :=
  BitVec.ofInt 12 (clampInt (correctedExact raw offset) 0 4095)

/-- The result record of a completion (R106). -/
def resultRecord (cv : Conv) (f : InFlight) (raw : Raw) (offset : Int) : SlotRecord :=
  { status := .valid, conv := cv, lateness := f.lateness.setWidth 16, raw := raw, value := correctedValue raw offset,
    clamped := decide (clampInt (correctedExact raw offset) 0 4095 ≠ correctedExact raw offset) }

/-- Whether a completed drum request is delivered (R107): its bank is RETIRING, or it is LIVE and the request belongs to
the period in progress. -/
def drumDelivers (r : Request) (b : Bank) (s : State) : Bool :=
  match s.exchD.role b with
  | .live => decide (r.tag = s.drum.periodCount)
  | .retiring => true
  | _ => false

/-- A pump slot after a completion (R87, R108): the request status VALID, the LAST record, and for SLOT0 the sum and
the count. -/
def PumpSlot.deliver (sl : Slot) (rec : SlotRecord) (x : PumpSlot) : PumpSlot :=
  { x with
    status := .valid,
    last := rec,
    sum := if sl = .slot0 then satAdd x.sum rec.value.toNat else x.sum,
    count := if sl = .slot0 then satInc x.count else x.count }

/-- The words of a pump slot that a delivery writes: the request status, the LAST record, and for SLOT0 SUM and COUNT
(R87, R108). -/
def rewritePumpSlot (r : Request) (s : State) : State :=
  rewriteSlot r 0 1 (rewriteSlot r 3 (if r.slot = .slot0 then 7 else 4) s)

/-- The delivery of a completed request, steps 3 and 4 (R105, R107, R108, R109). -/
def deliverResult (cv : Conv) (f : InFlight) (raw : Raw) (s : State) : State :=
  let rec_ := resultRecord cv f raw (s.cal cv).offset
  match f.req.origin, f.req.bank with
  | .d, some b =>
    if drumDelivers f.req b s then
      settleAfter f.req (rewriteSlot f.req 0 4 (modDrumBank b (fun x => x.modSlot f.req.slot (fun _ => rec_)) s))
    else s
  | .p1, some b =>
    rewritePumpSlot f.req (modPumpBank .p1 b (fun x => x.modSlot f.req.slot (PumpSlot.deliver f.req.slot rec_)) s)
  | .p2, some b =>
    rewritePumpSlot f.req (modPumpBank .p2 b (fun x => x.modSlot f.req.slot (PumpSlot.deliver f.req.slot rec_)) s)
  | .calA, _ => calResult .a raw s
  | .calB, _ => calResult .b raw s
  | _, none => s

/-- The completion of a conversion (R105): the record closed, the result delivered, PXL and CAL told, and the freed
converter assigned. The idle start becomes this tick (R122). -/
def complete (cv : Conv) (f : InFlight) (raw : Raw) (s : State) : State :=
  let s1 := setConverter cv none { s with arb := { s.arb with idleStart := s.now } }
  let s2 := deliverResult cv f raw s1
  let s3 := reportToPxl f.req.origin s2
  assign (calAfterCompletion f.req.origin s3)

/-- Whether a conversion is due to complete: 40 ticks after its start (R90). -/
def completionDue (cv : Conv) (s : State) : Bool :=
  match s.inFlight cv with
  | some f => reached s.now (f.start + ticks Config.conversionTicks)
  | none => false

/-! ### RECALIBRATE and a new configuration -/

/-- RECALIBRATE on one converter: one in WAITING begins a sweep with DUE = NOW, another is left (R119). -/
def recalibrateOne (cv : Conv) (s : State) : State :=
  if (s.cal cv).phase = .waiting then beginSweep cv .routine (modCal cv (fun r => { r with due := s.now }) s)
  else s

/-- The class that a sweep begins with when its raise times lie at or before NOW already (R120). -/
def classAtStart (due : Tick) (s : State) : CalClass :=
  if reached s.now (due + ticks (calTicks s)) then .forced
  else if reached s.now (due + ticks (calTicks s / 2)) then .urgent
  else .routine

/-- What a successful APPLY_CONFIG does to one converter's record, under the new interval (R120). A sweep that begins
above ROUTINE_CAL has had its raise, which is a wake cause; the completion is one in any case (R123). -/
def recountCal (cv : Conv) (s : State) : State :=
  if (s.cal cv).phase = .waiting then
    let s1 := writeDue cv (modCal cv (fun r => { r with due := r.lastCal + ticks (calTicks s) }) s)
    if reached s1.now (s1.cal cv).due then beginSweep cv (classAtStart (s1.cal cv).due s1) s1 else s1
  else actOnRaise cv (actOnRaise cv s)

/-! ### Sleep and wake -/

/-- Whether the pair enters SLEEP: the conditions of R122 all hold, and no wake cause has been taken on this tick, where the
pair stays AWAKE (R123). DESIGN CHOICE: it stays so for the rest of that tick, and may sleep on the next one where the
conditions still hold (notes/assumptions/32.md). -/
def sleepDue (s : State) : Bool :=
  decide (s.arb.power = .awake) && !s.arb.wakeNow && decide (0 < (cfg s).idleLimit) && allGranted s && convIdle .a s && convIdle .b s
    && decide ((cfg s).idleLimit ≤ (s.now - s.arb.idleStart).toNat)
    && !s.arb.list.any (fun e => withinReach s.now e.req)

/-- Whether a listed entry has come within reach while the pair is SLEEP (R123). -/
def wakeReachDue (s : State) : Bool :=
  decide (s.arb.power = .sleep) && s.arb.list.any (fun e => withinReach s.now e.req)

/-- Whether the wake has lasted its 400 ticks (R123). -/
def wakingEndDue (s : State) : Bool := decide (s.arb.power = .waking) && reached s.now s.arb.wakeEnd

/-- The entry into AWAKE: the idle start becomes this tick and ARB makes one assignment (R100, R123). -/
def enterAwake (s : State) : State :=
  assign (setPower .awake { s with arb := { s.arb with idleStart := s.now } })

end Sys2Proof.Machine
end

