-- ==== Sys2Proof/Machine/Exchange.lean ====
section
/-! DEFINITION. The Plan Exchange Logic: Switch events (R4 to R6), the reading of a PENDING bank at a boundary with its
acceptance or rejection (R8 to R13), and RELEASE (R18). -/

namespace Sys2Proof.Machine

/-! ### The Switch word -/

/-- The bank number of a SWITCH_RESULT (11.5): 0 none, 1 bank 0, 2 bank 1. -/
def bankNumber : Option Bank → Nat
  | none => 0
  | some .b0 => 1
  | some .b1 => 2

/-- SWITCH_RESULT written with an outcome and a bank number (R4). -/
def writeSwitchResult (ch : Channel) (o : SwitchOutcome) (b : Option Bank) (s : State) : State :=
  putWord (controlAddr ch offSwitchResult) (pack [(o.code, 0), (bankNumber b, 8)]) s

/-- The withdrawal of a PENDING bank: it becomes HOST and its BANK_STATUS is written CANCELLED (R5, R6, R18). -/
def cancelBank (ch : Channel) (b : Bank) (s : State) : State :=
  modExch ch (fun e => e.setRole b .host) (writeBankStatus ch b .cancelled s)

/-- The staging of a bank: it becomes PENDING, and none of its words is written (R5). -/
def stageBank (ch : Channel) (b : Bank) (s : State) : State :=
  modExch ch (fun e => e.setRole b .pending) s

/-- A TAKE_b request, decided by the roles (R5). -/
def switchTakeEvent (ch : Channel) (b : Bank) (s : State) : State :=
  match (s.exch ch).role b, (s.exch ch).role (otherBank b) with
  | .host, .pending =>
    writeSwitchResult ch .staged (some b) (stageBank ch b (cancelBank ch (otherBank b) s))
  | .host, .retiring => writeSwitchResult ch .refusedRetiring (some b) s
  | .host, _ => writeSwitchResult ch .staged (some b) (stageBank ch b s)
  | .pending, _ => writeSwitchResult ch .restaged (some b) s
  | .live, _ => writeSwitchResult ch .refusedLive (some b) s
  | .retiring, _ => writeSwitchResult ch .refusedRetiring (some b) s

/-- A CANCEL request (R6). -/
def switchCancelEvent (ch : Channel) (s : State) : State :=
  match pendingBank ch s with
  | some b => writeSwitchResult ch .cancelled (some b) (cancelBank ch b s)
  | none => writeSwitchResult ch .nothingPending none s

/-- A Switch event: the request that the written value makes, performed at once (R4). -/
def switchEvent (ch : Channel) (w : Word) (s : State) : State :=
  match switchRequestOf w with
  | .take b => switchTakeEvent ch b s
  | .cancel => switchCancelEvent ch s
  | .bad => writeSwitchResult ch .badRequest none s

/-! ### Reading a PENDING bank -/

/-- The parity SOURCE of a plan read (R9). -/
def planSource : Channel → ParitySource
  | .d => .planD
  | .p1 => .planP1
  | .p2 => .planP2

/-- The addresses of a bank's plan words, in address order (R1). -/
def planAddrs (ch : Channel) (b : Bank) : List Nat :=
  (List.range (planWords ch)).map (fun i => bankBase ch b + i)

/-- The plan words of a bank as they stand in the memory. -/
def planData (ch : Channel) (b : Bank) (s : State) : List Word := (planAddrs ch b).map (dataAt s)

/-- The plan words of a bank that fail their parity check (R9). -/
def badPlanWords (ch : Channel) (b : Bank) (s : State) : List Nat :=
  (planAddrs ch b).filter (fun a => !(s.mem.read a).good)

/-- Every failing plan word reported to the parity record (R9). -/
def reportPlanParity (ch : Channel) (bad : List Nat) (s : State) : State :=
  bad.foldl (fun t a => recordParity (planSource ch) a t) s

/-- A rejection: the bank returns to HOST with the reject code in its BANK_STATUS, and the channel's RET cause is
raised (R12). -/
def rejectBank (ch : Channel) (b : Bank) (code : BankStatus) (s : State) : State :=
  raise (retCause ch) (modExch ch (fun e => e.setRole b .host) (writeBankStatus ch b code s))

/-- The two checks on PERIOD of a drum plan, in their order: the range 500 to 4000, then, when the drum is RUNNING with
a LIVE bank, the step of at most (live PERIOD) div 8 in either direction (R10). -/
def periodVerdict (plan : DrumPlan) (s : State) : Option BankStatus :=
  let p := plan.period.toNat
  if p < 500 ∨ 4000 < p then some .rejPeriodRange
  else if s.drum.state = .running then
    match liveBank .d s with
    | some l =>
      let q := (s.drum.bank l).plan.period.toNat
      if q + q / 8 < p ∨ p + q / 8 < q then some .rejPeriodStep else none
    | none => none
  else none

/-! ### Acceptance -/

/-- The result words of a bank in their initial state (R13): BANK_STATUS LIVE, TAKE_TIME NOW, RETIRE_TIME 0, the run
results, and 0 in every word that gives no field (R173). -/
def initialResults (ch : Channel) (now : Tick) (results : List Word) : List Word :=
  let ws := [w16 BankStatus.live.code] ++ twoWords now ++ [0, 0] ++ results
  ws ++ List.replicate (bankWords ch - planWords ch - ws.length) 0

/-- What an acceptance does to the exchange (R13): the bank becomes LIVE, the replaced bank RETIRING, LIVE_SEQ takes
the SEQ, the requests that name the replaced bank are removed with DROPPED_BOUNDARY, and the retirement condition is
looked at. -/
def goLive (ch : Channel) (b : Bank) (seq : Word) (s : State) : State :=
  match liveBank ch s with
  | some ob =>
    dropEntries ch .droppedBoundary (fun r => r.bank = some ob)
      (modLiveSeq ch (fun e => { (e.setRole ob .retiring).setRole b .live with liveSeq := seq }) s)
  | none => modLiveSeq ch (fun e => { e.setRole b .live with liveSeq := seq }) s

/-- An accepted drum bank (R13): its results in their initial state, then the exchange, and the consecutive-miss count
0. -/
def acceptDrum (b : Bank) (plan : DrumPlan) (s : State) : State :=
  let s1 := { s with drum := s.drum.setBank b (freshDrumBank plan) }
  let s2 := putWords (bankBase .d b + offStatus .d) (initialResults .d s.now (freshDrumBank plan).words) s1
  modDrum (fun d => { d with missCount := 0 }) (goLive .d b plan.seq s2)

/-- The results with which a pump bank begins (R13, R84, R85): counts and aggregates 0, STEP_EST and LAST_INTERVAL the
pump's current figures, and the clamp flags of the plan's fields. That no valid interval exists after a clear of the
commutation state is the model's choice (DESIGN CHOICE, notes/assumptions/33.md). -/
def freshPumpBank (plan : PumpPlan) (c : CommState) : PumpBank :=
  { blankPumpBank with
    plan := plan,
    stepEst := c.est,
    lastInterval := c.lastValid.getD 0,
    advanceClamped := decide (24 < plan.advance.toNat),
    everyClamped := decide (16 < plan.every0.toNat) || decide (16 < plan.every1.toNat),
    inputClamped := decide (7 < plan.input1.toNat) }

/-- An accepted pump bank (R13, R86): its results in their initial state, both slot countdowns 0, then the exchange. -/
def acceptPump (p : PumpId) (b : Bank) (plan : PumpPlan) (s : State) : State :=
  let bank := freshPumpBank plan (s.pump p).comm
  let s1 := s.setPump p { (s.pump p).setBank b bank with countdown0 := 0, countdown1 := 0 }
  let s2 := putWords (bankBase (pumpChannel p) b + offStatus (pumpChannel p))
    (initialResults (pumpChannel p) s.now bank.words) s1
  goLive (pumpChannel p) b plan.seq s2

/-! ### Holding -/

/-- A drum hold (R14): REPEATS rises, the per-period results, which are the window results and the four slots, are
written back to their initial state, and in RUNNING the hold is a miss that raises HOLD. With no LIVE bank there is
nothing to hold. -/
def holdDrum (s : State) : State :=
  match liveBank .d s with
  | none => s
  | some b =>
    let s1 := rewriteResults .d b 40 16 (rewriteResults .d b 22 17 (modDrumBank b (fun x =>
      { x with repeats := satInc x.repeats, window := notComputed, shuntA := blankSlot, shuntB := blankSlot,
               u1 := blankSlot, u2 := blankSlot }) s))
    if s.drum.state = .running then
      raise .hold (modDrum (fun d => { d with missCount := d.missCount + 1 }) s1)
    else s1

/-- The take or hold of a drum boundary (R8 to R14), and whether a bank was accepted. -/
def takeOrHoldDrum (s : State) : State × Bool :=
  match pendingBank .d s with
  | none => (holdDrum s, false)
  | some b =>
    match badPlanWords .d b s with
    | a :: as => (holdDrum (rejectBank .d b .rejParity (reportPlanParity .d (a :: as) s)), false)
    | [] =>
      match periodVerdict (drumPlanOf (planData .d b s)) s with
      | some code => (holdDrum (rejectBank .d b code s), false)
      | none => (acceptDrum b (drumPlanOf (planData .d b s)) s, true)

/-- The take or hold of a pump boundary (R8, R9, R11 to R13, R15). A pump hold changes nothing. -/
def takeOrHoldPump (p : PumpId) (s : State) : State :=
  match pendingBank (pumpChannel p) s with
  | none => s
  | some b =>
    match badPlanWords (pumpChannel p) b s with
    | a :: as => rejectBank (pumpChannel p) b .rejParity (reportPlanParity (pumpChannel p) (a :: as) s)
    | [] => acceptPump p b (pumpPlanOf (planData (pumpChannel p) b s)) s

/-! ### RELEASE -/

/-- A performed RELEASE (R18): a PENDING bank is cancelled, a LIVE bank becomes RETIRING with its listed requests
removed with DROPPED_BOUNDARY, LIVE_SEQ becomes 0, and the retirement condition is looked at. -/
def performRelease (ch : Channel) (s : State) : State :=
  let s1 := match pendingBank ch s with
    | some b => cancelBank ch b s
    | none => s
  match liveBank ch s1 with
  | some b =>
    dropEntries ch .droppedBoundary (fun r => r.bank = some b)
      (modLiveSeq ch (fun e => { e.setRole b .retiring with liveSeq := 0 }) s1)
  | none => modLiveSeq ch (fun e => { e with liveSeq := 0 }) s1

end Sys2Proof.Machine
end

