-- ==== Sys2Proof/Machine/Gates.lean ====
section
/-! DEFINITION. The two switches of one phase: how they turn off at once and on after the dead time (R26 to R28, R66,
R67), and the six-step table of the pumps (R65). -/

namespace Sys2Proof.Machine

/-- The high side turns off, if it is on. -/
def Leg.highOff (l : Leg) : Leg := if l.high then { l with high := false, highOffFor := 0 } else l

/-- The low side turns off, if it is on. -/
def Leg.lowOff (l : Leg) : Leg := if l.low then { l with low := false, lowOffFor := 0 } else l

/-- Into OFF: both switches off at once, and nothing waits to turn on (R28, R67). -/
def Leg.toOff (l : Leg) : Leg := { l.highOff.lowOff with pos := .float, waiting := none }

/-- The low side on when its high side has been off for the dead time, or at once (R28, R66, R67). A wait that begins
keeps the dead time of this switch decision to its end, also across a new configuration (R152; DESIGN CHOICE,
notes/assumptions/26.md). -/
def Leg.toLow (dt : Nat) (l : Leg) : Leg :=
  let l := l.highOff
  if l.low then { l with pos := .low, waiting := none }
  else if dt ≤ l.highOffFor.toNat then { l with pos := .low, low := true, waiting := none }
  else { l with pos := .low, waiting := some { side := .low, left := dt - l.highOffFor.toNat } }

/-- The high side on when its low side has been off for the dead time, or at once (R66). -/
def Leg.toHigh (dt : Nat) (l : Leg) : Leg :=
  let l := l.lowOff
  if l.high then { l with pos := .high, waiting := none }
  else if dt ≤ l.lowOffFor.toNat then { l with pos := .high, high := true, waiting := none }
  else { l with pos := .high, waiting := some { side := .high, left := dt - l.lowOffFor.toNat } }

/-- A commanded up edge of a drum phase: the low side turns off at the edge and the high side on the dead time after
it. A phase already in its high position makes no switching (R26, R27). -/
def Leg.upEdge (dt : Nat) (l : Leg) : Leg :=
  if l.pos = .high then l
  else { l.lowOff with pos := .high, waiting := some { side := .high, left := dt } }

/-- A commanded down edge of a drum phase (R26, R27). -/
def Leg.downEdge (dt : Nat) (l : Leg) : Leg :=
  if l.pos = .low then l
  else { l.highOff with pos := .low, waiting := some { side := .low, left := dt } }

/-- The end of a dead time: the waiting switch turns on, unless its partner is on (R27). -/
def Leg.deadTimeEnd (l : Leg) : Leg :=
  match l.waiting with
  | some w =>
    if w.left = 0 then
      match w.side with
      | .low => { l with low := !l.high, waiting := none }
      | .high => { l with high := !l.low, waiting := none }
    else l
  | none => l

/-- Whether a dead time has run out in a phase. -/
def Leg.deadTimeDue (l : Leg) : Bool :=
  match l.waiting with
  | some w => decide (w.left = 0)
  | none => false

/-- One tick of a phase: the off times rise, and a dead time runs down. -/
def Leg.tick (l : Leg) : Leg :=
  { l with
    highOffFor := satInc l.highOffFor,
    lowOffFor := satInc l.lowOffFor,
    waiting := l.waiting.map (fun w => { w with left := w.left - 1 }) }

/-- One step of the six-step table: its high side, its low side, its floating phase, and whether the crossing expected
in FORWARD is falling (R65). -/
structure SixStep where
  high : Phase
  low : Phase
  floating : Phase
  fallingForward : Bool
deriving DecidableEq, Repr

/-- The six-step table (R65). -/
def sixStep (i : Nat) : SixStep :=
  match i with
  | 0 => { high := .u, low := .v, floating := .w, fallingForward := true }
  | 1 => { high := .u, low := .w, floating := .v, fallingForward := false }
  | 2 => { high := .v, low := .w, floating := .u, fallingForward := true }
  | 3 => { high := .v, low := .u, floating := .w, fallingForward := false }
  | 4 => { high := .w, low := .u, floating := .v, fallingForward := true }
  | _ => { high := .w, low := .v, floating := .u, fallingForward := false }

/-- The step index after one commutation (R65). -/
def nextStep (dir : Direction) (i : Nat) : Nat :=
  match dir with
  | .forward => if i = 5 then 0 else i + 1
  | .reverse => if i = 0 then 5 else i - 1

/-- The post-crossing level of the step: 0 for a falling crossing and 1 for a rising one; REVERSE expects the other
crossing (R65, R75). -/
def postLevel (dir : Direction) (i : Nat) : Bool :=
  match dir with
  | .forward => !(sixStep i).fallingForward
  | .reverse => (sixStep i).fallingForward

/-- The energised high side of a step as the modulation has it (R66). -/
def highLeg (dt : Nat) (pwmOn : Bool) (l : Leg) : Leg := if pwmOn then l.toHigh dt else l.toOff

/-- The phase position of a pump's energised pattern: the step's high side follows the modulation, its low side is
held on, the floating phase is off (R66). -/
def stepLeg (dt : Nat) (pwmOn : Bool) (st : SixStep) (ph : Phase) (l : Leg) : Leg :=
  if ph = st.high then highLeg dt pwmOn l
  else if ph = st.low then l.toLow dt
  else l.toOff

/-- The six switches driven by the pattern of a step (R66). -/
def stepLegs (dt : Nat) (pwmOn : Bool) (st : SixStep) (legs : Tri Leg) : Tri Leg :=
  { u := stepLeg dt pwmOn st .u legs.u, v := stepLeg dt pwmOn st .v legs.v, w := stepLeg dt pwmOn st .w legs.w }

end Sys2Proof.Machine
end

