-- ==== Sys2Proof/Machine/Trip.lean ====
section
/-! DEFINITION. The Trip Monitor (08_trip_monitor.md): the filters and qualification timers, the trip of a channel, its
trip action and record, and further causes. -/

namespace Sys2Proof.Machine

/-! ### Filters (R40, R135) -/

/-- A pin takes a raw level: a change starts the count anew, or sets it back to 0 (R40, R135). -/
def PinFilter.setRaw (f : PinFilter) (level : Bool) : PinFilter :=
  if f.raw = level then f else { f with raw := level, count := 0 }

/-- One tick of a filter: the count of ticks for which the raw and the accepted level differ without a break. -/
def PinFilter.tick (f : PinFilter) : PinFilter :=
  { f with count := if f.raw = f.level then 0 else satInc f.count }

/-- Whether the raw level has held the new level for the filter's length. -/
def PinFilter.due (f : PinFilter) (len : Nat) : Bool := decide (f.raw ≠ f.level) && decide (len ≤ f.count.toNat)

/-- The raw level becomes the accepted level. -/
def PinFilter.accept (f : PinFilter) : PinFilter := { f with level := f.raw, count := 0 }

/-- The filter of a trip input. -/
def TripMonitor.filter (t : TripMonitor) : TripPin → PinFilter
  | .ocD => t.ocD
  | .ocP1 => t.ocP1
  | .ocP2 => t.ocP2
  | .busOv => t.busOv
  | .gateOkD => t.gateD
  | .gateOkP => t.gateP

/-- The filter of a trip input replaced. -/
def TripMonitor.setFilter (t : TripMonitor) (pin : TripPin) (f : PinFilter) : TripMonitor :=
  match pin with
  | .ocD => { t with ocD := f }
  | .ocP1 => { t with ocP1 := f }
  | .ocP2 => { t with ocP2 := f }
  | .busOv => { t with busOv := f }
  | .gateOkD => { t with gateD := f }
  | .gateOkP => { t with gateP := f }

/-- The fault level of a trip input: low for a gate-supply input, high for the others (R135). -/
def faultLevel : TripPin → Bool
  | .gateOkD => false
  | .gateOkP => false
  | _ => true

/-- The qualification timer of a gate-supply input. -/
def TripMonitor.qual (t : TripMonitor) : Supply → QualTimer
  | .d => t.qualD
  | .p => t.qualP

/-- The qualification timer of a gate-supply input replaced. -/
def TripMonitor.setQual (t : TripMonitor) (g : Supply) (q : QualTimer) : TripMonitor :=
  match g with
  | .d => { t with qualD := q }
  | .p => { t with qualP := q }

/-- The gate supply of a trip input, if it is one. -/
def pinSupply : TripPin → Option Supply
  | .gateOkD => some .d
  | .gateOkP => some .p
  | _ => none

/-- The filter of a gate-supply input. -/
def TripMonitor.supply (t : TripMonitor) : Supply → PinFilter
  | .d => t.gateD
  | .p => t.gateP

/-- TRM changes, and the TRIP_INPUTS word of every channel whose word changes is written (R136). -/
def modTrm (f : TripMonitor → TripMonitor) (s : State) : State :=
  let old := s.trm
  let new := f s.trm
  showWords (controlAddr .p2 offTripInputs) [[old.inputsWord .p2]] [[new.inputsWord .p2]]
    (showWords (controlAddr .p1 offTripInputs) [[old.inputsWord .p1]] [[new.inputsWord .p1]]
      (showWords (controlAddr .d offTripInputs) [[old.inputsWord .d]] [[new.inputsWord .d]] { s with trm := new }))

/-! ### The trip of a channel -/

/-- OvAction of a channel (R140). -/
def ovAction (ch : Channel) (s : State) : SafeOut :=
  match ch with
  | .d => (cfg s).ovActionD
  | .p1 => (cfg s).p1.ovAction
  | .p2 => (cfg s).p2.ovAction

/-- The action that a cause gives a channel: OFF, but OvAction for BUS_OV (R140). -/
def causeAction (ch : Channel) (c : TripCause) (s : State) : SafeOut :=
  match c with
  | .busOv => ovAction ch s
  | _ => .off

/-- The trip record that a trip event writes (R139 to R141). A SHORT action under an asserted gate-supply input becomes
OFF, with the gate-supply input in CAUSES beside BUS_OV. -/
def newTripRecord (ch : Channel) (c : TripCause) (s : State) : TripRecord :=
  let denied := decide (causeAction ch c s = .short) && gateAsserted ch s
  { first := some c,
    oc := decide (c = .oc),
    busOv := decide (c = .busOv),
    gate := decide (c = .gate) || denied,
    action := if denied then .off else causeAction ch c s,
    time := s.now,
    liveSeq := if (liveBank ch s).isSome then (s.exch ch).liveSeq else 0 }

/-- The phases moved to OFF or to SHORT (R28, R67). `held` says that the outputs are in SHORT or BRAKING already: between the
two there is no switching, and a low side that waits goes on waiting as it did, whatever the dead time is now. -/
def safeLegs (held : Bool) (a : SafeOut) (dt : Nat) (legs : Tri Leg) : Tri Leg :=
  match a with
  | .off => legs.map Leg.toOff
  | .short => if held then legs else legs.map (Leg.toLow dt)

/-- The drum output condition of OFF or SHORT. -/
def SafeOut.drumOut : SafeOut → DrumOut
  | .off => .off
  | .short => .short

/-- The trip of the drum (R139): TRIPPED, outputs to the trip action, miss count 0, the record written whole, queued
SHUNT requests removed with DROPPED_TRIP, TRIP raised. -/
def tripDrum (c : TripCause) (s : State) : State :=
  let r := newTripRecord .d c s
  let s1 := modDrum (fun d =>
    { d with state := .tripped, out := r.action.drumOut, missCount := 0, upAt := Tri.const none,
             downAt := Tri.const none, legs := safeLegs (decide (d.out = .short)) r.action (cfg s).dtD d.legs,
             trip := r, tripPrior := d.state, tripPeriodCount := d.periodCount, tripNow := true }) s
  let s2 := putWords (controlAddr .d offTrip) s1.drum.tripWords s1
  raise .trip (dropEntries .d .droppedTrip (fun r => isShunt r.slot) s2)

/-- The trip of a pump (R139): as the drum's, with the step index and S copied before the commutation state is cleared,
and SLOT0 as the current-slot request. -/
def tripPump (p : PumpId) (c : TripCause) (s : State) : State :=
  let ch := pumpChannel p
  let r := newTripRecord ch c s
  let s1 := leavePump p (fun x =>
    { x with state := .tripped, duty := 0, pwmOn := false, onAt := none, offAt := none, comm := clearComm,
             legs := safeLegs (decide (x.state = .braking)) r.action ((cfg s).pump p).deadTime x.legs, trip := r,
             tripPrior := x.state, tripStep := x.stepIndex, tripEst := x.comm.est, tripNow := true }) s
  let s2 := putWords (controlAddr ch offTrip) (s1.pump p).tripWords s1
  raise .trip (dropEntries ch .droppedTrip (fun r => decide (r.slot = .slot0)) s2)

/-- A trip record with one more cause; an OFF cause moves ACTION from SHORT to OFF (R142). DESIGN CHOICE: so does a BUS_OV
that is in CAUSES already and is asserted again after an APPLY_CONFIG has set OvAction OFF, as R148 has it, where R142 says
that an input already in CAUSES changes nothing (notes/assumptions/36.md). -/
def TripRecord.further (r : TripRecord) (c : TripCause) (action : SafeOut) : TripRecord :=
  { r with
    oc := r.oc || decide (c = .oc),
    busOv := r.busOv || decide (c = .busOv),
    gate := r.gate || decide (c = .gate),
    action := if action = .off then .off else r.action }

/-- A further cause of a TRIPPED drum (R142); TRIP is raised when the record changed. -/
def furtherDrum (c : TripCause) (s : State) : State :=
  let old := s.drum.trip
  let new := old.further c (causeAction .d c s)
  if new = old then s
  else
    let toOff := decide (old.action = .short) && decide (new.action = .off)
    let s1 := modDrum (fun d =>
      { d with trip := new, out := if toOff then .off else d.out,
               legs := if toOff then d.legs.map Leg.toOff else d.legs }) s
    raise .trip (showWords (controlAddr .d offTrip) s.drum.tripQuantities s1.drum.tripQuantities s1)

/-- A further cause of a TRIPPED pump (R142). -/
def furtherPump (p : PumpId) (c : TripCause) (s : State) : State :=
  let ch := pumpChannel p
  let old := (s.pump p).trip
  let new := old.further c (causeAction ch c s)
  if new = old then s
  else
    let toOff := decide (old.action = .short) && decide (new.action = .off)
    let s1 := modPump p (fun x =>
      { x with trip := new, legs := if toOff then x.legs.map Leg.toOff else x.legs }) s
    raise .trip (showWords (controlAddr ch offTrip) (s.pump p).tripQuantities (s1.pump p).tripQuantities s1)

/-- Whether the drum is in a driven state: its outputs are not OFF, outside TRIPPED (R138). -/
def drumDriven (s : State) : Bool := decide (s.drum.out ≠ .off)

/-- Whether a pump is in a driven state: ALIGN, RAMP, RUN or BRAKING (R138). -/
def PumpState.driven (st : PumpState) : Bool := st.drives || decide (st = .braking)

/-- Whether the drum was in a driven state when it tripped, by its PRIOR_STATE: RUNNING, BRAKING, or STARVED with SafeAction
SHORT (R138, R141). -/
def drumPriorDriven (s : State) : Bool :=
  match s.drum.tripPrior with
  | .running => true
  | .braking => true
  | .starved => decide ((cfg s).safeAction = .short)
  | _ => false

/-- Whether the assertion of the gate-supply input is a further cause of a TRIPPED channel: while ACTION is SHORT (R142), and
on the tick of the trip itself when the channel tripped from a driven state, so that both assertions trip it (R144, first
row). Under ACTION OFF R142 says that the assertion is no further cause, and R144 says that two assertions of one tick that
both trip the channel are both in CAUSES, whichever is taken first. DESIGN CHOICE, unsafe: R144 holds on the trip's tick and
R142 at every other (notes/assumptions/29.md). -/
def TripRecord.takesGate (r : TripRecord) (priorDriven thisTick : Bool) : Bool :=
  decide (r.action = .short) || (priorDriven && thisTick)

/-- An assertion of one of the drum's inputs, by its kind and the drum's state (R138). DESIGN CHOICE: a gate-supply
assertion that finds the drum TRIPPED on this very tick with ACTION OFF, from a driven state, is a further cause as R144's
first row has it, over R142 (TripRecord.takesGate, notes/assumptions/29.md). -/
def assertOnDrum (c : TripCause) (s : State) : State :=
  if s.drum.state = .tripped then
    if c = .gate ∧ !s.drum.trip.takesGate (drumPriorDriven s) s.drum.tripNow then s else furtherDrum c s
  else if c = .gate ∧ !drumDriven s then s
  else tripDrum c s

/-- An assertion of one of a pump's inputs, by its kind and the pump's state (R138). DESIGN CHOICE: a gate-supply assertion
that finds the pump TRIPPED on this very tick with ACTION OFF, from a driven state, is a further cause as R144's first row
has it, over R142 (TripRecord.takesGate, notes/assumptions/29.md). -/
def assertOnPump (p : PumpId) (c : TripCause) (s : State) : State :=
  if (s.pump p).state = .tripped then
    if c = .gate ∧ !(s.pump p).trip.takesGate (s.pump p).tripPrior.driven (s.pump p).tripNow then s else furtherPump p c s
  else if c = .gate ∧ !(s.pump p).state.driven then s
  else tripPump p c s

/-- What an assertion does to the channels that the input reaches (R135, R138, R143). -/
def reachChannels (pin : TripPin) (s : State) : State :=
  match pin with
  | .ocD => assertOnDrum .oc s
  | .ocP1 => assertOnPump .p1 .oc s
  | .ocP2 => assertOnPump .p2 .oc s
  | .busOv => assertOnPump .p2 .busOv (assertOnPump .p1 .busOv (assertOnDrum .busOv s))
  | .gateOkD => assertOnDrum .gate s
  | .gateOkP => assertOnPump .p2 .gate (assertOnPump .p1 .gate s)

/-- Whether a trip input's assertion is due (R135). -/
def assertionDue (pin : TripPin) (s : State) : Bool :=
  (s.trm.filter pin).due Config.tripFilterTicks && decide ((s.trm.filter pin).raw = faultLevel pin)

/-- Whether a trip input's release is due (R135). -/
def releaseDue (pin : TripPin) (s : State) : Bool :=
  (s.trm.filter pin).due Config.tripFilterTicks && decide ((s.trm.filter pin).raw ≠ faultLevel pin)

/-- TRM after a filtered level has changed; the assertion of a gate-supply input sets its timer to 0 and takes its
qualification (R135, R137). -/
def acceptTripInput (pin : TripPin) (t : TripMonitor) : TripMonitor :=
  let t1 := t.setFilter pin (t.filter pin).accept
  match pinSupply pin with
  | some g => if (t.filter pin).raw = faultLevel pin then t1.setQual g { timer := 0, qualified := false } else t1
  | none => t1

/-- Whether a gate-supply input's qualification is due: its timer has reached QualTime and QUALIFIED is clear (R137). -/
def qualificationDue (g : Supply) (s : State) : Bool :=
  !(s.trm.qual g).qualified && decide ((cfg s).qualTime ≤ (s.trm.qual g).timer.toNat) && (s.trm.supply g).level

/-- QUALIFIED as the timers and the present QualTime give it, at the completion of an APPLY_CONFIG (R148). -/
def requalify (s : State) : State :=
  let q := (cfg s).qualTime
  modTrm (fun t =>
    { t with
      qualD := { t.qualD with qualified := decide (q ≤ t.qualD.timer.toNat) },
      qualP := { t.qualP with qualified := decide (q ≤ t.qualP.timer.toNat) } }) s

/-- One tick of a qualification timer: it counts the ticks for which the input has been released, up to 65535 (R137). -/
def QualTimer.tick (q : QualTimer) (released : Bool) : QualTimer :=
  { q with timer := if released then satInc q.timer else 0 }

/-- One tick of TRM. -/
def TripMonitor.tick (t : TripMonitor) : TripMonitor :=
  { ocD := t.ocD.tick, ocP1 := t.ocP1.tick, ocP2 := t.ocP2.tick, busOv := t.busOv.tick, gateD := t.gateD.tick,
    gateP := t.gateP.tick, qualD := t.qualD.tick t.gateD.level, qualP := t.qualP.tick t.gateP.level }

end Sys2Proof.Machine
end

