-- ==== Sys2Proof/Machine/Drum.lean ====
section
/-! DEFINITION. The Drum Timing Channel (02_drum_timing_channel.md): STOP, the steps of the drum boundary, the phase
edges, and Hall capture. -/

namespace Sys2Proof.Machine

/-! ### Leaving RUNNING, and STOP -/

/-- The drum with its edges ceased and its outputs in OFF or SHORT, in a state other than RUNNING: the miss count
becomes 0 (R28, R34, R61). Into SHORT from SHORT, as BRAKE in STARVED with SafeAction SHORT, there is no switching. -/
def Drum.quiet (d : Drum) (st : DrumState) (a : SafeOut) (dt : Nat) : Drum :=
  { d with state := st, out := a.drumOut, missCount := 0, upAt := Tri.const none, downAt := Tri.const none,
           legs := safeLegs (decide (d.out = .short)) a dt d.legs }

/-- What STOP does to the drum in RUNNING, BRAKING or STARVED (R29). -/
def stopDrum (s : State) : State :=
  dropEntries .d .droppedStop (fun r => isShunt r.slot) (modDrum (fun d => d.quiet .stopped .off (cfg s).dtD) s)

/-! ### The boundary, steps 2 to 5 (R31 to R35) -/

/-- The waiting command is gone. -/
def takeWaitingDrum (s : State) : State := modDrum (fun d => { d with waiting := none }) s

/-- Steps 2 and 3 of the drum boundary: a waiting RELEASE is taken by the state, and a performed one replaces the take
or hold; otherwise the take or hold. The answer says whether a plan was accepted (R31, R33). -/
def drumPlanStep (s : State) : State × Bool :=
  match s.drum.waiting with
  | some ⟨.release, tag⟩ =>
    if s.drum.state = .stopped ∨ s.drum.state = .tripped then
      (commandDone .d tag ChannelCode.release.code .done (performRelease .d (takeWaitingDrum s)), false)
    else takeOrHoldDrum (commandDone .d tag ChannelCode.release.code .wrongState (takeWaitingDrum s))
  | _ => takeOrHoldDrum s

/-- START in STOPPED, BRAKING or STARVED (R32). -/
def drumStart (accepted : Bool) (s : State) : State × Outcome :=
  if s.gcu.apply.isSome then (s, .configBusy)
  else if !gateQualified .d s then (s, .inputsActive)
  else if (if s.drum.state = .starved then !accepted else (liveBank .d s).isNone) then (s, .noPlan)
  else (modDrum (fun d => { d with state := .running, out := .pwm }) s, .done)

/-- The entry into BRAKING. With the gate-supply input asserted TRM trips the drum in the same event, and the outputs
go from their earlier condition directly to OFF (R31, R138). -/
def drumBrake (s : State) : State :=
  if gateAsserted .d s then
    tripDrum .gate (modDrum (fun d => { d with state := .braking, missCount := 0 }) s)
  else modDrum (fun d => d.quiet .braking .short (cfg s).dtD) s

/-- CLEAR_TRIP in TRIPPED (R31, R146). -/
def drumClear (s : State) : State × Outcome :=
  if s.gcu.apply.isSome then (s, .configBusy)
  else if inputsActive .d s then (s, .inputsActive)
  else (modDrum (fun d => d.quiet .stopped .off (cfg s).dtD) s, .done)

/-- What a waiting command other than RELEASE does at step 4, by the state (R31). DESIGN CHOICE: START in TRIPPED and CLEAR_TRIP
outside TRIPPED are answered by the table of R31, WRONG_STATE, and START in RUNNING NO_CHANGE, also while an APPLY_CONFIG is in
flight, where R159 says CONFIG_BUSY of START and CLEAR_TRIP alike (notes/assumptions/34.md). -/
def drumTake (code : ChannelCode) (accepted : Bool) (s : State) : State × Outcome :=
  match code, s.drum.state with
  | .start, .running => (s, .noChange)
  | .start, .tripped => (s, .wrongState)
  | .start, _ => drumStart accepted s
  | .brake, .braking => (s, .noChange)
  | .brake, .tripped => (s, .wrongState)
  | .brake, _ => (drumBrake s, .done)
  | .clearTrip, .tripped => drumClear s
  | .clearTrip, _ => (s, .wrongState)
  | _, _ => (s, .wrongState)

/-- Step 4 of the drum boundary (R31). -/
def drumCommandStep (accepted : Bool) (s : State) : State :=
  match s.drum.waiting with
  | some c =>
    let r := drumTake c.code accepted (takeWaitingDrum s)
    commandDone .d c.tag c.code.code r.2 r.1
  | none => s

/-- Step 5 of the drum boundary: starvation (R35). STARVED with SafeAction SHORT is a driven state, and R138 applies to
its entry. -/
def drumStarveStep (s : State) : State :=
  if s.drum.state = .running ∧ s.drum.missCount = (cfg s).missLimit then
    let a := (cfg s).safeAction
    raise .stall
      (if a = .short ∧ gateAsserted .d s then
        tripDrum .gate (modDrum (fun d => { d with state := .starved, missCount := 0 }) s)
      else modDrum (fun d => d.quiet .starved a (cfg s).dtD) s)
  else s

/-! ### The boundary, step 6 (R37, R38, R54) -/

/-- A phase at the start of a RUNNING period: an up edge at t = 0 for a phase with d = T, the low position for the
others; a phase that keeps its position across the boundary makes no switching (R26, R28). -/
def runLeg (dt up d : Nat) (l : Leg) : Leg :=
  if up = 0 ∧ 0 < d then l.upEdge dt
  else if l.pos = .float then l.toLow dt
  else l.downEdge dt

/-- The time of a phase's up edge in the period that starts at B, none when it falls on the boundary or d = 0 (R26). -/
def upEdgeAt (b : Tick) (up d : Nat) : Option Tick := if up = 0 ∨ d = 0 then none else some (b + ticks up)

/-- The time of a phase's down edge, t = 2T - DOWN, none when it falls on the next boundary or d = 0 (R26). -/
def downEdgeAt (b : Tick) (half down d : Nat) : Option Tick :=
  if down = 0 ∨ d = 0 then none else some (b + ticks (2 * half - down))

/-- The edges of a RUNNING period (R26, R53). -/
def Drum.runEdges (x : Drum) (b : Tick) (half dt : Nat) (r : WindowRecord) (duty : Tri Nat) : Drum :=
  { x with
    upAt := { u := upEdgeAt b r.up.u duty.u, v := upEdgeAt b r.up.v duty.v, w := upEdgeAt b r.up.w duty.w },
    downAt := { u := downEdgeAt b half r.down.u duty.u, v := downEdgeAt b half r.down.v duty.v,
                w := downEdgeAt b half r.down.w duty.w },
    legs := { u := runLeg dt r.up.u duty.u x.legs.u, v := runLeg dt r.up.v duty.v x.legs.v,
              w := runLeg dt r.up.w duty.w x.legs.w } }

/-- A drum request of the new period (R54, R38). -/
def drumRequest (s : State) (b : Bank) (sl : Slot) (input : Fin 8) (inst : Tick) (lateMax : BitVec 8) : Request :=
  { origin := .d, slot := sl, bank := some b, tag := s.drum.periodCount, input := .ext input, inst := inst,
    lateMax := some lateMax, cls := .drum, pin := none }

/-- A status that the layout writes into a drum slot that is not placed (R37, R39). -/
def layoutStatus (b : Bank) (sl : Slot) (st : SlotStatus) (s : State) : State :=
  match slotOffset .d sl with
  | some off => rewriteResults .d b off 1 (modDrumBank b (fun x => x.modSlot sl (fun r => { r with status := st })) s)
  | none => s

/-- The turn of one shunt slot at a RUNNING layout: offered for an OPEN window with INSTANT = B + edge - Lead and
LATE_MAX = Lead - 16, NARROW written for a narrow one (R37, R54). -/
def layoutShunt (b : Bank) (sl : Slot) (win : Window) (edge : Nat) (s : State) : State :=
  match win with
  | .open =>
    offer (drumRequest s b sl 0 (s.now + ticks edge - ticks (cfg s).lead) (BitVec.ofNat 8 ((cfg s).lead - 16))) s
  | .narrow => layoutStatus b sl .narrow s
  | .unused => s

/-- The turn of one user slot (R38). -/
def layoutUser (b : Bank) (sl : Slot) (u : UserSlot) (half : Nat) (s : State) : State :=
  match u.input with
  | none => s
  | some n =>
    if 2 * half ≤ u.atTick.toNat then layoutStatus b sl .badInstant s
    else offer (drumRequest s b sl n (s.now + u.atTick.setWidth 32) u.lateMax) s

/-- The half-period of the period that a boundary lays out: PERIOD of the LIVE bank, 1250 without one (R23). -/
def layoutHalf (s : State) : Nat :=
  match liveBank .d s with
  | some b => (s.drum.bank b).plan.period.toNat
  | none => Config.drumIdleHalf

/-- The window results of the new period, every field of them written (R44). -/
def writeWindows (b : Bank) (r : WindowRecord) (s : State) : State :=
  rewriteResults .d b 22 17 (modDrumBank b (fun x => { x with window := r }) s)

/-- The windows and edges of the new period: computed in RUNNING, written as not computed otherwise (R37, R44). -/
def layoutPeriod (b : Bank) (half : Nat) (s : State) : State :=
  if s.drum.state = .running then
    let plan := (s.drum.bank b).plan
    let r := layoutWindows half (cfg s).settle (cfg s).lead plan
    modDrum (fun d => d.runEdges s.now half (cfg s).dtD r (plan.duty.map (appliedDuty half)))
      (writeWindows b r s)
  else writeWindows b notComputed s

/-- The offers of the new period, one at a time: SHUNT_A, SHUNT_B, U1, U2 (R37). -/
def layoutOffers (b : Bank) (half : Nat) (s : State) : State :=
  let plan := (s.drum.bank b).plan
  let r := (s.drum.bank b).window
  let s1 := layoutShunt b .shuntA r.winA r.t2 s
  let s2 := layoutShunt b .shuntB r.winB r.t3 s1
  let s3 := layoutUser b .u1 plan.u1 half s2
  layoutUser b .u2 plan.u2 half s3

/-- Step 6 of the drum boundary (R37): the period's T is fixed, the windows and edges are laid out, and the requests
offered; with no LIVE bank the drum offers nothing. -/
def drumLayoutStep (s : State) : State :=
  let half := layoutHalf s
  let s1 := modDrum (fun d => { d with periodStart := s.now, half := half }) s
  match liveBank .d s1 with
  | some b => layoutOffers b half (layoutPeriod b half s1)
  | none => s1

/-- Step 1 of the drum boundary with its opening: PERIOD_COUNT rises, and the drum's requests of the ending period are
removed with DROPPED_BOUNDARY (R24, R36). -/
def drumDropStep (s : State) : State :=
  dropEntries .d .droppedBoundary (fun _ => true) (modDrum (fun d => { d with periodCount := d.periodCount + 1 }) s)

/-- The drum boundary (R33). -/
def drumBoundaryEvent (s : State) : State :=
  let r := drumPlanStep (drumDropStep s)
  drumLayoutStep (drumStarveStep (drumCommandStep r.2 r.1))

/-- Whether the drum timebase has come back to 0: the period start plus 2T (R23). -/
def drumBoundaryDue (s : State) : Bool := reached s.now (s.drum.periodStart + ticks (2 * s.drum.half))

/-! ### Phase edges (R26) -/

/-- Whether an edge of a phase is due. -/
def phaseEdgeDue (ph : Phase) (s : State) : Bool :=
  reachedOpt s.now (s.drum.upAt.get ph) || reachedOpt s.now (s.drum.downAt.get ph)

/-- The edge of a phase that is due, the up edge before the down edge (R26, R27). -/
def phaseEdgeEvent (ph : Phase) (s : State) : State :=
  let dt := (cfg s).dtD
  if reachedOpt s.now (s.drum.upAt.get ph) then
    modDrum (fun d => { d with upAt := d.upAt.set ph none, legs := d.legs.set ph ((d.legs.get ph).upEdge dt) }) s
  else
    modDrum (fun d => { d with downAt := d.downAt.set ph none, legs := d.legs.set ph ((d.legs.get ph).downEdge dt) }) s

/-! ### Hall capture (R40 to R42) -/

/-- Whether a Hall edge is due: a filter's count has reached HallFilter (R40). -/
def hallEdgeDue (s : State) : Bool :=
  s.drum.h1.due (cfg s).hallFilter || s.drum.h2.due (cfg s).hallFilter || s.drum.h3.due (cfg s).hallFilter

/-- A Hall filter that takes the new level when its count has reached HallFilter. -/
def PinFilter.acceptIfDue (len : Nat) (f : PinFilter) : PinFilter := if f.due len then f.accept else f

/-- The drum with every due Hall level accepted; two inputs accepted in one tick make one edge (R40). -/
def Drum.acceptHall (len : Nat) (d : Drum) : Drum :=
  { d with h1 := d.h1.acceptIfDue len, h2 := d.h2.acceptIfDue len, h3 := d.h3.acceptIfDue len }

/-- The record of a Hall edge: TIME is NOW less HallFilter, VALID is clear for the states 0 and 7 (R41). -/
def hallRecord (now : Tick) (len : Nat) (st : BitVec 3) : HallRecord :=
  { time := now - ticks len, state := st, valid := decide (st ≠ 0) && decide (st ≠ 7) }

/-- The Hall list with a record appended; a full list loses its oldest record, and DROPPED rises (R41). -/
def DrumBank.appendHall (r : HallRecord) (b : DrumBank) : DrumBank :=
  if b.hall.length < 4 then { b with hall := b.hall ++ [r] }
  else { b with hall := b.hall.drop 1 ++ [r], hallDropped := satInc b.hallDropped }

/-- The record of an edge goes to a bank's Hall list: the list word and the new record are written, or, where the list
was full, the list word and all four records (R41, 11.6). -/
def appendHall (b : Bank) (r : HallRecord) (s : State) : State :=
  let n := (s.drum.bank b).hall.length
  let s1 := modDrumBank b (DrumBank.appendHall r) s
  if n < 4 then rewriteResults .d b (57 + 3 * n) 3 (rewriteResults .d b 56 1 s1) else rewriteResults .d b 56 13 s1

/-- A Hall edge: the new state is accepted, and the record goes to the LIVE bank's list, or HALL_UNRECORDED rises (R41,
R42). -/
def hallEdgeEvent (s : State) : State :=
  let s1 := modDrum (fun d => d.acceptHall (cfg s).hallFilter) s
  match liveBank .d s1 with
  | some b => appendHall b (hallRecord s.now (cfg s).hallFilter s1.drum.hallState) s1
  | none => modDrum (fun d => { d with hallUnrecorded := satInc d.hallUnrecorded }) s1

/-- A Hall pin takes a raw level (R40). -/
def setHallPin (pin : HallPin) (level : Bool) (d : Drum) : Drum :=
  match pin with
  | .h1 => { d with h1 := d.h1.setRaw level }
  | .h2 => { d with h2 := d.h2.setRaw level }
  | .h3 => { d with h3 := d.h3.setRaw level }

end Sys2Proof.Machine
end

