-- ==== Sys2Proof/Machine/Pump.lean ====
section
/-! DEFINITION. The Pump Timing Channels (04_pump_timing_channels.md): STOP, the steps of the pump boundary, commutation,
the start table, zero crossings, the closed loop and the modulation edges. -/

namespace Sys2Proof.Machine

/-! ### Leaving the driven states, and STOP -/

/-- The pump with its modulation ceased, its commutation state cleared, and its outputs in OFF or SHORT, in a state
other than ALIGN, RAMP and RUN (R67, R83). -/
def Pump.quiet (x : Pump) (st : PumpState) (a : SafeOut) (dt : Nat) : Pump :=
  { x with state := st, duty := 0, pwmOn := false, onAt := none, offAt := none, comm := clearComm,
           legs := safeLegs (decide (x.state = .braking)) a dt x.legs }

/-- The dead time DT_P of a pump. -/
def pumpDead (p : PumpId) (s : State) : Nat := ((cfg s).pump p).deadTime

/-- What STOP does to a pump in ALIGN, RAMP, RUN, BRAKING or STALLED (R69). -/
def stopPump (p : PumpId) (s : State) : State :=
  dropEntries (pumpChannel p) .droppedStop (fun r => decide (r.slot = .slot0))
    (leavePump p (fun x => x.quiet .stopped .off (pumpDead p s)) s)

/-- A stall: STALLED with its reason, outputs OFF at once, the commutation state cleared, STALL raised (R73, R81). -/
def stallPump (p : PumpId) (r : StallReason) (s : State) : State :=
  raise .stall (leavePump p (fun x => x.quiet (.stalled r) .off (pumpDead p s)) s)

/-! ### Commutation (R65, R66, R80, R81) -/

/-- The entry of a start table at an index. -/
def rampEntry (c : PumpConfig) (j : Nat) : RampEntry := c.table.getD j { interval := 0, duty := 0, steps := 0 }

/-- The length from which a step's blanking is taken: S in RUN, the INTERVAL of the current entry in RAMP (R80). -/
def Pump.blankBasis (x : Pump) (pc : PumpConfig) : Nat :=
  if x.state = .run then x.comm.est else (rampEntry pc x.comm.entry).interval

/-- The length of a blanking interval, max(BlankMin, basis x BlankFrac div 64) (R80). -/
def blankLength (c : Shadow) (basis : Nat) : Nat := max c.blankMin (basis * c.blankFrac / 64)

/-- The pump after a commutation: the index moved one position, the outputs switched to the new step, the zero-crossing
state cleared, the blanking started, and in RUN the timeout set (R65, R66, R76, R80, R81). -/
def Pump.commutated (x : Pump) (now : Tick) (c : Shadow) (pc : PumpConfig) : Pump :=
  let i := nextStep pc.direction x.stepIndex
  { x with
    stepIndex := i,
    legs := stepLegs pc.deadTime x.pwmOn (sixStep i) x.legs,
    comm :=
      { x.comm with
        zc := clearZc,
        prevConfirmed := x.comm.zc.confirmed,
        blankEnd := now + ticks (blankLength c (x.blankBasis pc)),
        commAt := none,
        timeoutAt := if x.state = .run then some (now + ticks x.comm.est + ticks (x.comm.est / 2)) else none } }

/-- A commutation, one event of the pump, which adds one to the LIVE bank's COMMUTATIONS (R65). -/
def commutate (p : PumpId) (s : State) : State :=
  modLivePumpBank p (fun b => { b with commutations := satInc b.commutations })
    (modPump p (fun x => x.commutated s.now (cfg s) ((cfg s).pump p)) s)

/-- The commutation state of a pump changes. -/
def modComm (p : PumpId) (f : CommState → CommState) (s : State) : State :=
  modPump p (fun x => { x with comm := f x.comm }) s

/-! ### The boundary, steps 1 to 3 (R64, R70, R71) -/

/-- The waiting command is gone. -/
def takeWaitingPump (p : PumpId) (s : State) : State := modPump p (fun x => { x with waiting := none }) s

/-- Whether RELEASE is performed in a pump state (R70). -/
def PumpState.releases (st : PumpState) : Bool :=
  match st with
  | .stopped => true
  | .stalled _ => true
  | .tripped => true
  | _ => false

/-- Steps 1 and 2 of the pump boundary: a waiting RELEASE is taken by the state, and a performed one replaces the take
or hold (R64, R70). -/
def pumpPlanStep (p : PumpId) (s : State) : State :=
  match (s.pump p).waiting with
  | some ⟨.release, tag⟩ =>
    if (s.pump p).state.releases then
      commandDone (pumpChannel p) tag ChannelCode.release.code .done
        (performRelease (pumpChannel p) (takeWaitingPump p s))
    else
      takeOrHoldPump p
        (commandDone (pumpChannel p) tag ChannelCode.release.code .wrongState (takeWaitingPump p s))
  | _ => takeOrHoldPump p s

/-- The entry into ALIGN (R72): step index 0, the commutation state cleared, and the align timer started; STEP_INDEX and
MISS_COUNT are written (R72, R83). The layout of the same boundary drives the pattern of step 0. -/
def enterAlign (p : PumpId) (s : State) : State :=
  writeMissCount p (putWord (controlAddr (pumpChannel p) offStepIndex) 0
    (modPump p (fun x =>
      { x with
        state := .align,
        stepIndex := 0,
        comm := { clearComm with alignAt := some (s.now + ticks ((cfg s).alignTime * Config.ticksPerMs)) } }) s))

/-- START in STOPPED or STALLED (R71). -/
def pumpStart (p : PumpId) (s : State) : State × Outcome :=
  if s.gcu.apply.isSome then (s, .configBusy)
  else if !gateQualified (pumpChannel p) s then (s, .inputsActive)
  else if (liveBank (pumpChannel p) s).isNone then (s, .noPlan)
  else (enterAlign p s, .done)

/-- The entry into BRAKING (R67, R70). With GATE_OK_P asserted TRM trips the pump in the same event, and the outputs go
from their earlier condition directly to OFF (R138). -/
def pumpBrake (p : PumpId) (s : State) : State :=
  if gateAsserted (pumpChannel p) s then
    tripPump p .gate (leavePump p (fun x => { x with state := .braking, comm := clearComm }) s)
  else leavePump p (fun x => x.quiet .braking .short (pumpDead p s)) s

/-- CLEAR_TRIP in TRIPPED (R71). -/
def pumpClear (p : PumpId) (s : State) : State × Outcome :=
  if s.gcu.apply.isSome then (s, .configBusy)
  else if inputsActive (pumpChannel p) s then (s, .inputsActive)
  else (modPump p (fun x => x.quiet .stopped .off (pumpDead p s)) s, .done)

/-- What a waiting command other than RELEASE does at step 3, by the state (R70). DESIGN CHOICE: START in BRAKING and TRIPPED and
CLEAR_TRIP outside TRIPPED are answered by the table of R70, WRONG_STATE, and START in ALIGN, RAMP and RUN NO_CHANGE, also while
an APPLY_CONFIG is in flight, where R159 says CONFIG_BUSY of START and CLEAR_TRIP alike (notes/assumptions/34.md). -/
def pumpTake (p : PumpId) (code : ChannelCode) (s : State) : State × Outcome :=
  match code, (s.pump p).state with
  | .start, .stopped => pumpStart p s
  | .start, .stalled _ => pumpStart p s
  | .start, .align => (s, .noChange)
  | .start, .ramp => (s, .noChange)
  | .start, .run => (s, .noChange)
  | .start, .braking => (s, .wrongState)
  | .start, .tripped => (s, .wrongState)
  | .brake, .braking => (s, .noChange)
  | .brake, .stalled _ => (s, .wrongState)
  | .brake, .tripped => (s, .wrongState)
  | .brake, _ => (pumpBrake p s, .done)
  | .clearTrip, .tripped => pumpClear p s
  | .clearTrip, _ => (s, .wrongState)
  | _, _ => (s, .wrongState)

/-- Step 3 of the pump boundary (R64, R70). -/
def pumpCommandStep (p : PumpId) (s : State) : State :=
  match (s.pump p).waiting with
  | some c =>
    let r := pumpTake p c.code (takeWaitingPump p s)
    commandDone (pumpChannel p) c.tag c.code.code r.2 r.1
  | none => s

/-! ### The boundary, step 4 (R63, R66, R82, R85, R86) -/

/-- The plan of a pump's LIVE bank. -/
def livePumpPlan (p : PumpId) (s : State) : Option PumpPlan :=
  (liveBank (pumpChannel p) s).map (fun b => ((s.pump p).bank b).plan)

/-- The duty d of the period that a boundary lays out, by the state (R82); 0 where no high side is energised. -/
def layoutDuty (p : PumpId) (tp : Nat) (s : State) : Nat :=
  match (s.pump p).state with
  | .align => (cfg s).alignDuty
  | .ramp => min (rampEntry ((cfg s).pump p) (s.pump p).comm.entry).duty tp
  | .run => clampNat (((livePumpPlan p s).map (fun q => q.duty.toNat)).getD 0) (cfg s).zcMinDuty tp
  | _ => 0

/-- The period's Tp and duty fixed, and the modulation laid out: the high side on from t = Tp - d to t = Tp + d, over
the whole period with d = Tp, never with d = 0 (R63, R66, R82). -/
def Pump.laidOut (x : Pump) (b : Tick) (tp d : Nat) (dt : Nat) : Pump :=
  let on := x.state.drives && decide (tp ≤ d)
  let edges := x.state.drives && decide (0 < d) && decide (d < tp)
  { x with
    periodStart := b,
    half := tp,
    peakDue := true,
    duty := d,
    pwmOn := on,
    onAt := if edges then some (b + ticks (tp - d)) else none,
    offAt := if edges then some (b + ticks (tp + d)) else none,
    legs := if x.state.drives then stepLegs dt on (sixStep x.stepIndex) x.legs else x.legs }

/-- The DUTY flags of a RUN layout in which the clamp acts (R82). -/
def PumpBank.dutyFlags (b : PumpBank) (lo tp : Nat) : PumpBank :=
  { b with
    dutyRaised := b.dutyRaised || decide (b.plan.duty.toNat < lo),
    dutyClamped := b.dutyClamped || decide (tp < b.plan.duty.toNat) }

/-- The shunt input of a pump's SLOT0: PSHUNT1 is input 1, PSHUNT2 input 2 (R86). -/
def pumpShunt : PumpId → Fin 8
  | .p1 => 1
  | .p2 => 2

/-- A pump request (R86). -/
def pumpRequest (p : PumpId) (sl : Slot) (b : Bank) (input : Fin 8) (inst : Tick) (lateMax : Nat) : Request :=
  { origin := channelOrigin (pumpChannel p), slot := sl, bank := some b, tag := 0, input := .ext input, inst := inst,
    lateMax := some (BitVec.ofNat 8 lateMax), cls := .pump, pin := none }

/-- A slot countdown at a layout: 0 with EVERY 0, EVERY - 1 when it was 0, one less otherwise (R86). -/
def nextCountdown (every n : Nat) : Nat := if every = 0 then 0 else if n = 0 then every - 1 else n - 1

/-- Whether a slot is due at a layout: it is on and its countdown is 0 (R86). -/
def slotDue (every n : Nat) : Bool := decide (every ≠ 0) && decide (n = 0)

/-- The turn of SLOT0 at a layout (R86). -/
def layoutSlot0 (p : PumpId) (b : Bank) (tp : Nat) (s : State) : State :=
  let every := appliedEvery ((s.pump p).bank b).plan.every0
  let due := slotDue every (s.pump p).countdown0
  let s1 := modPump p (fun x => { x with countdown0 := nextCountdown every x.countdown0 }) s
  if due && (s.pump p).state.drives then
    offer (pumpRequest p .slot0 b (pumpShunt p) (s.now + ticks tp) (cfg s).pumpLateMax) s1
  else s1

/-- The turn of SLOT1 at a layout (R86). -/
def layoutSlot1 (p : PumpId) (b : Bank) (tp : Nat) (s : State) : State :=
  let plan := ((s.pump p).bank b).plan
  let every := appliedEvery plan.every1
  let due := slotDue every (s.pump p).countdown1
  let s1 := modPump p (fun x => { x with countdown1 := nextCountdown every x.countdown1 }) s
  if due then
    offer (pumpRequest p .slot1 b plan.appliedInput (if plan.valley1 then s.now else s.now + ticks tp)
      (cfg s).pumpLateMax) s1
  else s1

/-- Whether the clamp of the duty acts in a RUN layout (R82). -/
def PumpBank.dutyClampActs (b : PumpBank) (lo tp : Nat) : Bool :=
  decide (b.plan.duty.toNat < lo) || decide (tp < b.plan.duty.toNat)

/-- The DUTY flags of a RUN layout in the bank, written where the clamp acts (R82). -/
def layoutDutyFlags (p : PumpId) (b : Bank) (tp : Nat) (s : State) : State :=
  if ((s.pump p).bank b).dutyClampActs (cfg s).zcMinDuty tp then
    rewriteResults (pumpChannel p) b 28 1 (modPumpBank p b (fun x => x.dutyFlags (cfg s).zcMinDuty tp) s)
  else s

/-- What the layout does in the LIVE bank: PERIODS rises, in RUN the DUTY flags are set where the clamp acts, and the
slots are looked at, SLOT0 first (R64, R82, R86). -/
def layoutPumpBank (p : PumpId) (b : Bank) (tp : Nat) (s : State) : State :=
  let s1 := modPumpBank p b (fun x => { x with periods := satInc x.periods }) s
  let s2 := if (s.pump p).state = .run then layoutDutyFlags p b tp s1 else s1
  layoutSlot1 p b tp (layoutSlot0 p b tp s2)

/-- Step 4 of the pump boundary (R64). -/
def pumpLayoutStep (p : PumpId) (s : State) : State :=
  let tp := ((cfg s).pump p).tp
  let s1 := modPump p (fun x => x.laidOut s.now tp (layoutDuty p tp s) (pumpDead p s)) s
  match liveBank (pumpChannel p) s1 with
  | some b => layoutPumpBank p b tp s1
  | none => s1

/-- The pump boundary (R64). -/
def pumpBoundaryEvent (p : PumpId) (s : State) : State :=
  pumpLayoutStep p (pumpCommandStep p (pumpPlanStep p s))

/-- Whether a pump timebase has come back to 0: the period start plus 2Tp (R63). -/
def pumpBoundaryDue (p : PumpId) (s : State) : Bool :=
  reached s.now ((s.pump p).periodStart + ticks (2 * (s.pump p).half))

/-! ### Align and ramp (R72 to R74) -/

/-- Whether the align timer has run out (R72). -/
def alignDue (p : PumpId) (s : State) : Bool :=
  decide ((s.pump p).state = .align) && reachedOpt s.now (s.pump p).comm.alignAt

/-- The expiry of the align timer: the pump enters RAMP under entry 0 and commutates (R72, R73). -/
def alignExpiry (p : PumpId) (s : State) : State :=
  let e := rampEntry ((cfg s).pump p) 0
  commutate p (modPump p (fun x =>
    { x with
      state := .ramp,
      comm := { x.comm with alignAt := none, entry := 0, begun := 1, rampAt := some (s.now + ticks e.interval) } }) s)

/-- Whether a forced step end is due (R73). -/
def rampEndDue (p : PumpId) (s : State) : Bool :=
  decide ((s.pump p).state = .ramp) && reachedOpt s.now (s.pump p).comm.rampAt

/-- A forced step end (R73, R74): an unconfirmed step sets the good count to 0; then the next step of the entry, the
first step of the next entry, or the stall NO_LOCK. -/
def rampStepEndEvent (p : PumpId) (s : State) : State :=
  let pc := (cfg s).pump p
  let s1 := if (s.pump p).comm.zc.confirmed then s else modComm p (fun c => { c with good := 0 }) s
  let j := (s.pump p).comm.entry
  if (s.pump p).comm.begun < (rampEntry pc j).steps then
    commutate p (modComm p (fun c =>
      { c with begun := c.begun + 1, rampAt := some (s.now + ticks (rampEntry pc j).interval) }) s1)
  else if j + 1 < pc.table.length then
    commutate p (modComm p (fun c =>
      { c with entry := j + 1, begun := 1, rampAt := some (s.now + ticks (rampEntry pc (j + 1)).interval) }) s1)
  else stallPump p .noLock s1

/-! ### Zero crossings (R75 to R79) -/

/-- The zero-crossing state after a sample: a pre-crossing level sets the run to 0, a post-crossing one raises it and
keeps the time of the run's first sample (R76). -/
def ZcState.sample (z : ZcState) (now : Tick) (post : Bool) : ZcState :=
  if post then
    if z.run = 0 then
      { z with run := 1, firstTime := now, firstAfterBlank := !z.sampled, sampled := true }
    else { z with run := z.run + 1, sampled := true }
  else { z with run := 0, sampled := true }

/-- ZC_TIME of a confirmed crossing: the first sample's time, less Tp unless the crossing is EARLY (R76). -/
def ZcState.zcTime (z : ZcState) (tp : Nat) : Tick :=
  if z.firstAfterBlank then z.firstTime else z.firstTime - ticks tp

/-- The interval to a crossing, saturating at 1,048,575 (R77). -/
def zcInterval (zc last : Tick) : Nat := min (zc - last).toNat Config.maxInterval

/-- The commutation state after a confirmation with a ZC_TIME: the interval, valid when the step before had a confirmed
crossing, the validity of the last two intervals, the timeout ended and the consecutive-miss count 0 (R77, R79,
R81). -/
def CommState.confirm (c : CommState) (zc : Tick) : CommState :=
  let iv := if c.prevConfirmed then some (zcInterval zc c.lastZc) else none
  { c with
    zc := { c.zc with confirmed := true },
    prevInterval := c.interval,
    interval := iv,
    lastValid := if c.prevConfirmed then iv else c.lastValid,
    lastZc := zc,
    timeoutAt := none,
    missCount := 0 }

/-- The mean of the last two intervals, where both are valid (R78). -/
def CommState.mean (c : CommState) : Option Nat :=
  match c.interval, c.prevInterval with
  | some a, some b => some ((a + b) / 2)
  | _, _ => none

/-- The delay D = S x (32 - A) div 64 (R79). -/
def commDelay (est advance : Nat) : Nat := est * (32 - advance) / 64

/-- The applied advance of the LIVE plan (R79). -/
def liveAdvance (p : PumpId) (s : State) : Nat := ((livePumpPlan p s).map PumpPlan.appliedAdvance).getD 0

/-- What RUN does with a confirmed crossing: schedule the commutation for ZC_TIME + D, or commutate at once with
LATE_COMM when that time has been reached (R79), or when the confirmation is taken first at a tick at which the step's
timeout is reached, `timedOut` (R81; DEDUCED where ZC_TIME + D lies ahead still, notes/assumptions/27.md). -/
def scheduleComm (p : PumpId) (zc : Tick) (timedOut : Bool) (s : State) : State :=
  let t := zc + ticks (commDelay (s.pump p).comm.est (liveAdvance p s))
  if timedOut || reached s.now t then
    modLivePumpBank p (fun b => { b with lateComm := satInc b.lateComm }) (commutate p s)
  else modComm p (fun c => { c with commAt := some t }) s

/-- S and STEP_EST take a new estimate (R74, R78). -/
def setEstimate (p : PumpId) (est : Nat) (s : State) : State :=
  rewriteLive p 24 2
    (modLivePumpBank p (fun b => { b with stepEst := est }) (modComm p (fun c => { c with est := est }) s))

/-- Lock (R74). LockCount consecutive good steps leave two valid intervals. -/
def lockPump (p : PumpId) (zc : Tick) (s : State) : State :=
  let s1 := setEstimate p (((s.pump p).comm.mean).getD 0) s
  let s2 := modPump p (fun x =>
    { x with state := .run, comm := { x.comm with rampAt := none, missCount := 0 } }) s1
  scheduleComm p zc false (raise .lock s2)

/-- What follows a confirmation in RAMP: a good step, and at LockCount the lock (R74). -/
def confirmRamp (p : PumpId) (zc : Tick) (s : State) : State :=
  let s1 := modComm p (fun c => { c with good := c.good + 1 }) s
  if (cfg s).lockCount ≤ (s1.pump p).comm.good then lockPump p zc s1 else s1

/-- What follows a confirmation in RUN: the step estimate and the commutation that ends the step (R78, R79). -/
def confirmRun (p : PumpId) (zc : Tick) (timedOut : Bool) (s : State) : State :=
  let s1 := match (s.pump p).comm.mean with
    | some m => setEstimate p m s
    | none => s
  scheduleComm p zc timedOut s1

/-- A confirmation (R76 to R79): ZC_TIME, the EARLY count, the interval with LAST_INTERVAL where it is valid, then what
the state does with it. -/
def confirmCrossing (p : PumpId) (s : State) : State :=
  let z := (s.pump p).comm.zc
  let zc := z.zcTime (s.pump p).half
  let s1 := modComm p (fun c => c.confirm zc) s
  let s2 := if z.firstAfterBlank then modLivePumpBank p (fun b => { b with early := satInc b.early }) s1 else s1
  let s3 := match (s1.pump p).comm.interval with
    | some i => rewriteLive p 26 2 (modLivePumpBank p (fun b => { b with lastInterval := i }) s2)
    | none => s2
  if (s.pump p).state = .run then confirmRun p zc (reachedOpt s.now (s.pump p).comm.timeoutAt) s3
  else confirmRamp p zc s3

/-- Whether the peak of the period is due (R63). -/
def peakReached (p : PumpId) (s : State) : Bool :=
  (s.pump p).peakDue && reached s.now ((s.pump p).periodStart + ticks (s.pump p).half)

/-- Whether a peak yields a sample that counts: RAMP or RUN, no crossing confirmed in the step, and the end of the
blanking reached (R75, R80). -/
def samplesNow (p : PumpId) (s : State) : Bool :=
  (decide ((s.pump p).state = .ramp) || decide ((s.pump p).state = .run)) && !(s.pump p).comm.zc.confirmed
    && reached s.now (s.pump p).comm.blankEnd

/-- The peak (R75, R76): the comparator's level is sampled where the peak yields a sample, and the crossing is confirmed
when the run reaches ZcFilter. -/
def peakEvent (p : PumpId) (level : Bool) (s : State) : State :=
  let s1 := modPump p (fun x => { x with peakDue := false }) s
  if samplesNow p s then
    let post := decide (level = postLevel ((cfg s).pump p).direction (s.pump p).stepIndex)
    let s2 := modComm p (fun c => { c with zc := c.zc.sample s.now post }) s1
    if post && decide ((cfg s).zcFilter ≤ (s2.pump p).comm.zc.run) then confirmCrossing p s2 else s2
  else s1

/-! ### Closed loop (R79, R81) -/

/-- Whether a scheduled commutation is due (R79). -/
def commDue (p : PumpId) (s : State) : Bool :=
  decide ((s.pump p).state = .run) && reachedOpt s.now (s.pump p).comm.commAt

/-- Whether the timeout of the step is reached with no crossing confirmed (R81). -/
def timeoutDue (p : PumpId) (s : State) : Bool :=
  decide ((s.pump p).state = .run) && !(s.pump p).comm.zc.confirmed && reachedOpt s.now (s.pump p).comm.timeoutAt

/-- A missed step (R81): a commutation, MISSES and the consecutive-miss count up by one, and the stall ZC_LOST when the
count reaches MissLimitP. -/
def missStep (p : PumpId) (s : State) : State :=
  let s1 := modLivePumpBank p (fun b => { b with misses := satInc b.misses }) (commutate p s)
  let s2 := modComm p (fun c => { c with missCount := c.missCount + 1 }) s1
  if (cfg s).missLimitP ≤ (s2.pump p).comm.missCount then stallPump p .zcLost s2 else s2

/-! ### Modulation edges and dead times (R66, R27) -/

/-- Whether a modulation edge of a pump is due. -/
def pwmEdgeDue (p : PumpId) (s : State) : Bool :=
  reachedOpt s.now (s.pump p).onAt || reachedOpt s.now (s.pump p).offAt

/-- The pump with its modulation on or off, and in ALIGN, RAMP and RUN the high-side phase of its step driven so; the
other two phases are left (R66). -/
def Pump.modulate (x : Pump) (on : Bool) (dt : Nat) : Pump :=
  let top := (sixStep x.stepIndex).high
  { x with pwmOn := on,
           legs := if x.state.drives then x.legs.set top (highLeg dt on (x.legs.get top)) else x.legs }

/-- The modulation edge that is due, the one at t = Tp - d before the one at t = Tp + d (R66). -/
def pwmEdgeEvent (p : PumpId) (s : State) : State :=
  let dt := pumpDead p s
  if reachedOpt s.now (s.pump p).onAt then modPump p (fun x => { x.modulate true dt with onAt := none }) s
  else modPump p (fun x => { x.modulate false dt with offAt := none }) s

/-- The phases of a channel. -/
def channelLegs (ch : Channel) (s : State) : Tri Leg :=
  match ch with
  | .d => s.drum.legs
  | .p1 => s.pump1.legs
  | .p2 => s.pump2.legs

/-- The end of a dead time in one phase of a channel (R27, R66). -/
def deadTimeEvent (ch : Channel) (ph : Phase) (s : State) : State :=
  let legs := channelLegs ch s
  let legs' := legs.set ph (legs.get ph).deadTimeEnd
  match ch with
  | .d => modDrum (fun d => { d with legs := legs' }) s
  | .p1 => modPump .p1 (fun x => { x with legs := legs' }) s
  | .p2 => modPump .p2 (fun x => { x with legs := legs' }) s

/-- Whether a dead time has run out in one phase of a channel. -/
def deadTimeDueIn (ch : Channel) (ph : Phase) (s : State) : Bool := ((channelLegs ch s).get ph).deadTimeDue

end Sys2Proof.Machine
end

