-- ==== Sys2Proof/Machine/Commands.lean ====
section
/-! DEFINITION. Channel command events: what a write to a channel's COMMAND word does at once (R29, R30, R69). -/

namespace Sys2Proof.Machine

/-- The waiting command of a channel (R29, R69). -/
def waitingOf (ch : Channel) (s : State) : Option WaitingCommand :=
  match ch with
  | .d => s.drum.waiting
  | .p1 => s.pump1.waiting
  | .p2 => s.pump2.waiting

/-- The waiting command of a channel replaced. -/
def setWaiting (ch : Channel) (w : Option WaitingCommand) (s : State) : State :=
  match ch with
  | .d => modDrum (fun d => { d with waiting := w }) s
  | .p1 => modPump .p1 (fun x => { x with waiting := w }) s
  | .p2 => modPump .p2 (fun x => { x with waiting := w }) s

/-- Whether a channel is TRIPPED. -/
def isTripped (ch : Channel) (s : State) : Bool :=
  match ch with
  | .d => decide (s.drum.state = .tripped)
  | .p1 => decide (s.pump1.state = .tripped)
  | .p2 => decide (s.pump2.state = .tripped)

/-- Whether a channel is STOPPED. -/
def isStopped (ch : Channel) (s : State) : Bool :=
  match ch with
  | .d => decide (s.drum.state = .stopped)
  | .p1 => decide (s.pump1.state = .stopped)
  | .p2 => decide (s.pump2.state = .stopped)

/-- STOP carried out on a channel that is neither STOPPED nor TRIPPED (R29, R69). -/
def stopChannel (ch : Channel) (s : State) : State :=
  match ch with
  | .d => stopDrum s
  | .p1 => stopPump .p1 s
  | .p2 => stopPump .p2 s

/-- A waiting command superseded by STOP: written into CMD_REFUSED and discarded (R29, R69). -/
def supersede (ch : Channel) (s : State) : State :=
  match waitingOf ch s with
  | some w => commandRefused ch w.tag w.code.code .superseded (setWaiting ch none s)
  | none => s

/-- STOP, taken at once: WRONG_STATE in TRIPPED with a waiting command left waiting, NO_CHANGE in STOPPED, and DONE with
its effect in every other state; outside TRIPPED it supersedes a waiting command (R29, R69). -/
def stopEvent (ch : Channel) (tag : Byte) (s : State) : State :=
  if isTripped ch s then commandDone ch tag ChannelCode.stop.code .wrongState s
  else if isStopped ch s then commandDone ch tag ChannelCode.stop.code .noChange (supersede ch s)
  else commandDone ch tag ChannelCode.stop.code .done (stopChannel ch (supersede ch s))

/-- START, BRAKE, CLEAR_TRIP or RELEASE: it becomes the waiting command, or is refused with BUSY (R29, R69). -/
def waitEvent (ch : Channel) (code : ChannelCode) (tag : Byte) (s : State) : State :=
  match waitingOf ch s with
  | some _ => commandRefused ch tag code.code .busy s
  | none => setWaiting ch (some { code := code, tag := tag }) s

/-- A command event of a channel (R29, R69). -/
def commandEvent (ch : Channel) (w : Word) (s : State) : State :=
  match channelCodeOf (wordCode w) with
  | none => commandRefused ch (wordTag w) (wordCode w) .badCode s
  | some .stop => stopEvent ch (wordTag w) s
  | some code => waitEvent ch code (wordTag w) s

end Sys2Proof.Machine
end

