-- ==== Sys2Proof/Machine/Global.lean ====
section
/-! DEFINITION. The Global Command Unit (09_configuration_and_global_commands.md): global command events, and the read,
checks and completion of an APPLY_CONFIG. -/

namespace Sys2Proof.Machine

/-! ### Global command events (R153, R155, R160, R161) -/

/-- Whether every channel is STOPPED or TRIPPED (R155). -/
def configLegal (s : State) : Bool :=
  (isStopped .d s || isTripped .d s) && (isStopped .p1 s || isTripped .p1 s) && (isStopped .p2 s || isTripped .p2 s)

/-- The APPLY_CONFIG in flight replaced. -/
def setApply (a : Option ApplyRun) (s : State) : State := { s with gcu := { s.gcu with apply := a } }

/-- The taking of APPLY_CONFIG (R155): WRONG_STATE at once, or in flight from this event. An APPLY_CONFIG that completes
at once with WRONG_STATE is no wake cause: R123 names a completion that succeeds or fails, and R158 tells the power control
of those that end a read (DESIGN CHOICE, notes/assumptions/25.md). -/
def takeApply (tag : Byte) (s : State) : State :=
  if configLegal s then setApply (some { tag := tag, start := s.now, words := [] }) s
  else globalDone tag GlobalCode.applyConfig.code .wrongState 0 s

/-- CLEAR_FAULTS (R161): both records emptied, whatever their words held, and HPAR cleared. -/
def emptyFaults (s : State) : State :=
  putWords parityAddr emptyParity.words
    (putWords accessAddr emptyAccess.words { s with access := emptyAccess, parity := emptyParity, hpar := false })

/-- RECALIBRATE (R119): a sweep on each converter that has none in progress, CVA first. -/
def recalibrateBoth (s : State) : State := recalibrateOne .b (recalibrateOne .a s)

/-- A global command of a known code, with no APPLY_CONFIG in flight (R153). -/
def carryOut (g : GlobalCode) (tag : Byte) (s : State) : State :=
  match g with
  | .applyConfig => takeApply tag s
  | .clearProfile => globalDone tag g.code .done 0 (clearAccount s)
  | .clearFaults => globalDone tag g.code .done 0 (emptyFaults s)
  | .recalibrate => globalDone tag g.code .done 0 (recalibrateBoth s)

/-- A global command event (R153). -/
def globalEvent (w : Word) (s : State) : State :=
  if s.gcu.apply.isSome then globalRefused (wordTag w) (wordCode w) .busy s
  else
    match globalCodeOf (wordCode w) with
    | none => globalRefused (wordTag w) (wordCode w) .badCode s
    | some g => carryOut g (wordTag w) s

/-! ### The read of an APPLY_CONFIG (R156 to R158) -/

/-- SOURCE of a parity failure of the read (R156). -/
def readSource (a : Nat) : ParitySource := if a < tableAddr .p1 then .config else .table

/-- A failed completion: the power control is told, GCMD_DONE is written, APPLYING clears and CMD is raised (R158). -/
def failApply (r : ApplyRun) (o : Outcome) (detail : Nat) (s : State) : State :=
  setApply none (globalDone r.tag GlobalCode.applyConfig.code o detail (wakeCause s))

/-- A successful completion, in the order of R158. R120 gives no order of the two converters: CVA's record is recounted
before CVB's (DESIGN CHOICE, notes/assumptions/24.md). The reports that this work makes to LPR are filtered by the new
shadow, which step 1 has put in place (DEDUCED, notes/assumptions/28.md). -/
def succeedApply (r : ApplyRun) (ws : List Word) (s : State) : State :=
  let s1 := { s with gcu := { s.gcu with shadow := shadowOf ws } }
  let s2 := requalify (recountCal .b (recountCal .a s1))
  setApply none (globalDone r.tag GlobalCode.applyConfig.code .done 0 (wakeCause s2))

/-- Whether the read of the next word of an APPLY_CONFIG has ended: the n-th ends at S + 4n (R156). -/
def configReadDue (s : State) : Bool :=
  match s.gcu.apply with
  | some r => reached s.now (r.start + ticks (4 * (r.words.length + 1)))
  | none => false

/-- Whether the words read make up the full read (R156). -/
def readComplete (ws : List Word) : Bool := decide (ws.length = readLength ws)

/-- The end of the read of one word (R156, R157): its parity, the checks that fall due with it, and the completion. -/
def configReadEvent (r : ApplyRun) (s : State) : State :=
  let a := readAddr r.words r.words.length
  let w := s.mem.read a
  if !w.good then failApply r .parity a (recordParity (readSource a) a s)
  else
    let ws := r.words ++ [w.data]
    if invalidDetail ws ≠ 0 then failApply r .invalid (invalidDetail ws) s
    else if readComplete ws then succeedApply r ws s
    else setApply (some { r with words := ws }) s

end Sys2Proof.Machine
end

