-- ==== Sys2Proof/Machine/Reset.lean ====
section
/-! DEFINITION. The two resets: the state every block takes, the words the part writes as its work starts, RESETn, and
the memory sweep (R171, R172). -/

namespace Sys2Proof.Machine

/-- The words of one channel's control block that a reset writes: BANK_ROLES, LIVE_SEQ and RETIRED_SEQ (R21), the state
words (R43, R88), TRIP_INPUTS and the trip record (R147). DESIGN CHOICE: HALL_UNRECORDED and PERIOD_COUNT, which R43 says
are 0 after a reset and not that they are written, are written too, with good parity whatever they held, as are the words
of the trip record, which R43, R88 and R147 say are cleared to zero (notes/assumptions/31.md). -/
def writeControl (ch : Channel) (stateWords tripWords : List Word) (s : State) : State :=
  putWords (controlAddr ch offTrip) tripWords
    (putWord (controlAddr ch offTripInputs) (s.trm.inputsWord ch)
      (putWords (controlAddr ch offState) stateWords
        (putWords (controlAddr ch offRoles) (s.exch ch).words s)))

/-- The words that the part writes as its work starts after either reset: the three control blocks, the converter status
words, the power word, the calibration words and the profiler block (R21, R43, R88, R111, R121, R125, R134, R147). -/
def writeStart (s : State) : State :=
  putWords profilerAddr s.lpr.words
    (putWords (calAddr .b) s.calB.words
      (putWords (calAddr .a) s.calA.words
        (putWord powerAddr (w16 s.arb.power.code)
          (putWord (convStatusAddr .b) (convStatusWord s.arb.cvb)
            (putWord (convStatusAddr .a) (convStatusWord s.arb.cva)
              (writeControl .p2 s.pump2.words s.pump2.tripWords
                (writeControl .p1 s.pump1.words s.pump1.tripWords
                  (writeControl .d s.drum.words s.drum.tripWords s))))))))

/-- Every block at the state its chapter gives for a reset, on the raw levels of the pins, with the given phases; NOW 0,
both interrupt sets clear, HPAR clear (R171, R172). The fault records and the port are left. -/
def resetBlocks (legsD legs1 legs2 : Tri Leg) (s : State) : State :=
  { s with
    now := 0, intPend := 0, intEn := 0, hpar := false,
    exchD := resetExchange, exchP1 := resetExchange, exchP2 := resetExchange,
    drum := resetDrum s.drum.h1.raw s.drum.h2.raw s.drum.h3.raw legsD,
    pump1 := resetPump legs1, pump2 := resetPump legs2,
    arb := resetArbiter, calA := resetCal, calB := resetCal, lpr := resetProfiler,
    trm := resetTrm s.trm.ocD.raw s.trm.ocP1.raw s.trm.ocP2.raw s.trm.busOv.raw s.trm.gateD.raw s.trm.gateP.raw,
    gcu := resetGlobal }

/-- The blocks reset where they stand: every switch that is on turns off at once. -/
def resetInPlace (s : State) : State :=
  resetBlocks (s.drum.legs.map Leg.toOff) (s.pump1.legs.map Leg.toOff) (s.pump2.legs.map Leg.toOff) s

/-- The soft reset (R172): the blocks reset and their words written; the rest of the memory, the fault records and the
frame in progress are kept. -/
def softResetEvent (s : State) : State := writeStart (resetInPlace s)

/-- RESETn goes low (R163, R171): the part is held, the blocks reset with every gate output off, the frame in progress
abandoned. -/
def resetAssertEvent (s : State) : State :=
  { resetInPlace s with phase := .held, port := { s.port with frame := none } }

/-- Whether the memory sweep has written all its words (R171). -/
def sweepDone (s : State) : Bool :=
  match s.phase with
  | .sweeping t => decide (Config.sweepTicks ≤ t)
  | _ => false

/-- The end of the memory sweep (R171): every word 0 with good parity, the fault records empty, READY 1, NOW 0, and the
blocks begin with their gate outputs long off. -/
def sweepEndEvent (s : State) : State :=
  writeStart (resetBlocks (Tri.const offLeg) (Tri.const offLeg) (Tri.const offLeg)
    { s with phase := .running, mem := [], access := emptyAccess, parity := emptyParity })

/-- One tick of the sweep: a word is written every 4 ticks (R171). -/
def sweepTick (t : Nat) (s : State) : State :=
  { s with
    phase := .sweeping (t + 1),
    mem := if (t + 1) % 4 = 0 then s.mem.write ((t + 1) / 4 - 1) 0 else s.mem }

end Sys2Proof.Machine
end

