-- ==== Sys2Proof/Machine/Port.lean ====
section
/-! DEFINITION. The Serial Memory Port (10_serial_memory_port_registers_and_interrupt.md): frames, the host write check,
the delivery of a landed write to its owner, word reads, and the port registers. -/

namespace Sys2Proof.Machine

/-! ### Frames (R163) -/

/-- The kind of a frame from its opcode byte (R163, 11.9). -/
def frameKindOf (op : Byte) : FrameKind :=
  if op = 0x51#8 then .memRead
  else if op = 0x52#8 then .memWrite
  else if op = 0x61#8 then .regRead
  else if op = 0x62#8 then .regWrite
  else .ignored

/-- CSn goes low and the opening of a frame is clocked in; while RESETn is low the port takes no frame (R163, R171). -/
def openFrame (four : Bool) (op : Byte) (addr : Word) (s : State) : State :=
  if s.port.csLow then s
  else if s.phase = .held then { s with port := { s.port with csLow := true, frame := none } }
  else
    { s with port := { s.port with csLow := true,
                                   frame := some { kind := frameKindOf op, addr := addr, fourLanes := four } } }

/-- CSn goes high: the frame ends (R163). -/
def closeFrame (s : State) : State := { s with port := { s.port with csLow := false, frame := none } }

/-- The frame after one data word: the address rises by one, modulo 2^16 (R163). -/
def nextWord (f : Frame) (s : State) : State :=
  { s with port := { s.port with frame := some { f with addr := f.addr + 1 } } }

/-- Whether the port takes a word of a kind of frame at an address: from the open frame, where it is of that kind and
stands at the address; with the select pin high, as a frame of its own; not in another frame, nor in one that the port
ignores or that RESETn has abandoned, until the select pin goes high (R163, notes/assumptions/10.md). -/
def portTakes (kind : FrameKind) (addr : Word) (s : State) : Bool :=
  match s.port.frame with
  | some f => decide (f.kind = kind) && decide (f.addr = addr)
  | none => !s.port.csLow

/-- The port after a word that it takes: an open frame goes on by one word, and a frame of its own has ended. -/
def passWord (s : State) : State :=
  match s.port.frame with
  | some f => nextWord f s
  | none => s

/-! ### The host write check (R165) -/

/-- Whether a word is owned by the part whatever the roles (R165). -/
def partOwned (a : Nat) : Bool :=
  (decide (a < 0x40) && decide (a ≠ gcmdAddr))
    || (match controlOf a with
        | some (_, off) => decide (off ≠ offSwitch) && decide (off ≠ offCommand) && decide (off ≠ offGrant)
        | none => false)

/-- The role of the bank that an address lies in, where it bars a host write (R165). -/
def busyRole (a : Nat) (s : State) : Option Role :=
  match bankOf a with
  | some (ch, b) => if (s.exch ch).role b = .host then none else some ((s.exch ch).role b)
  | none => none

/-- Whether an address lies in the configuration block or a start table (R165). -/
def inConfig (a : Nat) : Bool := decide (0x40 ≤ a) && decide (a < 0xC0)

/-- The host write check, the first case that applies (R165). -/
def writeFault (a : Nat) (s : State) : Option (FaultKind × Option Role) :=
  if Config.swmWords ≤ a then some (.outOfRange, none)
  else if partOwned a then some (.engineWord, none)
  else
    match busyRole a s with
    | some r => some (.bankBusy, some r)
    | none => if inConfig a && s.gcu.apply.isSome then some (.configBusy, none) else none

/-! ### Host writes (R164) -/

/-- A landed write to a SLEEP_GRANT word: a wake cause where it leaves any of the three clear (R123). -/
def grantEvent (s : State) : State := if allGranted s then s else wakeCause s

/-- A landed write delivered to the owner of its word (R164). -/
def deliver (a : Nat) (w : Word) (s : State) : State :=
  if a = gcmdAddr then globalEvent w s
  else
    match controlOf a with
    | some (ch, off) =>
      if off = offSwitch then switchEvent ch w s
      else if off = offCommand then commandEvent ch w s
      else if off = offGrant then grantEvent s
      else s
    | none => s

/-- A host word write with READY 1: faulted and recorded, or stored and delivered (R164, R165, R166). -/
def hostWriteReady (a w : Word) (s : State) : State :=
  match writeFault a.toNat s with
  | some f => recordFault a f.1 f.2 s
  | none => deliver a.toNat w (putWord a.toNat w s)

/-- A host word write; while READY is 0 it is discarded (R164, R171). -/
def hostWrite (a w : Word) (s : State) : State := if ready s then hostWriteReady a w s else s

/-- The address of a word of a channel's control block, as the port carries it. -/
def controlWord (ch : Channel) (off : Nat) : Word := w16 (controlAddr ch off)

/-- A host write of a word that a command row names by its address (R163, R164). -/
def namedWrite (a w : Word) (s : State) : State :=
  if portTakes .memWrite a s then hostWrite a w (passWord s) else s

/-! ### Host reads (R164, R168) -/

/-- What a MEM_READ of an address returns: 0 at 0x800 and above and while READY is 0 (R164, R171). -/
def memReadValue (a : Word) (s : State) : Word :=
  if ready s && decide (a.toNat < Config.swmWords) then dataAt s a.toNat else 0

/-- Whether a MEM_READ of an address finds bad parity (R168). -/
def memReadBad (a : Word) (s : State) : Bool :=
  ready s && decide (a.toNat < Config.swmWords) && !(s.mem.read a.toNat).good

/-- A data word of a MEM_READ frame: the word is taken whole and shifted out, and bad parity sets HPAR (R164, R168). -/
def readWordEvent (f : Frame) (s : State) : State :=
  nextWord f
    { s with hpar := s.hpar || memReadBad f.addr s, port := { s.port with readOut := memReadValue f.addr s } }

/-- A data word of a REG_READ frame: the register is taken whole and shifted out, and nothing else of the part changes
(R163, R164, R169). -/
def readRegisterEvent (f : Frame) (s : State) : State :=
  nextWord f { s with port := { s.port with readOut := regRead s f.addr } }

/-! ### Register writes (R169, R170, R172) -/

/-- A register word write; while READY is 0 it is ignored (R169, R171). -/
def regWriteReady (a w : Word) (s : State) : State :=
  if a = 3 then { s with intEn := w.setWidth 12 }
  else if a = 4 then { s with intPend := s.intPend &&& ~~~(w.setWidth 12) }
  else if a = 5 then (if w.getLsbD 0 then softResetEvent s else s)
  else s

/-- A register write that a command row names by its address (R163, R169); while READY is 0 it is ignored (R171). -/
def regWrite (a w : Word) (s : State) : State :=
  if portTakes .regWrite a s then (if ready s then regWriteReady a w (passWord s) else passWord s) else s

end Sys2Proof.Machine
end

