-- ==== Sys2Proof/Machine/EventArbiter.lean ====
section
/-! DEFINITION. The events of the arbiter and the converters (R90, R98, R101, R105). An event that is not due has not come
about. -/

namespace Sys2Proof.Machine

/-- ELIGIBILITY: NOW has reached the INSTANT of listed entries (R98). -/
def execEligibility (s : State) : Host.Outcome State Fault Refusal :=
  if ready s && eligibilityDue s then .next (becomeEligible s) else .next s

/-- EXPIRY: a listed entry has not started by INSTANT + LATE_MAX (R101). -/
def execExpiry (origin : Origin) (slot : Slot) (s : State) : Host.Outcome State Fault Refusal :=
  match expiringEntry origin slot s with
  | some e => if ready s then .next (expireEntry e s) else .next s
  | none => .next s

/-- COMPLETION: a conversion ends 40 ticks after its start, with its RAW (R90, R105). -/
def execCompletion (cv : Conv) (raw : Raw) (s : State) : Host.Outcome State Fault Refusal :=
  match s.inFlight cv with
  | some f => if ready s && completionDue cv s then .next (complete cv f raw s) else .next s
  | none => .next s

end Sys2Proof.Machine
end

