-- ==== Sys2Proof/Machine/EventCal.lean ====
section
/-! DEFINITION. The events of the Calibration Unit and the power control (R114, R116, R122, R123). An event that is not due
has not come about. -/

namespace Sys2Proof.Machine

/-- CAL_DUE: NOW has reached DUE and a sweep begins (R114). -/
def execCalDue (cv : Conv) (s : State) : Host.Outcome State Fault Refusal :=
  if ready s && calDueNow cv s then .next (beginSweep cv .routine s) else .next s

/-- CAL_RAISE_TIME: a sweep's class rises (R116). -/
def execCalRaiseTime (cv : Conv) (s : State) : Host.Outcome State Fault Refusal :=
  match raiseDue cv s with
  | some cls => if ready s then .next (raiseSweep cv cls s) else .next s
  | none => .next s

/-- ENTER_SLEEP: the conditions of R122 all hold and no wake cause has been taken on this tick (R122, R123). -/
def execEnterSleep (s : State) : Host.Outcome State Fault Refusal :=
  if ready s && sleepDue s then .next (setPower .sleep s) else .next s

/-- WAKE_REACH: a listed entry above ROUTINE_CAL has come within reach of a sleeping pair (R123). -/
def execWakeReach (s : State) : Host.Outcome State Fault Refusal :=
  if ready s && wakeReachDue s then .next (wakeCause s) else .next s

/-- WAKING_END: the wake has lasted its 400 ticks (R123). -/
def execWakingEnd (s : State) : Host.Outcome State Fault Refusal :=
  if ready s && wakingEndDue s then .next (enterAwake s) else .next s

end Sys2Proof.Machine
end

