-- ==== Sys2Proof/Machine/EventCommand.lean ====
section
/-! DEFINITION. The host writes to a channel's COMMAND word (R29, R69). -/

namespace Sys2Proof.Machine

/-- START: written with its tag into COMMAND; it waits for the boundary, where R32 and R71 decide it (R29, R69). -/
def execStart (ch : Channel) (tag : Byte) (s : State) : Host.Outcome State Fault Refusal :=
  .next (namedWrite (controlWord ch offCommand) (commandWord ChannelCode.start.code tag) s)

/-- STOP: written with its tag into COMMAND; it is taken at once (R29, R69). -/
def execStop (ch : Channel) (tag : Byte) (s : State) : Host.Outcome State Fault Refusal :=
  .next (namedWrite (controlWord ch offCommand) (commandWord ChannelCode.stop.code tag) s)

/-- BRAKE: written with its tag into COMMAND; it waits for the boundary (R29, R69). -/
def execBrake (ch : Channel) (tag : Byte) (s : State) : Host.Outcome State Fault Refusal :=
  .next (namedWrite (controlWord ch offCommand) (commandWord ChannelCode.brake.code tag) s)

/-- CLEAR_TRIP: written with its tag into COMMAND; it waits for the boundary (R29, R69). -/
def execClearTrip (ch : Channel) (tag : Byte) (s : State) : Host.Outcome State Fault Refusal :=
  .next (namedWrite (controlWord ch offCommand) (commandWord ChannelCode.clearTrip.code tag) s)

/-- RELEASE: written with its tag into COMMAND; it waits for the boundary, where R18 performs it (R29, R69). -/
def execRelease (ch : Channel) (tag : Byte) (s : State) : Host.Outcome State Fault Refusal :=
  .next (namedWrite (controlWord ch offCommand) (commandWord ChannelCode.release.code tag) s)

/-- COMMAND_BAD_CODE: a code outside the table written into COMMAND, refused with BAD_CODE (R29, R69). -/
def execCommandBadCode (ch : Channel) (code tag : Byte) (s : State) : Host.Outcome State Fault Refusal :=
  .next (namedWrite (controlWord ch offCommand) (commandWord code tag) s)

end Sys2Proof.Machine
end

