-- ==== Sys2Proof/Machine/EventDrum.lean ====
section
/-! DEFINITION. The events of the drum channel (R26, R27, R33, R40, R41). An event that is not due has not come about. -/

namespace Sys2Proof.Machine

/-- DRUM_BOUNDARY: the valley of the drum timebase (R33). -/
def execDrumBoundary (s : State) : Host.Outcome State Fault Refusal :=
  if ready s && drumBoundaryDue s then .next (drumBoundaryEvent s) else .next s

/-- PHASE_EDGE: the edge of a drum phase that is due (R26, R27). -/
def execPhaseEdge (ph : Phase) (s : State) : Host.Outcome State Fault Refusal :=
  if ready s && phaseEdgeDue ph s then .next (phaseEdgeEvent ph s) else .next s

/-- DEAD_TIME_END: the waiting switch of a phase turns on (R27, R66). -/
def execDeadTimeEnd (ch : Channel) (ph : Phase) (s : State) : Host.Outcome State Fault Refusal :=
  if ready s && deadTimeDueIn ch ph s then .next (deadTimeEvent ch ph s) else .next s

/-- HALL_INPUT_CHANGE: a Hall pin takes a raw level (R40). -/
def execHallInputChange (pin : HallPin) (level : Bool) (s : State) : Host.Outcome State Fault Refusal :=
  .next (modDrum (setHallPin pin level) s)

/-- HALL_EDGE: the new Hall state is accepted and recorded (R40 to R42). -/
def execHallEdge (s : State) : Host.Outcome State Fault Refusal :=
  if ready s && hallEdgeDue s then .next (hallEdgeEvent s) else .next s

end Sys2Proof.Machine
end

