-- ==== Sys2Proof/Machine/EventFrames.lean ====
section
/-! DEFINITION. The port operations of a frame: FRAME_OPEN, FRAME_CLOSE, MEM_WRITE_WORD, MEM_READ_WORD (R163,
R164). -/

namespace Sys2Proof.Machine

/-- FRAME_OPEN: the select pin goes low and the frame's opening is taken (R163). -/
def execFrameOpen (four : Bool) (opcode : Byte) (addr : Word) (s : State) : Host.Outcome State Fault Refusal :=
  .next (openFrame four opcode addr s)

/-- FRAME_CLOSE: the select pin goes high and the frame ends; the bits of an incomplete word are discarded (R163). -/
def execFrameClose (s : State) : Host.Outcome State Fault Refusal :=
  .next (closeFrame s)

/-- MEM_WRITE_WORD: one data word of a MEM_WRITE frame, judged at the frame's address (R164, R165); outside such a frame
there is no word. -/
def execMemWriteWord (data : Word) (s : State) : Host.Outcome State Fault Refusal :=
  match s.port.frame with
  | some f => if f.kind = .memWrite then .next (hostWrite f.addr data (nextWord f s)) else .next s
  | none => .next s

/-- MEM_READ_WORD: one data word of a MEM_READ frame is taken and shifted out (R164, R168). The table has no row for a
data word of a REG_READ frame, and in such a frame this row is that word (DESIGN CHOICE, notes/assumptions/17.md). -/
def execMemReadWord (s : State) : Host.Outcome State Fault Refusal :=
  match s.port.frame with
  | some f =>
    match f.kind with
    | .memRead => .next (readWordEvent f s)
    | .regRead => .next (readRegisterEvent f s)
    | _ => .next s
  | none => .next s

end Sys2Proof.Machine
end

