-- ==== Sys2Proof/Machine/EventGlobal.lean ====
section
/-! DEFINITION. The host writes to GCMD and the reads of an APPLY_CONFIG (R153 to R161). -/

namespace Sys2Proof.Machine

/-- APPLY_CONFIG: written with its tag into GCMD (R153, R155). -/
def execApplyConfig (tag : Byte) (s : State) : Host.Outcome State Fault Refusal :=
  .next (namedWrite (w16 gcmdAddr) (commandWord GlobalCode.applyConfig.code tag) s)

/-- CLEAR_PROFILE: written with its tag into GCMD (R153, R133, R160). -/
def execClearProfile (tag : Byte) (s : State) : Host.Outcome State Fault Refusal :=
  .next (namedWrite (w16 gcmdAddr) (commandWord GlobalCode.clearProfile.code tag) s)

/-- CLEAR_FAULTS: written with its tag into GCMD (R153, R161). -/
def execClearFaults (tag : Byte) (s : State) : Host.Outcome State Fault Refusal :=
  .next (namedWrite (w16 gcmdAddr) (commandWord GlobalCode.clearFaults.code tag) s)

/-- RECALIBRATE: written with its tag into GCMD (R153, R119, R160). -/
def execRecalibrate (tag : Byte) (s : State) : Host.Outcome State Fault Refusal :=
  .next (namedWrite (w16 gcmdAddr) (commandWord GlobalCode.recalibrate.code tag) s)

/-- GCMD_BAD_CODE: a code outside the table written into GCMD, refused with BAD_CODE or BUSY (R153). -/
def execGcmdBadCode (code tag : Byte) (s : State) : Host.Outcome State Fault Refusal :=
  .next (namedWrite (w16 gcmdAddr) (commandWord code tag) s)

/-- CONFIG_WORD_READ: the end of the read of one word of an APPLY_CONFIG (R156 to R158); with none in flight, or before its
time, there is no such event. -/
def execConfigWordRead (s : State) : Host.Outcome State Fault Refusal :=
  match s.gcu.apply with
  | some r => if ready s && configReadDue s then .next (configReadEvent r s) else .next s
  | none => .next s

end Sys2Proof.Machine
end

