-- ==== Sys2Proof/Machine/EventPump.lean ====
section
/-! DEFINITION. The events of the pump channels (R63 to R82). An event that is not due has not come about. -/

namespace Sys2Proof.Machine

/-- PUMP_BOUNDARY: the valley of a pump timebase (R64). -/
def execPumpBoundary (p : PumpId) (s : State) : Host.Outcome State Fault Refusal :=
  if ready s && pumpBoundaryDue p s then .next (pumpBoundaryEvent p s) else .next s

/-- PUMP_PWM_EDGE: the modulation edge that is due (R66). -/
def execPumpPwmEdge (p : PumpId) (s : State) : Host.Outcome State Fault Refusal :=
  if ready s && pwmEdgeDue p s then .next (pwmEdgeEvent p s) else .next s

/-- PEAK: the peak of a pump timebase, with what the comparator of the floating phase reads (R75, R76). -/
def execPeak (p : PumpId) (level : Bool) (s : State) : Host.Outcome State Fault Refusal :=
  if ready s && peakReached p s then .next (peakEvent p level s) else .next s

/-- ALIGN_TIMER_EXPIRY: ALIGN ends and the ramp begins (R72). -/
def execAlignTimerExpiry (p : PumpId) (s : State) : Host.Outcome State Fault Refusal :=
  if ready s && alignDue p s then .next (alignExpiry p s) else .next s

/-- RAMP_STEP_END: the forced end of a ramp step (R73, R74). -/
def execRampStepEnd (p : PumpId) (s : State) : Host.Outcome State Fault Refusal :=
  if ready s && rampEndDue p s then .next (rampStepEndEvent p s) else .next s

/-- SCHEDULED_COMMUTATION: the commutation that a confirmed crossing scheduled (R79). -/
def execScheduledCommutation (p : PumpId) (s : State) : Host.Outcome State Fault Refusal :=
  if ready s && commDue p s then .next (commutate p s) else .next s

/-- TIMEOUT: a RUN step ends with no crossing confirmed (R81). -/
def execTimeout (p : PumpId) (s : State) : Host.Outcome State Fault Refusal :=
  if ready s && timeoutDue p s then .next (missStep p s) else .next s

end Sys2Proof.Machine
end

