-- ==== Sys2Proof/Machine/EventRegister.lean ====
section
/-! DEFINITION. The host writes to the port registers (R169 to R172). -/

namespace Sys2Proof.Machine

/-- INT_EN_WRITE: all twelve enables replaced (R169). -/
def execIntEnWrite (value : Word) (s : State) : Host.Outcome State Fault Refusal :=
  .next (regWrite 3 value s)

/-- INT_CLR_WRITE: each pending flag whose bit is written 1 is cleared (R170). -/
def execIntClrWrite (value : Word) (s : State) : Host.Outcome State Fault Refusal :=
  .next (regWrite 4 value s)

/-- SOFT_RESET: CONTROL written with bit 0 set (R172). -/
def execSoftReset (value : Word) (s : State) : Host.Outcome State Fault Refusal :=
  .next (regWrite 5 value s)

/-- REG_WRITE_IGNORED: a register write that changes nothing (R169). -/
def execRegWriteIgnored (addr value : Word) (s : State) : Host.Outcome State Fault Refusal :=
  .next (regWrite addr value s)

end Sys2Proof.Machine
end

