-- ==== Sys2Proof/Machine/EventReset.lean ====
section
/-! DEFINITION. RESETn and the memory sweep (R171). -/

namespace Sys2Proof.Machine

/-- RESETN_ASSERT: RESETn goes low at any time and the whole sequence begins again (R163, R171). -/
def execResetnAssert (s : State) : Host.Outcome State Fault Refusal :=
  .next (resetAssertEvent s)

/-- RESETN_RELEASE: RESETn goes high and the clock starts (R171). -/
def execResetnRelease (s : State) : Host.Outcome State Fault Refusal :=
  if s.phase = .held then .next { s with phase := .locking } else .next s

/-- MEMORY_SWEEP: the clock has locked and the sweep begins (R171). -/
def execMemorySweep (s : State) : Host.Outcome State Fault Refusal :=
  if s.phase = .locking then .next { s with phase := .sweeping 0 } else .next s

/-- SWEEP_END: the sweep has written its last word, and the part begins (R171). -/
def execSweepEnd (s : State) : Host.Outcome State Fault Refusal :=
  if sweepDone s then .next (sweepEndEvent s) else .next s

end Sys2Proof.Machine
end

