-- ==== Sys2Proof/Machine/EventSwitch.lean ====
section
/-! DEFINITION. The host writes to the SLEEP_GRANT and SWITCH words (R4 to R6, R122, R123). -/

namespace Sys2Proof.Machine

/-- SLEEP_GRANT_WRITE: the word is written, and a write that leaves any of the three clear is a wake cause (R122, R123). -/
def execSleepGrantWrite (ch : Channel) (value : Word) (s : State) : Host.Outcome State Fault Refusal :=
  .next (namedWrite (controlWord ch offGrant) value s)

/-- SWITCH_TAKE: TAKE_0 or TAKE_1 written into SWITCH (R4, R5). -/
def execSwitchTake (ch : Channel) (b : Bank) (s : State) : Host.Outcome State Fault Refusal :=
  .next (namedWrite (controlWord ch offSwitch) (takeWord b) s)

/-- SWITCH_CANCEL: CANCEL written into SWITCH (R4, R6). -/
def execSwitchCancel (ch : Channel) (s : State) : Host.Outcome State Fault Refusal :=
  .next (namedWrite (controlWord ch offSwitch) 3 s)

/-- SWITCH_BAD_REQUEST: any other value written into SWITCH (R4). -/
def execSwitchBadRequest (ch : Channel) (value : Word) (s : State) : Host.Outcome State Fault Refusal :=
  .next (namedWrite (controlWord ch offSwitch) value s)

end Sys2Proof.Machine
end

