-- ==== Sys2Proof/Machine/EventTrip.lean ====
section
/-! DEFINITION. The events of the Trip Monitor (R135 to R138). An event that is not due has not come about. -/

namespace Sys2Proof.Machine

/-- TRIP_INPUT_CHANGE: a trip pin takes a raw level (R135). -/
def execTripInputChange (pin : TripPin) (level : Bool) (s : State) : Host.Outcome State Fault Refusal :=
  .next (modTrm (fun t => t.setFilter pin ((t.filter pin).setRaw level)) s)

/-- INPUT_ASSERTION: the filtered level reaches the fault level, and the channels it reaches are tripped or told (R135,
R138). -/
def execInputAssertion (pin : TripPin) (s : State) : Host.Outcome State Fault Refusal :=
  if ready s && assertionDue pin s then .next (reachChannels pin (modTrm (acceptTripInput pin) s)) else .next s

/-- INPUT_RELEASE: the filtered level leaves the fault level (R135). -/
def execInputRelease (pin : TripPin) (s : State) : Host.Outcome State Fault Refusal :=
  if ready s && releaseDue pin s then .next (modTrm (acceptTripInput pin) s) else .next s

/-- QUALIFICATION: a gate-supply timer reaches QualTime (R137). -/
def execQualification (supply : Supply) (s : State) : Host.Outcome State Fault Refusal :=
  if ready s && qualificationDue supply s then .next (modTrm (fun t => t.setQual supply { t.qual supply with qualified := true }) s) else .next s

end Sys2Proof.Machine
end

