-- ==== Sys2Proof/Machine/Dispatch.lean ====
section
/-! DEFINITION. The dispatch: each command to its meaning, one arm per constructor, in the order of
spec/opcode_table.json. -/

namespace Sys2Proof.Machine

def exec (i : Instr) (s : State) : Host.Outcome State Fault Refusal :=
  match i with
  | .frameOpen four opcode addr => Sys2Proof.Machine.execFrameOpen four opcode addr s
  | .frameClose => Sys2Proof.Machine.execFrameClose s
  | .memWriteWord data => Sys2Proof.Machine.execMemWriteWord data s
  | .memReadWord => Sys2Proof.Machine.execMemReadWord s
  | .sleepGrantWrite ch value => Sys2Proof.Machine.execSleepGrantWrite ch value s
  | .switchTake ch bank => Sys2Proof.Machine.execSwitchTake ch bank s
  | .switchCancel ch => Sys2Proof.Machine.execSwitchCancel ch s
  | .switchBadRequest ch value => Sys2Proof.Machine.execSwitchBadRequest ch value s
  | .start ch tag => Sys2Proof.Machine.execStart ch tag s
  | .stop ch tag => Sys2Proof.Machine.execStop ch tag s
  | .brake ch tag => Sys2Proof.Machine.execBrake ch tag s
  | .clearTrip ch tag => Sys2Proof.Machine.execClearTrip ch tag s
  | .release ch tag => Sys2Proof.Machine.execRelease ch tag s
  | .commandBadCode ch code tag => Sys2Proof.Machine.execCommandBadCode ch code tag s
  | .applyConfig tag => Sys2Proof.Machine.execApplyConfig tag s
  | .clearProfile tag => Sys2Proof.Machine.execClearProfile tag s
  | .clearFaults tag => Sys2Proof.Machine.execClearFaults tag s
  | .recalibrate tag => Sys2Proof.Machine.execRecalibrate tag s
  | .gcmdBadCode code tag => Sys2Proof.Machine.execGcmdBadCode code tag s
  | .configWordRead => Sys2Proof.Machine.execConfigWordRead s
  | .intEnWrite value => Sys2Proof.Machine.execIntEnWrite value s
  | .intClrWrite value => Sys2Proof.Machine.execIntClrWrite value s
  | .softReset value => Sys2Proof.Machine.execSoftReset value s
  | .regWriteIgnored addr value => Sys2Proof.Machine.execRegWriteIgnored addr value s
  | .resetnAssert => Sys2Proof.Machine.execResetnAssert s
  | .resetnRelease => Sys2Proof.Machine.execResetnRelease s
  | .memorySweep => Sys2Proof.Machine.execMemorySweep s
  | .sweepEnd => Sys2Proof.Machine.execSweepEnd s
  | .drumBoundary => Sys2Proof.Machine.execDrumBoundary s
  | .pumpBoundary p => Sys2Proof.Machine.execPumpBoundary p s
  | .phaseEdge ph => Sys2Proof.Machine.execPhaseEdge ph s
  | .deadTimeEnd ch ph => Sys2Proof.Machine.execDeadTimeEnd ch ph s
  | .pumpPwmEdge p => Sys2Proof.Machine.execPumpPwmEdge p s
  | .hallInputChange pin level => Sys2Proof.Machine.execHallInputChange pin level s
  | .hallEdge => Sys2Proof.Machine.execHallEdge s
  | .peak p level => Sys2Proof.Machine.execPeak p level s
  | .alignTimerExpiry p => Sys2Proof.Machine.execAlignTimerExpiry p s
  | .rampStepEnd p => Sys2Proof.Machine.execRampStepEnd p s
  | .scheduledCommutation p => Sys2Proof.Machine.execScheduledCommutation p s
  | .timeout p => Sys2Proof.Machine.execTimeout p s
  | .eligibility => Sys2Proof.Machine.execEligibility s
  | .expiry origin slot => Sys2Proof.Machine.execExpiry origin slot s
  | .completion cv raw => Sys2Proof.Machine.execCompletion cv raw s
  | .calDue cv => Sys2Proof.Machine.execCalDue cv s
  | .calRaiseTime cv => Sys2Proof.Machine.execCalRaiseTime cv s
  | .enterSleep => Sys2Proof.Machine.execEnterSleep s
  | .wakeReach => Sys2Proof.Machine.execWakeReach s
  | .wakingEnd => Sys2Proof.Machine.execWakingEnd s
  | .tripInputChange pin level => Sys2Proof.Machine.execTripInputChange pin level s
  | .inputAssertion pin => Sys2Proof.Machine.execInputAssertion pin s
  | .inputRelease pin => Sys2Proof.Machine.execInputRelease pin s
  | .qualification supply => Sys2Proof.Machine.execQualification supply s

end Sys2Proof.Machine
end

