-- ==== Sys2Proof/Machine/Idle.lean ====
section
/-! DEFINITION. What the block does while no command waits: the events that its own timers bring about at NOW are put
into the queue, and when there is none, one tick passes (00_scope.md 4.1; notes/assumptions/1.md). -/

namespace Sys2Proof.Machine

/-- An event that is due, as a list of at most one. -/
def dueIf (due : Bool) (i : Instr) : List Instr := if due then [i] else []

/-- The trip inputs, in one order. -/
def tripPins : List TripPin := [.ocD, .ocP1, .ocP2, .busOv, .gateOkD, .gateOkP]

/-- The events of TRM that are due. -/
def dueTrip (s : State) : List Instr :=
  tripPins.flatMap (fun p => dueIf (assertionDue p s) (.inputAssertion p))
    ++ tripPins.flatMap (fun p => dueIf (releaseDue p s) (.inputRelease p))
    ++ dueIf (qualificationDue .d s) (.qualification .d) ++ dueIf (qualificationDue .p s) (.qualification .p)

/-- The listed entries that are due to expire. -/
def dueExpiries (s : State) : List Instr :=
  (s.arb.list.filter (fun e => expiryReached s.now e.req)).map (fun e => .expiry e.req.origin e.req.slot)

/-- The events of ARB and the converters that are due; what they convert comes from outside (Config.freeRaw). -/
def dueArbiter (s : State) : List Instr :=
  dueIf (completionDue .a s) (.completion .a (Config.freeRaw s.draws))
    ++ dueIf (completionDue .b s) (.completion .b (Config.freeRaw (s.draws + 1)))
    ++ dueIf (wakingEndDue s) .wakingEnd ++ dueIf (eligibilityDue s) .eligibility ++ dueExpiries s

/-- The events of a pump's timers that are due; the comparator's level comes from outside (Config.freeLevel). -/
def duePump (p : PumpId) (draw : Nat) (s : State) : List Instr :=
  dueIf (peakReached p s) (.peak p (Config.freeLevel draw))
    ++ dueIf (alignDue p s) (.alignTimerExpiry p) ++ dueIf (rampEndDue p s) (.rampStepEnd p)
    ++ dueIf (commDue p s) (.scheduledCommutation p) ++ dueIf (timeoutDue p s) (.timeout p)

/-- Whether a raise of a sweep's class is due (R116). -/
def calRaiseDue (cv : Conv) (s : State) : Bool := (raiseDue cv s).isSome

/-- The events of CAL that are due. -/
def dueCal (s : State) : List Instr :=
  dueIf (calDueNow .a s) (.calDue .a) ++ dueIf (calDueNow .b s) (.calDue .b)
    ++ dueIf (calRaiseDue .a s) (.calRaiseTime .a) ++ dueIf (calRaiseDue .b s) (.calRaiseTime .b)

/-- The phases, in one order. -/
def phases : List Phase := [.u, .v, .w]

/-- The phase edges and dead times that are due. -/
def dueEdges (s : State) : List Instr :=
  phases.flatMap (fun ph => dueIf (phaseEdgeDue ph s) (.phaseEdge ph))
    ++ dueIf (pwmEdgeDue .p1 s) (.pumpPwmEdge .p1) ++ dueIf (pwmEdgeDue .p2 s) (.pumpPwmEdge .p2)
    ++ [Channel.d, .p1, .p2].flatMap (fun ch =>
        phases.flatMap (fun ph => dueIf (deadTimeDueIn ch ph s) (.deadTimeEnd ch ph)))

/-- Every event that is due at NOW in the part that runs, in one order; the manual gives the outcome of every order of
the events that reach one block on one tick, and any other order is a queue that the sender fills
(notes/assumptions/2.md). -/
def dueEvents (s : State) : List Instr :=
  dueIf (configReadDue s) .configWordRead ++ dueTrip s ++ dueIf (hallEdgeDue s) .hallEdge ++ dueArbiter s
    ++ duePump .p1 (s.draws + 2) s ++ duePump .p2 (s.draws + 3) s ++ dueCal s ++ dueIf (wakeReachDue s) .wakeReach
    ++ dueIf (drumBoundaryDue s) .drumBoundary ++ dueIf (pumpBoundaryDue .p1 s) (.pumpBoundary .p1)
    ++ dueIf (pumpBoundaryDue .p2 s) (.pumpBoundary .p2) ++ dueEdges s ++ dueIf (sleepDue s) .enterSleep

/-- One tick of the drum: the Hall filters count, the phases age, and a trip no longer lies at this NOW. -/
def Drum.tick (d : Drum) : Drum :=
  { d with h1 := d.h1.tick, h2 := d.h2.tick, h3 := d.h3.tick, legs := d.legs.map Leg.tick, tripNow := false }

/-- One tick of a pump: the phases age, and a trip no longer lies at this NOW. -/
def Pump.tick (x : Pump) : Pump := { x with legs := x.legs.map Leg.tick, tripNow := false }

/-- One tick of the power control, with the new NOW: the wake causes of the old tick lie behind it, and a listed entry, no
ROUTINE_CAL, whose INSTANT - 400 is the new NOW is a wake cause that an AWAKE pair takes as the tick begins (R123). -/
def Arbiter.tick (now : Tick) (a : Arbiter) : Arbiter :=
  { a with wakeNow := decide (a.power = .awake) &&
      a.list.any (fun e => decide (e.req.cls ≠ .routineCal) && decide (e.req.inst = now + ticks Config.wakeTicks)) }

/-- One tick of the part that runs: NOW rises, the filters and timers count, dead times run down. -/
def tickRunning (s : State) : State :=
  { s with
    now := s.now + 1, drum := s.drum.tick, pump1 := s.pump1.tick, pump2 := s.pump2.tick, trm := s.trm.tick,
    arb := s.arb.tick (s.now + 1) }

/-- The values that an idle step may draw. -/
def drawsPerStep : Nat := 4

/-- The events put into the queue. -/
def queueEvents (evs : List Instr) (s : State) : State := { s with pending := evs, draws := s.draws + drawsPerStep }

/-- What a step does with an empty queue: due events queue up, or one tick passes. While RESETn is low and while the
clock locks nothing runs (R171). -/
def idle (s : State) : State :=
  match s.phase with
  | .held => s
  | .locking => s
  | .sweeping t => if sweepDone s then queueEvents [.sweepEnd] s else sweepTick t s
  | .running =>
    match dueEvents s with
    | [] => tickRunning s
    | e :: es => queueEvents (e :: es) s

end Sys2Proof.Machine
end

