-- ==== Sys2Proof/Machine/Step.lean ====
section
/-! DEFINITION. The step: the command at the front of the queue, or the idle step of the block. -/

namespace Sys2Proof.Machine

/-- The step of the block: the command at the front of the queue is taken and carried out on the state with the queue's
rest; with an empty queue the part's own time goes on. -/
def step (s : State) : Host.Outcome State Fault Refusal :=
  match s.pending with
  | [] => .next (idle s)
  | c :: cs => exec c { s with pending := cs }

/-- The state with the command that a word of the table spells at the front of its queue. The table gives no row any
bits, so no word spells a command and the state stays as it is (notes/assumptions/9.md). -/
def State.withFetchWord (s : State) (nbits w : Nat) : State :=
  match decodeTableWord nbits w with
  | some i => { s with pending := i :: s.pending }
  | none => s

end Sys2Proof.Machine
end

