-- ==== Sys2Proof/Safety.lean ====
section
/-! DEFINITION. The terms in which the claims are stated: what it is for a command to complete with a property, frames over
the memory, and the properties of a state that every step keeps. -/

namespace Sys2Proof.Machine

/-! ### Completion and frames -/

/-- The command completes: exec answers a next state, and the state has the property. -/
def Completes (i : Instr) (s : State) (P : State → Prop) : Prop := ∃ t, exec i s = .next t ∧ P t

/-- The addresses of n words from an address on. -/
def span (a n : Nat) : List Nat := (List.range n).map (fun i => a + i)

/-- Every word of the memory outside the listed addresses, with its parity, reads as before. -/
def KeepsOutside (s t : State) (ws : List Nat) : Prop := ∀ a, a ∉ ws → t.mem.read a = s.mem.read a

/-- Every word of the memory reads as before. -/
def KeepsMemory (s t : State) : Prop := ∀ a, t.mem.read a = s.mem.read a

/-- The words from an address on hold these data. -/
def Shows (t : State) (a : Nat) (ws : List Word) : Prop :=
  ∀ i, i < ws.length → dataAt t (a + i) = ws.getD i 0

/-- The words that only the host writes, whatever the roles (R1, R4, R149, R165): GCMD, the configuration block with the start
tables, the SWITCH, COMMAND and SLEEP_GRANT words, the plan words of every bank, and the scratch area. -/
def isHostWord (a : Nat) : Bool :=
  decide (a = gcmdAddr) || inConfig a || (decide (0x280 ≤ a) && decide (a < Config.swmWords))
    || (match controlOf a with
        | some (_, off) => decide (off = offSwitch) || decide (off = offCommand) || decide (off = offGrant)
        | none => false)
    || (match bankOf a with
        | some (ch, b) => decide (a - bankBase ch b < planWords ch)
        | none => false)

/-- The result words of a channel's two banks (R1). -/
def resultWords (ch : Channel) : List Nat :=
  span (bankBase ch .b0 + planWords ch) (bankWords ch - planWords ch)
    ++ span (bankBase ch .b1 + planWords ch) (bankWords ch - planWords ch)

/-- The words of a channel that the part writes: all of its control block but SWITCH, SWITCH_RESULT, COMMAND and SLEEP_GRANT,
and the result words of its banks. -/
def channelWords (ch : Channel) : List Nat :=
  span (controlAddr ch offRoles) 3 ++ span (controlAddr ch offCmdDone) 4 ++ span (controlAddr ch offState) 21
    ++ resultWords ch

/-- The words that the arbiter's work may write: the converter status, power and calibration words, the profiler block, and
every channel's roles and result words. -/
def arbiterWords : List Nat :=
  span 0x00A 54 ++ (span (controlAddr .d offRoles) 3 ++ resultWords .d) ++ (span (controlAddr .p1 offRoles) 3 ++ resultWords .p1)
    ++ (span (controlAddr .p2 offRoles) 3 ++ resultWords .p2)

/-- The three TRIP_INPUTS words (R136). -/
def tripInputWords : List Nat := [0x0D1, 0x0F1, 0x111]

/-- Nothing changes but the memory, the pending interrupts, the parity record, the exchange, the channels, the arbiter, the
calibration records and the account: the queue, NOW, the port, the interrupt enables, HPAR, the access fault record, the
trip inputs and the configuration are as before. -/
def KeepsRest (s t : State) : Prop :=
  { t with
    mem := s.mem, intPend := s.intPend, parity := s.parity, exchD := s.exchD, exchP1 := s.exchP1, exchP2 := s.exchP2,
    drum := s.drum, pump1 := s.pump1, pump2 := s.pump2, arb := s.arb, calA := s.calA, calB := s.calB, lpr := s.lpr } = s

/-- Nothing changes but one pump, the pending interrupts, and the words of that pump's control block and banks. -/
def OnlyPump (p : PumpId) (s t : State) : Prop :=
  { t.setPump p (s.pump p) with mem := s.mem, intPend := s.intPend } = s ∧ KeepsOutside s t (channelWords (pumpChannel p))

/-- Every block's record is shown by its words (11.3, 11.5 to 11.7): BANK_ROLES with the sequence words (R2, R19), the state
words and the trip record of every channel (R25, R69, R141), TRIP_INPUTS (R136), the converter status, power and
calibration words (R91, R113), the profiler block (R132), both fault records (R166, R167), and the results of every bank
that is LIVE or RETIRING (R1). -/
def State.Mirrors (s : State) : Prop :=
  (∀ ch, Shows s (controlAddr ch offRoles) (s.exch ch).words ∧ dataAt s (controlAddr ch offTripInputs) = s.trm.inputsWord ch) ∧
    (Shows s (controlAddr .d offState) s.drum.words ∧ Shows s (controlAddr .d offTrip) s.drum.tripWords) ∧
    (∀ p, Shows s (controlAddr (pumpChannel p) offState) (s.pump p).words ∧
      Shows s (controlAddr (pumpChannel p) offTrip) (s.pump p).tripWords) ∧
    (∀ cv, dataAt s (convStatusAddr cv) = convStatusWord (s.inFlight cv) ∧ Shows s (calAddr cv) (s.cal cv).words) ∧
    dataAt s powerAddr = BitVec.ofNat 16 s.arb.power.code ∧ Shows s profilerAddr s.lpr.words ∧
    Shows s accessAddr s.access.words ∧ Shows s parityAddr s.parity.words ∧
    ∀ ch b, (s.exch ch).role b = .live ∨ (s.exch ch).role b = .retiring →
      Shows s (bankBase ch b + offResults ch) (bankResults ch b s)

/-- The parity record after the failing plan words of a take, in address order (R9, R167): the first of them fills an empty
record with its address and the channel's SOURCE, each of them counts, and with none the record stays. -/
def planParity (ch : Channel) (bad : List Nat) (r : ParityRecord) : ParityRecord :=
  match bad with
  | [] => r
  | a :: _ =>
    { addr := if r.count = 0 then BitVec.ofNat 16 a else r.addr,
      source := if r.count = 0 then (match ch with
        | .d => .planD
        | .p1 => .planP1
        | .p2 => .planP2) else r.source,
      count := satAdd r.count bad.length }

/-- The parity record takes the failing plan words of a take, and its words show it (R9, R167). -/
def TakesPlanParity (ch : Channel) (bad : List Nat) (s t : State) : Prop :=
  t.parity = planParity ch bad s.parity ∧
    (s.mem.wf → Shows s parityAddr s.parity.words → Shows t parityAddr t.parity.words)

/-- A property of all three phases. -/
def Tri.All {α : Type} (p : α → Prop) (t : Tri α) : Prop := p t.u ∧ p t.v ∧ p t.w

/-- The slots that STOP and a trip of a channel remove: SHUNT_A and SHUNT_B of the drum, SLOT0 of a pump (R103). -/
def currentSlot (ch : Channel) (r : Request) : Bool :=
  decide (r.origin = channelOrigin ch) &&
    (match ch with
      | .d => isShunt r.slot
      | _ => decide (r.slot = .slot0))

/-! ### Sample slots -/

/-- The result record of a slot of a drum bank (11.6). -/
def DrumBank.record (x : DrumBank) : Slot → Option SlotRecord
  | .shuntA => some x.shuntA
  | .shuntB => some x.shuntB
  | .u1 => some x.u1
  | .u2 => some x.u2
  | _ => none

/-- A slot of a pump bank (11.7). -/
def PumpBank.slotAt (x : PumpBank) : Slot → Option PumpSlot
  | .slot0 => some x.slot0
  | .slot1 => some x.slot1
  | _ => none

/-- The status of the slot that a request names in the bank that it names (R39, R87); none for a request of CAL. -/
def slotStatusOf (r : Request) (s : State) : Option SlotStatus :=
  match r.origin, r.bank with
  | .d, some b => ((s.drum.bank b).record r.slot).map SlotRecord.status
  | .p1, some b => ((s.pump1.bank b).slotAt r.slot).map PumpSlot.status
  | .p2, some b => ((s.pump2.bank b).slotAt r.slot).map PumpSlot.status
  | _, _ => none

/-- The shunt slots of a drum bank and its window record after the drop of the shunt requests named, with a status (R58, R103):
each dropped slot shows the status; where the drop leaves neither slot QUEUED or CONVERTING in a bank laid out in RUNNING,
the pair is settled and the currents are reconstructed with the results in hand. -/
def DrumBank.dropShunts (st : SlotStatus) (hitA hitB : Bool) (x : DrumBank) : DrumBank :=
  let a := if hitA then { x.shuntA with status := st } else x.shuntA
  let b := if hitB then { x.shuntB with status := st } else x.shuntB
  { x with
    shuntA := a, shuntB := b,
    window := if (hitA || hitB) && x.window.computed && !a.status.isOpen && !b.status.isOpen
      then reconstruct x.window a b else x.window }

/-- Whether the pending list holds a request of the drum for a slot of a bank. -/
def drumListed (sl : Slot) (b : Bank) (s : State) : Bool :=
  s.arb.list.any (fun e => decide (e.req.origin = .d) && decide (e.req.slot = sl) && decide (e.req.bank = some b))

/-- What the drop of the drum's listed shunt requests in an event leaves in a bank (R58, R61, R103). -/
def ShuntsDropped (st : SlotStatus) (b : Bank) (s t : State) : Prop :=
  t.drum.bank b = (s.drum.bank b).dropShunts st (drumListed .shuntA b s) (drumListed .shuntB b s)

/-! ### Gate outputs -/

/-- The two switches of a phase are not on together (R27, R66). -/
def Leg.Apart (l : Leg) : Prop := ¬(l.high = true ∧ l.low = true)

/-- Both switches of a phase are off, and none waits to turn on. -/
def Leg.Off (l : Leg) : Prop := l.high = false ∧ l.low = false ∧ l.waiting = none

/-- The high side of a phase is off and does not wait to turn on. -/
def Leg.NoHigh (l : Leg) : Prop := l.high = false ∧ ∀ w, l.waiting = some w → w.side = .low

/-- A phase goes into SHORT or into the low side of a step (R28, R66, R67): the high side off at once; the low side stays
on, or turns on at once when the high side has been off for the dead time, and waits out what is left of it otherwise. -/
def Leg.TurnsLow (dt : Nat) (l l' : Leg) : Prop :=
  let off := if l.high then 0 else l.highOffFor.toNat
  l'.high = false ∧ (l.low = true ∨ dt ≤ off → l'.low = true ∧ l'.waiting = none) ∧
    (l.low = false → off < dt → l'.low = false ∧ l'.waiting = some { side := .low, left := dt - off })

/-- A phase goes into the high side of a step while the modulation is on (R66): likewise for the high side. -/
def Leg.TurnsHigh (dt : Nat) (l l' : Leg) : Prop :=
  let off := if l.low then 0 else l.lowOffFor.toNat
  l'.low = false ∧ (l.high = true ∨ dt ≤ off → l'.high = true ∧ l'.waiting = none) ∧
    (l.high = false → off < dt → l'.high = false ∧ l'.waiting = some { side := .high, left := dt - off })

/-- The high-side phase of a step follows the modulation (R66): with it on, on as DT_P lets it; with it off, off at once. -/
def Leg.Follows (dt : Nat) (on : Bool) (l l' : Leg) : Prop := (on = true → l.TurnsHigh dt l') ∧ (on = false → l'.Off)

/-- The six switches go to a step of the table (R65, R66): its high-side phase follows the modulation, its low-side phase
goes low, and both switches of its floating phase are off. -/
def DrivesStep (dt : Nat) (on : Bool) (i : Nat) (l l' : Tri Leg) : Prop :=
  (l.get (sixStep i).high).Follows dt on (l'.get (sixStep i).high) ∧
    (l.get (sixStep i).low).TurnsLow dt (l'.get (sixStep i).low) ∧ (l'.get (sixStep i).floating).Off

/-- A drum phase takes an up edge (R26 to R28): with its position high already there is no switching; otherwise the low side
turns off at once and the high side waits DT_D to turn on. -/
def Leg.Rises (dt : Nat) (l l' : Leg) : Prop :=
  (l.pos = .high → l' = l) ∧
    (l.pos ≠ .high → l'.pos = .high ∧ l'.low = false ∧ l'.high = l.high ∧
      l'.waiting = some { side := .high, left := dt })

/-- A drum phase takes a down edge (R26 to R28): with its position low already there is no switching; otherwise the high side
turns off at once and the low side waits DT_D to turn on. -/
def Leg.Falls (dt : Nat) (l l' : Leg) : Prop :=
  (l.pos = .low → l' = l) ∧
    (l.pos ≠ .low → l'.pos = .low ∧ l'.high = false ∧ l'.low = l.low ∧
      l'.waiting = some { side := .low, left := dt })

/-- A drum phase at t = 0 of a RUNNING period, with the UP compare and the applied duty d of the period (R26, R28): an edge
that falls on t = 0, UP = 0 with d above 0, is the up edge of a phase with d = T; every other phase is in its low position:
it takes a down edge from the high position, keeps the low one, and goes low as into SHORT from OFF. -/
def Leg.OpensPeriod (dt up d : Nat) (l l' : Leg) : Prop :=
  (up = 0 ∧ 0 < d → l.Rises dt l') ∧
    (¬(up = 0 ∧ 0 < d) → (l.pos = .float → l'.pos = .low ∧ l.TurnsLow dt l') ∧ (l.pos ≠ .float → l.Falls dt l'))

/-- The time for which each switch of a phase has been off begins anew where it turns off and goes on otherwise (R27). -/
def Leg.OffTimes (l l' : Leg) : Prop :=
  l'.highOffFor = (if l.high && !l'.high then 0 else l.highOffFor) ∧
    l'.lowOffFor = (if l.low && !l'.low then 0 else l.lowOffFor)

/-- A channel's phases go into OFF, all switches off at once, or into SHORT (R28, R67). -/
def LegsTo (a : SafeOut) (dt : Nat) (l l' : Tri Leg) : Prop :=
  match a with
  | .off => l'.All Leg.Off
  | .short => ∀ ph, (l.get ph).TurnsLow dt (l'.get ph)

/-- A channel's phases go into OFF or SHORT from a condition that is SHORT or BRAKING already, or is not: between SHORT and
BRAKING there is no switching (R28, R67). -/
def LegsGo (held : Bool) (a : SafeOut) (dt : Nat) (l l' : Tri Leg) : Prop :=
  match a, held with
  | .short, true => l' = l
  | .short, false => LegsTo .short dt l l'
  | .off, _ => LegsTo .off dt l l'

/-- No phase of any channel has both its switches on. -/
def State.Apart (s : State) : Prop :=
  s.drum.legs.All Leg.Apart ∧ s.pump1.legs.All Leg.Apart ∧ s.pump2.legs.All Leg.Apart

/-- The drum's outputs are those of its state (R25, R28): STOPPED is OFF, RUNNING and no other state is PWM, BRAKING is
SHORT; in OFF every switch is off, outside PWM no high side is on and no edge is pending. -/
def Drum.OutputsLawful (d : Drum) : Prop :=
  (d.state = .stopped → d.out = .off) ∧ (d.state = .running ↔ d.out = .pwm) ∧ (d.state = .braking → d.out = .short) ∧
    (d.out = .off → d.legs.All Leg.Off) ∧
    (d.out ≠ .pwm → d.legs.All Leg.NoHigh ∧ d.upAt = Tri.const none ∧ d.downAt = Tri.const none)

/-- The pump states in which every switch is off: STOPPED, STALLED, and TRIPPED with action OFF (R68). -/
def Pump.Silent (x : Pump) : Prop :=
  x.state = .stopped ∨ (∃ r, x.state = .stalled r) ∨ (x.state = .tripped ∧ x.trip.action = .off)

/-- A pump's outputs are those of its state (R66 to R68): outside ALIGN, RAMP and RUN no high side is on and no
modulation edge is pending, in the silent states every switch is off, and the step index is a row of the table. -/
def Pump.OutputsLawful (x : Pump) : Prop :=
  (x.state.drives = false → x.legs.All Leg.NoHigh ∧ x.pwmOn = false ∧ x.onAt = none ∧ x.offAt = none) ∧
    (x.Silent → x.legs.All Leg.Off) ∧ x.stepIndex ≤ 5

/-- The outputs of all three channels are those of their states. -/
def State.OutputsLawful (s : State) : Prop :=
  s.drum.OutputsLawful ∧ s.pump1.OutputsLawful ∧ s.pump2.OutputsLawful

/-! ### The exchange (R3) -/

/-- The law of the exchange: at most one bank in each of PENDING, LIVE and RETIRING, and no PENDING bank beside a RETIRING
one (R3). -/
def Exchange.Lawful (e : Exchange) : Prop :=
  (e.role0 = e.role1 → e.role0 = .host) ∧ ¬(e.role0 = .pending ∧ e.role1 = .retiring) ∧
    ¬(e.role0 = .retiring ∧ e.role1 = .pending)

/-- The law holds in every channel. -/
def State.ExchangesLawful (s : State) : Prop := s.exchD.Lawful ∧ s.exchP1.Lawful ∧ s.exchP2.Lawful

/-- A bank retires in the event (R16, R19, R20): HOST, BANK_STATUS RETIRED, RETIRE_TIME NOW, RETIRED_SEQ its SEQ, and the
channel's RET cause raised. -/
def Retired (ch : Channel) (b : Bank) (s t : State) : Prop :=
  (t.exch ch).role b = .host ∧ dataAt t (bankBase ch b + offStatus ch) = 2 ∧
    Shows t (bankBase ch b + offRetireTime ch) (twoWords s.now) ∧ (t.exch ch).retiredSeq = bankSeq ch b s ∧
    dataAt t (controlAddr ch offRetiredSeq) = bankSeq ch b s ∧ t.intPend &&& (retCause ch).mask ≠ 0

/-- A bank is RETIRING after the event (R16): its BANK_STATUS and the channel's RETIRED_SEQ are as they were. -/
def StaysRetiring (ch : Channel) (b : Bank) (s t : State) : Prop :=
  (t.exch ch).role b = .retiring ∧ dataAt t (bankBase ch b + offStatus ch) = dataAt s (bankBase ch b + offStatus ch) ∧
    (t.exch ch).retiredSeq = (s.exch ch).retiredSeq

/-- Whether a conversion of a bank is in flight. -/
def flying (ch : Channel) (b : Bank) (s : State) : Bool :=
  inFlightNames s.arb.cva ch b || inFlightNames s.arb.cvb ch b

/-- A LIVE bank is given up at a boundary, replaced or released (R13, R16, R18): its listed requests leave the list with
DROPPED_BOUNDARY in their slots, and it retires at once unless a conversion of it is in flight. -/
def GivenUp (ch : Channel) (b : Bank) (s t : State) : Prop :=
  (flying ch b s = false → Retired ch b s t) ∧ (flying ch b s = true → StaysRetiring ch b s t) ∧
    (∀ e ∈ t.arb.list, e.req.names ch b = false) ∧
    ∀ e ∈ s.arb.list, e.req.names ch b = true → ∀ st, slotStatusOf e.req t = some st → st = .droppedBoundary

/-- A performed RELEASE (R16, R18, R20): a PENDING bank becomes HOST with CANCELLED, a LIVE bank is given up, a HOST bank stays,
and where no LIVE bank retires at once, there being none or one with a conversion in flight, no return is reported and
RETIRED_SEQ stays. -/
def GivesUpBoth (ch : Channel) (s t : State) : Prop :=
  (∀ b, ((s.exch ch).role b = .pending → (t.exch ch).role b = .host ∧
      dataAt t (bankBase ch b + offStatus ch) = 3) ∧
    ((s.exch ch).role b = .live → GivenUp ch b s t) ∧ ((s.exch ch).role b = .host → (t.exch ch).role b = .host)) ∧
  ((∀ b, (s.exch ch).role b = .live → flying ch b s = true) → (t.exch ch).retiredSeq = (s.exch ch).retiredSeq ∧
    t.intPend &&& (retCause ch).mask = s.intPend &&& (retCause ch).mask)

/-- The channel whose boundary a command is. -/
def boundaryChannel : Instr → Option Channel
  | .drumBoundary => some .d
  | .pumpBoundary .p1 => some .p1
  | .pumpBoundary .p2 => some .p2
  | _ => none

/-- A channel has no RETIRING bank. -/
def noRetiring (ch : Channel) (s : State) : Prop := ∀ b, (s.exch ch).role b ≠ .retiring

/-- A boundary at the front of the queue finds its channel with no RETIRING bank, as R8 says of every boundary. -/
def BoundaryFindsNone (s : State) : Prop :=
  ∀ c cs ch, s.pending = c :: cs → boundaryChannel c = some ch → noRetiring ch s

/-! ### The arbiter and calibration -/

/-- The pending list holds no more than 8 entries, and no two with the same ORIGIN and SLOT (R93). -/
def Arbiter.ListLawful (a : Arbiter) : Prop :=
  a.list.length ≤ Config.listCapacity ∧ a.list.Pairwise (fun x y => x.req.sameKey y.req = false)

/-- The pending list stands in rank order (R93, R94): each entry outranks every entry after it. -/
def Arbiter.Ranked (a : Arbiter) : Prop := a.list.Pairwise (fun x y => outranks x.req y.req = true)

/-- A time lies within 2^29 ticks of NOW, to either side. -/
def nearNow (s : State) (t : Tick) : Prop := (t - s.now + BitVec.ofNat 32 (2 ^ 29)).toNat < 2 ^ 30

/-- The times that rank is decided by lie near NOW, as R94 says of the instants of the list: those of the listed entries,
DUE and LAST_CAL_TIME of a converter that waits, and the INSTANT that a sweep set aside keeps. -/
def State.InstantsNear (s : State) : Prop :=
  (∀ e ∈ s.arb.list, nearNow s e.req.inst) ∧
    ∀ cv, ((s.cal cv).phase = .waiting → nearNow s (s.cal cv).due ∧ nearNow s (s.cal cv).lastCal) ∧
      ((s.cal cv).phase = .setAside → nearNow s (s.cal cv).keptInst)

/-- A converter has started a request: it was IDLE and has it in flight, with NOW as its start. -/
def StartedOn (cv : Conv) (r : Request) (s t : State) : Prop :=
  s.inFlight cv = none ∧ t.inFlight cv = some { req := r, start := s.now, lateness := s.now - r.inst }

/-- A request is in the list, or has left it by starting (R98, R99). -/
def ListedOrStarted (r : Request) (s t : State) : Prop := (∃ e ∈ t.arb.list, e.req = r) ∨ ∃ cv, StartedOn cv r s t

/-- Whether LPR counts the reports of an origin (R127). -/
def counts (o : Origin) (s : State) : Bool := (cfg s).profileEnable && (cfg s).originMask.getLsbD (originFlag o)

/-- The conversion that a converter starts in an event is counted by LPR in bin k (R127, R128): L div 8, or 7 from 56 on. -/
def startCounted (cv : Conv) (k : Nat) (s t : State) : Bool :=
  match s.inFlight cv, t.inFlight cv with
  | none, some f =>
    counts f.req.origin s && decide (k = if f.lateness.toNat < 56 then f.lateness.toNat / 8 else 7)
  | _, _ => false

/-- The eviction of a request in an event is counted by LPR in counter k, which is EVICTED, 9 (R126, R127). -/
def evictionCounted (gone : Option Request) (k : Nat) (s : State) : Bool :=
  match gone with
  | some r => counts r.origin s && decide (k = 9)
  | none => false

/-- LPR's account of an event in which conversions start and one request at most is evicted (R127 to R131). Each counted
start raises its bin by one and a counted eviction EVICTED, up to 4,294,967,295; a counter's SATURATED flag is set in the event
in which it reaches that value, and stays; LATE is raised where a report is counted against a counter whose CombineMask flag
is set, and by nothing else. -/
def Accounted (gone : Option Request) (s t : State) : Prop :=
  let n := fun (k : Nat) => bit (startCounted .a k s t) + bit (startCounted .b k s t) + bit (evictionCounted gone k s)
  (∀ k : Fin 10, t.lpr.counters.get k = satAdd (s.lpr.counters.get k) (n k.val) ∧
    t.lpr.saturated.getLsbD k.val = (s.lpr.saturated.getLsbD k.val ||
      (decide (s.lpr.counters.get k ≠ BitVec.allOnes 32) && decide (t.lpr.counters.get k = BitVec.allOnes 32)))) ∧
    ((∃ k : Fin 10, 0 < n k.val ∧ (cfg s).combineMask.getLsbD k.val = true) → t.intPend &&& Cause.late.mask ≠ 0) ∧
    ((∀ k : Fin 10, 0 < n k.val → (cfg s).combineMask.getLsbD k.val = false) →
      t.intPend &&& Cause.late.mask = s.intPend &&& Cause.late.mask)

/-- The requests that a drum boundary's layout offers, in their order (R37, R38, R54): in RUNNING a shunt slot with an OPEN
window, Lead before the edge that ends it, and each user slot in use whose instant lies in the period. -/
def drumOffers (s t : State) : List Request :=
  match liveBank .d t with
  | none => []
  | some b =>
    let x := t.drum.bank b
    let req := fun (sl : Slot) (input : Fin 8) (inst : Tick) (late : BitVec 8) =>
      ({ origin := .d, slot := sl, bank := some b, tag := t.drum.periodCount, input := .ext input, inst := inst,
         lateMax := some late, cls := .drum, pin := none } : Request)
    let shunt := fun (sl : Slot) (win : Window) (edge : Nat) =>
      if t.drum.state = .running ∧ win = .open then
        [req sl 0 (s.now + BitVec.ofNat 32 edge - BitVec.ofNat 32 (cfg s).lead) (BitVec.ofNat 8 ((cfg s).lead - 16))]
      else []
    let user := fun (sl : Slot) (u : UserSlot) =>
      match u.input with
      | some n =>
        if u.atTick.toNat < 2 * t.drum.half then [req sl n (s.now + BitVec.ofNat 32 u.atTick.toNat) u.lateMax] else []
      | none => []
    shunt .shuntA x.window.winA x.window.t2 ++ shunt .shuntB x.window.winB x.window.t3 ++ user .u1 x.plan.u1
      ++ user .u2 x.plan.u2

/-- The requests that a pump boundary's layout offers, in their order (R86): a slot is due with its countdown at 0 after the
take, SLOT0 is offered in ALIGN, RAMP and RUN at the peak on the pump's own shunt, SLOT1 in every state at the peak or the
valley. -/
def pumpOffers (p : PumpId) (s t : State) : List Request :=
  match liveBank (pumpChannel p) t with
  | none => []
  | some b =>
    let plan := ((t.pump p).bank b).plan
    let x := (pumpPlanStep p s).pump p
    let peak := s.now + BitVec.ofNat 32 ((cfg s).pump p).tp
    let req := fun (sl : Slot) (input : Fin 8) (inst : Tick) =>
      ({ origin := channelOrigin (pumpChannel p), slot := sl, bank := some b, tag := 0, input := .ext input,
         inst := inst, lateMax := some (BitVec.ofNat 8 (cfg s).pumpLateMax), cls := .pump, pin := none } : Request)
    (if plan.every0 ≠ 0 ∧ x.countdown0 = 0 ∧ (t.pump p).state.drives = true then
      [req .slot0 (match p with
        | .p1 => 1
        | .p2 => 2) peak] else [])
    ++ (if plan.every1 ≠ 0 ∧ x.countdown1 = 0 then
      [req .slot1 plan.appliedInput (if plan.valley1 then s.now else peak)] else [])

/-- What the eviction of a request leaves (R97, R110, R117, R127 to R131): EVICTED in its slot, with a pump slot's EVICTED
count one higher; LPR's account of the event, with the report of the eviction; and for a request of CAL the sweep set aside
with its INSTANT. -/
def Evicted (r : Request) (s t : State) : Prop :=
  (∀ st, slotStatusOf r t = some st → st = .evicted) ∧
    (∀ p b x y, r.origin = channelOrigin (pumpChannel p) → r.bank = some b →
      ((s.pump p).bank b).slotAt r.slot = some x → ((t.pump p).bank b).slotAt r.slot = some y →
      y.evictedCount = satInc x.evictedCount) ∧
    Accounted (some r) s t ∧
    ∀ cv, r.origin = convOrigin cv → (t.cal cv).phase = .setAside ∧ (t.cal cv).keptInst = r.inst

/-- What an offer leaves whose ORIGIN and SLOT no entry has (R96, R97): with room it is placed, nothing leaves the list but
by starting, and LPR counts the starts alone (R127 to R131); with 8 entries it evicts the lowest-ranked one where it
outranks that, and is itself evicted, with the list as it was, where it does not. -/
def Offered (r : Request) (s t : State) : Prop :=
  (s.arb.list.length < 8 → ListedOrStarted r s t ∧ (∀ e ∈ s.arb.list, ListedOrStarted e.req s t) ∧
    Accounted none s t) ∧
  ∀ low, s.arb.list.length = 8 → s.arb.list.getLast? = some low →
    (outranks r low.req = true → ListedOrStarted r s t ∧ Evicted low.req s t ∧ ¬ListedOrStarted low.req s t ∧
      ∀ e ∈ s.arb.list, e ≠ low → ListedOrStarted e.req s t) ∧
    (outranks r low.req = false → t.arb.list = s.arb.list ∧ Evicted r s t)

/-- The pending list without the drum's requests: what a drum boundary keeps of it (R36). -/
def drumKept (s : State) : List Entry := s.arb.list.filter (fun e => !decide (e.req.origin = .d))

/-- The pending list without what a pump boundary removes: the requests of a LIVE bank that is replaced or released (R13, R18),
and SLOT0 where the boundary ends in a trip (R103, R138). -/
def pumpKept (p : PumpId) (s t : State) : List Entry :=
  s.arb.list.filter (fun e => !(decide (e.req.origin = channelOrigin (pumpChannel p)) &&
    (decide (e.req.bank ≠ none ∧ e.req.bank = liveBank (pumpChannel p) s ∧
        liveBank (pumpChannel p) t ≠ liveBank (pumpChannel p) s) ||
      decide ((s.pump p).state ≠ .tripped ∧ (t.pump p).state = .tripped ∧ e.req.slot = .slot0))))

/-- The state with its pending list replaced. -/
def withList (l : List Entry) (s : State) : State := { s with arb := { s.arb with list := l } }

/-- The requests offered one after another, each to the list that the offer before it left (R37, R96). -/
def offerAll (rs : List Request) (s : State) : State := rs.foldl (fun u r => offer r u) s

/-- A request as the requesters make it (R92, R114): one of CAL is for the CAL slot and pinned to its own converter. -/
def Request.CalFormed (r : Request) : Prop := ∀ cv, r.origin = convOrigin cv → r.slot = .cal ∧ r.pin = some cv

/-- The law of one offer (R96, R97, R123): a listed entry of the same ORIGIN and SLOT leaves the list first; then the request is
placed, or a full list evicts its lowest entry or the offer itself. In a sleeping pair an offer that is listed, is no
ROUTINE_CAL request, and has its INSTANT within 400 ticks begins the wake; in every other case the power state stays. In an
AWAKE pair such an offer, listed or started at once, is a wake cause of this tick, and no other offer is. -/
def OfferLaw (r : Request) (s t : State) : Prop :=
  let wakes := s.arb.power = .sleep ∧ (∃ e ∈ t.arb.list, e.req = r) ∧ r.cls ≠ .routineCal ∧
    reached (s.now + 400) r.inst = true
  Offered r (withList (s.arb.list.filter (fun e => !e.req.sameKey r)) s) t ∧
    (wakes → t.arb.power = .waking ∧ t.arb.wakeEnd = s.now + 400 ∧ (s.mem.wf → dataAt t powerAddr = 2)) ∧
    (¬wakes → t.arb.power = s.arb.power ∧ t.arb.wakeEnd = s.arb.wakeEnd) ∧
    (let kept := s.arb.power = .awake ∧ ListedOrStarted r s t ∧ r.cls ≠ .routineCal ∧
        reached (s.now + 400) r.inst = true
     (kept → t.arb.wakeNow = true) ∧ (¬kept → t.arb.wakeNow = s.arb.wakeNow))

/-- A calibration request of a converter (R92, R114). -/
def sweepRequest (cv : Conv) (inst : Tick) (cls : ReqClass) : Request :=
  { origin := convOrigin cv, slot := .cal, bank := none, tag := 0, input := .ref, inst := inst, lateMax := none,
    cls := cls, pin := some cv }

/-- The converter beside a converter. -/
def otherConv : Conv → Conv
  | .a => .b
  | .b => .a

/-- The state with a converter IDLE. -/
def freed (cv : Conv) (s : State) : State :=
  match cv with
  | .a => { s with arb := { s.arb with cva := none } }
  | .b => { s with arb := { s.arb with cvb := none } }

/-- What becomes of the sweeps set aside at a completion, with n entries in the list (R117): each is offered again with its
class and its kept INSTANT, CAL_A before CAL_B, where the list then holds fewer than 8 entries, and is left where not. -/
def SetAsideReoffered (n : Nat) (s t : State) : Prop :=
  ∀ cv, (s.cal cv).phase = .setAside →
    let length := n + (if cv = .b ∧ (s.cal .a).phase = .setAside then 1 else 0)
    (length < 8 → ListedOrStarted (sweepRequest cv (s.cal cv).keptInst (s.cal cv).cls.reqClass) s t) ∧
      (8 ≤ length → t.cal cv = s.cal cv)

/-- What the next offer of a sweep at a completion leaves (R96, R97, R115): with room it is placed, and LPR counts the starts
alone (R127 to R131); with 8 entries it evicts the
lowest-ranked one where it outranks that, and is itself evicted where it does not. Nothing else leaves the list but by
starting. -/
def OfferedAtCompletion (r : Request) (s t : State) : Prop :=
  (s.arb.list.length < 8 → ListedOrStarted r s t ∧ (∀ e ∈ s.arb.list, ListedOrStarted e.req s t) ∧
    Accounted none s t) ∧
  ∀ low, s.arb.list.length = 8 → s.arb.list.getLast? = some low →
    (outranks r low.req = true → ListedOrStarted r s t ∧ Evicted low.req s t ∧ ¬ListedOrStarted low.req s t ∧
      ∀ e ∈ s.arb.list, e ≠ low → ListedOrStarted e.req s t) ∧
    (outranks r low.req = false → Evicted r s t ∧ ¬ListedOrStarted r s t ∧
      ∀ e ∈ s.arb.list, ListedOrStarted e.req s t)

/-- The class of a sweep in progress once its raises that have come about are acted on, with an interval (R116, R120). -/
def raisedClass (now due : Tick) (interval : Nat) : CalClass → CalClass
  | .routine =>
    if reached now (due + BitVec.ofNat 32 (interval / 2)) = false then .routine
    else if reached now (due + BitVec.ofNat 32 interval) then .forced else .urgent
  | .urgent => if reached now (due + BitVec.ofNat 32 interval) then .forced else .urgent
  | cls => cls

/-- The class with which an APPLY_CONFIG begins a sweep: the highest that its raise times give (R120). -/
def begunClass (now due : Tick) (interval : Nat) : CalClass :=
  if reached now (due + BitVec.ofNat 32 interval) then .forced
  else if reached now (due + BitVec.ofNat 32 (interval / 2)) then .urgent else .routine

/-- Whether a new interval begins no sweep of a record and raises none (R120). -/
def CalRecord.Unmoved (r : CalRecord) (now : Tick) (interval : Nat) : Prop :=
  if r.phase = .waiting then reached now (r.lastCal + BitVec.ofNat 32 interval) = false
  else raisedClass now r.due interval r.cls = r.cls

/-- The raise of a sweep in progress to a class, as its request shows it (R95, R116): a listed request keeps its place in
the list's contents with the class it has risen to; one that converts is left; one set aside is offered again, with the
class of the first raise. -/
def RequestRaised (cv : Conv) (up : CalClass) (s t : State) : Prop :=
  let x := s.cal cv
  let first := if x.cls = .routine then CalClass.urgent else .forced
  (x.phase = .listed → t.arb.cva = s.arb.cva ∧ t.arb.cvb = s.arb.cvb ∧ t.arb.list.length = s.arb.list.length ∧
      ∀ e ∈ s.arb.list,
        (if e.req.origin = convOrigin cv then { e with req := { e.req with cls := up.reqClass } } else e) ∈ t.arb.list) ∧
    (x.phase = .converting → t.arb.list = s.arb.list ∧ t.arb.cva = s.arb.cva ∧ t.arb.cvb = s.arb.cvb) ∧
    (x.phase = .setAside → first = up → Offered (sweepRequest cv x.keptInst up.reqClass) s t) ∧
    (x.phase = .setAside → first ≠ up → s.arb.list.length < 8 →
      (∃ e ∈ t.arb.list, e.req = sweepRequest cv x.keptInst up.reqClass) ∨
        StartedOn cv (sweepRequest cv x.keptInst first.reqClass) s t)

/-- What a successful APPLY_CONFIG does to a converter's calibration record, with the new interval (R120). One in WAITING
takes DUE = LAST_CAL_TIME + I, and where that is reached begins a sweep with the class its raise times give; a sweep in
progress keeps all but its class, which rises where a raise time is reached. What becomes of the request is said where the
other converter's record is left unmoved, so that nothing else reaches the list. -/
def Recounted (cv : Conv) (interval : Nat) (s t : State) : Prop :=
  let x := s.cal cv
  let y := { t.cal cv with phase := x.phase, keptInst := x.keptInst }
  let due := x.lastCal + BitVec.ofNat 32 interval
  let begun := begunClass s.now due interval
  let up := raisedClass s.now x.due interval x.cls
  let alone := (s.cal (otherConv cv)).Unmoved s.now interval
  (x.phase = .waiting → Shows t (calAddr cv + 2) (twoWords due) ∧
    (reached s.now due = false → t.cal cv = { x with due := due }) ∧
    (reached s.now due = true → y = { x with due := due, cls := begun, progress := 0, sum := 0 } ∧
      (t.cal cv).phase ≠ .waiting ∧ (alone → Offered (sweepRequest cv due begun.reqClass) s t))) ∧
  (x.phase ≠ .waiting → y = { x with cls := up } ∧ (alone → up ≠ x.cls → RequestRaised cv up s t))

/-- A wake cause has been taken (R123): a sleeping pair wakes, for 400 ticks; one that is AWAKE stays so, and stays so on this
tick; one that is WAKING is left. -/
def wokenPair (s : State) : Arbiter :=
  match s.arb.power with
  | .sleep => { s.arb with power := .waking, wakeEnd := s.now + 400 }
  | .awake => { s.arb with wakeNow := true }
  | .waking => s.arb

/-- A calibration record within its ranges (R113): OFFSET in -64 to +63, at most 15 conversions between completions,
and their sum. -/
def CalRecord.InRange (r : CalRecord) : Prop :=
  -64 ≤ r.offset ∧ r.offset ≤ 63 ∧ r.progress ≤ 15 ∧ r.sum ≤ r.progress * 4095

/-- What a calibration record says of its sweep agrees with the arbiter (R113 to R117): no class and WAITING together, LISTED
with an entry in the pending list, CONVERTING with the conversion in flight on its own converter; an entry of CAL is pinned
to that converter and does not expire. -/
def State.CalAgrees (s : State) : Prop :=
  ∀ cv, ((s.cal cv).cls = .none ↔ (s.cal cv).phase = .waiting) ∧
    ((s.cal cv).phase = .listed ↔ ∃ e ∈ s.arb.list, e.req.origin = convOrigin cv) ∧
    (∀ e ∈ s.arb.list, e.req.origin = convOrigin cv →
      e.req.slot = .cal ∧ e.req.pin = some cv ∧ e.req.lateMax = none) ∧
    (∀ other, (∃ f, s.inFlight other = some f ∧ f.req.origin = convOrigin cv) ↔
      other = cv ∧ (s.cal cv).phase = .converting)

/-! ### The configuration (R150, R151, R155) -/

/-- A start table within its ranges (R151). -/
def TableLegal (t : List RampEntry) : Prop :=
  1 ≤ t.length ∧ t.length ≤ 8 ∧
    ∀ e ∈ t, 2000 ≤ e.interval ∧ e.interval ≤ Config.maxInterval ∧ 1 ≤ e.steps ∧ e.steps ≤ 255

/-- A pump's fields within their ranges (R150). -/
def PumpConfig.Legal (c : PumpConfig) : Prop :=
  500 ≤ c.tp ∧ c.tp ≤ 4000 ∧ 8 ≤ c.deadTime ∧ c.deadTime ≤ 255 ∧ TableLegal c.table

/-- The shadow within the ranges of R150, with its consistency conditions. -/
def Shadow.Legal (c : Shadow) : Prop :=
  (8 ≤ c.dtD ∧ c.dtD ≤ 255 ∧ 16 ≤ c.settle ∧ c.settle ≤ 511 ∧ c.dtD + 8 ≤ c.settle ∧ 16 ≤ c.lead ∧ c.lead ≤ 255) ∧
    (1 ≤ c.missLimit ∧ c.missLimit ≤ 15 ∧ 1 ≤ c.qualTime ∧ c.qualTime ≤ 65535 ∧ c.hallFilter ≤ 255) ∧
    (c.p1.Legal ∧ c.p2.Legal) ∧
    (c.alignDuty ≤ c.p1.tp ∧ c.alignDuty ≤ c.p2.tp ∧ c.zcMinDuty ≤ c.p1.tp ∧ c.zcMinDuty ≤ c.p2.tp) ∧
    (1 ≤ c.alignTime ∧ c.alignTime ≤ 2000 ∧ 3 ≤ c.lockCount ∧ c.lockCount ≤ 12 ∧ 1 ≤ c.zcFilter ∧ c.zcFilter ≤ 3) ∧
    (c.blankMin ≤ 65535 ∧ c.blankFrac ≤ 32 ∧ 1 ≤ c.missLimitP ∧ c.missLimitP ≤ 15 ∧ c.pumpLateMax ≤ 255) ∧
    (c.idleLimit ≤ 65535 ∧ 10 ≤ c.calInterval ∧ c.calInterval ≤ 1000)

/-- The words that an APPLY_CONFIG in flight has read have passed their checks one by one, and are not yet the full read
(R156, R157). -/
def WordsPassed (ws : List Word) : Prop :=
  ∀ k, k < ws.length → invalidDetail (ws.take (k + 1)) = 0 ∧ readComplete (ws.take (k + 1)) = false

/-- The shadow is legal, and so is what an APPLY_CONFIG in flight has read so far. -/
def State.ConfigLegal (s : State) : Prop :=
  s.gcu.shadow.Legal ∧ ∀ r, s.gcu.apply = some r → WordsPassed r.words

/-- While an APPLY_CONFIG is in flight the drum is not RUNNING and no pump is in ALIGN, RAMP or RUN (R152, R155,
R159). -/
def State.ApplyQuiet (s : State) : Prop :=
  s.gcu.apply ≠ none →
    s.drum.state ≠ .running ∧ s.pump1.state.drives = false ∧ s.pump2.state.drives = false

/-! ### Trips -/

/-- The trip record of a channel (R141). -/
def tripOf (ch : Channel) (s : State) : TripRecord :=
  match ch with
  | .d => s.drum.trip
  | .p1 => s.pump1.trip
  | .p2 => s.pump2.trip

/-- The record of a trip that the gate-supply input alone causes (R138 to R141): it is FIRST_CAUSE and the only cause, ACTION is
OFF, TRIP_TIME is NOW, and LIVE_SEQ is that of a LIVE bank, 0 without one. -/
def gateTrip (now : Tick) (liveSeq : Word) : TripRecord :=
  { first := some .gate, oc := false, busOv := false, gate := true, action := .off, time := now, liveSeq := liveSeq }

/-- LIVE_SEQ as a trip copies it: that of the LIVE bank, 0 without one (R141). -/
def tripSeq (ch : Channel) (s : State) : Word := if (liveBank ch s).isSome then (s.exch ch).liveSeq else 0

/-- What a boundary leaves of a drum that TRM trips as it enters a driven state with its gate-supply input asserted (R138 to
R141): TRIPPED with every switch off at once and no edge to come, the miss count 0, the record with the state being entered as
PRIOR_STATE (notes/assumptions/19.md) and the new PERIOD_COUNT, its words showing it, TRIP raised, and no SHUNT request
listed (R103). -/
def GateTripsDrum (prior : DrumState) (s t : State) : Prop :=
  (t.drum.state = .tripped ∧ t.drum.out = .off ∧ t.drum.legs.All Leg.Off ∧ t.drum.upAt = Tri.const none ∧
      t.drum.downAt = Tri.const none ∧ t.drum.missCount = 0) ∧
    (t.drum.trip = gateTrip s.now (tripSeq .d t) ∧ t.drum.tripPrior = prior ∧
      t.drum.tripPeriodCount = s.drum.periodCount + 1 ∧ t.drum.tripNow = true) ∧
    (s.mem.wf → Shows t (controlAddr .d offTrip) t.drum.tripWords) ∧ t.intPend &&& Cause.trip.mask ≠ 0 ∧
    ∀ e ∈ t.arb.list, currentSlot .d e.req = false

/-- The same of a pump (R138 to R141): the commutation state is cleared as BRAKING is entered (R83), so the S that the record
copies is 0, and STEP_INDEX stays. Its listed SLOT0 request leaves the list with DROPPED_TRIP in the slot, but where the
boundary took its bank from LIVE before (R103; DROPPED_BOUNDARY, R13). -/
def GateTripsPump (p : PumpId) (prior : PumpState) (s t : State) : Prop :=
  let ch := pumpChannel p
  let x := t.pump p
  (x.state = .tripped ∧ x.legs.All Leg.Off ∧ x.pwmOn = false ∧ x.onAt = none ∧ x.offAt = none ∧ x.comm = clearComm) ∧
    (x.trip = gateTrip s.now (tripSeq ch t) ∧ x.tripPrior = prior ∧ x.tripStep = (s.pump p).stepIndex ∧
      x.tripEst = 0 ∧ x.tripNow = true ∧ x.stepIndex = (s.pump p).stepIndex) ∧
    (s.mem.wf → Shows t (controlAddr ch offTrip) x.tripWords) ∧ t.intPend &&& Cause.trip.mask ≠ 0 ∧
    (∀ e ∈ t.arb.list, currentSlot ch e.req = false) ∧
    (liveBank ch t = liveBank ch s → ∀ e ∈ s.arb.list, currentSlot ch e.req = true →
      ∀ st, slotStatusOf e.req t = some st → st = .droppedTrip)

/-! ### Trips on one tick (R144) -/

/-- A trip that took place at this NOW has NOW as its TRIP_TIME (R141, R144). -/
def State.TripsTimed (s : State) : Prop :=
  (s.drum.tripNow = true → s.drum.trip.time = s.now) ∧ ∀ p, (s.pump p).tripNow = true → (s.pump p).trip.time = s.now

/-! ### Counts -/

/-- The drum's consecutive-miss count stands below MissLimit in RUNNING and is 0 in every other state (R34, R35). -/
def State.MissesCounted (s : State) : Prop :=
  (s.drum.state = .running → s.drum.missCount < (cfg s).missLimit) ∧ (s.drum.state ≠ .running → s.drum.missCount = 0)

/-- A pump's counts: the good count 0 in ALIGN and below LockCount in RAMP, the consecutive-miss count below MissLimitP in
RUN, and the whole commutation state cleared outside ALIGN, RAMP and RUN (R74, R81, R83). -/
def Pump.CountsLawful (x : Pump) (c : Shadow) : Prop :=
  (x.state = .align → x.comm.good = 0) ∧ (x.state = .ramp → x.comm.good < c.lockCount) ∧
    (x.state = .run → x.comm.missCount < c.missLimitP) ∧
    (x.state.drives = false → x.comm = clearComm)

/-- The counts of both pumps. -/
def State.PumpCountsLawful (s : State) : Prop :=
  s.pump1.CountsLawful (cfg s) ∧ s.pump2.CountsLawful (cfg s)

/-! ### Commands by kind -/

/-- The commands that may clear a pending interrupt flag: a write to INT_CLR and the resets (R170). -/
def mayClear : Instr → Bool
  | .intClrWrite _ => true
  | .softReset _ => true
  | .resetnAssert => true
  | .sweepEnd => true
  | _ => false

/-- The host's writes to the memory that the table names by their word, each with its address and its word. -/
def hostWriteOf : Instr → Option (Nat × Word)
  | .sleepGrantWrite ch v => some (controlAddr ch offGrant, v)
  | .switchTake ch b => some (controlAddr ch offSwitch, takeWord b)
  | .switchCancel ch => some (controlAddr ch offSwitch, 3)
  | .switchBadRequest ch v => some (controlAddr ch offSwitch, v)
  | .start ch tag => some (controlAddr ch offCommand, commandWord 1 tag)
  | .stop ch tag => some (controlAddr ch offCommand, commandWord 2 tag)
  | .brake ch tag => some (controlAddr ch offCommand, commandWord 3 tag)
  | .clearTrip ch tag => some (controlAddr ch offCommand, commandWord 4 tag)
  | .release ch tag => some (controlAddr ch offCommand, commandWord 5 tag)
  | .commandBadCode ch code tag => some (controlAddr ch offCommand, commandWord code tag)
  | .applyConfig tag => some (gcmdAddr, commandWord 1 tag)
  | .clearProfile tag => some (gcmdAddr, commandWord 2 tag)
  | .clearFaults tag => some (gcmdAddr, commandWord 3 tag)
  | .recalibrate tag => some (gcmdAddr, commandWord 4 tag)
  | .gcmdBadCode code tag => some (gcmdAddr, commandWord code tag)
  | _ => none

/-- The word that the host writes with a command, with its address: by a row that names the word, or as the next word of an
open MEM_WRITE frame (R163, R164). -/
def hostWordOf (c : Instr) (s : State) : Option (Nat × Word) :=
  match c, s.port.frame with
  | .memWriteWord w, some f => if f.kind = .memWrite then some (f.addr.toNat, w) else none
  | .memWriteWord _, none => none
  | _, _ => hostWriteOf c

/-- The register writes of the table, each with its address and its word. -/
def registerWriteOf : Instr → Option (Word × Word)
  | .intEnWrite v => some (3, v)
  | .intClrWrite v => some (4, v)
  | .softReset v => some (5, v)
  | .regWriteIgnored a v => some (a, v)
  | _ => none

/-- The channel whose boundary a command is. -/
def boundaryOf : Instr → Option Channel
  | .drumBoundary => some .d
  | .pumpBoundary p => some (pumpChannel p)
  | _ => none

/-! ### The occurrences of R170 -/

/-- A cause that was not pending is pending after the event. -/
def Raised (k : Cause) (s t : State) : Prop := s.intPend &&& k.mask = 0 ∧ t.intPend &&& k.mask ≠ 0

/-- A bank of a channel has come back to the host: HOST after the event and not before (R20). -/
def BankReturned (ch : Channel) (s t : State) : Prop :=
  ∃ b, (s.exch ch).role b ≠ .host ∧ (t.exch ch).role b = .host

/-- LPR has counted a report against a counter whose CombineMask flag is set (R127, R130, R131): the counter is higher after
the event, or stands at its limit. -/
def LateCounted (s t : State) : Prop :=
  (cfg t).profileEnable = true ∧ ∃ k : Fin 10, (cfg t).combineMask.getLsbD k.val = true ∧
    ((s.lpr.counters.get k).toNat < (t.lpr.counters.get k).toNat ∨ s.lpr.counters.get k = BitVec.allOnes 32)

/-- The offset that a sweep's sixteen results give before the clamp: their mean, rounded, less mid-scale (R118). -/
def exactOffset (sum : Nat) : Int := (((sum + 8) / 16 : Nat) : Int) - 2048

/-- The occurrence that raises a cause, as the table of R170 and the rule behind each of its rows name it: a bank returned
(R12, R16, R20), a miss of a RUNNING drum (R14), lock (R74), starvation and the two stalls of a pump (R35, R73, R81), a trip
or a further cause that changes the record (R139, R142), a command outcome (R30, R154), a faulted host write (R166), a parity
failure in a plan read or in the read of an APPLY_CONFIG (R167), a counted report that CombineMask selects (R131), and a
clamped offset (R118). -/
def Occurred (k : Cause) (c : Instr) (s t : State) : Prop :=
  match k with
  | .retD => BankReturned .d s t
  | .retP1 => BankReturned .p1 s t
  | .retP2 => BankReturned .p2 s t
  | .hold => c = .drumBoundary ∧ s.drum.state = .running ∧ liveBank .d s ≠ none
  | .lock => ∃ p level, c = .peak p level ∧ (s.pump p).state = .ramp ∧ (t.pump p).state = .run
  | .stall =>
    (c = .drumBoundary ∧ (s.MissesCounted → 1 ≤ (cfg s).missLimit → s.drum.state = .running) ∧
      (t.drum.state = .starved ∨ (t.drum.state = .tripped ∧ t.drum.tripPrior = .starved))) ∨
    (∃ p, c = .rampStepEnd p ∧ (s.pump p).state = .ramp ∧ (t.pump p).state = .stalled .noLock) ∨
    (∃ p, c = .timeout p ∧ (s.pump p).state = .run ∧ (t.pump p).state = .stalled .zcLost)
  | .trip =>
    ∃ ch, isTripped ch t = true ∧
      ((boundaryOf c = some ch ∧ isTripped ch s = false) ∨
        (∃ pin, c = .inputAssertion pin ∧ (isTripped ch s = false ∨ tripOf ch t ≠ tripOf ch s)))
  | .cmd =>
    (∃ ch, boundaryOf c = some ch ∧ waitingOf ch s ≠ none) ∨
    (∃ a w, hostWordOf c s = some (a, w) ∧ (a = gcmdAddr ∨ ∃ ch, a = controlAddr ch offCommand)) ∨
    (c = .configWordRead ∧ s.gcu.apply ≠ none ∧ t.gcu.apply = none)
  | .access => ∃ a w, hostWordOf c s = some (a, w) ∧ writeFault a s ≠ none
  | .parity =>
    (∃ ch b, boundaryOf c = some ch ∧ pendingBank ch s = some b ∧ badPlanWords ch b s ≠ []) ∨
    (c = .configWordRead ∧ ∃ r, s.gcu.apply = some r ∧ (s.mem.read (readAddr r.words r.words.length)).good = false)
  | .late => LateCounted s t
  | .calr =>
    ∃ cv raw f cv', c = .completion cv raw ∧ s.inFlight cv = some f ∧ f.req.origin = convOrigin cv' ∧
      (s.cal cv').progress + 1 = 16 ∧
      (exactOffset ((s.cal cv').sum + raw.toNat) < -64 ∨ 63 < exactOffset ((s.cal cv').sum + raw.toNat))

/-- The other pump. -/
def otherPump : PumpId → PumpId
  | .p1 => .p2
  | .p2 => .p1

/-- A pump without the results it keeps for its banks: what the arbiter's events can change is left out. -/
def Pump.own (x : Pump) : Pump := { x with bank0 := blankPumpBank, bank1 := blankPumpBank }

/-- The drum without the results it keeps for its banks. -/
def Drum.own (d : Drum) : Drum :=
  { d with bank0 := freshDrumBank blankDrumPlan, bank1 := freshDrumBank blankDrumPlan }

end Sys2Proof.Machine
end

