-- ==== Sys2Proof/WellFormed.lean ====
section
/-! DEFINITION. When a command is well formed: its operands are ones that the row of spec/opcode_table.json it stands
for can carry. The meanings are total and decode what is written as the part does, so an ill-formed command is only a
misnamed one. -/

namespace Sys2Proof

/-- The opcode byte of a channel command that the COMMAND word decodes (R174, 11.8): 1 to 5. -/
def isChannelCode (code : Byte) : Bool := 1 ≤ code.toNat && code.toNat ≤ 5

/-- The code byte of a global command that GCMD decodes (R174, 11.8): 1 to 4. -/
def isGlobalCode (code : Byte) : Bool := 1 ≤ code.toNat && code.toNat ≤ 4

/-- A register write that the port ignores (R169): every address but INT_EN, INT_CLR and CONTROL, and CONTROL with
bit 0 clear. -/
def isIgnoredRegWrite (addr value : Word) : Bool :=
  addr != 3 && addr != 4 && !(addr == 5 && value.getLsbD 0)

/-- The slots a drum or pump request can have (R92); a CAL request does not expire (R102). -/
def canExpire : Origin → Slot → Bool
  | .d, .shuntA => true
  | .d, .shuntB => true
  | .d, .u1 => true
  | .d, .u2 => true
  | .p1, .slot0 => true
  | .p1, .slot1 => true
  | .p2, .slot0 => true
  | .p2, .slot1 => true
  | _, _ => false

/-- A command is well formed when its operands belong to its row of the table. -/
def Instr.wellFormed : Instr → Bool
  | .switchBadRequest _ v => v != 1 && v != 2 && v != 3
  | .commandBadCode _ code _ => !isChannelCode code
  | .gcmdBadCode code _ => !isGlobalCode code
  | .softReset v => v.getLsbD 0
  | .regWriteIgnored a v => isIgnoredRegWrite a v
  | .expiry o sl => canExpire o sl
  | .frameOpen _ _ _ => true
  | .frameClose => true
  | .memWriteWord _ => true
  | .memReadWord => true
  | .sleepGrantWrite _ _ => true
  | .switchTake _ _ => true
  | .switchCancel _ => true
  | .start _ _ => true
  | .stop _ _ => true
  | .brake _ _ => true
  | .clearTrip _ _ => true
  | .release _ _ => true
  | .applyConfig _ => true
  | .clearProfile _ => true
  | .clearFaults _ => true
  | .recalibrate _ => true
  | .configWordRead => true
  | .intEnWrite _ => true
  | .intClrWrite _ => true
  | .resetnAssert => true
  | .resetnRelease => true
  | .memorySweep => true
  | .sweepEnd => true
  | .drumBoundary => true
  | .pumpBoundary _ => true
  | .phaseEdge _ => true
  | .deadTimeEnd _ _ => true
  | .pumpPwmEdge _ => true
  | .hallInputChange _ _ => true
  | .hallEdge => true
  | .peak _ _ => true
  | .alignTimerExpiry _ => true
  | .rampStepEnd _ => true
  | .scheduledCommutation _ => true
  | .timeout _ => true
  | .eligibility => true
  | .completion _ _ => true
  | .calDue _ => true
  | .calRaiseTime _ => true
  | .enterSleep => true
  | .wakeReach => true
  | .wakingEnd => true
  | .tripInputChange _ _ => true
  | .inputAssertion _ => true
  | .inputRelease _ => true
  | .qualification _ => true

end Sys2Proof
end

