-- ==== Sys2Proof/Certificates/Slice0/Obligations.lean ====
section
/-! DEFINITION. The statements for the provers, from the numbered rules of spec/. Each says what a command or the machine
does; `Completes i s P` says that exec answers a next state for `i` at `s` and that the state has `P`. -/

open Sys2Proof Sys2Proof.Machine

/-! ### The step and the queue -/

/-- The step takes the command at the front of the queue and runs exec on it with the queue's rest. -/
def Obligations.StepRunsFrontCommand : Prop :=
  ∀ (c : Instr) (cs : List Instr) (s : State), s.pending = c :: cs →
    Sys2Proof.Machine.step s = exec c { s with pending := cs }

/-- With an empty queue the part's own time goes on; this is the model's choice (notes/assumptions/1.md). While RESETn is low
and the clock locks nothing happens; the sweep counts its ticks and writes one word to zero every 4 of them, in address order
(R171); the running part puts due events into the queue, or lets one tick pass, which switches nothing and writes nothing: each
Hall and trip filter counts while its raw level differs from its accepted one, and stands at 0 otherwise (R40, R135), a
qualification timer counts while its input is released (R137), every switch's off-time rises and a waiting turn-on comes one
tick nearer (R27), and no trip lies at the new NOW. An AWAKE pair has taken a wake cause at the new NOW where a listed entry, no
ROUTINE_CAL, comes within reach at it, that is where its INSTANT - 400 is the new NOW, and none otherwise (R123;
notes/assumptions/32.md). -/
def Obligations.EmptyQueueLetsTimePass : Prop :=
  ∀ s : State, s.pending = [] → ∃ t, Sys2Proof.Machine.step s = .next t ∧
    (s.phase = .held ∨ s.phase = .locking → t = s) ∧
    (∀ n, s.phase = .sweeping n → n < Config.sweepTicks →
      t.phase = .sweeping (n + 1) ∧ { t with phase := s.phase, mem := s.mem } = s ∧
      ((n + 1) % 4 ≠ 0 → t.mem = s.mem) ∧
      ((n + 1) % 4 = 0 → s.mem.wf →
        t.mem.read ((n + 1) / 4 - 1) = blankWord ∧ KeepsOutside s t [(n + 1) / 4 - 1])) ∧
    (s.phase = .running → dueEvents s ≠ [] →
      t.pending = dueEvents s ∧ { t with pending := s.pending, draws := s.draws } = s) ∧
    (s.phase = .running → dueEvents s = [] →
      t.now = s.now + 1 ∧
      { t with now := s.now, drum := s.drum, pump1 := s.pump1, pump2 := s.pump2, trm := s.trm, arb := s.arb } = s ∧
      { t.arb with wakeNow := s.arb.wakeNow } = s.arb ∧
      (t.arb.wakeNow = true ↔
        s.arb.power = .awake ∧ ∃ e ∈ s.arb.list, e.req.cls ≠ .routineCal ∧ e.req.inst = t.now + 400) ∧
      { t.drum with
        h1 := s.drum.h1, h2 := s.drum.h2, h3 := s.drum.h3, legs := s.drum.legs, tripNow := s.drum.tripNow } = s.drum ∧
      { t.pump1 with legs := s.pump1.legs, tripNow := s.pump1.tripNow } = s.pump1 ∧
      { t.pump2 with legs := s.pump2.legs, tripNow := s.pump2.tripNow } = s.pump2 ∧
      t.drum.tripNow = false ∧ t.pump1.tripNow = false ∧ t.pump2.tripNow = false ∧
      (∀ f g, (f = s.drum.h1 ∧ g = t.drum.h1) ∨ (f = s.drum.h2 ∧ g = t.drum.h2) ∨ (f = s.drum.h3 ∧ g = t.drum.h3) ∨
          (∃ pin, f = s.trm.filter pin ∧ g = t.trm.filter pin) →
        g = { f with count := if f.raw = f.level then 0 else satInc f.count }) ∧
      (∀ g, t.trm.qual g = { s.trm.qual g with
        timer := if (s.trm.supply g).level then satInc (s.trm.qual g).timer else 0 }) ∧
      ∀ ch ph, let l := (channelLegs ch s).get ph
        (channelLegs ch t).get ph =
          { l with
            highOffFor := satInc l.highOffFor, lowOffFor := satInc l.lowOffFor,
            waiting := l.waiting.map (fun w => { w with left := w.left - 1 }) })

/-! ### The port (10_serial_memory_port_registers_and_interrupt.md) -/

/-- FRAME_OPEN opens a frame of the kind its opcode byte names, with the start address and the level of LANES, and
FRAME_CLOSE ends it. While RESETn is low no frame begins. That the opening of a frame while the select pin is low already
changes nothing is the model's choice (notes/assumptions/21.md), and that an operation outside its frame is none is read
from R163 (notes/assumptions/16.md). While READY is 0 the port discards every memory write and ignores every register
write, and a memory read returns 0 (R171). -/
def Obligations.FramesOpenAndClose : Prop :=
  (∀ (four : Bool) (op : Byte) (addr : Word) (s : State), s.port.csLow = false → s.phase ≠ .held →
    Completes (.frameOpen four op addr) s (fun t =>
      t.port.csLow = true ∧ { t with port := s.port } = s ∧
      ∃ f, t.port.frame = some f ∧ f.addr = addr ∧ f.fourLanes = four ∧
        (op = 0x51#8 → f.kind = .memRead) ∧ (op = 0x52#8 → f.kind = .memWrite) ∧
        (op = 0x61#8 → f.kind = .regRead) ∧ (op = 0x62#8 → f.kind = .regWrite) ∧
        (op ≠ 0x51#8 → op ≠ 0x52#8 → op ≠ 0x61#8 → op ≠ 0x62#8 → f.kind = .ignored))) ∧
  (∀ (four : Bool) (op : Byte) (addr : Word) (s : State), s.port.csLow = false → s.phase = .held →
    Completes (.frameOpen four op addr) s (fun t =>
      t.port.csLow = true ∧ t.port.frame = none ∧ { t with port := s.port } = s)) ∧
  (∀ (four : Bool) (op : Byte) (addr : Word) (s : State), s.port.csLow = true →
    Completes (.frameOpen four op addr) s (fun t => t = s)) ∧
  (∀ s : State, Completes .frameClose s (fun t =>
    t.port.csLow = false ∧ t.port.frame = none ∧ { t with port := s.port } = s)) ∧
  (∀ (i : Instr) (s : State), ready s = false →
    (hostWriteOf i ≠ none ∨ registerWriteOf i ≠ none ∨ ∃ w, i = .memWriteWord w) →
    Completes i s (fun t => { t with port := s.port } = s)) ∧
  (∀ (s : State) (f : Frame), ready s = false → s.port.frame = some f → f.kind = .memRead →
    Completes .memReadWord s (fun t => t.port.readOut = 0 ∧ { t with port := s.port } = s))

/-- A data word of a MEM_WRITE frame lands in scratch, in a bank whose role is HOST, and in the configuration block or a
start table with no APPLY_CONFIG in flight: it is stored with good parity, no other word changes, and nothing is
delivered. That there is no word outside a MEM_WRITE frame is read from R163 (notes/assumptions/16.md). -/
def Obligations.HostWordLands : Prop :=
  (∀ (w : Word) (s : State) (f : Frame), ready s = true → s.mem.wf → s.port.frame = some f → f.kind = .memWrite →
    ((0x280 ≤ f.addr.toNat ∧ f.addr.toNat < 0x800) ∨
      (∃ ch b, bankOf f.addr.toNat = some (ch, b) ∧ (s.exch ch).role b = .host) ∨
      (0x40 ≤ f.addr.toNat ∧ f.addr.toNat < 0xC0 ∧ s.gcu.apply = none)) →
    Completes (.memWriteWord w) s (fun t =>
      dataAt t f.addr.toNat = w ∧ (t.mem.read f.addr.toNat).good = true ∧ KeepsOutside s t [f.addr.toNat] ∧
      t.port.frame = some { f with addr := f.addr + 1 } ∧ { t with mem := s.mem, port := s.port } = s)) ∧
  (∀ (s : State) (w : Word), (∀ f, s.port.frame = some f → f.kind ≠ .memWrite) →
    Completes (.memWriteWord w) s (fun t => t = s))

/-- The host write check: an address of 0x800 or above, a part-owned word, a bank whose role is not HOST, and the
configuration while an APPLY_CONFIG is in flight fault in that order. A faulted write changes nothing but the access
fault record, its two words and the ACCESS cause; the record keeps the first fault and counts all of them. -/
def Obligations.HostWordFaults : Prop :=
  ∀ (w : Word) (kind : FaultKind) (role : Option Role) (s : State) (f : Frame),
    ready s = true → s.mem.wf → s.port.frame = some f → f.kind = .memWrite → Shows s accessAddr s.access.words →
    ((0x800 ≤ f.addr.toNat ∧ kind = .outOfRange ∧ role = none) ∨
      (((0 < f.addr.toNat ∧ f.addr.toNat < 0x40) ∨
          (0xC0 ≤ f.addr.toNat ∧ f.addr.toNat < 0x120 ∧ f.addr.toNat % 0x20 ≠ 0 ∧ f.addr.toNat % 0x20 ≠ 5 ∧
            f.addr.toNat % 0x20 ≠ 10)) ∧ kind = .engineWord ∧ role = none) ∨
      (∃ ch b, bankOf f.addr.toNat = some (ch, b) ∧ (s.exch ch).role b ≠ .host ∧ kind = .bankBusy ∧
        role = some ((s.exch ch).role b)) ∨
      (0x40 ≤ f.addr.toNat ∧ f.addr.toNat < 0xC0 ∧ s.gcu.apply ≠ none ∧ kind = .configBusy ∧ role = none)) →
    Completes (.memWriteWord w) s (fun t =>
      t.access = (if s.access.count = 0 then { addr := f.addr, kind := kind, role := role, count := 1 }
        else { s.access with count := satInc s.access.count }) ∧
      Shows t accessAddr t.access.words ∧ t.intPend = s.intPend ||| Cause.access.mask ∧
      KeepsOutside s t [0x006, 0x007] ∧ t.port.frame = some { f with addr := f.addr + 1 } ∧
      { t with port := s.port, access := s.access, mem := s.mem, intPend := s.intPend } = s)

/-- A command that the table names by the word it writes does what a MEM_WRITE_WORD of that word does in a MEM_WRITE frame
that stands at its address; that a named write consumes the frame's word is the model's choice
(notes/assumptions/10.md). With the select pin high it leaves the port as it is. While another frame holds the select pin
low, one of another kind or at another address, or one that RESETn has abandoned, no word is written: nothing changes. The
same holds of a register write and a REG_WRITE frame (R163). -/
def Obligations.NamedWritesAreHostWords : Prop :=
  (∀ (i : Instr) (a : Nat) (w : Word) (s : State) (f : Frame), hostWriteOf i = some (a, w) →
    s.port.frame = some f → f.kind = .memWrite → f.addr.toNat = a → exec i s = exec (.memWriteWord w) s) ∧
  (∀ (i : Instr) (a : Nat) (w : Word) (s : State), hostWriteOf i = some (a, w) →
    ((s.port.csLow = true ∧ s.port.frame = none) ∨
      ∃ f, s.port.frame = some f ∧ (f.kind ≠ .memWrite ∨ f.addr.toNat ≠ a)) →
    Completes i s (fun t => t = s)) ∧
  (∀ (i : Instr) (a v : Word) (s : State), registerWriteOf i = some (a, v) →
    ((s.port.csLow = true ∧ s.port.frame = none) ∨
      ∃ f, s.port.frame = some f ∧ (f.kind ≠ .regWrite ∨ f.addr ≠ a)) →
    Completes i s (fun t => t = s)) ∧
  (∀ (i : Instr) (s : State), (hostWriteOf i ≠ none ∨ registerWriteOf i ≠ none) → s.port.csLow = false →
    s.port.frame = none → Completes i s (fun t => t.port = s.port))

/-- A host word read returns the data as stored, and sets HPAR when the word fails its parity check; HPAR is sticky, a
read at 0x800 or above returns 0 and leaves it, CLEAR_FAULTS and both resets clear it, and a read with bad parity fills
no record and raises no cause (R168). -/
def Obligations.HostReadsAndHpar : Prop :=
  (∀ (s : State) (f : Frame), ready s = true → s.port.frame = some f → f.kind = .memRead →
    Completes .memReadWord s (fun t =>
      (f.addr.toNat < 0x800 → t.port.readOut = dataAt s f.addr.toNat ∧
        t.hpar = (s.hpar || !(s.mem.read f.addr.toNat).good)) ∧
      (0x800 ≤ f.addr.toNat → t.port.readOut = 0 ∧ t.hpar = s.hpar) ∧
      t.port.frame = some { f with addr := f.addr + 1 } ∧ { t with hpar := s.hpar, port := s.port } = s)) ∧
  (∀ (tag : Byte) (s : State), ready s = true → portTakes .memWrite 0x000 s = true → s.gcu.apply = none →
    Completes (.clearFaults tag) s (fun t => t.hpar = false)) ∧
  (∀ (v : Word) (s : State), ready s = true → portTakes .regWrite 5 s = true → v.getLsbD 0 = true →
    Completes (.softReset v) s (fun t => t.hpar = false)) ∧
  (∀ s : State, Completes .resetnAssert s (fun t => t.hpar = false))

/-- INT_EN takes the twelve low bits, INT_CLR clears the flags written as 1 and leaves the others, and every other
register write but a CONTROL with bit 0 set changes nothing (R169, R170). That a REG_WRITE frame at the register goes on
by one word is R163, with the row as that word by the model's choice (notes/assumptions/10.md). The data word of a REG_READ
frame, which the model carries by MEM_READ_WORD (its choice, notes/assumptions/17.md), reads the register, goes on by one and
changes nothing else (R163, R164, R169): ID is 0x4A40, STATUS has READY in bit 0, HPAR in bit 1 and APPLYING in bit 2, INT_PEND
and INT_EN are the two sets, and INT_CLR, CONTROL and every other address read 0; while READY is 0 all but ID and STATUS read 0
(R169, R171). -/
def Obligations.RegisterWrites : Prop :=
  (∀ (v : Word) (s : State), ready s = true → portTakes .regWrite 3 s = true → Completes (.intEnWrite v) s (fun t =>
    t.intEn = v.setWidth 12 ∧ { t with intEn := s.intEn, port := s.port } = s)) ∧
  (∀ (v : Word) (s : State), ready s = true → portTakes .regWrite 4 s = true → Completes (.intClrWrite v) s (fun t =>
    t.intPend = s.intPend &&& ~~~(v.setWidth 12) ∧ { t with intPend := s.intPend, port := s.port } = s)) ∧
  (∀ (a v : Word) (s : State), ready s = true → isIgnoredRegWrite a v = true →
    Completes (.regWriteIgnored a v) s (fun t => { t with port := s.port } = s)) ∧
  (∀ (i : Instr) (a v : Word) (s : State) (f : Frame), registerWriteOf i = some (a, v) → i.wellFormed = true →
    s.port.frame = some f → f.kind = .regWrite → f.addr = a →
    Completes i s (fun t => t.port.frame = some { f with addr := a + 1 })) ∧
  (∀ (s : State) (f : Frame), s.port.frame = some f → f.kind = .regRead →
    Completes .memReadWord s (fun t => t.port.readOut = regRead s f.addr ∧
      (f.addr = 0 → t.port.readOut = 0x4A40) ∧
      (f.addr = 1 → (t.port.readOut.getLsbD 0 = true ↔ s.phase = .running) ∧ t.port.readOut.getLsbD 1 = s.hpar ∧
        t.port.readOut.getLsbD 2 = s.gcu.apply.isSome ∧ ∀ i, 3 ≤ i → t.port.readOut.getLsbD i = false) ∧
      (s.phase = .running → (f.addr = 2 → t.port.readOut = s.intPend.setWidth 16) ∧
        (f.addr = 3 → t.port.readOut = s.intEn.setWidth 16)) ∧
      (4 ≤ f.addr.toNat ∨ (s.phase ≠ .running ∧ 2 ≤ f.addr.toNat) → t.port.readOut = 0) ∧
      t.port.frame = some { f with addr := f.addr + 1 } ∧ { t with port := s.port } = s))

/-- A pending interrupt flag is cleared only by INT_CLR or a reset: after any other command every flag that was set is still
set. And no command sets a flag without the occurrence that the table of R170 names for it: for every command, a cause that was
not pending and is pending after it has occurred in it, as Occurred says cause by cause (R12, R14, R16, R20, R30, R35, R73, R74,
R81, R118, R131, R139, R142, R154, R166, R167, R170). STALL at a drum boundary is raised in a drum that was RUNNING, said of a
state with its misses counted as CountsStayBelowLimits keeps them. -/
def Obligations.FlagsStayPending : Prop :=
  (∀ (c : Instr) (s t : State), c.wellFormed = true → mayClear c = false → exec c s = .next t →
    s.intPend &&& ~~~t.intPend = 0) ∧
  (∀ (c : Instr) (k : Cause) (s t : State), exec c s = .next t → Raised k s t → Occurred k c s t)

/-! ### Switch events, grants (01_plan_banks_and_the_exchange.md, 06_calibration_and_converter_sleep.md) -/

/-- TAKE_b, by the role of bank b and of the other bank: it is staged from HOST unless the other bank is RETIRING, a
PENDING other bank is cancelled, and in the other cases the roles stay; SWITCH_RESULT names the outcome and the bank
(R4, R5). -/
def Obligations.SwitchTakeTable : Prop :=
  ∀ (ch : Channel) (b : Bank) (s : State), ready s = true →
    portTakes .memWrite (controlWord ch offSwitch) s = true → s.mem.wf → Completes (.switchTake ch b) s (fun t =>
      let r := (s.exch ch).role b
      let r' := (s.exch ch).role (otherBank b)
      let staged := r = .host ∧ r' ≠ .retiring
      (staged → (t.exch ch).role b = .pending) ∧ (¬staged → (t.exch ch).role b = r) ∧
      (r = .host ∧ r' = .pending → (t.exch ch).role (otherBank b) = .host ∧
        dataAt t (bankBase ch (otherBank b) + offStatus ch) = 3) ∧
      (¬(r = .host ∧ r' = .pending) → (t.exch ch).role (otherBank b) = r') ∧
      dataAt t (controlAddr ch offSwitchResult) = BitVec.ofNat 16
        ((if staged then 1 else if r = .host then 4 else if r = .pending then 2 else if r = .live then 3 else 4)
          + 256 * (match b with
            | .b0 => 1
            | .b1 => 2)) ∧
      dataAt t (controlAddr ch offSwitch) = takeWord b ∧
      (t.exch ch).liveSeq = (s.exch ch).liveSeq ∧ (t.exch ch).retiredSeq = (s.exch ch).retiredSeq ∧
      KeepsOutside s t ([controlAddr ch offSwitch, controlAddr ch offSwitchResult, controlAddr ch offRoles]
        ++ (if r = .host ∧ r' = .pending then [bankBase ch (otherBank b) + offStatus ch] else [])) ∧
      { t.setExch ch (s.exch ch) with mem := s.mem, port := s.port } = s)

/-- CANCEL withdraws the PENDING bank, which becomes HOST with CANCELLED in its BANK_STATUS and CANCELLED with its number
in SWITCH_RESULT; with no PENDING bank the roles stay and the outcome is NOTHING_PENDING. A LIVE or RETIRING bank is left
(R6). -/
def Obligations.SwitchCancelWithdraws : Prop :=
  ∀ (ch : Channel) (s : State), ready s = true → portTakes .memWrite (controlWord ch offSwitch) s = true → s.mem.wf →
    (s.exch ch).Lawful →
    (∀ b, (s.exch ch).role b = .pending → Completes (.switchCancel ch) s (fun t =>
      t.exch ch = (s.exch ch).setRole b .host ∧ dataAt t (bankBase ch b + offStatus ch) = 3 ∧
      dataAt t (controlAddr ch offSwitchResult) = BitVec.ofNat 16 (5 + 256 * (match b with
        | .b0 => 1
        | .b1 => 2)) ∧
      KeepsOutside s t [controlAddr ch offSwitch, controlAddr ch offSwitchResult, controlAddr ch offRoles,
        bankBase ch b + offStatus ch] ∧
      { t.setExch ch (s.exch ch) with mem := s.mem, port := s.port } = s)) ∧
    ((∀ b, (s.exch ch).role b ≠ .pending) → Completes (.switchCancel ch) s (fun t =>
      dataAt t (controlAddr ch offSwitchResult) = 6 ∧
      KeepsOutside s t [controlAddr ch offSwitch, controlAddr ch offSwitchResult] ∧
      { t with mem := s.mem, port := s.port } = s))

/-- A refused request changes nothing but its outcome words: any other value in SWITCH leaves the roles and gives BAD_REQUEST
with no bank (R4); any other code in COMMAND is refused with BAD_CODE into CMD_REFUSED, with the code as written, and a
waiting command stays (R29, R69, R174); in GCMD every command is refused with BUSY while an APPLY_CONFIG is in flight, and a
code outside the table, which is gcmdBadCode, with BAD_CODE without one (R153). -/
def Obligations.RefusalsWriteOutcomes : Prop :=
  (∀ (ch : Channel) (v : Word) (s : State), ready s = true →
    portTakes .memWrite (controlWord ch offSwitch) s = true → s.mem.wf → v ≠ 1 → v ≠ 2 → v ≠ 3 →
    Completes (.switchBadRequest ch v) s (fun t =>
      dataAt t (controlAddr ch offSwitch) = v ∧ dataAt t (controlAddr ch offSwitchResult) = 7 ∧
      KeepsOutside s t [controlAddr ch offSwitch, controlAddr ch offSwitchResult] ∧
      { t with mem := s.mem, port := s.port } = s)) ∧
  (∀ (ch : Channel) (code tag : Byte) (s : State), ready s = true →
    portTakes .memWrite (controlWord ch offCommand) s = true → s.mem.wf → isChannelCode code = false →
    Completes (.commandBadCode ch code tag) s (fun t =>
      Shows t (controlAddr ch offCmdRefused) (outcomeWords tag .badCode code) ∧
      dataAt t (controlAddr ch offCommand) = commandWord code tag ∧ t.intPend = s.intPend ||| Cause.cmd.mask ∧
      KeepsOutside s t (controlAddr ch offCommand :: span (controlAddr ch offCmdRefused) 2) ∧
      { t with mem := s.mem, port := s.port, intPend := s.intPend } = s)) ∧
  (∀ (i : Instr) (code tag : Byte) (s : State), ready s = true → portTakes .memWrite 0x000 s = true → s.mem.wf →
    hostWriteOf i = some (gcmdAddr, commandWord code tag) →
    (s.gcu.apply ≠ none ∨ isGlobalCode code = false) →
    Completes i s (fun t =>
      Shows t gcmdRefusedAddr (outcomeWords tag (if s.gcu.apply = none then .badCode else .busy) code) ∧
      dataAt t gcmdAddr = commandWord code tag ∧ t.intPend = s.intPend ||| Cause.cmd.mask ∧
      KeepsOutside s t (gcmdAddr :: span gcmdRefusedAddr 2) ∧
      { t with mem := s.mem, port := s.port, intPend := s.intPend } = s))

/-! ### Channel command events (02_drum_timing_channel.md 2.3, 04_pump_timing_channels.md 4.4) -/

/-- START, BRAKE, CLEAR_TRIP and RELEASE become the waiting command where none waits, and are refused with BUSY into
CMD_REFUSED where one does; COMMAND holds the word written, and nothing else of the part changes (R29, R30, R69). -/
def Obligations.CommandsWaitForBoundary : Prop :=
  ∀ (ch : Channel) (tag : Byte) (s : State) (i : Instr) (code : ChannelCode), ready s = true →
    portTakes .memWrite (controlWord ch offCommand) s = true → s.mem.wf →
    ((i = .start ch tag ∧ code = .start) ∨ (i = .brake ch tag ∧ code = .brake) ∨
      (i = .clearTrip ch tag ∧ code = .clearTrip) ∨ (i = .release ch tag ∧ code = .release)) →
    Completes i s (fun t =>
      dataAt t (controlAddr ch offCommand) = commandWord code.code tag ∧
      (waitingOf ch s = none → waitingOf ch t = some { code := code, tag := tag } ∧ t.intPend = s.intPend ∧
        KeepsOutside s t [controlAddr ch offCommand]) ∧
      (waitingOf ch s ≠ none → waitingOf ch t = waitingOf ch s ∧ t.intPend = s.intPend ||| Cause.cmd.mask ∧
        Shows t (controlAddr ch offCmdRefused) (outcomeWords tag .busy code.code) ∧
        KeepsOutside s t (controlAddr ch offCommand :: span (controlAddr ch offCmdRefused) 2)) ∧
      (∀ ch', ch' ≠ ch → waitingOf ch' t = waitingOf ch' s) ∧
      { t with
        drum := { t.drum with waiting := none }, pump1 := { t.pump1 with waiting := none },
        pump2 := { t.pump2 with waiting := none }, mem := s.mem, port := s.port, intPend := s.intPend } =
      { s with
        drum := { s.drum with waiting := none }, pump1 := { s.pump1 with waiting := none },
        pump2 := { s.pump2 with waiting := none } })

/-- STOP is taken at once. In TRIPPED it is refused with WRONG_STATE and nothing else happens; in STOPPED it has no effect
(NO_CHANGE); in every other state the channel becomes STOPPED with every switch off, and its current-slot requests leave the
pending list with DROPPED_STOP in their slots (DONE). A drop that leaves neither shunt slot of a bank QUEUED or CONVERTING
settles the pair, and the currents are reconstructed in this event with the results in hand (R58, R61). Outside TRIPPED a
waiting command is superseded. The other channels are left (R29, R69, R103). -/
def Obligations.StopActsAtOnce : Prop :=
  ∀ (ch : Channel) (tag : Byte) (s : State), ready s = true →
    portTakes .memWrite (controlWord ch offCommand) s = true → s.mem.wf → Completes (.stop ch tag) s (fun t =>
      Shows t (controlAddr ch offCmdDone)
        (outcomeWords tag (if isTripped ch s then .wrongState else if isStopped ch s then .noChange else .done) 2) ∧
      t.intPend &&& Cause.cmd.mask ≠ 0 ∧
      (isTripped ch s = true → waitingOf ch t = waitingOf ch s ∧
        KeepsOutside s t (controlAddr ch offCommand :: span (controlAddr ch offCmdDone) 2) ∧
        { t with mem := s.mem, port := s.port, intPend := s.intPend } = s) ∧
      (isTripped ch s = false → waitingOf ch t = none ∧ isStopped ch t = true ∧
        ∀ w, waitingOf ch s = some w →
          Shows t (controlAddr ch offCmdRefused) (outcomeWords w.tag .superseded w.code.code)) ∧
      (isTripped ch s = false → isStopped ch s = false →
        (channelLegs ch t).All Leg.Off ∧ t.arb.list = s.arb.list.filter (fun e => !currentSlot ch e.req) ∧
        ∀ e ∈ s.arb.list, currentSlot ch e.req = true → ∀ st, slotStatusOf e.req t = some st → st = .droppedStop) ∧
      (isTripped ch s = false → isStopped ch s = false → ch = .d → ∀ b, ShuntsDropped .droppedStop b s t) ∧
      (isStopped ch s = true → channelLegs ch t = channelLegs ch s ∧ t.arb = s.arb ∧
        ∀ b, t.drum.bank b = s.drum.bank b) ∧
      (ch ≠ .d → t.drum = s.drum) ∧ (ch ≠ .p1 → t.pump1 = s.pump1) ∧ (ch ≠ .p2 → t.pump2 = s.pump2) ∧
      t.arb.cva = s.arb.cva ∧ t.arb.cvb = s.arb.cvb ∧ t.calA = s.calA ∧ t.calB = s.calB ∧ t.lpr = s.lpr ∧
      t.parity = s.parity ∧ KeepsRest { s with port := t.port } t ∧
      KeepsOutside s t (controlAddr ch offCommand :: channelWords ch))

/-! ### Global commands (09_configuration_and_global_commands.md) -/

/-- APPLY_CONFIG with none in flight: with every channel STOPPED or TRIPPED it is in flight from this event and nothing is
raised; otherwise it completes at once with WRONG_STATE and CMD. The shadow is untouched (R155). That this completion is no
wake cause, so that a sleeping pair stays asleep and the arbiter is left whole, is the model's choice
(notes/assumptions/25.md). -/
def Obligations.ApplyConfigTaken : Prop :=
  ∀ (tag : Byte) (s : State), ready s = true → portTakes .memWrite 0x000 s = true → s.mem.wf → s.gcu.apply = none →
    Completes (.applyConfig tag) s (fun t =>
      dataAt t gcmdAddr = commandWord 1 tag ∧ t.gcu.shadow = s.gcu.shadow ∧
      ((∀ ch, isStopped ch s = true ∨ isTripped ch s = true) →
        t.gcu.apply = some { tag := tag, start := s.now, words := [] } ∧ KeepsOutside s t [gcmdAddr] ∧
        { t with mem := s.mem, port := s.port, gcu := s.gcu } = s) ∧
      (¬(∀ ch, isStopped ch s = true ∨ isTripped ch s = true) →
        Shows t gcmdDoneAddr (outcomeWords tag .wrongState 1 ++ [0]) ∧ t.intPend = s.intPend ||| Cause.cmd.mask ∧
        KeepsOutside s t (gcmdAddr :: span gcmdDoneAddr 3) ∧
        { t with mem := s.mem, port := s.port, intPend := s.intPend } = s))

/-- The end of the read of one word of an APPLY_CONFIG: bad parity ends it with PARITY and the address, a failed check with
INVALID and the field number, the last word of the full read with DONE and the new shadow; otherwise the word is kept and
the read goes on. The shadow changes only on DONE (R156 to R158). Each of the three completions is a wake cause, and a
failed one changes no user (R123, R158). On DONE every converter in WAITING takes DUE = LAST_CAL_TIME + the new I and begins
its sweep where that is reached, with the class that its raise times give; a sweep in progress keeps its record and takes
the class that its raise times under the new I give (R116, R120). What becomes of a converter's request is said where the
other record is left unmoved, since the order of the two is the model's choice (notes/assumptions/24.md); the reports to LPR
are filtered by the new shadow (DEDUCED, notes/assumptions/28.md). Each gate-supply input is qualified when its timer is at
least the new QualTime, and not otherwise, and TRIP_INPUTS shows the change (R148). -/
def Obligations.ConfigWordRead : Prop :=
  ∀ (s : State) (r : ApplyRun), ready s = true → s.mem.wf → s.gcu.apply = some r → configReadDue s = true →
    let a := readAddr r.words r.words.length
    let ws := r.words ++ [dataAt s a]
    let fails := (s.mem.read a).good = false
    let renewed := { s with gcu := { s.gcu with shadow := shadowOf ws } }
    let interval := (cfg renewed).calInterval * 40000
    let qualify := fun (q : QualTimer) => { q with qualified := decide ((cfg renewed).qualTime ≤ q.timer.toNat) }
    let completed := fun (t : State) => t.arb.power = (wokenPair s).power ∧ t.arb.wakeEnd = (wokenPair s).wakeEnd ∧
      t.arb.wakeNow = (wokenPair s).wakeNow ∧ (s.arb.power = .sleep → dataAt t powerAddr = 2)
    Completes .configWordRead s (fun t =>
      (fails → t.gcu = { s.gcu with apply := none } ∧
        Shows t gcmdDoneAddr (outcomeWords r.tag .parity 1 ++ [BitVec.ofNat 16 a]) ∧
        t.parity = s.parity.record (BitVec.ofNat 16 a) (if a < 0x80 then .config else .table) ∧
        t.intPend = s.intPend ||| Cause.parity.mask ||| Cause.cmd.mask ∧ completed t ∧
        { t with mem := s.mem, intPend := s.intPend, parity := s.parity, gcu := s.gcu, arb := s.arb } = s ∧
        t.arb = wokenPair s) ∧
      (¬fails → invalidDetail ws ≠ 0 → t.gcu = { s.gcu with apply := none } ∧
        Shows t gcmdDoneAddr (outcomeWords r.tag .invalid 1 ++ [BitVec.ofNat 16 (invalidDetail ws)]) ∧
        t.intPend = s.intPend ||| Cause.cmd.mask ∧ completed t ∧
        { t with mem := s.mem, intPend := s.intPend, gcu := s.gcu, arb := s.arb } = s ∧ t.arb = wokenPair s) ∧
      (¬fails → invalidDetail ws = 0 → ws.length ≠ readLength ws →
        t.gcu.apply = some { r with words := ws } ∧ { t with gcu := s.gcu } = s ∧ t.gcu.shadow = s.gcu.shadow) ∧
      (¬fails → invalidDetail ws = 0 → ws.length = readLength ws →
        t.gcu = { shadow := shadowOf ws, apply := none } ∧
        Shows t gcmdDoneAddr (outcomeWords r.tag .done 1 ++ [0]) ∧ t.intPend &&& Cause.cmd.mask ≠ 0 ∧
        t.drum.own = s.drum.own ∧ t.pump1.own = s.pump1.own ∧ t.pump2.own = s.pump2.own ∧ completed t ∧
        t.trm = { s.trm with qualD := qualify s.trm.qualD, qualP := qualify s.trm.qualP } ∧
        (∀ ch, t.trm.inputsWord ch ≠ s.trm.inputsWord ch →
          dataAt t (controlAddr ch offTripInputs) = t.trm.inputsWord ch) ∧
        (s.arb.ListLawful → s.CalAgrees → ∀ cv, Recounted cv interval renewed t) ∧
        ((∀ cv, (s.cal cv).Unmoved s.now interval) → t.arb = wokenPair s ∧ t.lpr = s.lpr)) ∧
      KeepsRest { s with gcu := t.gcu, trm := t.trm } t ∧
      KeepsOutside s t (span gcmdDoneAddr 3 ++ span parityAddr 2 ++ tripInputWords ++ arbiterWords))

/-- CLEAR_PROFILE and RECALIBRATE are carried out in the global command event, in every state of the channels: the account and
the profiler block become zero; a converter with no sweep in progress begins a ROUTINE_CAL sweep with DUE = NOW, and a sweep in
progress is left. The sweeps' requests are offered one after another, CVA's first, by the law of one offer that
DrumBoundaryOpensPeriod states. GCMD_DONE is written with DONE and detail 0, and CMD is raised (R160, R119, R133). That
CLEAR_PROFILE leaves 0x035 to 0x03F, which no record names, is read from R173 against the whole block of R133
(notes/assumptions/12.md). -/
def Obligations.ProfileClearedSweepsBegun : Prop :=
  ∀ (tag : Byte) (s : State), ready s = true → portTakes .memWrite 0x000 s = true → s.mem.wf → s.gcu.apply = none →
    Completes (.clearProfile tag) s (fun t =>
      t.lpr = resetProfiler ∧ (∀ a, 0x020 ≤ a → a ≤ 0x034 → dataAt t a = 0) ∧
      Shows t gcmdDoneAddr (outcomeWords tag .done 2 ++ [0]) ∧ t.intPend = s.intPend ||| Cause.cmd.mask ∧
      KeepsOutside s t (span 0x000 4 ++ span 0x020 21) ∧
      { t with mem := s.mem, port := s.port, intPend := s.intPend, lpr := s.lpr } = s) ∧
    Completes (.recalibrate tag) s (fun t =>
      (s.CalAgrees → ∀ cv, (s.cal cv).phase = .waiting → (t.cal cv).due = s.now ∧ (t.cal cv).cls = .routine ∧
        (t.cal cv).progress = 0 ∧ (t.cal cv).sum = 0 ∧ (t.cal cv).phase ≠ .waiting) ∧
      (∀ cv, (s.cal cv).phase ≠ .waiting →
        { t.cal cv with phase := (s.cal cv).phase, keptInst := (s.cal cv).keptInst } = s.cal cv) ∧
      (let due := [Conv.a, .b].filter (fun cv => decide ((s.cal cv).phase = .waiting))
       let u := offerAll (due.map (fun cv => sweepRequest cv s.now .routineCal)) s
       s.CalAgrees → t.arb = u.arb ∧ t.lpr = u.lpr ∧ t.intPend &&& Cause.late.mask = u.intPend &&& Cause.late.mask) ∧
      Shows t gcmdDoneAddr (outcomeWords tag .done 4 ++ [0]) ∧ t.intPend &&& Cause.cmd.mask ≠ 0 ∧
      t.drum.own = s.drum.own ∧ t.pump1.own = s.pump1.own ∧ t.pump2.own = s.pump2.own ∧ t.parity = s.parity ∧
      KeepsRest { s with port := t.port } t ∧ KeepsOutside s t (span 0x000 4 ++ arbiterWords))

/-- CLEAR_FAULTS empties the access fault record and the parity record with their words, clears HPAR, writes GCMD_DONE
with DONE and raises CMD, and leaves the ACCESS and PARITY flags pending. The next fault or parity failure fills a record as
the first one (R161). -/
def Obligations.FaultRecordsEmptied : Prop :=
  ∀ (tag : Byte) (s : State), ready s = true → portTakes .memWrite 0x000 s = true → s.mem.wf → s.gcu.apply = none →
    Completes (.clearFaults tag) s (fun t =>
      t.access = emptyAccess ∧ t.parity = emptyParity ∧ t.hpar = false ∧
      (∀ a k r, t.access.record a k r = { addr := a, kind := k, role := r, count := 1 }) ∧
      (∀ a src, t.parity.record a src = { addr := a, source := src, count := 1 }) ∧
      (∀ a, 0x006 ≤ a → a ≤ 0x009 → dataAt t a = 0) ∧
      Shows t gcmdDoneAddr (outcomeWords tag .done 3 ++ [0]) ∧ t.intPend = s.intPend ||| Cause.cmd.mask ∧
      KeepsOutside s t (span 0x000 4 ++ span 0x006 4) ∧
      { t with
        mem := s.mem, port := s.port, intPend := s.intPend, access := s.access, parity := s.parity,
        hpar := s.hpar } = s)

/-! ### Resets (R171, R172) -/

/-- The words that the part writes in the event of a soft reset (R21, R43, R88, R111, R121, R125, R134, R147). -/
def softResetWords : List Nat :=
  span 0x00A 17 ++ span 0x020 21 ++ span 0x0C2 3 ++ span 0x0CB 14 ++ span 0x0E2 3 ++ span 0x0EB 3 ++ span 0x0F1 9
    ++ span 0x102 3 ++ span 0x10B 3 ++ span 0x111 9

/-- A soft reset takes every block to its reset state, with the filters at the raw levels of their pins and every switch off
at once, sets NOW to 0, clears both interrupt sets and HPAR, writes zero (but for HALL_STATE) into the words that show the
blocks, and keeps every other memory word, the fault records, READY and the frame, which goes on by its word (R21, R43, R88,
R111, R121, R125, R134, R147, R162, R172). How the row stands to the frame is the model's choice (notes/assumptions/10.md): an
open frame goes on by its word, and with the select pin high the port is left. That it leaves 0x035 to 0x03F is read from R173
against the whole block of R134 (notes/assumptions/12.md); that it writes HALL_UNRECORDED, PERIOD_COUNT and the trip records
whatever they held is the model's choice (notes/assumptions/31.md), as are the values of the fields that no rule of a reset
names (notes/assumptions/30.md). -/
def Obligations.SoftResetKeepsMemory : Prop :=
  ∀ (v : Word) (s : State), ready s = true → portTakes .regWrite 5 s = true → s.mem.wf → v.getLsbD 0 = true →
    Completes (.softReset v) s (fun t =>
      t.now = 0 ∧ t.intPend = 0 ∧ t.intEn = 0 ∧ t.hpar = false ∧ t.phase = .running ∧
      (∀ ch, t.exch ch = resetExchange ∧ isStopped ch t = true ∧ waitingOf ch t = none ∧
        (channelLegs ch t).All Leg.Off) ∧
      t.drum = resetDrum s.drum.h1.raw s.drum.h2.raw s.drum.h3.raw t.drum.legs ∧
      (∀ p, t.pump p = resetPump (t.pump p).legs) ∧
      (∀ ch ph, let l := (channelLegs ch s).get ph
        let l' := (channelLegs ch t).get ph
        l'.highOffFor = (if l.high then 0 else l.highOffFor) ∧ l'.lowOffFor = (if l.low then 0 else l.lowOffFor) ∧
          l'.pos = .float) ∧
      t.arb = resetArbiter ∧ t.calA = resetCal ∧ t.calB = resetCal ∧ t.lpr = resetProfiler ∧ t.gcu = resetGlobal ∧
      (∀ pin, t.trm.filter pin = { raw := (s.trm.filter pin).raw, level := false, count := 0 }) ∧
      (∀ g, t.trm.qual g = { timer := 0, qualified := false } ∧ (t.trm.supply g).level = false) ∧
      (∀ a ∈ softResetWords, a ≠ 0x0CD → dataAt t a = 0) ∧ KeepsOutside s t softResetWords ∧
      dataAt t 0x0CD = BitVec.ofNat 16 (bit s.drum.h1.raw + 2 * bit s.drum.h2.raw + 4 * bit s.drum.h3.raw) ∧
      t.access = s.access ∧ t.parity = s.parity ∧ t.pending = s.pending ∧ t.draws = s.draws ∧
      t.port = { s.port with frame := s.port.frame.map (fun f => { f with addr := f.addr + 1 }) })

/-- RESETn taken low at any time holds the part: every switch off, both interrupt sets clear, the frame abandoned. Its
release starts the clock, and the lock begins the memory sweep. At the sweep's end READY is 1, NOW is 0, and the memory
holds zero with good parity in every word but HALL_STATE, which shows the levels of the Hall pins; on pins that are all low
this is the model's State.reset but for the port, the queue and the draws (R163, R171). The pins' levels
(notes/assumptions/3.md), and that RESETn low keeps the memory and sets NOW to 0 and that the clock's lock is the row
MEMORY_SWEEP (notes/assumptions/13.md), are the model's choices; that State.reset is the moment after the sweep's end is
read from R114 and R171 (notes/assumptions/4.md). -/
def Obligations.ResetPinRestarts : Prop :=
  (∀ s : State, Completes .resetnAssert s (fun t =>
    t.phase = .held ∧ ready t = false ∧ intnLow t = false ∧ t.intPend = 0 ∧ t.intEn = 0 ∧ t.port.frame = none ∧
    t.now = 0 ∧ (∀ ch, (channelLegs ch t).All Leg.Off) ∧ KeepsMemory s t)) ∧
  (∀ s : State, s.phase = .held → Completes .resetnRelease s (fun t =>
    t.phase = .locking ∧ { t with phase := s.phase } = s)) ∧
  (∀ s : State, s.phase = .locking → Completes .memorySweep s (fun t =>
    t.phase = .sweeping 0 ∧ { t with phase := s.phase } = s)) ∧
  (∀ (s : State) (n : Nat), s.phase = .sweeping n → Config.sweepTicks ≤ n →
    Completes .sweepEnd s (fun t =>
      ready t = true ∧ t.now = 0 ∧ (∀ a, a ≠ 0x0CD → t.mem.read a = blankWord) ∧
      dataAt t 0x0CD = BitVec.ofNat 16 (bit s.drum.h1.raw + 2 * bit s.drum.h2.raw + 4 * bit s.drum.h3.raw) ∧
      (s.drum.h1.raw = false → s.drum.h2.raw = false → s.drum.h3.raw = false →
        (∀ pin, (s.trm.filter pin).raw = false) →
        t = { State.reset with pending := s.pending, draws := s.draws, port := s.port })))

/-- Both resets leave the pair AWAKE with the idle start at the tick the part's work starts and the power word AWAKE; a
wake in progress is ended with no assignment; a soft reset keeps the SLEEP_GRANT words; IdleLimit is 0, and with IdleLimit
0 no entry into SLEEP is due (R125). -/
def Obligations.ResetsLeavePairAwake : Prop :=
  (∀ (v : Word) (s : State), ready s = true → portTakes .regWrite 5 s = true → s.mem.wf → v.getLsbD 0 = true →
    Completes (.softReset v) s (fun t =>
    t.arb.power = .awake ∧ t.arb.idleStart = t.now ∧ dataAt t 0x00C = 0 ∧ t.arb.cva = none ∧ t.arb.cvb = none ∧
    (cfg t).idleLimit = 0 ∧ ∀ ch, t.mem.read (controlAddr ch offGrant) = s.mem.read (controlAddr ch offGrant))) ∧
  (∀ (s : State) (n : Nat), s.phase = .sweeping n → Config.sweepTicks ≤ n → Completes .sweepEnd s (fun t =>
    t.arb.power = .awake ∧ t.arb.idleStart = t.now ∧ dataAt t 0x00C = 0 ∧ t.arb.cva = none ∧ t.arb.cvb = none ∧
    (cfg t).idleLimit = 0)) ∧
  (∀ s : State, (cfg s).idleLimit = 0 → sleepDue s = false)

/-! ### The drum boundary (02_drum_timing_channel.md 2.4) -/

/-- A drum boundary raises PERIOD_COUNT by one, starts a period at NOW whose half-period is the PERIOD of the bank then LIVE, or
1250 without one, takes the waiting command, and leaves no request of an earlier period listed. Every request of the drum that
it leaves listed is one that the layout offers, and everything else listed was listed before; with room in the list each of
those requests is listed, QUEUED, or has started. The window results are those of the plan in RUNNING and not computed
otherwise. A slot that is not offered shows NARROW, BAD_INSTANT or NOT_REQUESTED. The requests are offered one after another,
each by the law of one offer, stated for a list and records that agree as SweepPhasesAgree keeps them: to a full list it evicts
the lowest entry where it outranks that and is evicted itself where it does not, and in a sleeping pair one within reach begins
the wake (R96, R97, R123); LPR's account and LATE come to what those offers leave (R127 to R131). A boundary that ends in
RUNNING with a LIVE bank schedules each phase's edges from the window record and the applied duty d: the up edge at NOW + UP,
none with UP = 0 or d = 0, the down edge at NOW + 2T - DOWN, none with DOWN = 0 or d = 0 (R26, R53); an edge on the boundary is
taken there (notes/assumptions/11.md): a phase with UP = 0 and d above 0, which has d = T, takes its up edge, every other phase
is in its low position, with no switching where the position is kept, and the off-times of the switches follow (R26 to R28,
R37). A boundary that leaves the state as it was outside RUNNING leaves the outputs and schedules nothing (R37). The pumps' own
state, the configuration, the trip inputs and the port are left (R23, R24, R33, R36 to R38, R54). -/
def Obligations.DrumBoundaryOpensPeriod : Prop :=
  (∀ (r : Request) (s : State), s.arb.ListLawful → s.CalAgrees → r.CalFormed → OfferLaw r s (offer r s)) ∧
  ∀ s : State, ready s = true → drumBoundaryDue s = true →
    Completes .drumBoundary s (fun t =>
      (let u := offerAll (drumOffers s t) (withList (drumKept s) s)
       t.arb = u.arb ∧ t.lpr = u.lpr ∧ t.intPend &&& Cause.late.mask = u.intPend &&& Cause.late.mask) ∧
      (∀ b ph, liveBank .d t = some b → t.drum.state = .running →
        let x := t.drum.bank b
        let up := x.window.up.get ph
        let down := x.window.down.get ph
        let d := min (x.plan.duty.get ph).toNat x.plan.period.toNat
        t.drum.upAt.get ph = (if up = 0 ∨ d = 0 then none else some (s.now + BitVec.ofNat 32 up)) ∧
        t.drum.downAt.get ph =
          (if down = 0 ∨ d = 0 then none else some (s.now + BitVec.ofNat 32 (2 * t.drum.half - down))) ∧
        (s.drum.legs.get ph).OpensPeriod (cfg s).dtD up d (t.drum.legs.get ph) ∧
        (s.drum.legs.get ph).OffTimes (t.drum.legs.get ph)) ∧
      (1 ≤ (cfg s).missLimit → t.drum.state = s.drum.state → s.drum.state ≠ .running →
        t.drum.out = s.drum.out ∧ t.drum.legs = s.drum.legs ∧ t.drum.upAt = s.drum.upAt ∧
        t.drum.downAt = s.drum.downAt) ∧
      (s.arb.power = .sleep → ∀ r ∈ drumOffers s t, (∃ e ∈ t.arb.list, e.req = r) →
        reached (s.now + 400) r.inst = true →
        t.arb.power = .waking ∧ t.arb.wakeEnd = s.now + 400 ∧ (s.mem.wf → dataAt t powerAddr = 2)) ∧
      (s.arb.power ≠ .sleep ∨ (∀ r ∈ drumOffers s t, reached (s.now + 400) r.inst = false) →
        t.arb.power = s.arb.power ∧ t.arb.wakeEnd = s.arb.wakeEnd) ∧
      t.drum.periodCount = s.drum.periodCount + 1 ∧ t.drum.periodStart = s.now ∧
      (∀ b, liveBank .d t = some b → t.drum.half = (t.drum.bank b).plan.period.toNat) ∧
      (liveBank .d t = none → t.drum.half = 1250) ∧ t.drum.waiting = none ∧
      (∀ e ∈ t.arb.list, e.req.origin = .d → e.req.tag = t.drum.periodCount) ∧
      (∀ e ∈ t.arb.list, e.req ∈ drumOffers s t ∨ (e.req.origin ≠ .d ∧ ∃ e' ∈ s.arb.list, e'.req = e.req)) ∧
      ((s.arb.list.filter (fun e => decide (e.req.origin ≠ .d))).length ≤ 4 → ∀ r ∈ drumOffers s t,
        ListedOrStarted r s t ∧ ((∃ e ∈ t.arb.list, e.req = r) → slotStatusOf r t = some .queued)) ∧
      (∀ b, liveBank .d t = some b →
        let x := t.drum.bank b
        (t.drum.state = .running →
          x.window = layoutWindows x.plan.period.toNat (cfg s).settle (cfg s).lead x.plan) ∧
        (t.drum.state ≠ .running → x.window = notComputed) ∧
        (x.window.winA = .narrow → x.shuntA.status = .narrow) ∧
        (x.window.winB = .narrow → x.shuntB.status = .narrow) ∧
        (∀ u r, (u = x.plan.u1 ∧ r = x.u1) ∨ (u = x.plan.u2 ∧ r = x.u2) →
          (u.input ≠ none → 2 * t.drum.half ≤ u.atTick.toNat → r.status = .badInstant) ∧
          (u.input = none → s.exchD.Lawful → r.status = .notRequested)) ∧
        (s.exchD.Lawful → (x.window.winA = .unused → x.shuntA.status = .notRequested) ∧
          (x.window.winB = .unused → x.shuntB.status = .notRequested))) ∧
      (s.drum.waiting ≠ none → t.intPend &&& Cause.cmd.mask ≠ 0) ∧
      t.pump1.own = s.pump1.own ∧ t.pump2.own = s.pump2.own ∧ KeepsRest s t ∧
      KeepsOutside s t (span parityAddr 2 ++ channelWords .d ++ arbiterWords))

/-- The half-period that a PENDING drum bank asks for lies in 500 to 4000 (R10). -/
def periodInRange (b : Bank) (s : State) : Prop :=
  let asked := (drumPlanOf (planData .d b s)).period.toNat
  500 ≤ asked ∧ asked ≤ 4000

/-- In RUNNING it differs from the live PERIOD by at most that div 8 (R10). -/
def periodInStep (b : Bank) (s : State) : Prop :=
  let asked := (drumPlanOf (planData .d b s)).period.toNat
  ∀ l, s.drum.state = .running → liveBank .d s = some l →
    let live := (s.drum.bank l).plan.period.toNat
    asked ≤ live + live / 8 ∧ live ≤ asked + live / 8

/-- A hold of a RUNNING drum, with no PENDING bank or after the rejection of one, is a miss: REPEATS and the consecutive-miss
count rise by one and HOLD is raised. Below MissLimit the drum runs on; at MissLimit it starves: STARVED, the SafeAction, miss
count 0, STALL raised, no SHUNT request listed (R12, R14, R34, R35). This holds with every waiting command but BRAKE, and with
none. The SafeAction is OFF, all switches off, or SHORT, where the high sides turn off and each low side is on or waits out its
dead time (R28). SHORT is taken with the gate supply present; without it R138 trips the drum in the same event: TRIPPED and OFF
with STARVED, the state being entered, as PRIOR_STATE (notes/assumptions/19.md), the trip record and its words written, TRIP
raised beside HOLD and STALL (R35, R138 to R141). -/
def Obligations.DrumMissesAndStarves : Prop :=
  ∀ (s : State) (b : Bank), ready s = true → drumBoundaryDue s = true →
    (∀ tag, s.drum.waiting ≠ some { code := .brake, tag := tag }) →
    (∀ r, pendingBank .d s = some r →
      ¬(badPlanWords .d r s = [] ∧ periodInRange r s ∧ periodInStep r s)) →
    liveBank .d s = some b → s.drum.state = .running →
    (s.drum.missCount + 1 < (cfg s).missLimit → Completes .drumBoundary s (fun t =>
      t.drum.state = .running ∧ t.drum.missCount = s.drum.missCount + 1 ∧ t.intPend &&& Cause.hold.mask ≠ 0 ∧
      (t.drum.bank b).repeats = satInc (s.drum.bank b).repeats ∧ liveBank .d t = some b ∧
      t.exchD.liveSeq = s.exchD.liveSeq)) ∧
    (s.drum.missCount + 1 = (cfg s).missLimit → ((cfg s).safeAction = .short → gateAsserted .d s = false) →
      Completes .drumBoundary s (fun t =>
        t.drum.state = .starved ∧ t.drum.missCount = 0 ∧ t.drum.out = (cfg s).safeAction.drumOut ∧
        t.intPend &&& Cause.hold.mask ≠ 0 ∧ t.intPend &&& Cause.stall.mask ≠ 0 ∧
        LegsGo (decide (s.drum.out = .short)) (cfg s).safeAction (cfg s).dtD s.drum.legs t.drum.legs ∧
        (s.drum.out ≠ .short → t.drum.legs.All Leg.NoHigh) ∧
        ∀ e ∈ t.arb.list, e.req.origin = .d → isShunt e.req.slot = false)) ∧
    (s.drum.missCount + 1 = (cfg s).missLimit → (cfg s).safeAction = .short → gateAsserted .d s = true →
      Completes .drumBoundary s (fun t =>
        GateTripsDrum .starved s t ∧ t.intPend &&& Cause.hold.mask ≠ 0 ∧ t.intPend &&& Cause.stall.mask ≠ 0 ∧
        (t.drum.bank b).repeats = satInc (s.drum.bank b).repeats ∧ liveBank .d t = some b ∧
        t.exchD.liveSeq = s.exchD.liveSeq))

/-- At a boundary that performs no RELEASE a PENDING drum bank is accepted when its plan words pass parity, its PERIOD lies in
500 to 4000 and, in RUNNING, differs from the live PERIOD by at most that div 8: it becomes LIVE with LIVE_SEQ its SEQ,
BANK_STATUS LIVE and TAKE_TIME NOW, and the miss count is 0; a replaced bank retires at once with RETIRED, RETIRE_TIME NOW,
RETIRED_SEQ and RET_D, or is RETIRING while a conversion of it is in flight (R16), its listed requests DROPPED_BOUNDARY.
Otherwise it returns to HOST with its reject code, RET_D is raised, LIVE_SEQ and RETIRED_SEQ stay, and the LIVE bank is held:
REPEATS rises, and HOLD is raised in RUNNING (R8 to R14). Every plan word that fails its parity is reported to the parity
record: the first fills an empty one with its address and SOURCE PLAN_D, each of them counts, and with none the record stays
(R9, R167). This holds with every waiting command and with none. Outside RUNNING a hold of the LIVE bank raises REPEATS only: it
is no miss and raises no HOLD (R14). -/
def Obligations.DrumTakesOrRejects : Prop :=
  (∀ (s : State) (b : Bank), ready s = true → s.mem.wf → drumBoundaryDue s = true →
    (∀ tag, s.drum.waiting = some { code := .release, tag := tag } →
      s.drum.state ≠ .stopped ∧ s.drum.state ≠ .tripped) →
    s.exchD.Lawful → noRetiring .d s → s.exchD.role b = .pending →
    let plan := drumPlanOf (planData .d b s)
    (badPlanWords .d b s = [] → periodInRange b s → periodInStep b s → Completes .drumBoundary s (fun t =>
      t.exchD.role b = .live ∧ t.exchD.liveSeq = plan.seq ∧ (t.drum.bank b).plan = plan ∧
      (s.exchD.role (otherBank b) = .live → GivenUp .d (otherBank b) s t) ∧
      (s.exchD.role (otherBank b) = .host → t.exchD.role (otherBank b) = .host ∧
        t.exchD.retiredSeq = s.exchD.retiredSeq) ∧
      t.drum.missCount = 0 ∧ (t.drum.bank b).repeats = 0 ∧ (t.drum.bank b).hall = [] ∧
      dataAt t (bankBase .d b + 16) = 1 ∧ Shows t (bankBase .d b + 17) (twoWords s.now ++ [0, 0]) ∧
      TakesPlanParity .d [] s t ∧ t.intPend &&& Cause.hold.mask = s.intPend &&& Cause.hold.mask)) ∧
    (∀ code : BankStatus,
      (badPlanWords .d b s ≠ [] ∧ code = .rejParity) ∨
        (badPlanWords .d b s = [] ∧ ¬periodInRange b s ∧ code = .rejPeriodRange) ∨
        (badPlanWords .d b s = [] ∧ periodInRange b s ∧ ¬periodInStep b s ∧ code = .rejPeriodStep) →
      Completes .drumBoundary s (fun t =>
        t.exchD.role b = .host ∧ t.exchD.role (otherBank b) = s.exchD.role (otherBank b) ∧
        dataAt t (bankBase .d b + 16) = BitVec.ofNat 16 code.code ∧ t.intPend &&& Cause.retD.mask ≠ 0 ∧
        (code = .rejParity → t.intPend &&& Cause.parity.mask ≠ 0) ∧
        TakesPlanParity .d (badPlanWords .d b s) s t ∧
        (s.exchD.role (otherBank b) = .live →
          (t.drum.bank (otherBank b)).repeats = satInc (s.drum.bank (otherBank b)).repeats ∧
          (t.drum.bank (otherBank b)).plan = (s.drum.bank (otherBank b)).plan ∧
          (s.drum.state = .running → t.intPend &&& Cause.hold.mask ≠ 0)) ∧
        (s.drum.state ≠ .running ∨ s.exchD.role (otherBank b) ≠ .live →
          t.intPend &&& Cause.hold.mask = s.intPend &&& Cause.hold.mask) ∧
        t.exchD.liveSeq = s.exchD.liveSeq ∧ t.exchD.retiredSeq = s.exchD.retiredSeq))) ∧
  (∀ (s : State) (b : Bank), ready s = true → drumBoundaryDue s = true → s.drum.waiting = none →
    pendingBank .d s = none → liveBank .d s = some b → s.drum.state ≠ .running →
    Completes .drumBoundary s (fun t =>
      t.drum.state = s.drum.state ∧ t.drum.missCount = s.drum.missCount ∧ liveBank .d t = some b ∧
      t.exchD.liveSeq = s.exchD.liveSeq ∧ (t.drum.bank b).plan = (s.drum.bank b).plan ∧
      (t.drum.bank b).repeats = satInc (s.drum.bank b).repeats ∧
      (t.drum.bank b).hall = (s.drum.bank b).hall ∧ (t.drum.bank b).hallDropped = (s.drum.bank b).hallDropped ∧
      TakesPlanParity .d [] s t ∧
      t.intPend &&& Cause.hold.mask = s.intPend &&& Cause.hold.mask))

/-- START at a drum boundary: NO_CHANGE in RUNNING, WRONG_STATE in TRIPPED; in STOPPED, BRAKING and STARVED it is refused
with CONFIG_BUSY, INPUTS_ACTIVE or NO_PLAN, in that order, or enters RUNNING. NO_PLAN is judged after the take or hold of
the same boundary, and from STARVED only an accepted plan counts (R31, R32). That START in TRIPPED is answered WRONG_STATE also
while an APPLY_CONFIG is in flight, against the CONFIG_BUSY of R159, is the model's choice (notes/assumptions/34.md). -/
def Obligations.DrumStartDecided : Prop :=
  ∀ (s : State) (tag : Byte), ready s = true → s.mem.wf → drumBoundaryDue s = true →
    s.drum.waiting = some { code := .start, tag := tag } → s.drum.missCount ≤ (cfg s).missLimit →
    1 ≤ (cfg s).missLimit → (s.drum.state ≠ .running → s.drum.missCount = 0) →
    let r := drumPlanStep (drumDropStep s)
    let noPlan := if s.drum.state = .starved then r.2 = false else liveBank .d r.1 = none
    (s.drum.state = .running → Completes .drumBoundary s (fun t =>
      Shows t (controlAddr .d offCmdDone) (outcomeWords tag .noChange 1))) ∧
    (s.drum.state = .tripped → Completes .drumBoundary s (fun t =>
      Shows t (controlAddr .d offCmdDone) (outcomeWords tag .wrongState 1) ∧ t.drum.state = .tripped)) ∧
    (s.drum.state = .stopped ∨ s.drum.state = .braking ∨ s.drum.state = .starved →
      (s.gcu.apply ≠ none → Completes .drumBoundary s (fun t =>
        Shows t (controlAddr .d offCmdDone) (outcomeWords tag .configBusy 1) ∧ t.drum.state = s.drum.state)) ∧
      (s.gcu.apply = none → gateQualified .d s = false → Completes .drumBoundary s (fun t =>
        Shows t (controlAddr .d offCmdDone) (outcomeWords tag .inputsActive 1) ∧ t.drum.state = s.drum.state)) ∧
      (s.gcu.apply = none → gateQualified .d s = true → noPlan → Completes .drumBoundary s (fun t =>
        Shows t (controlAddr .d offCmdDone) (outcomeWords tag .noPlan 1) ∧ t.drum.state = s.drum.state)) ∧
      (s.gcu.apply = none → gateQualified .d s = true → ¬noPlan → Completes .drumBoundary s (fun t =>
        Shows t (controlAddr .d offCmdDone) (outcomeWords tag .done 1) ∧ t.drum.state = .running ∧
        t.drum.out = .pwm)))

/-- BRAKE, CLEAR_TRIP and RELEASE at a drum boundary, by the state. BRAKE drives SHORT, where the high sides turn off and each
low side is on or waits out its dead time, or nothing switches where the outputs are in SHORT already (R28), or trips the drum
when the gate supply is lost, with the whole trip record, its words and TRIP (R138 to R141); CLEAR_TRIP leaves TRIPPED for
STOPPED when no APPLY_CONFIG is in flight and the inputs are quiet and qualified; RELEASE gives up both banks in STOPPED and
TRIPPED: a PENDING bank becomes HOST with CANCELLED, a LIVE bank retires, at once unless a conversion of it is in flight, and no
plan is read, taken or held (R16, R18, R20, R31, R138). PRIOR_STATE of the trip under a lost gate supply is the state being
entered (notes/assumptions/19.md). That CLEAR_TRIP outside TRIPPED is answered WRONG_STATE also while an APPLY_CONFIG is in
flight, against the CONFIG_BUSY of R159, is the model's choice (notes/assumptions/34.md). -/
def Obligations.DrumCommandsAtBoundary : Prop :=
  ∀ (s : State) (tag : Byte), ready s = true → s.mem.wf → drumBoundaryDue s = true →
    (s.drum.waiting = some { code := .brake, tag := tag } → Completes .drumBoundary s (fun t =>
      (s.drum.state = .braking → Shows t (controlAddr .d offCmdDone) (outcomeWords tag .noChange 3) ∧
        t.drum.state = .braking ∧ t.drum.trip = s.drum.trip) ∧
      (s.drum.state = .tripped → Shows t (controlAddr .d offCmdDone) (outcomeWords tag .wrongState 3) ∧
        t.drum.state = .tripped ∧ t.drum.trip = s.drum.trip) ∧
      (s.drum.state ≠ .braking → s.drum.state ≠ .tripped →
        Shows t (controlAddr .d offCmdDone) (outcomeWords tag .done 3) ∧
        (gateAsserted .d s = false → t.drum.state = .braking ∧ t.drum.out = .short ∧ t.drum.missCount = 0 ∧
          t.drum.upAt = Tri.const none ∧ t.drum.downAt = Tri.const none ∧ t.drum.trip = s.drum.trip ∧
          (s.drum.out ≠ .short → t.drum.legs.All Leg.NoHigh) ∧
          LegsGo (decide (s.drum.out = .short)) .short (cfg s).dtD s.drum.legs t.drum.legs) ∧
        (gateAsserted .d s = true → GateTripsDrum .braking s t)))) ∧
    (s.drum.waiting = some { code := .clearTrip, tag := tag } → Completes .drumBoundary s (fun t =>
      (s.drum.state ≠ .tripped → Shows t (controlAddr .d offCmdDone) (outcomeWords tag .wrongState 4)) ∧
      (s.drum.state = .tripped → s.gcu.apply ≠ none →
        Shows t (controlAddr .d offCmdDone) (outcomeWords tag .configBusy 4) ∧ t.drum.state = .tripped) ∧
      (s.drum.state = .tripped → s.gcu.apply = none → inputsActive .d s = true →
        Shows t (controlAddr .d offCmdDone) (outcomeWords tag .inputsActive 4) ∧ t.drum.state = .tripped) ∧
      (s.drum.state = .tripped → s.gcu.apply = none → inputsActive .d s = false →
        Shows t (controlAddr .d offCmdDone) (outcomeWords tag .done 4) ∧ t.drum.state = .stopped ∧
        t.drum.out = .off ∧ t.drum.legs.All Leg.Off ∧ t.drum.trip = s.drum.trip))) ∧
    (s.drum.waiting = some { code := .release, tag := tag } → s.exchD.Lawful → Completes .drumBoundary s (fun t =>
      (s.drum.state = .stopped ∨ s.drum.state = .tripped →
        Shows t (controlAddr .d offCmdDone) (outcomeWords tag .done 5) ∧ t.exchD.liveSeq = 0 ∧
        (∀ b, t.exchD.role b = .host ∨ t.exchD.role b = .retiring) ∧
        (noRetiring .d s → GivesUpBoth .d s t) ∧ (∀ b, (t.drum.bank b).plan = (s.drum.bank b).plan) ∧
        t.parity = s.parity ∧ t.drum.state = s.drum.state) ∧
      (s.drum.state ≠ .stopped → s.drum.state ≠ .tripped →
        Shows t (controlAddr .d offCmdDone) (outcomeWords tag .wrongState 5))))

/-! ### Phase edges, dead times and Hall capture (R26, R27, R40 to R42) -/

/-- At a drum phase edge that changes the phase's position, the conducting switch turns off and its partner waits DT_D; an
edge into the position the phase already has makes no switching (R26, R27). At the end of a dead time the waiting switch of
that phase turns on, provided that its partner is off (R27, R66). The other phases and the rest of the part are left.
An edge at the start or the end of the period is taken at the boundary (notes/assumptions/11.md). -/
def Obligations.EdgesObserveDeadTime : Prop :=
  (∀ (ph : Phase) (s : State), ready s = true →
    (reachedOpt s.now (s.drum.upAt.get ph) = true → Completes (.phaseEdge ph) s (fun t =>
      ((s.drum.legs.get ph).pos ≠ .high →
        (t.drum.legs.get ph).low = false ∧ (t.drum.legs.get ph).high = (s.drum.legs.get ph).high ∧
        (t.drum.legs.get ph).pos = .high ∧
        (t.drum.legs.get ph).waiting = some { side := .high, left := (cfg s).dtD }) ∧
      ((s.drum.legs.get ph).pos = .high → t.drum.legs.get ph = s.drum.legs.get ph) ∧
      t.drum.upAt.get ph = none ∧ (∀ q, q ≠ ph → t.drum.legs.get q = s.drum.legs.get q) ∧
      { t with drum := { t.drum with legs := s.drum.legs, upAt := s.drum.upAt } } = s)) ∧
    (reachedOpt s.now (s.drum.upAt.get ph) = false → reachedOpt s.now (s.drum.downAt.get ph) = true →
      Completes (.phaseEdge ph) s (fun t =>
        ((s.drum.legs.get ph).pos ≠ .low →
          (t.drum.legs.get ph).high = false ∧ (t.drum.legs.get ph).low = (s.drum.legs.get ph).low ∧
          (t.drum.legs.get ph).pos = .low ∧
          (t.drum.legs.get ph).waiting = some { side := .low, left := (cfg s).dtD }) ∧
        ((s.drum.legs.get ph).pos = .low → t.drum.legs.get ph = s.drum.legs.get ph) ∧
        t.drum.downAt.get ph = none ∧ (∀ q, q ≠ ph → t.drum.legs.get q = s.drum.legs.get q) ∧
        { t with drum := { t.drum with legs := s.drum.legs, downAt := s.drum.downAt } } = s))) ∧
  (∀ (ch : Channel) (ph : Phase) (s : State) (side : Side), ready s = true →
    ((channelLegs ch s).get ph).waiting = some { side := side, left := 0 } →
    Completes (.deadTimeEnd ch ph) s (fun t =>
      (side = .high → ((channelLegs ch t).get ph).high = !((channelLegs ch s).get ph).low ∧
        ((channelLegs ch t).get ph).low = ((channelLegs ch s).get ph).low) ∧
      (side = .low → ((channelLegs ch t).get ph).low = !((channelLegs ch s).get ph).high ∧
        ((channelLegs ch t).get ph).high = ((channelLegs ch s).get ph).high) ∧
      ((channelLegs ch t).get ph).waiting = none ∧
      (∀ ch' q, (ch', q) ≠ (ch, ph) → (channelLegs ch' t).get q = (channelLegs ch' s).get q) ∧
      { t with
        drum := { t.drum with legs := s.drum.legs }, pump1 := { t.pump1 with legs := s.pump1.legs },
        pump2 := { t.pump2 with legs := s.pump2.legs } } = s))

/-- A Hall pin takes its raw level and keeps the accepted one, and a change starts its count anew. A due Hall edge accepts
every level that is due, and its record, with TIME NOW less HallFilter, the new state and VALID for a state other than 0
and 7, goes last into the LIVE bank's list of at most four, or raises HALL_UNRECORDED with no LIVE bank (R40 to R42). -/
def Obligations.HallEdgesRecorded : Prop :=
  (∀ (pin : HallPin) (level : Bool) (s : State), Completes (.hallInputChange pin level) s (fun t =>
    (∀ f g, (pin = .h1 ∧ f = s.drum.h1 ∧ g = t.drum.h1) ∨ (pin = .h2 ∧ f = s.drum.h2 ∧ g = t.drum.h2) ∨
        (pin = .h3 ∧ f = s.drum.h3 ∧ g = t.drum.h3) →
      g.raw = level ∧ g.level = f.level ∧ (f.raw ≠ level → g.count = 0) ∧ (f.raw = level → g = f)) ∧
    (pin ≠ .h1 → t.drum.h1 = s.drum.h1) ∧ (pin ≠ .h2 → t.drum.h2 = s.drum.h2) ∧
    (pin ≠ .h3 → t.drum.h3 = s.drum.h3) ∧
    { t with drum := { t.drum with h1 := s.drum.h1, h2 := s.drum.h2, h3 := s.drum.h3 } } = s)) ∧
  (∀ s : State, ready s = true → hallEdgeDue s = true → Completes .hallEdge s (fun t =>
    (∀ f g, (f = s.drum.h1 ∧ g = t.drum.h1) ∨ (f = s.drum.h2 ∧ g = t.drum.h2) ∨ (f = s.drum.h3 ∧ g = t.drum.h3) →
      g.level = if f.due (cfg s).hallFilter then f.raw else f.level) ∧
    (∀ b, liveBank .d s = some b →
      (t.drum.bank b).hall.length ≤ max 4 (s.drum.bank b).hall.length ∧
      (t.drum.bank b).hall.getLast? = some
        { time := s.now - BitVec.ofNat 32 (cfg s).hallFilter, state := t.drum.hallState,
          valid := decide (t.drum.hallState ≠ 0) && decide (t.drum.hallState ≠ 7) } ∧
      ((s.drum.bank b).hall.length < 4 → (t.drum.bank b).hall.dropLast = (s.drum.bank b).hall ∧
        (t.drum.bank b).hallDropped = (s.drum.bank b).hallDropped) ∧
      (4 ≤ (s.drum.bank b).hall.length → (t.drum.bank b).hall.dropLast = (s.drum.bank b).hall.drop 1 ∧
        (t.drum.bank b).hallDropped = satInc (s.drum.bank b).hallDropped) ∧
      t.drum.hallUnrecorded = s.drum.hallUnrecorded) ∧
    (liveBank .d s = none → t.drum.hallUnrecorded = satInc s.drum.hallUnrecorded ∧
      t.drum.bank0 = s.drum.bank0 ∧ t.drum.bank1 = s.drum.bank1) ∧
    { t with drum := s.drum, mem := s.mem } = s ∧ t.drum.state = s.drum.state ∧ t.drum.legs = s.drum.legs ∧
    KeepsOutside s t (channelWords .d)))

/-! ### Windows and currents (03_single_shunt_windows_and_current_reconstruction.md) -/

/-- The law of the drum's pulses: the commanded high interval of each phase, from UP to 2T - DOWN, lasts exactly twice the
applied duty and ends no later than the period, UP is at or before T, and a shifted phase goes low at least 32 ticks before
the end. An OPEN window is at least Settle + Lead long and ends at or before T (R47 to R50, R53). -/
def Obligations.PulsesAndWindows : Prop :=
  ∀ (half settle lead : Nat) (plan : DrumPlan), 500 ≤ half → half ≤ 4000 →
    let r := layoutWindows half settle lead plan
    (∀ ph, let d := min (plan.duty.get ph).toNat half
      2 * half - r.down.get ph = r.up.get ph + 2 * d ∧ 2 * half - r.down.get ph ≤ 2 * half ∧ r.up.get ph ≤ half ∧
      (0 < r.shift.get ph → 32 ≤ r.down.get ph ∧ 0 < d) ∧
      (r.clamped.get ph = true ↔ half < (plan.duty.get ph).toNat)) ∧
    (r.winA = .open → r.t1 + (settle + lead) ≤ r.t2 ∧ r.t2 ≤ half) ∧
    (r.winB = .open → r.t2 + (settle + lead) ≤ r.t3 ∧ r.t3 ≤ half) ∧
    (r.shiftClamped = true ↔ r.winA = .narrow ∨ r.winB = .narrow) ∧
    (plan.shunt = false → r.winA = .unused ∧ r.winB = .unused ∧ r.shift = Tri.const 0)

/-- The phase currents from the two shunt results: the hi current is VALUE_A - 2048, the lo current its negative from B
clamped to +2047, the mid current the negative of their sum, clamped, and present only with both; SAT tells that a clamp
acted (R56, R57, R59, R60). -/
def Obligations.CurrentsReconstructed : Prop :=
  ∀ (r : WindowRecord) (a b : SlotRecord), r.hi ≠ r.mid → r.mid ≠ r.lo → r.hi ≠ r.lo →
    let q := reconstruct r a b
    let iHi : Int := (a.value.toNat : Int) - 2048
    let iLo : Int := min (2048 - (b.value.toNat : Int)) 2047
    let iMid : Int := max (-2048) (min (-(iHi + iLo)) 2047)
    (a.status = .valid → q.current.get r.hi = some iHi) ∧ (a.status ≠ .valid → q.current.get r.hi = none) ∧
    (b.status = .valid → q.current.get r.lo = some iLo) ∧ (b.status ≠ .valid → q.current.get r.lo = none) ∧
    (a.status = .valid → b.status = .valid → q.current.get r.mid = some iMid) ∧
    (a.status ≠ .valid ∨ b.status ≠ .valid → q.current.get r.mid = none) ∧
    (q.sat = true ↔ (a.status = .valid ∧ a.clamped = true) ∨ (b.status = .valid ∧ b.clamped = true) ∨
      (b.status = .valid ∧ b.value = 0) ∨
      (a.status = .valid ∧ b.status = .valid ∧ (-(iHi + iLo) < -2048 ∨ 2047 < -(iHi + iLo))))

/-! ### The pump boundary (04_pump_timing_channels.md 4.1, 4.4, 4.8) -/

/-- A pump boundary starts a period at NOW with the shadow's Tp, makes its peak due, takes the waiting command, fixes the
period's duty by the state, adds one to the LIVE bank's PERIODS, and in RUN sets DUTY_RAISED or DUTY_CLAMPED where its clamp
acts, a flag set before staying set (R82). The slots that are due are offered and their countdowns go on: everything it leaves
listed is such a request or was listed before, and with room in the list each of those requests is listed, QUEUED, or has
started. The requests are offered one after another by the law of one offer that DrumBoundaryOpensPeriod states, to what a
replaced or released bank and a trip leave of the list; in a sleeping pair one within reach begins the wake (R96, R97, R103,
R123); LPR's account and LATE come to what those offers leave (R127 to R131). In ALIGN, RAMP and RUN the modulation of the
period is laid out with its duty d: the high side of the step is on over the whole period with d = Tp and above, from t = Tp - d
to t = Tp + d with d between 0 and Tp, and never with d = 0; and the six switches go to the step's pattern with their dead
times. In the other states there is no modulation, and where the state is kept no switch moves (R63, R66, R82). The drum's and
the other pump's own state, the configuration, the trip inputs and the port are left (R63, R64, R82, R85, R86). -/
def Obligations.PumpBoundaryLaysOut : Prop :=
  ∀ (p : PumpId) (s : State), ready s = true → pumpBoundaryDue p s = true →
    Completes (.pumpBoundary p) s (fun t =>
      (let u := offerAll (pumpOffers p s t) (withList (pumpKept p s t) s)
       t.arb = u.arb ∧ t.lpr = u.lpr ∧ t.intPend &&& Cause.late.mask = u.intPend &&& Cause.late.mask) ∧
      ((t.pump p).state.drives = true →
        let x := s.pump p
        let y := t.pump p
        let tp := ((cfg s).pump p).tp
        (y.pwmOn = true ↔ tp ≤ y.duty) ∧
        y.onAt = (if 0 < y.duty ∧ y.duty < tp then some (s.now + BitVec.ofNat 32 (tp - y.duty)) else none) ∧
        y.offAt = (if 0 < y.duty ∧ y.duty < tp then some (s.now + BitVec.ofNat 32 (tp + y.duty)) else none) ∧
        DrivesStep ((cfg s).pump p).deadTime y.pwmOn y.stepIndex x.legs y.legs ∧
        (∀ ph, (x.legs.get ph).OffTimes (y.legs.get ph)) ∧ (x.state.drives = true → y.stepIndex = x.stepIndex)) ∧
      (s.arb.power = .sleep → ∀ r ∈ pumpOffers p s t, (∃ e ∈ t.arb.list, e.req = r) →
        reached (s.now + 400) r.inst = true →
        t.arb.power = .waking ∧ t.arb.wakeEnd = s.now + 400 ∧ (s.mem.wf → dataAt t powerAddr = 2)) ∧
      (s.arb.power ≠ .sleep ∨ (∀ r ∈ pumpOffers p s t, reached (s.now + 400) r.inst = false) →
        t.arb.power = s.arb.power ∧ t.arb.wakeEnd = s.arb.wakeEnd) ∧
      (t.pump p).periodStart = s.now ∧ (t.pump p).half = ((cfg s).pump p).tp ∧ (t.pump p).peakDue = true ∧
      (t.pump p).waiting = none ∧ ((s.pump p).waiting ≠ none → t.intPend &&& Cause.cmd.mask ≠ 0) ∧
      ((t.pump p).state = .align → (t.pump p).duty = (cfg s).alignDuty) ∧
      ((t.pump p).state = .ramp →
        (t.pump p).duty = min (rampEntry ((cfg s).pump p) (t.pump p).comm.entry).duty ((cfg s).pump p).tp) ∧
      (∀ b, (t.pump p).state = .run → liveBank (pumpChannel p) t = some b →
        (t.pump p).duty =
          min (max ((t.pump p).bank b).plan.duty.toNat (cfg s).zcMinDuty) ((cfg s).pump p).tp) ∧
      ((t.pump p).state.drives = false → (t.pump p).pwmOn = false ∧ (t.pump p).onAt = none ∧
        (t.pump p).offAt = none ∧ (t.pump p).duty = 0 ∧
        ((t.pump p).state = (s.pump p).state → (t.pump p).legs = (s.pump p).legs)) ∧
      (∀ b, liveBank (pumpChannel p) t = some b →
        ((t.pump p).bank b).periods = satInc (((pumpPlanStep p s).pump p).bank b).periods) ∧
      (∀ b, liveBank (pumpChannel p) t = some b →
        let x := ((pumpPlanStep p s).pump p).bank b
        let y := (t.pump p).bank b
        let duty := y.plan.duty.toNat
        ((t.pump p).state = .run →
          y.dutyRaised = (x.dutyRaised || decide (duty < (cfg s).zcMinDuty)) ∧
          y.dutyClamped = (x.dutyClamped || decide (((cfg s).pump p).tp < duty))) ∧
        ((t.pump p).state ≠ .run → y.dutyRaised = x.dutyRaised ∧ y.dutyClamped = x.dutyClamped)) ∧
      (∀ e ∈ t.arb.list, e.req ∈ pumpOffers p s t ∨ ∃ e' ∈ s.arb.list, e'.req = e.req) ∧
      (s.arb.list.length ≤ 6 → ∀ r ∈ pumpOffers p s t,
        ListedOrStarted r s t ∧ ((∃ e ∈ t.arb.list, e.req = r) → slotStatusOf r t = some .queued)) ∧
      (∀ b every n m, liveBank (pumpChannel p) t = some b →
        (every = ((t.pump p).bank b).plan.every0.toNat ∧ n = ((pumpPlanStep p s).pump p).countdown0 ∧
            m = (t.pump p).countdown0) ∨
          (every = ((t.pump p).bank b).plan.every1.toNat ∧ n = ((pumpPlanStep p s).pump p).countdown1 ∧
            m = (t.pump p).countdown1) →
        m = if every = 0 then 0 else if n = 0 then min every 16 - 1 else n - 1) ∧
      t.drum.own = s.drum.own ∧ (t.pump (otherPump p)).own = (s.pump (otherPump p)).own ∧ KeepsRest s t ∧
      KeepsOutside s t (span parityAddr 2 ++ channelWords (pumpChannel p) ++ arbiterWords))

/-- A pump holds its LIVE bank (R15): it stays LIVE with its plan, the clamp flags of the take, BANK_STATUS, TAKE_TIME and
LIVE_SEQ, its aggregates carry on with PERIODS one higher, and no HOLD is raised. -/
def PumpHolds (p : PumpId) (b : Bank) (s t : State) : Prop :=
  let ch := pumpChannel p
  let x := (s.pump p).bank b
  let y := (t.pump p).bank b
  let kept := fun (z : PumpSlot) => (z.last, z.sum, z.count, z.lateCount)
  liveBank ch t = some b ∧ (t.exch ch).liveSeq = (s.exch ch).liveSeq ∧
    (t.exch ch).retiredSeq = (s.exch ch).retiredSeq ∧ y.plan = x.plan ∧ y.periods = satInc x.periods ∧
    y.commutations = x.commutations ∧ y.misses = x.misses ∧ y.early = x.early ∧ y.lateComm = x.lateComm ∧
    y.stepEst = x.stepEst ∧ y.lastInterval = x.lastInterval ∧ y.advanceClamped = x.advanceClamped ∧
    y.everyClamped = x.everyClamped ∧ y.inputClamped = x.inputClamped ∧ kept y.slot0 = kept x.slot0 ∧
    kept y.slot1 = kept x.slot1 ∧
    (∀ i, i < 5 → t.mem.read (bankBase ch b + offStatus ch + i) = s.mem.read (bankBase ch b + offStatus ch + i)) ∧
    t.intPend &&& Cause.hold.mask = s.intPend &&& Cause.hold.mask

/-- The results of a pump bank after the boundary that accepts it, its first layout included (R13, R82, R84 to R87): the counts
and aggregates 0 but PERIODS 1, STEP_EST and LAST_INTERVAL the pump's figures before the boundary, the clamp flags of the take,
the DUTY flags of the first layout, and both slot countdowns begun anew. -/
def FreshPumpResults (p : PumpId) (b : Bank) (s t : State) : Prop :=
  let y := (t.pump p).bank b
  let plan := y.plan
  let inRun := (t.pump p).state = .run
  let kept := fun (z : PumpSlot) => (z.last, z.sum, z.count, z.lateCount)
  let fresh := (({ status := .notRequested, conv := .a, lateness := 0, raw := 0, value := 0, clamped := false } : SlotRecord),
    (0 : BitVec 32), (0 : Word), (0 : Word))
  y.periods = 1 ∧ y.commutations = 0 ∧ y.misses = 0 ∧ y.early = 0 ∧ y.lateComm = 0 ∧ y.stepEst = (s.pump p).comm.est ∧
    y.lastInterval = (s.pump p).comm.lastValid.getD 0 ∧ (y.advanceClamped = true ↔ 24 < plan.advance.toNat) ∧
    (y.everyClamped = true ↔ 16 < plan.every0.toNat ∨ 16 < plan.every1.toNat) ∧
    (y.inputClamped = true ↔ 7 < plan.input1.toNat) ∧
    (y.dutyRaised = true ↔ inRun ∧ plan.duty.toNat < (cfg s).zcMinDuty) ∧
    (y.dutyClamped = true ↔ inRun ∧ ((cfg s).pump p).tp < plan.duty.toNat) ∧
    kept y.slot0 = fresh ∧ kept y.slot1 = fresh ∧
    (t.pump p).countdown0 = min plan.every0.toNat 16 - 1 ∧ (t.pump p).countdown1 = min plan.every1.toNat 16 - 1

/-- At a boundary that performs no RELEASE a PENDING pump bank whose plan words pass parity is accepted: LIVE, with LIVE_SEQ its
SEQ, BANK_STATUS LIVE, TAKE_TIME NOW, PERIODS 1 after its first layout and its other results in their initial state, with
STEP_EST and LAST_INTERVAL the pump's figures and the clamp flags of its fields (R82, R84, R85); that LAST_INTERVAL is 0 after a
clear of the commutation state is the model's choice (notes/assumptions/33.md). A replaced bank retires at once, or is RETIRING
while a conversion of it is in flight (R16), its listed requests DROPPED_BOUNDARY. One that fails parity returns to HOST with
REJ_PARITY and raises the RET cause and PARITY, with LIVE_SEQ and RETIRED_SEQ as they were; each failing word is reported to the
parity record, the first filling an empty one with its address and SOURCE PLAN_P1 or PLAN_P2, each of them counting, and with no
failing word the record stays (R9, R167). With none PENDING or after a rejection the LIVE bank is held: its aggregates carry on
and no HOLD is raised (R9, R11 to R13, R15, R84). This holds with every waiting command and with none. The pump's state and step
index are not disturbed by the plan. -/
def Obligations.PumpTakesOrRejects : Prop :=
  ∀ (p : PumpId) (s : State), ready s = true → s.mem.wf → pumpBoundaryDue p s = true →
    (∀ tag, (s.pump p).waiting = some { code := .release, tag := tag } → (s.pump p).state.releases = false) →
    (s.exch (pumpChannel p)).Lawful → noRetiring (pumpChannel p) s →
    let undisturbed := fun (t : State) => (s.pump p).waiting = none → (t.pump p).state = (s.pump p).state ∧
      (t.pump p).stepIndex = (s.pump p).stepIndex ∧ (t.pump p).comm = (s.pump p).comm
    (∀ b, (s.exch (pumpChannel p)).role b = .pending → badPlanWords (pumpChannel p) b s = [] →
      Completes (.pumpBoundary p) s (fun t =>
        (t.exch (pumpChannel p)).role b = .live ∧
        (t.exch (pumpChannel p)).liveSeq = dataAt s (bankBase (pumpChannel p) b) ∧
        ((t.pump p).bank b).plan = pumpPlanOf (planData (pumpChannel p) b s) ∧ FreshPumpResults p b s t ∧
        dataAt t (bankBase (pumpChannel p) b + 12) = 1 ∧
        Shows t (bankBase (pumpChannel p) b + 13) (twoWords s.now ++ [0, 0]) ∧
        ((s.exch (pumpChannel p)).role (otherBank b) = .live → GivenUp (pumpChannel p) (otherBank b) s t) ∧
        ((s.exch (pumpChannel p)).role (otherBank b) = .host →
          (t.exch (pumpChannel p)).role (otherBank b) = .host ∧
          (t.exch (pumpChannel p)).retiredSeq = (s.exch (pumpChannel p)).retiredSeq) ∧
        TakesPlanParity (pumpChannel p) [] s t ∧ undisturbed t)) ∧
    (∀ b, (s.exch (pumpChannel p)).role b = .pending → badPlanWords (pumpChannel p) b s ≠ [] →
      Completes (.pumpBoundary p) s (fun t =>
        (t.exch (pumpChannel p)).role b = .host ∧
        (t.exch (pumpChannel p)).role (otherBank b) = (s.exch (pumpChannel p)).role (otherBank b) ∧
        (t.exch (pumpChannel p)).liveSeq = (s.exch (pumpChannel p)).liveSeq ∧
        (t.exch (pumpChannel p)).retiredSeq = (s.exch (pumpChannel p)).retiredSeq ∧
        dataAt t (bankBase (pumpChannel p) b + 12) = 4 ∧ t.intPend &&& (retCause (pumpChannel p)).mask ≠ 0 ∧
        t.intPend &&& Cause.parity.mask ≠ 0 ∧
        TakesPlanParity (pumpChannel p) (badPlanWords (pumpChannel p) b s) s t ∧
        ((s.exch (pumpChannel p)).role (otherBank b) = .live → PumpHolds p (otherBank b) s t) ∧ undisturbed t)) ∧
    ((∀ b, (s.exch (pumpChannel p)).role b ≠ .pending) → Completes (.pumpBoundary p) s (fun t =>
      t.exch (pumpChannel p) = s.exch (pumpChannel p) ∧ TakesPlanParity (pumpChannel p) [] s t ∧
      (∀ b, liveBank (pumpChannel p) s = some b → PumpHolds p b s t) ∧ undisturbed t))

/-- START at a pump boundary: NO_CHANGE in ALIGN, RAMP and RUN, WRONG_STATE in BRAKING and TRIPPED; in STOPPED and STALLED
it is refused with CONFIG_BUSY, INPUTS_ACTIVE or NO_PLAN, in that order, or enters ALIGN: step index 0, the commutation
state cleared, the align timer started, and the pattern of step 0 driven (R70 to R72): V's low side is on or waits out its
DT_P, W is off, and U's high side follows the modulation with the duty d = AlignDuty, on over the whole period with d = Tp,
from Tp - d to Tp + d below that, never with d = 0 (R66, R67). That NO_CHANGE and WRONG_STATE stand also while an APPLY_CONFIG
is in flight, against the CONFIG_BUSY of R159, is the model's choice (notes/assumptions/34.md). -/
def Obligations.PumpStartDecided : Prop :=
  ∀ (p : PumpId) (s : State) (tag : Byte), ready s = true → s.mem.wf → pumpBoundaryDue p s = true →
    (s.pump p).waiting = some { code := .start, tag := tag } →
    let done := fun (t : State) (o : Outcome) =>
      Shows t (controlAddr (pumpChannel p) offCmdDone) (outcomeWords tag o 1)
    let noPlan := liveBank (pumpChannel p) (pumpPlanStep p s) = none
    ((s.pump p).state.drives = true → Completes (.pumpBoundary p) s (fun t =>
      done t .noChange ∧ (t.pump p).state = (s.pump p).state)) ∧
    ((s.pump p).state = .braking ∨ (s.pump p).state = .tripped → Completes (.pumpBoundary p) s (fun t =>
      done t .wrongState ∧ (t.pump p).state = (s.pump p).state)) ∧
    ((s.pump p).state = .stopped ∨ (∃ r, (s.pump p).state = .stalled r) →
      (s.gcu.apply ≠ none → Completes (.pumpBoundary p) s (fun t =>
        done t .configBusy ∧ (t.pump p).state = (s.pump p).state)) ∧
      (s.gcu.apply = none → gateQualified (pumpChannel p) s = false → Completes (.pumpBoundary p) s (fun t =>
        done t .inputsActive ∧ (t.pump p).state = (s.pump p).state)) ∧
      (s.gcu.apply = none → gateQualified (pumpChannel p) s = true → noPlan →
        Completes (.pumpBoundary p) s (fun t => done t .noPlan ∧ (t.pump p).state = (s.pump p).state)) ∧
      (s.gcu.apply = none → gateQualified (pumpChannel p) s = true → ¬noPlan →
        Completes (.pumpBoundary p) s (fun t =>
          done t .done ∧ (t.pump p).state = .align ∧ (t.pump p).stepIndex = 0 ∧
          (t.pump p).comm =
            { clearComm with alignAt := some (s.now + BitVec.ofNat 32 ((cfg s).alignTime * 40000)) } ∧
          (let tp := ((cfg s).pump p).tp
           let d := (cfg s).alignDuty
           let dt := ((cfg s).pump p).deadTime
           (t.pump p).duty = d ∧ (s.pump p).legs.v.TurnsLow dt (t.pump p).legs.v ∧ (t.pump p).legs.w.Off ∧
           (tp ≤ d → (t.pump p).pwmOn = true ∧ (s.pump p).legs.u.TurnsHigh dt (t.pump p).legs.u) ∧
           (d < tp → (t.pump p).pwmOn = false ∧ (t.pump p).legs.u.Off) ∧
           (t.pump p).onAt = (if 0 < d ∧ d < tp then some (s.now + BitVec.ofNat 32 (tp - d)) else none) ∧
           (t.pump p).offAt = (if 0 < d ∧ d < tp then some (s.now + BitVec.ofNat 32 (tp + d)) else none)))))

/-- BRAKE, CLEAR_TRIP and RELEASE at a pump boundary, by the state. BRAKE drives SHORT, where the high sides turn off and each
low side is on or waits out its DT_P (R67), and clears the commutation state, or trips the pump when the gate supply is lost,
with the whole trip record, its words and TRIP, and its listed SLOT0 request removed (R103, R138 to R141); CLEAR_TRIP leaves
TRIPPED for STOPPED when no APPLY_CONFIG is in flight and the inputs are quiet and qualified; RELEASE gives up both banks in
STOPPED, STALLED and TRIPPED: a PENDING bank becomes HOST with CANCELLED, a LIVE bank retires, at once unless a conversion of it
is in flight, its listed requests DROPPED_BOUNDARY, and no plan is read, taken or held (R16, R18, R20, R70, R71, R138).
PRIOR_STATE of the trip under a lost gate supply is the state being entered (notes/assumptions/19.md). That CLEAR_TRIP outside
TRIPPED is answered WRONG_STATE also while an APPLY_CONFIG is in flight, against the CONFIG_BUSY of R159, is the model's choice
(notes/assumptions/34.md). -/
def Obligations.PumpCommandsAtBoundary : Prop :=
  ∀ (p : PumpId) (s : State) (tag : Byte), ready s = true → s.mem.wf → pumpBoundaryDue p s = true →
    let ch := pumpChannel p
    ((s.pump p).waiting = some { code := .brake, tag := tag } → Completes (.pumpBoundary p) s (fun t =>
      ((s.pump p).state = .braking → Shows t (controlAddr ch offCmdDone) (outcomeWords tag .noChange 3) ∧
        (t.pump p).state = .braking ∧ (t.pump p).trip = (s.pump p).trip) ∧
      ((s.pump p).state = .tripped ∨ (∃ r, (s.pump p).state = .stalled r) →
        Shows t (controlAddr ch offCmdDone) (outcomeWords tag .wrongState 3) ∧
        (t.pump p).state = (s.pump p).state ∧ (t.pump p).trip = (s.pump p).trip) ∧
      ((s.pump p).state = .stopped ∨ (s.pump p).state.drives = true →
        Shows t (controlAddr ch offCmdDone) (outcomeWords tag .done 3) ∧ (t.pump p).comm = clearComm ∧
        (gateAsserted ch s = false → (t.pump p).state = .braking ∧ (t.pump p).legs.All Leg.NoHigh ∧
          LegsTo .short ((cfg s).pump p).deadTime (s.pump p).legs (t.pump p).legs ∧
          (t.pump p).trip = (s.pump p).trip) ∧
        (gateAsserted ch s = true → GateTripsPump p .braking s t)))) ∧
    ((s.pump p).waiting = some { code := .clearTrip, tag := tag } → Completes (.pumpBoundary p) s (fun t =>
      ((s.pump p).state ≠ .tripped → Shows t (controlAddr ch offCmdDone) (outcomeWords tag .wrongState 4) ∧
        (t.pump p).state = (s.pump p).state) ∧
      ((s.pump p).state = .tripped → s.gcu.apply ≠ none →
        Shows t (controlAddr ch offCmdDone) (outcomeWords tag .configBusy 4) ∧ (t.pump p).state = .tripped) ∧
      ((s.pump p).state = .tripped → s.gcu.apply = none → inputsActive ch s = true →
        Shows t (controlAddr ch offCmdDone) (outcomeWords tag .inputsActive 4) ∧ (t.pump p).state = .tripped) ∧
      ((s.pump p).state = .tripped → s.gcu.apply = none → inputsActive ch s = false →
        Shows t (controlAddr ch offCmdDone) (outcomeWords tag .done 4) ∧ (t.pump p).state = .stopped ∧
        (t.pump p).legs.All Leg.Off ∧ (t.pump p).trip = (s.pump p).trip))) ∧
    ((s.pump p).waiting = some { code := .release, tag := tag } → (s.exch ch).Lawful →
      Completes (.pumpBoundary p) s (fun t =>
        ((s.pump p).state.releases = true → Shows t (controlAddr ch offCmdDone) (outcomeWords tag .done 5) ∧
          (t.exch ch).liveSeq = 0 ∧ (∀ b, (t.exch ch).role b = .host ∨ (t.exch ch).role b = .retiring) ∧
          (noRetiring ch s → GivesUpBoth ch s t) ∧ (∀ b, ((t.pump p).bank b).plan = ((s.pump p).bank b).plan) ∧
          t.parity = s.parity) ∧
        ((s.pump p).state.releases = false →
          Shows t (controlAddr ch offCmdDone) (outcomeWords tag .wrongState 5)) ∧
        (t.pump p).state = (s.pump p).state))

/-! ### Pump timers and zero crossings (04_pump_timing_channels.md 4.2, 4.5 to 4.7) -/

/-- A modulation edge turns the modulation on or off. In ALIGN, RAMP and RUN the high-side phase of the step follows it: its
high side turns on at once when its low side has been off for DT_P, and waits out what is left of DT_P otherwise; it turns
off at once. The other two phases, and in the other states all three, are left, and nothing outside the pump's modulation
and switches changes (R66). -/
def Obligations.ModulationEdge : Prop :=
  ∀ (p : PumpId) (s : State), ready s = true →
    let top := (sixStep (s.pump p).stepIndex).high
    let switched := fun (on : Bool) (t : State) =>
      ((s.pump p).state.drives = true →
        ((s.pump p).legs.get top).Follows ((cfg s).pump p).deadTime on ((t.pump p).legs.get top)) ∧
      (∀ ph, (s.pump p).state.drives = false ∨ ph ≠ top → (t.pump p).legs.get ph = (s.pump p).legs.get ph)
    (reachedOpt s.now (s.pump p).onAt = true → Completes (.pumpPwmEdge p) s (fun t =>
      (t.pump p).pwmOn = true ∧ (t.pump p).onAt = none ∧ (t.pump p).offAt = (s.pump p).offAt ∧
      switched true t ∧
      t.setPump p { t.pump p with pwmOn := (s.pump p).pwmOn, onAt := (s.pump p).onAt, legs := (s.pump p).legs }
        = s)) ∧
    (reachedOpt s.now (s.pump p).onAt = false → reachedOpt s.now (s.pump p).offAt = true →
      Completes (.pumpPwmEdge p) s (fun t =>
        (t.pump p).pwmOn = false ∧ (t.pump p).offAt = none ∧ (t.pump p).onAt = (s.pump p).onAt ∧
        switched false t ∧
        t.setPump p
          { t.pump p with pwmOn := (s.pump p).pwmOn, offAt := (s.pump p).offAt, legs := (s.pump p).legs } = s))

/-- The zero-crossing state that a post-crossing sample leaves: the run one higher, and the time of its first sample with
whether that was the first sample after blanking (R76). -/
def postSample (z : ZcState) (now : Tick) : ZcState :=
  { z with
    run := z.run + 1, sampled := true,
    firstTime := if z.run = 0 then now else z.firstTime,
    firstAfterBlank := if z.run = 0 then !z.sampled else z.firstAfterBlank }

/-- A peak in ALIGN or a state that does not drive, during blanking, or after a confirmed crossing yields no sample. A
sample at the pre-crossing level sets the run to 0; one at the post-crossing level raises it and keeps the time of the
run's first sample, and below ZcFilter nothing is confirmed (R75, R76). -/
def Obligations.PeakSamples : Prop :=
  ∀ (p : PumpId) (level : Bool) (s : State), ready s = true → peakReached p s = true →
    let x := s.pump p
    let post := postLevel ((cfg s).pump p).direction x.stepIndex
    (¬(x.state = .ramp ∨ x.state = .run) ∨ x.comm.zc.confirmed = true ∨ reached s.now x.comm.blankEnd = false →
      Completes (.peak p level) s (fun t => t = s.setPump p { x with peakDue := false })) ∧
    (x.state = .ramp ∨ x.state = .run → x.comm.zc.confirmed = false → reached s.now x.comm.blankEnd = true →
      (level ≠ post → Completes (.peak p level) s (fun t =>
        t = s.setPump p
          { x with peakDue := false,
                   comm := { x.comm with zc := { x.comm.zc with run := 0, sampled := true } } })) ∧
      (level = post → x.comm.zc.run + 1 < (cfg s).zcFilter → Completes (.peak p level) s (fun t =>
        t = s.setPump p
          { x with peakDue := false, comm := { x.comm with zc := postSample x.comm.zc s.now } })))

/-- A crossing is confirmed when the run reaches ZcFilter. ZC_TIME is the run's first sample, less Tp unless EARLY; the interval
is valid when the step before had a confirmed crossing. In RAMP the step is good, and the LockCount-th good step locks: RUN, S
the mean of the last two intervals, LOCK raised; no other confirmation raises a cause. In RUN, S takes the mean where both are
valid, and the commutation falls at ZC_TIME + S (32 - A) div 64, at once when that is reached (R74, R76 to R79), and at once
with LATE_COMM in RUN when the step's timeout is reached at the tick of the confirmation (R81; read from it where that time lies
ahead still, notes/assumptions/27.md). A commutation at once drives the new step with its dead times and begins the new step;
the switches are left without one (R65, R66, R80, R81). In the LIVE bank EARLY rises by one for an EARLY crossing, LAST_INTERVAL
takes a valid interval, and STEP_EST takes S at lock and where S takes the mean (R76 to R78, R85). -/
def Obligations.PeakConfirms : Prop :=
  ∀ (p : PumpId) (s : State), ready s = true → peakReached p s = true →
    let x := s.pump p
    let pc := (cfg s).pump p
    let z := postSample x.comm.zc s.now
    let zc := if z.firstAfterBlank then z.firstTime else z.firstTime - BitVec.ofNat 32 x.half
    let iv := if x.comm.prevConfirmed then some (min (zc - x.comm.lastZc).toNat 1048575) else none
    let mean := match iv, x.comm.interval with
      | some a, some b => some ((a + b) / 2)
      | _, _ => none
    let commAtOf := fun (est : Nat) => zc + BitVec.ofNat 32 (est * (32 - liveAdvance p s) / 64)
    let timedOut := x.state = .run ∧ reachedOpt s.now x.comm.timeoutAt = true
    (x.state = .ramp ∨ x.state = .run) → x.comm.zc.confirmed = false → reached s.now x.comm.blankEnd = true →
    (cfg s).zcFilter ≤ x.comm.zc.run + 1 →
    Completes (.peak p (postLevel pc.direction x.stepIndex)) s (fun t =>
      let y := t.pump p
      y.comm.lastZc = zc ∧ y.comm.interval = iv ∧ y.comm.prevInterval = x.comm.interval ∧ y.comm.missCount = 0 ∧
      (x.state = .ramp → x.comm.good + 1 < (cfg s).lockCount →
        y.state = .ramp ∧ y.comm.good = x.comm.good + 1 ∧ y.stepIndex = x.stepIndex ∧
        y.comm.zc.confirmed = true ∧ y.comm.rampAt = x.comm.rampAt ∧ y.legs = x.legs) ∧
      (x.state = .ramp → (cfg s).lockCount ≤ x.comm.good + 1 →
        y.state = .run ∧ y.comm.est = mean.getD 0 ∧ y.comm.rampAt = none) ∧
      t.intPend = (if x.state = .ramp ∧ (cfg s).lockCount ≤ x.comm.good + 1 then s.intPend ||| Cause.lock.mask
        else s.intPend) ∧
      (x.state = .run → y.state = .run ∧ y.comm.est = mean.getD x.comm.est) ∧
      (y.state = .run → ¬timedOut → reached s.now (commAtOf y.comm.est) = false →
        y.comm.commAt = some (commAtOf y.comm.est) ∧ y.stepIndex = x.stepIndex ∧ y.comm.timeoutAt = none ∧
        y.legs = x.legs) ∧
      (y.state = .run → timedOut ∨ reached s.now (commAtOf y.comm.est) = true →
        y.comm.commAt = none ∧ y.stepIndex = nextStep pc.direction x.stepIndex ∧
        DrivesStep pc.deadTime x.pwmOn y.stepIndex x.legs y.legs ∧ y.comm.zc = clearZc ∧
        y.comm.prevConfirmed = true ∧
        y.comm.blankEnd = s.now + BitVec.ofNat 32 (max (cfg s).blankMin (y.comm.est * (cfg s).blankFrac / 64)) ∧
        y.comm.timeoutAt = some (s.now + BitVec.ofNat 32 y.comm.est + BitVec.ofNat 32 (y.comm.est / 2)) ∧
        ∀ b, liveBank (pumpChannel p) s = some b →
          (y.bank b).lateComm = satInc (x.bank b).lateComm ∧
          (y.bank b).commutations = satInc (x.bank b).commutations) ∧
      (∀ b, liveBank (pumpChannel p) s = some b →
        let k := x.bank b
        let l := y.bank b
        let word := fun (off v : Nat) => s.mem.wf →
          Shows t (bankBase (pumpChannel p) b + off) (twoWords (BitVec.ofNat 32 v))
        l.early = (if z.firstAfterBlank then satInc k.early else k.early) ∧
        (∀ i, iv = some i → l.lastInterval = i ∧ y.comm.lastValid = some i ∧ word 26 i) ∧
        (iv = none → l.lastInterval = k.lastInterval ∧ y.comm.lastValid = x.comm.lastValid) ∧
        (x.state = .ramp → x.comm.good + 1 < (cfg s).lockCount → l.stepEst = k.stepEst) ∧
        (x.state = .ramp → (cfg s).lockCount ≤ x.comm.good + 1 →
          l.stepEst = mean.getD 0 ∧ word 24 (mean.getD 0)) ∧
        (x.state = .run → mean = none → l.stepEst = k.stepEst) ∧
        (∀ m, x.state = .run → mean = some m → l.stepEst = m ∧ word 24 m) ∧
        (y.stepIndex = x.stepIndex → l.commutations = k.commutations ∧ l.lateComm = k.lateComm) ∧
        l.plan = k.plan ∧ l.periods = k.periods ∧ l.misses = k.misses ∧ l.slot0 = k.slot0 ∧ l.slot1 = k.slot1) ∧
      y.pwmOn = x.pwmOn ∧ y.onAt = x.onAt ∧ y.offAt = x.offAt ∧ y.duty = x.duty ∧ OnlyPump p s t)

/-- What a commutation does: the index moves one position in the configured direction, the switches go to the new step with
their dead times, the high side following the period's modulation, which goes on; the step's zero-crossing state is cleared, the
blanking runs for max(BlankMin, basis x BlankFrac div 64), and COMMUTATIONS rises by one in the LIVE bank (R65, R66, R76, R80).
It raises no cause (R170). -/
def Commutated (p : PumpId) (s t : State) (basis : Nat) : Prop :=
  (t.pump p).stepIndex = nextStep ((cfg s).pump p).direction (s.pump p).stepIndex ∧
    DrivesStep ((cfg s).pump p).deadTime (s.pump p).pwmOn (t.pump p).stepIndex (s.pump p).legs (t.pump p).legs ∧
    ((t.pump p).pwmOn = (s.pump p).pwmOn ∧ (t.pump p).onAt = (s.pump p).onAt ∧ (t.pump p).offAt = (s.pump p).offAt ∧
      (t.pump p).duty = (s.pump p).duty) ∧
    (t.pump p).comm.zc = clearZc ∧ (t.pump p).comm.prevConfirmed = (s.pump p).comm.zc.confirmed ∧
    (t.pump p).comm.blankEnd = s.now + BitVec.ofNat 32 (max (cfg s).blankMin (basis * (cfg s).blankFrac / 64)) ∧
    (t.pump p).comm.commAt = none ∧
    (∀ b, liveBank (pumpChannel p) s = some b →
      ((t.pump p).bank b).commutations = satInc ((s.pump p).bank b).commutations) ∧
    t.intPend = s.intPend ∧ OnlyPump p s t

/-- The align timer ends ALIGN: the pump enters RAMP under entry 0, commutates, and the first ramp step is due to end INTERVAL
ticks later. A forced step end sets the good count to 0 when the step had no confirmed crossing, and then begins the next step
of the entry, the first step of the next entry, or stalls with NO_LOCK (R72 to R74). Each commutation drives the new step with
its dead times (R65, R66) and raises no cause; the stall raises STALL alone (R73, R170). -/
def Obligations.RampIsForced : Prop :=
  ∀ (p : PumpId) (s : State), ready s = true →
    let pc := (cfg s).pump p
    let c := (s.pump p).comm
    let good := if c.zc.confirmed then c.good else 0
    (alignDue p s = true → Completes (.alignTimerExpiry p) s (fun t =>
      Commutated p s t (rampEntry pc 0).interval ∧ (t.pump p).state = .ramp ∧ (t.pump p).comm.entry = 0 ∧
      (t.pump p).comm.begun = 1 ∧ (t.pump p).comm.alignAt = none ∧
      (t.pump p).comm.rampAt = some (s.now + BitVec.ofNat 32 (rampEntry pc 0).interval))) ∧
    (rampEndDue p s = true → c.begun < (rampEntry pc c.entry).steps → Completes (.rampStepEnd p) s (fun t =>
      Commutated p s t (rampEntry pc c.entry).interval ∧ (t.pump p).state = .ramp ∧ (t.pump p).comm.good = good ∧
      (t.pump p).comm.entry = c.entry ∧ (t.pump p).comm.begun = c.begun + 1 ∧
      (t.pump p).comm.rampAt = some (s.now + BitVec.ofNat 32 (rampEntry pc c.entry).interval))) ∧
    (rampEndDue p s = true → (rampEntry pc c.entry).steps ≤ c.begun → c.entry + 1 < pc.table.length →
      Completes (.rampStepEnd p) s (fun t =>
        Commutated p s t (rampEntry pc (c.entry + 1)).interval ∧ (t.pump p).state = .ramp ∧
        (t.pump p).comm.good = good ∧ (t.pump p).comm.entry = c.entry + 1 ∧ (t.pump p).comm.begun = 1 ∧
        (t.pump p).comm.rampAt = some (s.now + BitVec.ofNat 32 (rampEntry pc (c.entry + 1)).interval))) ∧
    (rampEndDue p s = true → (rampEntry pc c.entry).steps ≤ c.begun → pc.table.length ≤ c.entry + 1 →
      Completes (.rampStepEnd p) s (fun t =>
        (t.pump p).state = .stalled .noLock ∧ (t.pump p).legs.All Leg.Off ∧ (t.pump p).comm = clearComm ∧
        (t.pump p).stepIndex = (s.pump p).stepIndex ∧ t.intPend = s.intPend ||| Cause.stall.mask ∧ OnlyPump p s t))

/-- The scheduled commutation and the timeout of a RUN step: each commutates, drives the new step with its dead times, and sets
the next timeout to NOW + S + S div 2. A timeout adds to MISSES and to the consecutive-miss count, and at MissLimitP the pump
stalls with ZC_LOST after the commutation, all six switches off (R65 to R67, R79, R81, R83). A commutation raises no cause, and
the stall STALL alone (R170). -/
def Obligations.RunStepEnds : Prop :=
  ∀ (p : PumpId) (s : State), ready s = true →
    let est := (s.pump p).comm.est
    let next := s.now + BitVec.ofNat 32 est + BitVec.ofNat 32 (est / 2)
    (commDue p s = true → Completes (.scheduledCommutation p) s (fun t =>
      Commutated p s t est ∧ (t.pump p).state = .run ∧ (t.pump p).comm.timeoutAt = some next ∧
      (t.pump p).comm.est = est ∧ (t.pump p).comm.missCount = (s.pump p).comm.missCount)) ∧
    (timeoutDue p s = true → (s.pump p).comm.missCount + 1 < (cfg s).missLimitP →
      Completes (.timeout p) s (fun t =>
        Commutated p s t est ∧ (t.pump p).state = .run ∧ (t.pump p).comm.timeoutAt = some next ∧
        (t.pump p).comm.est = est ∧ (t.pump p).comm.missCount = (s.pump p).comm.missCount + 1 ∧
        ∀ b, liveBank (pumpChannel p) s = some b →
          ((t.pump p).bank b).misses = satInc ((s.pump p).bank b).misses)) ∧
    (timeoutDue p s = true → (cfg s).missLimitP ≤ (s.pump p).comm.missCount + 1 →
      Completes (.timeout p) s (fun t =>
        (t.pump p).state = .stalled .zcLost ∧ (t.pump p).legs.All Leg.Off ∧ (t.pump p).comm = clearComm ∧
        (t.pump p).stepIndex = nextStep ((cfg s).pump p).direction (s.pump p).stepIndex ∧
        t.intPend = s.intPend ||| Cause.stall.mask ∧ OnlyPump p s t ∧
        ∀ b, liveBank (pumpChannel p) s = some b →
          ((t.pump p).bank b).misses = satInc ((s.pump p).bank b).misses))

/-! ### The arbiter and the converters (05_converters_and_the_sample_arbiter.md) -/

/-- At an eligibility event every listed entry whose INSTANT NOW has reached becomes eligible, and an AWAKE pair with an IDLE
converter starts the best-ranked eligible entries it may serve: in a list in rank order the started one outranks every eligible
entry left that its converter may serve, and CVA takes the better of two. No listed entry is new, and an entry leaves the list
only by starting; an IDLE converter of an AWAKE pair is left with none that it may serve (R94, R98, R99). A start shows
CONVERTING in its slot and its converter's word, and LPR counts it in the bin of its lateness, L div 8, or 7 from 56 on, with
the bin's SATURATED flag as it reaches its limit and LATE where CombineMask selects the bin, and not otherwise (R127, R128,
R130, R131). -/
def Obligations.EligibleEntriesStart : Prop :=
  ∀ s : State, ready s = true → eligibilityDue s = true → Completes .eligibility s (fun t =>
    (∀ e ∈ t.arb.list, (∃ e' ∈ s.arb.list, e'.req = e.req) ∧ (reached s.now e.req.inst = true → e.eligible = true)) ∧
    (∀ cv, s.inFlight cv ≠ none → t.inFlight cv = s.inFlight cv) ∧
    (∀ cv f, s.inFlight cv = none → t.inFlight cv = some f →
      f.start = s.now ∧ f.lateness = s.now - f.req.inst ∧ mayServe f.req cv = true ∧
      ∃ e ∈ s.arb.list, e.req = f.req ∧ (e.eligible = true ∨ reached s.now e.req.inst = true)) ∧
    (∀ cv, s.arb.power = .awake → t.inFlight cv = none → ∀ e ∈ t.arb.list, e.eligible = true →
      mayServe e.req cv = false) ∧
    (s.arb.ListLawful → ∀ e ∈ s.arb.list, ListedOrStarted e.req s t) ∧
    (s.arb.Ranked → ∀ cv r, StartedOn cv r s t →
      (∀ e ∈ t.arb.list, e.eligible = true → mayServe e.req cv = true → outranks r e.req = true) ∧
      ∀ q, cv = .a → StartedOn .b q s t → mayServe q .a = true → outranks r q = true) ∧
    (s.arb.ListLawful → s.mem.wf → ∀ cv r, StartedOn cv r s t →
      dataAt t (convStatusAddr cv) = convStatusWord (t.inFlight cv) ∧
      ∀ st, slotStatusOf r t = some st → st = .converting) ∧
    Accounted none s t ∧
    (s.arb.power ≠ .awake → t.arb.cva = s.arb.cva ∧ t.arb.cvb = s.arb.cvb) ∧
    t.drum.own = s.drum.own ∧ t.pump1.own = s.pump1.own ∧ t.pump2.own = s.pump2.own ∧ t.parity = s.parity ∧
    KeepsRest s t ∧ KeepsOutside s t arbiterWords ∧ t.arb.power = s.arb.power)

/-- An entry that has not started by INSTANT + LATE_MAX leaves the list with LATE in its slot; for a pump slot its LATE count
rises. No conversion starts or ends, and nothing else leaves the list (R101). The drop is reported to LPR: with ProfileEnable
and the origin's flag set, DROPPED rises by one up to 4,294,967,295, where its SATURATED flag is set, and LATE is raised with
its CombineMask flag, and not without it (R127, R130, R131). Where it is a shunt slot of a RUNNING period and the other one is
neither QUEUED nor CONVERTING, the pair is settled and the currents are reconstructed (R58). -/
def Obligations.EntriesExpire : Prop :=
  ∀ (o : Origin) (sl : Slot) (s : State) (e : Entry), ready s = true → expiringEntry o sl s = some e →
    Completes (.expiry o sl) s (fun t =>
      t.arb = { s.arb with list := s.arb.list.filter (fun x => !x.req.sameKey e.req) } ∧
      (∀ b, o = .d → e.req.bank = some b →
        (sl = .shuntA → (t.drum.bank b).shuntA.status = .late) ∧
        (sl = .shuntB → (t.drum.bank b).shuntB.status = .late) ∧ (sl = .u1 → (t.drum.bank b).u1.status = .late) ∧
        (sl = .u2 → (t.drum.bank b).u2.status = .late) ∧
        ((sl = .shuntA ∧ (s.drum.bank b).shuntB.status.isOpen = false) ∨
            (sl = .shuntB ∧ (s.drum.bank b).shuntA.status.isOpen = false) → (s.drum.bank b).window.computed = true →
          (t.drum.bank b).window =
            reconstruct (s.drum.bank b).window (t.drum.bank b).shuntA (t.drum.bank b).shuntB)) ∧
      (∀ p b, o = channelOrigin (pumpChannel p) → e.req.bank = some b →
        (sl = .slot0 → ((t.pump p).bank b).slot0.status = .late ∧
          ((t.pump p).bank b).slot0.lateCount = satInc ((s.pump p).bank b).slot0.lateCount) ∧
        (sl = .slot1 → ((t.pump p).bank b).slot1.status = .late ∧
          ((t.pump p).bank b).slot1.lateCount = satInc ((s.pump p).bank b).slot1.lateCount)) ∧
      (let counted := (cfg s).profileEnable && (cfg s).originMask.getLsbD (originFlag o)
       let dropped := s.lpr.counters[8]
       (counted = false → t.lpr = s.lpr) ∧
       (counted = true → t.lpr.counters = s.lpr.counters.set 8 (satInc dropped) ∧
         t.lpr.saturated = (if dropped = 0xFFFFFFFE#32 then s.lpr.saturated ||| 0x100#10 else s.lpr.saturated) ∧
         ((cfg s).combineMask.getLsbD 8 = true → t.intPend &&& Cause.late.mask ≠ 0)) ∧
       (counted = false ∨ (cfg s).combineMask.getLsbD 8 = false →
         t.intPend &&& Cause.late.mask = s.intPend &&& Cause.late.mask)) ∧
      t.drum.own = s.drum.own ∧ t.pump1.own = s.pump1.own ∧ t.pump2.own = s.pump2.own ∧ t.parity = s.parity ∧
      t.calA = s.calA ∧ t.calB = s.calB ∧ KeepsRest s t ∧ KeepsOutside s t arbiterWords)

/-- VALUE of a conversion: RAW less the converter's offset, clamped to 0 to 4095 (R57, R106). -/
def clampedValue (raw : Raw) (offset : Int) : Int := max 0 (min ((raw.toNat : Int) - offset) 4095)

/-- The completion of a drum or pump conversion frees the converter and delivers the result: a drum result into its slot of the
bank it names where that is RETIRING, or LIVE with the request's tag equal to PERIOD_COUNT, and not at all otherwise; a pump
result into its slot's LAST record, with SUM and COUNT for SLOT0. VALUE is corrected with the offset of the converter that ran
the conversion, and STATUS is VALID unless the freed converter starts an eligible later request of the same slot. A delivered
shunt result after which the other slot is neither QUEUED nor CONVERTING settles the pair, and the currents are reconstructed
from both records (R58, R90, R105 to R108). A RETIRING bank whose last conversion this was, with no request listed, retires in
the event, and stays RETIRING while one is listed or in flight (R16). Each sweep set aside is offered again where the list has
room; every listed entry stays listed or starts, and nothing is evicted (R117): LPR counts the starts alone (R127 to R131). -/
def Obligations.ResultsDelivered : Prop :=
  ∀ (cv : Conv) (raw : Raw) (b : Bank) (s : State) (f : InFlight), ready s = true → s.inFlight cv = some f →
    completionDue cv s = true → f.req.bank = some b →
    let alone := ∀ e ∈ s.arb.list, e.req.sameKey f.req = true → e.eligible = false
    let isResult := fun (r : SlotRecord) => r.conv = cv ∧ r.lateness = f.lateness.setWidth 16 ∧ r.raw = raw ∧
      (r.value.toNat : Int) = clampedValue raw (s.cal cv).offset
    let delivered := s.exchD.role b = .retiring ∨ (s.exchD.role b = .live ∧ f.req.tag = s.drum.periodCount)
    Completes (.completion cv raw) s (fun t =>
      (t.inFlight cv = none ∨ ∃ g, t.inFlight cv = some g ∧ g.start = s.now) ∧ t.arb.idleStart = s.now ∧
      (f.req.origin = .d → delivered → ∀ r, (t.drum.bank b).record f.req.slot = some r →
        isResult r ∧ (alone → r.status = .valid)) ∧
      (f.req.origin = .d → ¬delivered → ∀ r q, (s.drum.bank b).record f.req.slot = some r →
        (t.drum.bank b).record f.req.slot = some q →
        { q with status := r.status } = r ∧ (alone → q = r) ∧ (t.drum.bank b).window = (s.drum.bank b).window) ∧
      (f.req.origin = .d → delivered → alone → (s.drum.bank b).window.computed = true →
        (f.req.slot = .shuntA → (t.drum.bank b).window =
          if (s.drum.bank b).shuntB.status.isOpen then (s.drum.bank b).window
          else reconstruct (s.drum.bank b).window (t.drum.bank b).shuntA (s.drum.bank b).shuntB) ∧
        (f.req.slot = .shuntB → (t.drum.bank b).window =
          if (s.drum.bank b).shuntA.status.isOpen then (s.drum.bank b).window
          else reconstruct (s.drum.bank b).window (s.drum.bank b).shuntA (t.drum.bank b).shuntB)) ∧
      (∀ p, f.req.origin = channelOrigin (pumpChannel p) → f.req.slot = .slot0 →
        ((t.pump p).bank b).slot0.last.status = .valid ∧ isResult ((t.pump p).bank b).slot0.last ∧
        (alone → ((t.pump p).bank b).slot0.status = .valid) ∧
        ((t.pump p).bank b).slot0.sum =
          satAdd ((s.pump p).bank b).slot0.sum ((t.pump p).bank b).slot0.last.value.toNat ∧
        ((t.pump p).bank b).slot0.count = satInc ((s.pump p).bank b).slot0.count) ∧
      (∀ p, f.req.origin = channelOrigin (pumpChannel p) → f.req.slot = .slot1 →
        ((t.pump p).bank b).slot1.last.status = .valid ∧ isResult ((t.pump p).bank b).slot1.last ∧
        (alone → ((t.pump p).bank b).slot1.status = .valid) ∧
        ((t.pump p).bank b).slot1.sum = ((s.pump p).bank b).slot1.sum ∧
        ((t.pump p).bank b).slot1.count = ((s.pump p).bank b).slot1.count) ∧
      (∀ ch, f.req.origin = channelOrigin ch → (s.exch ch).Lawful → s.mem.wf → (s.exch ch).role b = .retiring →
        let left := s.arb.list.any (fun e => e.req.names ch b) || inFlightNames (s.inFlight (otherConv cv)) ch b
        (left = false → Retired ch b s t) ∧ (left = true → StaysRetiring ch b s t)) ∧
      (f.req.origin ≠ .calA → f.req.origin ≠ .calB → s.arb.ListLawful → s.CalAgrees →
        (∀ e ∈ s.arb.list, ListedOrStarted e.req (freed cv s) t) ∧
        SetAsideReoffered s.arb.list.length (freed cv s) t ∧ Accounted none (freed cv s) t) ∧
      t.drum.own = s.drum.own ∧ t.pump1.own = s.pump1.own ∧ t.pump2.own = s.pump2.own ∧ t.parity = s.parity ∧
      KeepsRest s t ∧ KeepsOutside s t arbiterWords)

/-! ### Calibration, sleep and wake (06_calibration_and_converter_sleep.md) -/

/-- A completed REF conversion adds its RAW to the sweep; the sixteenth ends it: OFFSET is the rounded mean less 2048, clamped
to -64 to +63 with CAL_RANGE and CALR when the clamp acts, CALR left where it does not, LAST_CAL_TIME is NOW, DUE is NOW + I,
CAL_COUNT rises (R109, R115, R118). After any other the sweep's next request, with INSTANT NOW and the present class, is offered
(R115); then each sweep set aside is offered again where the list has room (R117). LPR's account of the starts and of an
eviction is that of R127 to R131. The statement on the offers is made for a list and records that agree as SweepPhasesAgree
keeps them. -/
def Obligations.SweepsCalibrate : Prop :=
  ∀ (cv : Conv) (raw : Raw) (s : State) (f : InFlight), ready s = true → s.inFlight cv = some f →
    completionDue cv s = true → f.req.origin = convOrigin cv →
    let sum := (s.cal cv).sum + raw.toNat
    let exact : Int := (((sum + 8) / 16 : Nat) : Int) - 2048
    Completes (.completion cv raw) s (fun t =>
      ((s.cal cv).progress + 1 ≠ 16 → (t.cal cv).progress = (s.cal cv).progress + 1 ∧ (t.cal cv).sum = sum ∧
        (t.cal cv).offset = (s.cal cv).offset ∧ (t.cal cv).cls = (s.cal cv).cls ∧
        (t.cal cv).due = (s.cal cv).due) ∧
      ((s.cal cv).progress + 1 = 16 →
        (t.cal cv).offset = max (-64) (min exact 63) ∧ ((t.cal cv).range = true ↔ exact < -64 ∨ 63 < exact) ∧
        (exact < -64 ∨ 63 < exact → t.intPend &&& Cause.calr.mask ≠ 0) ∧ (t.cal cv).lastCal = s.now ∧
        (t.cal cv).due = s.now + BitVec.ofNat 32 ((cfg s).calInterval * 40000) ∧
        (t.cal cv).count = satInc (s.cal cv).count ∧ (t.cal cv).cls = .none ∧ (t.cal cv).progress = 0 ∧
        (t.cal cv).sum = 0) ∧
      ((s.cal cv).progress + 1 ≠ 16 ∨ (-64 ≤ exact ∧ exact ≤ 63) →
        t.intPend &&& Cause.calr.mask = s.intPend &&& Cause.calr.mask) ∧
      (s.arb.ListLawful → s.CalAgrees →
        ((s.cal cv).progress + 1 ≠ 16 →
          OfferedAtCompletion (sweepRequest cv s.now (s.cal cv).cls.reqClass) (freed cv s) t ∧
          SetAsideReoffered (s.arb.list.length + 1) (freed cv s) t) ∧
        ((s.cal cv).progress + 1 = 16 → (∀ e ∈ s.arb.list, ListedOrStarted e.req (freed cv s) t) ∧
          SetAsideReoffered s.arb.list.length (freed cv s) t ∧ Accounted none (freed cv s) t)) ∧
      t.drum.own = s.drum.own ∧ t.pump1.own = s.pump1.own ∧ t.pump2.own = s.pump2.own ∧ t.parity = s.parity ∧
      KeepsRest s t ∧ KeepsOutside s t arbiterWords)

/-- A converter that falls due begins a ROUTINE_CAL sweep, which is listed, converting or set aside; at DUE + I div 2 its class
rises to URGENT_CAL and at DUE + I to FORCED_CAL, and a raise wakes a sleeping pair and is a wake cause of this tick to an AWAKE
one. The request that begins the sweep, and the one with which a raise brings back a sweep that was set aside, is offered to the
list: inserted with room in it, else in place of the lowest-ranked entry, which is evicted, where it outranks that, and evicted
itself where it does not; an eviction shows EVICTED in the slot and counts in it and in LPR, with EVICTED's SATURATED flag and
LATE as its limit and CombineMask give them (R96, R97, R117, R129 to R131). A listed request keeps its place in the list's
contents with the class it has risen to (R95). The channels' own state and the configuration are left (R114, R116, R123). -/
def Obligations.SweepsBeginAndRise : Prop :=
  (∀ (cv : Conv) (s : State), ready s = true → (s.cal cv).phase = .waiting → reached s.now (s.cal cv).due = true →
    Completes (.calDue cv) s (fun t =>
      (t.cal cv).cls = .routine ∧ (t.cal cv).progress = 0 ∧ (t.cal cv).sum = 0 ∧ (t.cal cv).phase ≠ .waiting ∧
      (s.arb.ListLawful → s.CalAgrees → Offered (sweepRequest cv (s.cal cv).due .routineCal) s t) ∧
      (t.cal cv).due = (s.cal cv).due ∧ (t.cal cv).offset = (s.cal cv).offset ∧ t.drum.own = s.drum.own ∧
      t.pump1.own = s.pump1.own ∧ t.pump2.own = s.pump2.own ∧ t.parity = s.parity ∧ KeepsRest s t ∧
      KeepsOutside s t arbiterWords)) ∧
  (∀ (cv : Conv) (s : State) (up : CalClass), ready s = true →
    (((s.cal cv).cls = .routine ∧ up = .urgent ∧
        reached s.now ((s.cal cv).due + BitVec.ofNat 32 ((cfg s).calInterval * 40000 / 2)) = true) ∨
      ((s.cal cv).cls = .urgent ∧ up = .forced ∧
        reached s.now ((s.cal cv).due + BitVec.ofNat 32 ((cfg s).calInterval * 40000)) = true)) →
    Completes (.calRaiseTime cv) s (fun t =>
      (t.cal cv).cls = up ∧ (t.cal cv).progress = (s.cal cv).progress ∧ (t.cal cv).sum = (s.cal cv).sum ∧
      (s.arb.ListLawful → s.CalAgrees →
        ((s.cal cv).phase = .setAside → Offered (sweepRequest cv (s.cal cv).keptInst up.reqClass) s t) ∧
        ((s.cal cv).phase = .listed → t.arb.cva = s.arb.cva ∧ t.arb.cvb = s.arb.cvb ∧
          t.arb.list.length = s.arb.list.length ∧ ∀ e ∈ s.arb.list,
            (if e.req.origin = convOrigin cv then { e with req := { e.req with cls := up.reqClass } } else e)
              ∈ t.arb.list) ∧
        ((s.cal cv).phase = .converting → t.arb.list = s.arb.list ∧ t.arb.cva = s.arb.cva ∧
          t.arb.cvb = s.arb.cvb)) ∧
      (t.cal cv).due = (s.cal cv).due ∧ t.arb.power ≠ .sleep ∧ t.arb.wakeNow = (wokenPair s).wakeNow ∧
      t.drum.own = s.drum.own ∧
      t.pump1.own = s.pump1.own ∧ t.pump2.own = s.pump2.own ∧ t.parity = s.parity ∧ KeepsRest s t ∧
      KeepsOutside s t arbiterWords))

/-- The pair enters SLEEP when IdleLimit is above 0, all three grants are set, both converters are IDLE and have been for
IdleLimit ticks, nothing above ROUTINE_CAL is within reach, and no wake cause has been taken on this tick: where one has, the
pair stays AWAKE (R123), for that tick, as is the model's choice (notes/assumptions/32.md). An entry that comes within reach
begins the wake, which lasts 400 ticks and ends in AWAKE with the idle start at that tick and an assignment, whose starts LPR
counts (R127 to R131). A write to SLEEP_GRANT stores its word, and one that leaves any of the three words clear begins the wake
of a sleeping pair, and is a wake cause of this tick to an AWAKE one (R122, R123). -/
def Obligations.PairSleepsAndWakes : Prop :=
  (∀ s : State, ready s = true → s.mem.wf → s.arb.power = .awake → 0 < (cfg s).idleLimit → allGranted s = true →
    s.arb.cva = none → s.arb.cvb = none → (cfg s).idleLimit ≤ (s.now - s.arb.idleStart).toNat →
    (∀ e ∈ s.arb.list, e.req.cls ≠ .routineCal → reached (s.now + 400) e.req.inst = false) → s.arb.wakeNow = false →
    Completes .enterSleep s (fun t =>
      t.arb = { s.arb with power := .sleep } ∧ dataAt t 0x00C = 1 ∧ KeepsOutside s t [0x00C] ∧
      { t with mem := s.mem, arb := s.arb } = s)) ∧
  (∀ s : State, ready s = true → s.arb.wakeNow = true → Completes .enterSleep s (fun t => t = s)) ∧
  (∀ s : State, ready s = true → s.mem.wf → s.arb.power = .sleep →
    (∃ e ∈ s.arb.list, e.req.cls ≠ .routineCal ∧ reached (s.now + 400) e.req.inst = true) →
    Completes .wakeReach s (fun t =>
      t.arb = { s.arb with power := .waking, wakeEnd := s.now + 400 } ∧ dataAt t 0x00C = 2 ∧
      KeepsOutside s t [0x00C] ∧ { t with mem := s.mem, arb := s.arb } = s)) ∧
  (∀ s : State, ready s = true → s.mem.wf → s.arb.power = .waking → reached s.now s.arb.wakeEnd = true →
    Completes .wakingEnd s (fun t =>
      t.arb.power = .awake ∧ t.arb.idleStart = s.now ∧ dataAt t 0x00C = 0 ∧
      (∀ cv e, t.inFlight cv = none → e ∈ t.arb.list → e.eligible = true → mayServe e.req cv = false) ∧
      Accounted none s t ∧ t.drum.own = s.drum.own ∧
        t.pump1.own = s.pump1.own ∧ t.pump2.own = s.pump2.own ∧ t.parity = s.parity ∧
      KeepsRest s t ∧ KeepsOutside s t arbiterWords)) ∧
  (∀ (ch : Channel) (v : Word) (s : State), ready s = true →
    portTakes .memWrite (controlWord ch offGrant) s = true → s.mem.wf → Completes (.sleepGrantWrite ch v) s (fun t =>
      dataAt t (controlAddr ch offGrant) = v ∧
      (allGranted t = false → t.arb = wokenPair s ∧ (s.arb.power = .sleep → dataAt t 0x00C = 2)) ∧
      (allGranted t = true → t.arb = s.arb) ∧
      KeepsOutside s t [controlAddr ch offGrant, 0x00C] ∧ { t with mem := s.mem, port := s.port, arb := s.arb } = s))

/-! ### The Trip Monitor (08_trip_monitor.md) -/

/-- A trip pin takes its raw level and keeps the filtered one; a release and a qualification change the filtered level and
the QUALIFIED flag with the TRIP_INPUTS words, and trip nothing (R135 to R137). -/
def Obligations.TripInputsFiltered : Prop :=
  (∀ (pin : TripPin) (level : Bool) (s : State), Completes (.tripInputChange pin level) s (fun t =>
    (t.trm.filter pin).raw = level ∧ (t.trm.filter pin).level = (s.trm.filter pin).level ∧
    ((s.trm.filter pin).raw ≠ level → (t.trm.filter pin).count = 0) ∧
    (∀ q, q ≠ pin → t.trm.filter q = s.trm.filter q) ∧ t.trm.qualD = s.trm.qualD ∧ t.trm.qualP = s.trm.qualP ∧
    { t with trm := s.trm } = s)) ∧
  (∀ (pin : TripPin) (s : State), ready s = true → releaseDue pin s = true →
    Completes (.inputRelease pin) s (fun t =>
      (t.trm.filter pin).level = !faultLevel pin ∧ (t.trm.filter pin).count = 0 ∧
      (∀ q, q ≠ pin → t.trm.filter q = s.trm.filter q) ∧ t.trm.qualD = s.trm.qualD ∧ t.trm.qualP = s.trm.qualP ∧
      KeepsOutside s t [0x0D1, 0x0F1, 0x111] ∧ { t with trm := s.trm, mem := s.mem } = s)) ∧
  (∀ (g : Supply) (s : State), ready s = true → qualificationDue g s = true →
    Completes (.qualification g) s (fun t =>
      (t.trm.qual g).qualified = true ∧ (t.trm.qual g).timer = (s.trm.qual g).timer ∧
      (∀ pin, t.trm.filter pin = s.trm.filter pin) ∧ (∀ g', g' ≠ g → t.trm.qual g' = s.trm.qual g') ∧
      KeepsOutside s t [0x0D1, 0x0F1, 0x111] ∧ { t with trm := s.trm, mem := s.mem } = s))

/-- Whether the drum tripped on this very tick from a driven state: RUNNING, BRAKING, or STARVED with SafeAction SHORT (R138,
R144). tripNow is set by a trip and cleared by the next tick (EmptyQueueLetsTimePass). -/
def drumTrippedNow (s : State) : Prop :=
  s.drum.tripNow = true ∧
    (s.drum.tripPrior = .running ∨ s.drum.tripPrior = .braking ∨
      (s.drum.tripPrior = .starved ∧ (cfg s).safeAction = .short))

/-- Whether a pump tripped on this very tick from a driven state: ALIGN, RAMP, RUN or BRAKING (R138, R144). -/
def pumpTrippedNow (p : PumpId) (s : State) : Prop :=
  (s.pump p).tripNow = true ∧ (s.pump p).tripPrior.driven = true

/-- The assertion of OC_D trips the drum from every state but TRIPPED: TRIPPED, every switch off, miss count 0, the record
written with its prior state, TRIP raised, the listed SHUNT requests removed with DROPPED_TRIP in their slots, and the currents
reconstructed where that settles a bank's pair (R58, R61); the assertion of GATE_OK_D does so in a driven state, and otherwise
only takes the qualification. A TRIPPED drum takes OC_D, and with action SHORT GATE_OK_D, as a further cause, which moves SHORT
to OFF. With action OFF GATE_OK_D joins CAUSES when it falls on the tick of a trip from a driven state, and otherwise only takes
the qualification (R103, R138 to R142, R144). Which of R142 and R144 holds for that tick is the model's choice
(notes/assumptions/29.md). -/
def Obligations.DrumInputsTrip : Prop :=
  (∀ (pin : TripPin) (c : TripCause) (s : State), ready s = true → assertionDue pin s = true →
    ((pin = .ocD ∧ c = .oc) ∨ (pin = .gateOkD ∧ c = .gate ∧ s.drum.out ≠ .off)) → s.drum.state ≠ .tripped →
    Completes (.inputAssertion pin) s (fun t =>
      t.drum.state = .tripped ∧ t.drum.out = .off ∧ t.drum.legs.All Leg.Off ∧ t.drum.missCount = 0 ∧
      t.drum.trip = { first := some c, oc := decide (c = .oc), busOv := false, gate := decide (c = .gate),
                      action := .off, time := s.now,
                      liveSeq := if (liveBank .d s).isSome then s.exchD.liveSeq else 0 } ∧
      t.drum.tripPrior = s.drum.state ∧ t.drum.tripPeriodCount = s.drum.periodCount ∧ t.drum.tripNow = true ∧
      t.intPend &&& Cause.trip.mask ≠ 0 ∧
      t.arb.list = s.arb.list.filter (fun e => !currentSlot .d e.req) ∧
      (∀ e ∈ s.arb.list, currentSlot .d e.req = true → ∀ st, slotStatusOf e.req t = some st → st = .droppedTrip) ∧
      (∀ b, ShuntsDropped .droppedTrip b s t) ∧ t.drum.waiting = s.drum.waiting ∧
        t.pump1 = s.pump1 ∧ t.pump2 = s.pump2 ∧ t.arb.cva = s.arb.cva ∧
      t.arb.cvb = s.arb.cvb ∧ t.calA = s.calA ∧ t.calB = s.calB ∧ t.lpr = s.lpr ∧ t.parity = s.parity ∧
      KeepsRest { s with trm := t.trm } t ∧ KeepsOutside s t (channelWords .d ++ tripInputWords))) ∧
  (∀ s : State, ready s = true → assertionDue .gateOkD s = true → s.drum.out = .off → s.drum.state ≠ .tripped →
    Completes (.inputAssertion .gateOkD) s (fun t =>
      t.trm.qualD = { timer := 0, qualified := false } ∧ KeepsOutside s t tripInputWords ∧
      { t with mem := s.mem, trm := s.trm } = s)) ∧
  (∀ s : State, ready s = true → assertionDue .ocD s = true → s.drum.state = .tripped →
    Completes (.inputAssertion .ocD) s (fun t =>
      t.drum.state = .tripped ∧ t.drum.trip = { s.drum.trip with oc := true, action := .off } ∧
      (s.drum.trip.action = .short → t.drum.out = .off ∧ t.drum.legs.All Leg.Off) ∧
      (s.drum.trip.oc = false ∨ s.drum.trip.action = .short → t.intPend &&& Cause.trip.mask ≠ 0) ∧
      (s.drum.trip.oc = true → s.drum.trip.action = .off → t.intPend = s.intPend))) ∧
  (∀ s : State, ready s = true → assertionDue .gateOkD s = true → s.drum.state = .tripped →
    Completes (.inputAssertion .gateOkD) s (fun t =>
      t.trm.qualD = { timer := 0, qualified := false } ∧
      (s.drum.trip.action = .short → t.drum.state = .tripped ∧
        t.drum.trip = { s.drum.trip with gate := true, action := .off } ∧ t.drum.out = .off ∧
        t.drum.legs.All Leg.Off ∧ t.intPend = s.intPend ||| Cause.trip.mask ∧ t.arb = s.arb) ∧
      (s.drum.trip.action = .off → drumTrippedNow s →
        t.drum = { s.drum with trip := { s.drum.trip with gate := true } } ∧
        t.intPend = (if s.drum.trip.gate then s.intPend else s.intPend ||| Cause.trip.mask) ∧
        KeepsOutside s t (channelWords .d ++ tripInputWords) ∧
        { t with mem := s.mem, trm := s.trm, drum := s.drum, intPend := s.intPend } = s) ∧
      (s.drum.trip.action = .off → ¬drumTrippedNow s → t.drum = s.drum ∧ t.intPend = s.intPend ∧
        KeepsOutside s t tripInputWords ∧ { t with mem := s.mem, trm := s.trm } = s)))

/-- The assertion of a pump's overcurrent input trips that pump from every state but TRIPPED, with the step index and S
copied before the commutation state is cleared and its listed SLOT0 request removed with DROPPED_TRIP in the slot; GATE_OK_P
trips each pump that drives its outputs and only takes the qualification from the others. A TRIPPED pump takes its
overcurrent input, and with action SHORT GATE_OK_P, as a further cause, which moves SHORT to OFF and raises TRIP where the
record changed. With action OFF GATE_OK_P joins the causes of a pump that tripped on this tick from a driven state, and
leaves every other TRIPPED pump. The drum is left (R103, R138, R139, R141, R142, R144). Which of R142 and R144 holds for that
tick is the model's choice (notes/assumptions/29.md). -/
def Obligations.PumpInputsTrip : Prop :=
  (∀ (p : PumpId) (s : State),
    let pin := match p with
      | .p1 => TripPin.ocP1
      | .p2 => TripPin.ocP2
    ready s = true → assertionDue pin s = true → (s.pump p).state ≠ .tripped →
    Completes (.inputAssertion pin) s (fun t =>
      (t.pump p).state = .tripped ∧ (t.pump p).legs.All Leg.Off ∧ (t.pump p).comm = clearComm ∧
      (t.pump p).trip.first = some .oc ∧ (t.pump p).trip.oc = true ∧ (t.pump p).trip.action = .off ∧
      (t.pump p).trip.time = s.now ∧ (t.pump p).tripNow = true ∧ (t.pump p).tripPrior = (s.pump p).state ∧
      (t.pump p).tripStep = (s.pump p).stepIndex ∧ (t.pump p).tripEst = (s.pump p).comm.est ∧
      (t.pump p).stepIndex = (s.pump p).stepIndex ∧ t.intPend &&& Cause.trip.mask ≠ 0 ∧
      t.arb.list = s.arb.list.filter (fun e => !currentSlot (pumpChannel p) e.req) ∧
      (∀ e ∈ s.arb.list, currentSlot (pumpChannel p) e.req = true →
        ∀ st, slotStatusOf e.req t = some st → st = .droppedTrip) ∧
      t.drum = s.drum ∧ t.pump (otherPump p) = s.pump (otherPump p) ∧ t.arb.cva = s.arb.cva ∧
      t.arb.cvb = s.arb.cvb ∧ t.calA = s.calA ∧ t.calB = s.calB ∧ t.lpr = s.lpr ∧ t.parity = s.parity ∧
      KeepsRest { s with trm := t.trm } t ∧ KeepsOutside s t (channelWords (pumpChannel p) ++ tripInputWords))) ∧
  (∀ (p : PumpId) (s : State),
    let pin := match p with
      | .p1 => TripPin.ocP1
      | .p2 => TripPin.ocP2
    ready s = true → assertionDue pin s = true → (s.pump p).state = .tripped →
    Completes (.inputAssertion pin) s (fun t =>
      { t.pump p with legs := (s.pump p).legs } =
        { s.pump p with trip := { (s.pump p).trip with oc := true, action := .off } } ∧
      ((s.pump p).trip.action = .short → (t.pump p).legs.All Leg.Off) ∧
      ((s.pump p).trip.action = .off → (t.pump p).legs = (s.pump p).legs) ∧
      t.intPend = (if (s.pump p).trip.oc = false ∨ (s.pump p).trip.action = .short then s.intPend ||| Cause.trip.mask
        else s.intPend) ∧
      t.drum = s.drum ∧ t.pump (otherPump p) = s.pump (otherPump p) ∧ t.arb = s.arb ∧
      KeepsRest { s with trm := t.trm } t ∧ KeepsOutside s t (channelWords (pumpChannel p) ++ tripInputWords))) ∧
  (∀ s : State, ready s = true → assertionDue .gateOkP s = true → Completes (.inputAssertion .gateOkP) s (fun t =>
    t.trm.qualP = { timer := 0, qualified := false } ∧ t.drum = s.drum ∧ t.parity = s.parity ∧
    ((∀ p, t.pump p = s.pump p) → t.intPend = s.intPend) ∧
    KeepsRest { s with trm := t.trm } t ∧ KeepsOutside s t (channelWords .p1 ++ channelWords .p2 ++ tripInputWords) ∧
    ∀ p, ((s.pump p).state.driven = true → (t.pump p).state = .tripped ∧ (t.pump p).legs.All Leg.Off ∧
        (t.pump p).trip.first = some .gate ∧ (t.pump p).trip.gate = true ∧
        (t.pump p).tripNow = true ∧ (t.pump p).tripPrior = (s.pump p).state ∧ t.intPend &&& Cause.trip.mask ≠ 0 ∧
        (∀ e ∈ t.arb.list, currentSlot (pumpChannel p) e.req = false) ∧
        ∀ e ∈ s.arb.list, currentSlot (pumpChannel p) e.req = true →
          ∀ st, slotStatusOf e.req t = some st → st = .droppedTrip) ∧
      ((s.pump p).state = .tripped → (s.pump p).trip.action = .short →
        { t.pump p with legs := (s.pump p).legs } =
          { s.pump p with trip := { (s.pump p).trip with gate := true, action := .off } } ∧
        (t.pump p).legs.All Leg.Off ∧ t.intPend &&& Cause.trip.mask ≠ 0) ∧
      ((s.pump p).state = .tripped → (s.pump p).trip.action = .off → pumpTrippedNow p s →
        t.pump p = { s.pump p with trip := { (s.pump p).trip with gate := true } } ∧
        ((s.pump p).trip.gate = false → t.intPend &&& Cause.trip.mask ≠ 0)) ∧
      ((s.pump p).state = .tripped → (s.pump p).trip.action = .off → ¬pumpTrippedNow p s → t.pump p = s.pump p) ∧
      ((s.pump p).state.driven = false → (s.pump p).state ≠ .tripped → t.pump p = s.pump p)))

/-- The record of a BUS_OV trip (R140, R141): BUS_OV first, ACTION the channel's OvAction, and OFF under an asserted gate-supply
input, which joins CAUSES where SHORT is denied by it. -/
def busOvRecord (ch : Channel) (s : State) : TripRecord :=
  { first := some .busOv, oc := false, busOv := true, gate := decide (ovAction ch s = .short) && gateAsserted ch s,
    action := if gateAsserted ch s then .off else ovAction ch s, time := s.now,
    liveSeq := if (liveBank ch s).isSome then (s.exch ch).liveSeq else 0 }

/-- The record of a TRIPPED channel after BUS_OV as a further cause (R142): BUS_OV in CAUSES, and ACTION OFF where the channel's
OvAction is OFF, also with BUS_OV in CAUSES before (R148; notes/assumptions/36.md). -/
def busOvFurther (ch : Channel) (s : State) (r : TripRecord) : TripRecord :=
  { r with busOv := true, action := if ovAction ch s = .off then .off else r.action }

/-- The assertion of BUS_OV reaches all three channels: each that is not TRIPPED trips with BUS_OV first, at this tick, and its
own action, OFF with every switch off or SHORT with the low sides on or waiting out their dead time, but as they are where the
channel was in SHORT or BRAKING; a SHORT denied by the gate supply has the gate supply in CAUSES. Each that is TRIPPED takes
BUS_OV as a further cause: it joins CAUSES, an OvAction OFF moves SHORT to OFF with every switch off, and nothing else of the
channel changes. TRIP is raised where a record was written or changed. The current-slot requests of the channels that trip leave
the list with DROPPED_TRIP in their slots, and where that settles the shunt pair of a drum bank the currents are reconstructed
(R58, R61). After it all three are TRIPPED (R28, R67, R103, R140 to R143). That a BUS_OV that is in CAUSES already moves SHORT
to OFF too, where an APPLY_CONFIG has set OvAction OFF since, as R148 has it and R142 does not, is the model's choice
(notes/assumptions/36.md). -/
def Obligations.BusOvervoltageTripsAll : Prop :=
  ∀ s : State, ready s = true → assertionDue .busOv s = true → Completes (.inputAssertion .busOv) s (fun t =>
    let removed := fun (r : Request) => [Channel.d, .p1, .p2].any (fun ch => !isTripped ch s && currentSlot ch r)
    t.drum.state = .tripped ∧ t.pump1.state = .tripped ∧ t.pump2.state = .tripped ∧
    (s.drum.state ≠ .tripped → t.drum.trip = busOvRecord .d s ∧ t.drum.tripNow = true ∧
      t.drum.tripPrior = s.drum.state ∧ t.drum.tripPeriodCount = s.drum.periodCount ∧ t.drum.missCount = 0 ∧
      t.drum.out = t.drum.trip.action.drumOut ∧ (s.drum.out ≠ .short → t.drum.legs.All Leg.NoHigh) ∧
      LegsGo (decide (s.drum.out = .short)) t.drum.trip.action (cfg s).dtD s.drum.legs t.drum.legs) ∧
    (s.drum.state = .tripped →
      { t.drum with out := s.drum.out, legs := s.drum.legs } =
        { s.drum with trip := busOvFurther .d s s.drum.trip } ∧
      (s.drum.trip.action = .short → ovAction .d s = .off → t.drum.out = .off ∧ t.drum.legs.All Leg.Off) ∧
      (s.drum.trip.action = .off ∨ ovAction .d s = .short →
        t.drum.out = s.drum.out ∧ t.drum.legs = s.drum.legs)) ∧
    (∀ p, (s.pump p).state ≠ .tripped → (t.pump p).trip = busOvRecord (pumpChannel p) s ∧ (t.pump p).tripNow = true ∧
      (t.pump p).tripPrior = (s.pump p).state ∧ (t.pump p).tripStep = (s.pump p).stepIndex ∧
      (t.pump p).tripEst = (s.pump p).comm.est ∧ (t.pump p).stepIndex = (s.pump p).stepIndex ∧
      (t.pump p).comm = clearComm ∧ ((s.pump p).state ≠ .braking → (t.pump p).legs.All Leg.NoHigh) ∧
      LegsGo (decide ((s.pump p).state = .braking)) (t.pump p).trip.action ((cfg s).pump p).deadTime (s.pump p).legs
        (t.pump p).legs) ∧
    (∀ p, (s.pump p).state = .tripped →
      { t.pump p with legs := (s.pump p).legs } =
        { s.pump p with trip := busOvFurther (pumpChannel p) s (s.pump p).trip } ∧
      ((s.pump p).trip.action = .short → ovAction (pumpChannel p) s = .off → (t.pump p).legs.All Leg.Off) ∧
      ((s.pump p).trip.action = .off ∨ ovAction (pumpChannel p) s = .short →
        (t.pump p).legs = (s.pump p).legs)) ∧
    (t.drum.trip ≠ s.drum.trip ∨ t.pump1.trip ≠ s.pump1.trip ∨ t.pump2.trip ≠ s.pump2.trip ∨
        (∃ ch, isTripped ch s = false) → t.intPend &&& Cause.trip.mask ≠ 0) ∧
    ((∀ ch, isTripped ch s = true) → t.drum.trip = s.drum.trip → t.pump1.trip = s.pump1.trip →
      t.pump2.trip = s.pump2.trip → t.intPend = s.intPend) ∧
    t.arb.list = s.arb.list.filter (fun e => !removed e.req) ∧
    (∀ e ∈ s.arb.list, removed e.req = true → ∀ st, slotStatusOf e.req t = some st → st = .droppedTrip) ∧
    (s.drum.state ≠ .tripped → ∀ b, ShuntsDropped .droppedTrip b s t) ∧ t.arb.cva = s.arb.cva ∧ t.arb.cvb = s.arb.cvb ∧
      t.calA = s.calA ∧ t.calB = s.calB ∧ t.lpr = s.lpr ∧
    t.parity = s.parity ∧ KeepsRest { s with trm := t.trm } t ∧
    KeepsOutside s t (channelWords .d ++ channelWords .p1 ++ channelWords .p2 ++ tripInputWords))

/-! ### What every command and every step keeps -/

/-- The part writes no word that is the host's: in every command the scratch area, the configuration block and the start
tables, GCMD, SWITCH, COMMAND and SLEEP_GRANT, and the plan words of every bank keep their values, but for the word that the
host itself writes; only the power-on sweep clears them (R1, R4, R149, R165). -/
def Obligations.PartLeavesHostWords : Prop :=
  ∀ (c : Instr) (s t : State) (a : Nat), exec c s = .next t → c ≠ .sweepEnd → isHostWord a = true →
    (∀ w, hostWriteOf c ≠ some (a, w)) →
    (∀ w f, c = .memWriteWord w → s.port.frame = some f → f.addr.toNat ≠ a) →
    t.mem.read a = s.mem.read a

/-- Every step keeps the memory in its canonical form, and keeps the words of the part that runs showing its records: roles
and sequence words, state words, trip records, TRIP_INPUTS, the converter status, power and calibration words, the profiler
block, both fault records, and the results of every bank that is LIVE or RETIRING (R1, R2, R19, R25, R39, R69, R85, R87, R91,
R113, R132, R136, R141, R166, R167). The sweep's end, which begins the part's work, leaves them shown (R171). -/
def Obligations.StepKeepsMemoryForm : Prop :=
  ∀ s t : State, s.mem.wf → Sys2Proof.Machine.step s = .next t →
    t.mem.wf ∧ ((s.phase = .running → s.Mirrors) → t.phase = .running → t.Mirrors)

/-- The law of the gate outputs: no step brings both switches of any phase of any channel on together (R27, R66). -/
def Obligations.SwitchesStayApart : Prop :=
  ∀ s t : State, s.Apart → Sys2Proof.Machine.step s = .next t → t.Apart

/-- Every step keeps the outputs of every channel those of its state: no high side is on outside RUNNING of the drum and
outside ALIGN, RAMP and RUN of a pump, and in STOPPED and STALLED, and in TRIPPED with action OFF of a pump, every switch
is off (R25, R28, R66 to R68). And the model's mark of a trip at this NOW stays true: while it is set, TRIP_TIME is NOW (R141,
R144). -/
def Obligations.OutputsFollowStates : Prop :=
  ∀ s t : State, Sys2Proof.Machine.step s = .next t →
    (s.OutputsLawful → t.OutputsLawful) ∧ (s.TripsTimed → t.TripsTimed)

/-- The law of the exchange: from every state that meets it every step leads to one that does. A boundary is taken with no
RETIRING bank in its channel, as R8 says of every boundary (R3, R5, R8, R16). -/
def Obligations.ExchangeLawKept : Prop :=
  ∀ s t : State, s.ExchangesLawful → BoundaryFindsNone s → Sys2Proof.Machine.step s = .next t → t.ExchangesLawful

/-- Every step keeps the pending list at no more than 8 entries with no two of one origin and slot, and both calibration
records in their ranges: every converter offset lies in -64 to +63 (R93, R113, R118). Every step keeps the list in rank
order, under a legal configuration and with the instants that rank compares near NOW, as R94 says of them (R93 to R97). -/
def Obligations.ListAndOffsetsInRange : Prop :=
  ∀ s t : State, s.arb.ListLawful → s.calA.InRange → s.calB.InRange → Sys2Proof.Machine.step s = .next t →
    t.arb.ListLawful ∧ t.calA.InRange ∧ t.calB.InRange ∧
      (s.ConfigLegal → s.InstantsNear → s.arb.Ranked → t.arb.Ranked)

/-- Every step keeps the calibration records in agreement with the arbiter: a sweep is in exactly one of its phases, LISTED
exactly when its request stands in the pending list and CONVERTING exactly when it is in flight on its own converter (R113
to R117). -/
def Obligations.SweepPhasesAgree : Prop :=
  ∀ s t : State, s.arb.ListLawful → s.CalAgrees → Sys2Proof.Machine.step s = .next t → t.CalAgrees

/-- Every step keeps the configuration shadow within the ranges and consistency conditions of R150, whatever the host has
written into the memory copy: a shadow is taken only when every word read has passed (R150, R151, R157, R158). And while an
APPLY_CONFIG is in flight the drum is not RUNNING and no pump is in ALIGN, RAMP or RUN: it is taken only with every channel
STOPPED or TRIPPED, and START is refused until it completes (R152, R155, R159). -/
def Obligations.ConfigurationStaysLegal : Prop :=
  (∀ s t : State, s.ConfigLegal → Sys2Proof.Machine.step s = .next t → t.ConfigLegal) ∧
  (∀ s t : State, s.ApplyQuiet → Sys2Proof.Machine.step s = .next t → t.ApplyQuiet)

/-- Every step keeps the counts: the drum's consecutive-miss count below MissLimit in RUNNING and 0 elsewhere, a pump's
good count below LockCount in RAMP and its miss count below MissLimitP in RUN, and its commutation state cleared outside
ALIGN, RAMP and RUN (R34, R35, R74, R81, R83). -/
def Obligations.CountsStayBelowLimits : Prop :=
  ∀ s t : State, s.ConfigLegal → s.ApplyQuiet → s.MissesCounted → s.PumpCountsLawful →
    Sys2Proof.Machine.step s = .next t → t.MissesCounted ∧ t.PumpCountsLawful

/-- The law of commutation: in a step from ALIGN, RAMP or RUN to ALIGN, RAMP or RUN a pump's step index stays or moves
exactly one position in the configured direction (R65). -/
def Obligations.StepIndexMovesByOne : Prop :=
  ∀ (p : PumpId) (s t : State), Sys2Proof.Machine.step s = .next t → (s.pump p).state.drives = true →
    (t.pump p).state.drives = true →
    (t.pump p).stepIndex = (s.pump p).stepIndex ∨
      (t.pump p).stepIndex = nextStep ((cfg s).pump p).direction (s.pump p).stepIndex

/-- The state after reset meets every property that the steps keep. The levels of the pins in it are the model's choice
(notes/assumptions/3.md), and that reset is the moment after the sweep's end is read from R114 and R171
(notes/assumptions/4.md). -/
def Obligations.ResetMeetsInvariants : Prop :=
  State.reset.mem.wf ∧ State.reset.Apart ∧ State.reset.OutputsLawful ∧ State.reset.ExchangesLawful ∧
    State.reset.arb.ListLawful ∧ State.reset.calA.InRange ∧ State.reset.calB.InRange ∧ State.reset.ConfigLegal ∧
    State.reset.ApplyQuiet ∧ State.reset.MissesCounted ∧ State.reset.PumpCountsLawful ∧ State.reset.CalAgrees ∧
    State.reset.Mirrors ∧ State.reset.arb.Ranked ∧ State.reset.InstantsNear ∧ State.reset.TripsTimed
end

