-- ==== Sys2Proof/Laws/Memory.lean ====
section
/-! SUPPORT. The laws of the Shared Work Memory: every word written is good, a read after a write, what a write leaves
alone, and that every memory operation keeps the canonical form. -/

namespace Sys2Proof.Machine

/-! ### Parity -/

/-- A written word passes its parity check (R167). -/
@[simp] theorem wordOf_good (d : Word) : (wordOf d).good = true := by simp [wordOf, SwmWord.good]

@[simp] theorem wordOf_data (d : Word) : (wordOf d).data = d := rfl

/-- A word that was never written is good. -/
theorem blankWord_good : blankWord.good = true := by decide

/-! ### Read after insert -/

/-- In a canonical list, an address below the first reads blank. -/
theorem Memory.read_below {m : Memory} {a : Nat} (h : ∀ c ∈ m, a < c.1) : Memory.read m a = blankWord := by
  induction m with
  | nil => rfl
  | cons c m ih =>
    obtain ⟨k, v⟩ := c
    have h1 : a < k := h (k, v) (by simp)
    rw [Memory.read, if_neg (by omega)]
    exact ih (fun c hc => h c (by simp [hc]))

theorem Memory.insert_read_ne (m : Memory) {a b : Nat} (w : SwmWord) (hne : b ≠ a) :
    Memory.read (Memory.insert m a w) b = Memory.read m b := by
  induction m with
  | nil =>
    unfold Memory.insert
    split
    · rfl
    · simp [Memory.read, Ne.symm hne]
  | cons c m ih =>
    obtain ⟨k, v⟩ := c
    unfold Memory.insert
    split
    · split
      · rfl
      · rw [Memory.read, if_neg (by omega)]
    · split
      · subst a
        split
        · rw [Memory.read, if_neg (by omega)]
        · rw [Memory.read, if_neg (by omega), Memory.read, if_neg (by omega)]
      · rw [Memory.read, Memory.read, ih]

theorem Memory.insert_read_self {m : Memory} (h : m.Pairwise (fun x y => x.1 < y.1)) (a : Nat) (w : SwmWord) :
    Memory.read (Memory.insert m a w) a = w := by
  induction m with
  | nil =>
    unfold Memory.insert
    split
    · subst w; rfl
    · rw [Memory.read, if_pos rfl]
  | cons c m ih =>
    obtain ⟨k, v⟩ := c
    rw [List.pairwise_cons] at h
    unfold Memory.insert
    split
    · rename_i hlt
      split
      · subst w
        apply Memory.read_below
        intro c hc
        simp only [List.mem_cons] at hc
        rcases hc with rfl | hc
        · exact hlt
        · exact lt_trans hlt (h.1 c hc)
      · rw [Memory.read, if_pos rfl]
    · split
      · subst a
        split
        · subst w
          exact Memory.read_below (fun c hc => h.1 c hc)
        · rw [Memory.read, if_pos rfl]
      · rename_i h1 h2
        rw [Memory.read, if_neg (by omega), ih h.2]

/-! ### The canonical form -/

/-- Every entry of the list after an insertion is the new one or an old one. -/
theorem Memory.mem_insert {m : Memory} {a : Nat} {w : SwmWord} {c : Nat × SwmWord}
    (h : c ∈ Memory.insert m a w) : (c = (a, w) ∧ w ≠ blankWord) ∨ c ∈ m := by
  induction m with
  | nil =>
    unfold Memory.insert at h
    split at h
    · simp at h
    · rename_i hw; simp at h; exact .inl ⟨h, hw⟩
  | cons e m ih =>
    obtain ⟨k, v⟩ := e
    unfold Memory.insert at h
    split at h
    · split at h
      · exact .inr h
      · rename_i hw
        rcases List.mem_cons.mp h with h | h
        · exact .inl ⟨h, hw⟩
        · exact .inr h
    · split at h
      · split at h
        · exact .inr (List.mem_cons_of_mem _ h)
        · rename_i hw
          rcases List.mem_cons.mp h with h | h
          · exact .inl ⟨h, hw⟩
          · exact .inr (List.mem_cons_of_mem _ h)
      · rcases List.mem_cons.mp h with h | h
        · exact .inr (by simp [h])
        · exact (ih h).imp id (fun h => List.mem_cons_of_mem _ h)

theorem Memory.insert_pairwise {m : Memory} (h : m.Pairwise (fun x y => x.1 < y.1)) (a : Nat) (w : SwmWord) :
    (Memory.insert m a w).Pairwise (fun x y => x.1 < y.1) := by
  induction m with
  | nil => unfold Memory.insert; split <;> simp
  | cons e m ih =>
    obtain ⟨k, v⟩ := e
    have h' := List.pairwise_cons.mp h
    unfold Memory.insert
    split
    · rename_i hlt
      split
      · exact h
      · refine List.pairwise_cons.mpr ⟨?_, h⟩
        intro c hc
        rcases List.mem_cons.mp hc with rfl | hc
        · exact hlt
        · exact lt_trans hlt (h'.1 c hc)
    · split
      · subst a
        split
        · exact h'.2
        · exact List.pairwise_cons.mpr ⟨h'.1, h'.2⟩
      · rename_i h1 h2
        refine List.pairwise_cons.mpr ⟨?_, ih h'.2⟩
        intro c hc
        rcases Memory.mem_insert hc with ⟨rfl, -⟩ | hc
        · show k < a; omega
        · exact h'.1 c hc

theorem Memory.insert_wf {m : Memory} (h : m.wf) {a : Nat} (ha : a < Config.swmWords) (w : SwmWord) :
    (Memory.insert m a w).wf := by
  refine ⟨Memory.insert_pairwise h.1 a w, fun c hc => ?_⟩
  rcases Memory.mem_insert hc with ⟨rfl, hw⟩ | hc
  · exact ⟨hw, ha⟩
  · exact h.2 c hc

/-- The empty memory is in canonical form. -/
theorem Memory.nil_wf : Memory.wf [] := by simp [Memory.wf]

/-- The write of one word keeps the canonical form. -/
theorem Memory.write_wf {m : Memory} (h : m.wf) (a : Nat) (d : Word) : (m.write a d).wf := by
  unfold Memory.write
  split
  · exact Memory.insert_wf h ‹_› _
  · exact h

theorem Memory.writeList_wf {m : Memory} (h : m.wf) (a : Nat) (ws : List Word) : (m.writeList a ws).wf := by
  induction ws generalizing m a with
  | nil => exact h
  | cons w ws ih => exact ih (Memory.write_wf h a w) (a + 1)

theorem Memory.writeChanged_wf {m : Memory} (h : m.wf) (a : Nat) (old new : List (List Word)) :
    (m.writeChanged a old new).wf := by
  induction new generalizing m a old with
  | nil => cases old <;> exact h
  | cons n ns ih =>
    cases old with
    | nil => exact h
    | cons o os =>
      rw [Memory.writeChanged]
      refine ih ?_ _ os
      split
      · exact h
      · exact Memory.writeList_wf h a n

/-! ### Reads and writes -/

/-- A write leaves every other word alone. -/
theorem Memory.write_read_ne (m : Memory) {a b : Nat} (d : Word) (h : b ≠ a) : (m.write a d).read b = m.read b := by
  unfold Memory.write
  split
  · exact Memory.insert_read_ne m _ h
  · rfl

/-- A read after a write to the same word gives the value written, with good parity. -/
theorem Memory.write_read_self {m : Memory} (h : m.wf) {a : Nat} (ha : a < Config.swmWords) (d : Word) :
    (m.write a d).read a = wordOf d := by
  unfold Memory.write
  rw [if_pos ha]
  exact Memory.insert_read_self h.1 a _

/-- Words written from an address on leave every word outside them alone. -/
theorem Memory.writeList_read_out (m : Memory) (a : Nat) (ws : List Word) {b : Nat}
    (h : b < a ∨ a + ws.length ≤ b) : (m.writeList a ws).read b = m.read b := by
  induction ws generalizing m a with
  | nil => rfl
  | cons w ws ih =>
    simp only [List.length_cons] at h
    rw [Memory.writeList, ih _ _ (by omega), Memory.write_read_ne _ _ (by omega)]

/-- Words written from an address on read back. -/
theorem Memory.writeList_read_in {m : Memory} (h : m.wf) (a : Nat) (ws : List Word) {i : Nat} (hi : i < ws.length)
    (ha : a + ws.length ≤ Config.swmWords) : (m.writeList a ws).read (a + i) = wordOf (ws.getD i 0) := by
  induction ws generalizing m a i with
  | nil => simp at hi
  | cons w ws ih =>
    simp only [List.length_cons] at hi ha
    rw [Memory.writeList]
    cases i with
    | zero =>
      rw [Memory.writeList_read_out _ _ _ (by omega), Nat.add_zero, Memory.write_read_self h (by omega)]
      rfl
    | succ i =>
      have hp : a + (i + 1) = a + 1 + i := by omega
      rw [hp, ih (Memory.write_wf h a w) (a + 1) (by omega) (by omega)]
      rfl

/-! ### Records as quantities -/

@[simp] theorem wordsOf_nil : wordsOf [] = [] := rfl

@[simp] theorem wordsOf_cons (q : List Word) (qs : List (List Word)) : wordsOf (q :: qs) = q ++ wordsOf qs := rfl

@[simp] theorem wordsOf_append (qs rs : List (List Word)) : wordsOf (qs ++ rs) = wordsOf qs ++ wordsOf rs := by
  simp [wordsOf]

@[simp] theorem wordsOf_singles (ws : List Word) : wordsOf (singles ws) = ws := by
  induction ws with
  | nil => rfl
  | cons w ws ih => simpa [singles] using ih

/-- The quantities of a record written where they change leave every word outside the record alone. -/
theorem Memory.writeChanged_read_out (m : Memory) (a : Nat) (old new : List (List Word)) {b : Nat}
    (h : b < a ∨ a + (wordsOf new).length ≤ b) : (m.writeChanged a old new).read b = m.read b := by
  induction new generalizing m a old with
  | nil => cases old <;> rfl
  | cons n ns ih =>
    cases old with
    | nil => rfl
    | cons o os =>
      simp only [wordsOf_cons, List.length_append] at h
      rw [Memory.writeChanged, ih _ _ _ (by omega)]
      split
      · rfl
      · exact Memory.writeList_read_out _ _ _ (by omega)

/-- Two records have the same layout: as many quantities, each as long as the other's. -/
def SameLayout (old new : List (List Word)) : Prop := List.Forall₂ (fun o n => o.length = n.length) old new

theorem sameLayout_singles {ws vs : List Word} (h : ws.length = vs.length) : SameLayout (singles ws) (singles vs) := by
  induction ws generalizing vs with
  | nil => cases vs with
    | nil => exact .nil
    | cons => simp at h
  | cons w ws ih => cases vs with
    | nil => simp at h
    | cons v vs => exact .cons rfl (ih (by simpa using h))

theorem SameLayout.append {a b c d : List (List Word)} (h : SameLayout a b) (g : SameLayout c d) :
    SameLayout (a ++ c) (b ++ d) := by
  induction h with
  | nil => exact g
  | cons h1 _ ih => exact .cons h1 ih

/-- A record whose words stood in the memory stands there after the change. -/
theorem Memory.writeChanged_shows {m : Memory} (h : m.wf) (a : Nat) {old new : List (List Word)}
    (hl : SameLayout old new) {i : Nat} (hi : i < (wordsOf new).length)
    (ha : a + (wordsOf new).length ≤ Config.swmWords)
    (hold : ∀ j < (wordsOf old).length, (m.read (a + j)).data = (wordsOf old).getD j 0) :
    ((m.writeChanged a old new).read (a + i)).data = (wordsOf new).getD i 0 := by
  induction hl generalizing m a i with
  | nil => simp at hi
  | @cons o n os ns hlen _ ih =>
    simp only [wordsOf_cons, List.length_append] at hi ha hold
    rw [Memory.writeChanged]
    have hw : (if o = n then m else m.writeList a n).wf := by
      split
      · exact h
      · exact Memory.writeList_wf h a n
    by_cases hin : i < n.length
    · rw [Memory.writeChanged_read_out _ _ _ _ (by omega), wordsOf_cons, List.getD_append _ _ _ _ hin]
      split
      · rename_i heq
        subst heq
        rw [hold i (by omega), List.getD_append _ _ _ _ hin]
      · rw [Memory.writeList_read_in h a n hin (by omega)]
        rfl
    · have hp : a + i = a + n.length + (i - n.length) := by omega
      rw [hp, ih hw (a + n.length) (by omega) (by omega) ?_, wordsOf_cons,
        List.getD_append_right _ _ _ _ (by omega)]
      intro j hj
      have h1 := hold (o.length + j) (by omega)
      rw [List.getD_append_right _ _ _ _ (by omega), Nat.add_sub_cancel_left] at h1
      rw [← h1, ← hlen]
      have h2 : a + (o.length + j) = a + o.length + j := by omega
      rw [h2]
      split
      · rfl
      · rw [Memory.writeList_read_out _ _ _ (by omega)]

end Sys2Proof.Machine
end

