-- ==== Sys2Proof/Laws/State.lean ====
section
/-! SUPPORT. What each update of the state leaves alone: one lemma for each field and each update, so that no later proof
unfolds a record update; and the reads of the records that come in several copies, after their updates. -/

namespace Sys2Proof.Machine

/-! ### raise -/

@[simp] theorem raise_pending (c : Cause) (s : State) : (raise c s).pending = s.pending := rfl
@[simp] theorem raise_draws (c : Cause) (s : State) : (raise c s).draws = s.draws := rfl
@[simp] theorem raise_phase (c : Cause) (s : State) : (raise c s).phase = s.phase := rfl
@[simp] theorem raise_now (c : Cause) (s : State) : (raise c s).now = s.now := rfl
@[simp] theorem raise_mem (c : Cause) (s : State) : (raise c s).mem = s.mem := rfl
@[simp] theorem raise_port (c : Cause) (s : State) : (raise c s).port = s.port := rfl
@[simp] theorem raise_intEn (c : Cause) (s : State) : (raise c s).intEn = s.intEn := rfl
@[simp] theorem raise_hpar (c : Cause) (s : State) : (raise c s).hpar = s.hpar := rfl
@[simp] theorem raise_access (c : Cause) (s : State) : (raise c s).access = s.access := rfl
@[simp] theorem raise_parity (c : Cause) (s : State) : (raise c s).parity = s.parity := rfl
@[simp] theorem raise_exchD (c : Cause) (s : State) : (raise c s).exchD = s.exchD := rfl
@[simp] theorem raise_exchP1 (c : Cause) (s : State) : (raise c s).exchP1 = s.exchP1 := rfl
@[simp] theorem raise_exchP2 (c : Cause) (s : State) : (raise c s).exchP2 = s.exchP2 := rfl
@[simp] theorem raise_drum (c : Cause) (s : State) : (raise c s).drum = s.drum := rfl
@[simp] theorem raise_pump1 (c : Cause) (s : State) : (raise c s).pump1 = s.pump1 := rfl
@[simp] theorem raise_pump2 (c : Cause) (s : State) : (raise c s).pump2 = s.pump2 := rfl
@[simp] theorem raise_arb (c : Cause) (s : State) : (raise c s).arb = s.arb := rfl
@[simp] theorem raise_calA (c : Cause) (s : State) : (raise c s).calA = s.calA := rfl
@[simp] theorem raise_calB (c : Cause) (s : State) : (raise c s).calB = s.calB := rfl
@[simp] theorem raise_lpr (c : Cause) (s : State) : (raise c s).lpr = s.lpr := rfl
@[simp] theorem raise_trm (c : Cause) (s : State) : (raise c s).trm = s.trm := rfl
@[simp] theorem raise_gcu (c : Cause) (s : State) : (raise c s).gcu = s.gcu := rfl
@[simp] theorem raise_intPend (c : Cause) (s : State) : (raise c s).intPend = s.intPend ||| c.mask := rfl
@[simp] theorem raise_exch (c : Cause) (s : State) (c' : Channel) : (raise c s).exch c' = s.exch c' := by cases c' <;> rfl
@[simp] theorem raise_pump (c : Cause) (s : State) (q : PumpId) : (raise c s).pump q = s.pump q := by cases q <;> rfl
@[simp] theorem raise_cal (c : Cause) (s : State) (v' : Conv) : (raise c s).cal v' = s.cal v' := by cases v' <;> rfl
@[simp] theorem raise_inFlight (c : Cause) (s : State) (v' : Conv) : (raise c s).inFlight v' = s.inFlight v' := by cases v' <;> rfl
@[simp] theorem raise_cfg (c : Cause) (s : State) : cfg (raise c s) = cfg s := rfl

/-! ### putWord -/

@[simp] theorem putWord_pending (a : Nat) (v : Word) (s : State) : (putWord a v s).pending = s.pending := rfl
@[simp] theorem putWord_draws (a : Nat) (v : Word) (s : State) : (putWord a v s).draws = s.draws := rfl
@[simp] theorem putWord_phase (a : Nat) (v : Word) (s : State) : (putWord a v s).phase = s.phase := rfl
@[simp] theorem putWord_now (a : Nat) (v : Word) (s : State) : (putWord a v s).now = s.now := rfl
@[simp] theorem putWord_port (a : Nat) (v : Word) (s : State) : (putWord a v s).port = s.port := rfl
@[simp] theorem putWord_intPend (a : Nat) (v : Word) (s : State) : (putWord a v s).intPend = s.intPend := rfl
@[simp] theorem putWord_intEn (a : Nat) (v : Word) (s : State) : (putWord a v s).intEn = s.intEn := rfl
@[simp] theorem putWord_hpar (a : Nat) (v : Word) (s : State) : (putWord a v s).hpar = s.hpar := rfl
@[simp] theorem putWord_access (a : Nat) (v : Word) (s : State) : (putWord a v s).access = s.access := rfl
@[simp] theorem putWord_parity (a : Nat) (v : Word) (s : State) : (putWord a v s).parity = s.parity := rfl
@[simp] theorem putWord_exchD (a : Nat) (v : Word) (s : State) : (putWord a v s).exchD = s.exchD := rfl
@[simp] theorem putWord_exchP1 (a : Nat) (v : Word) (s : State) : (putWord a v s).exchP1 = s.exchP1 := rfl
@[simp] theorem putWord_exchP2 (a : Nat) (v : Word) (s : State) : (putWord a v s).exchP2 = s.exchP2 := rfl
@[simp] theorem putWord_drum (a : Nat) (v : Word) (s : State) : (putWord a v s).drum = s.drum := rfl
@[simp] theorem putWord_pump1 (a : Nat) (v : Word) (s : State) : (putWord a v s).pump1 = s.pump1 := rfl
@[simp] theorem putWord_pump2 (a : Nat) (v : Word) (s : State) : (putWord a v s).pump2 = s.pump2 := rfl
@[simp] theorem putWord_arb (a : Nat) (v : Word) (s : State) : (putWord a v s).arb = s.arb := rfl
@[simp] theorem putWord_calA (a : Nat) (v : Word) (s : State) : (putWord a v s).calA = s.calA := rfl
@[simp] theorem putWord_calB (a : Nat) (v : Word) (s : State) : (putWord a v s).calB = s.calB := rfl
@[simp] theorem putWord_lpr (a : Nat) (v : Word) (s : State) : (putWord a v s).lpr = s.lpr := rfl
@[simp] theorem putWord_trm (a : Nat) (v : Word) (s : State) : (putWord a v s).trm = s.trm := rfl
@[simp] theorem putWord_gcu (a : Nat) (v : Word) (s : State) : (putWord a v s).gcu = s.gcu := rfl
@[simp] theorem putWord_mem (a : Nat) (v : Word) (s : State) : (putWord a v s).mem = s.mem.write a v := rfl
@[simp] theorem putWord_exch (a : Nat) (v : Word) (s : State) (c' : Channel) : (putWord a v s).exch c' = s.exch c' := by cases c' <;> rfl
@[simp] theorem putWord_pump (a : Nat) (v : Word) (s : State) (q : PumpId) : (putWord a v s).pump q = s.pump q := by cases q <;> rfl
@[simp] theorem putWord_cal (a : Nat) (v : Word) (s : State) (v' : Conv) : (putWord a v s).cal v' = s.cal v' := by cases v' <;> rfl
@[simp] theorem putWord_inFlight (a : Nat) (v : Word) (s : State) (v' : Conv) : (putWord a v s).inFlight v' = s.inFlight v' := by cases v' <;> rfl
@[simp] theorem putWord_cfg (a : Nat) (v : Word) (s : State) : cfg (putWord a v s) = cfg s := rfl

/-! ### putWords -/

@[simp] theorem putWords_pending (a : Nat) (ws : List Word) (s : State) : (putWords a ws s).pending = s.pending := rfl
@[simp] theorem putWords_draws (a : Nat) (ws : List Word) (s : State) : (putWords a ws s).draws = s.draws := rfl
@[simp] theorem putWords_phase (a : Nat) (ws : List Word) (s : State) : (putWords a ws s).phase = s.phase := rfl
@[simp] theorem putWords_now (a : Nat) (ws : List Word) (s : State) : (putWords a ws s).now = s.now := rfl
@[simp] theorem putWords_port (a : Nat) (ws : List Word) (s : State) : (putWords a ws s).port = s.port := rfl
@[simp] theorem putWords_intPend (a : Nat) (ws : List Word) (s : State) : (putWords a ws s).intPend = s.intPend := rfl
@[simp] theorem putWords_intEn (a : Nat) (ws : List Word) (s : State) : (putWords a ws s).intEn = s.intEn := rfl
@[simp] theorem putWords_hpar (a : Nat) (ws : List Word) (s : State) : (putWords a ws s).hpar = s.hpar := rfl
@[simp] theorem putWords_access (a : Nat) (ws : List Word) (s : State) : (putWords a ws s).access = s.access := rfl
@[simp] theorem putWords_parity (a : Nat) (ws : List Word) (s : State) : (putWords a ws s).parity = s.parity := rfl
@[simp] theorem putWords_exchD (a : Nat) (ws : List Word) (s : State) : (putWords a ws s).exchD = s.exchD := rfl
@[simp] theorem putWords_exchP1 (a : Nat) (ws : List Word) (s : State) : (putWords a ws s).exchP1 = s.exchP1 := rfl
@[simp] theorem putWords_exchP2 (a : Nat) (ws : List Word) (s : State) : (putWords a ws s).exchP2 = s.exchP2 := rfl
@[simp] theorem putWords_drum (a : Nat) (ws : List Word) (s : State) : (putWords a ws s).drum = s.drum := rfl
@[simp] theorem putWords_pump1 (a : Nat) (ws : List Word) (s : State) : (putWords a ws s).pump1 = s.pump1 := rfl
@[simp] theorem putWords_pump2 (a : Nat) (ws : List Word) (s : State) : (putWords a ws s).pump2 = s.pump2 := rfl
@[simp] theorem putWords_arb (a : Nat) (ws : List Word) (s : State) : (putWords a ws s).arb = s.arb := rfl
@[simp] theorem putWords_calA (a : Nat) (ws : List Word) (s : State) : (putWords a ws s).calA = s.calA := rfl
@[simp] theorem putWords_calB (a : Nat) (ws : List Word) (s : State) : (putWords a ws s).calB = s.calB := rfl
@[simp] theorem putWords_lpr (a : Nat) (ws : List Word) (s : State) : (putWords a ws s).lpr = s.lpr := rfl
@[simp] theorem putWords_trm (a : Nat) (ws : List Word) (s : State) : (putWords a ws s).trm = s.trm := rfl
@[simp] theorem putWords_gcu (a : Nat) (ws : List Word) (s : State) : (putWords a ws s).gcu = s.gcu := rfl
@[simp] theorem putWords_mem (a : Nat) (ws : List Word) (s : State) : (putWords a ws s).mem = s.mem.writeList a ws := rfl
@[simp] theorem putWords_exch (a : Nat) (ws : List Word) (s : State) (c' : Channel) : (putWords a ws s).exch c' = s.exch c' := by cases c' <;> rfl
@[simp] theorem putWords_pump (a : Nat) (ws : List Word) (s : State) (q : PumpId) : (putWords a ws s).pump q = s.pump q := by cases q <;> rfl
@[simp] theorem putWords_cal (a : Nat) (ws : List Word) (s : State) (v' : Conv) : (putWords a ws s).cal v' = s.cal v' := by cases v' <;> rfl
@[simp] theorem putWords_inFlight (a : Nat) (ws : List Word) (s : State) (v' : Conv) : (putWords a ws s).inFlight v' = s.inFlight v' := by cases v' <;> rfl
@[simp] theorem putWords_cfg (a : Nat) (ws : List Word) (s : State) : cfg (putWords a ws s) = cfg s := rfl

/-! ### showWords -/

@[simp] theorem showWords_pending (a : Nat) (old new : List (List Word)) (s : State) : (showWords a old new s).pending = s.pending := rfl
@[simp] theorem showWords_draws (a : Nat) (old new : List (List Word)) (s : State) : (showWords a old new s).draws = s.draws := rfl
@[simp] theorem showWords_phase (a : Nat) (old new : List (List Word)) (s : State) : (showWords a old new s).phase = s.phase := rfl
@[simp] theorem showWords_now (a : Nat) (old new : List (List Word)) (s : State) : (showWords a old new s).now = s.now := rfl
@[simp] theorem showWords_port (a : Nat) (old new : List (List Word)) (s : State) : (showWords a old new s).port = s.port := rfl
@[simp] theorem showWords_intPend (a : Nat) (old new : List (List Word)) (s : State) : (showWords a old new s).intPend = s.intPend := rfl
@[simp] theorem showWords_intEn (a : Nat) (old new : List (List Word)) (s : State) : (showWords a old new s).intEn = s.intEn := rfl
@[simp] theorem showWords_hpar (a : Nat) (old new : List (List Word)) (s : State) : (showWords a old new s).hpar = s.hpar := rfl
@[simp] theorem showWords_access (a : Nat) (old new : List (List Word)) (s : State) : (showWords a old new s).access = s.access := rfl
@[simp] theorem showWords_parity (a : Nat) (old new : List (List Word)) (s : State) : (showWords a old new s).parity = s.parity := rfl
@[simp] theorem showWords_exchD (a : Nat) (old new : List (List Word)) (s : State) : (showWords a old new s).exchD = s.exchD := rfl
@[simp] theorem showWords_exchP1 (a : Nat) (old new : List (List Word)) (s : State) : (showWords a old new s).exchP1 = s.exchP1 := rfl
@[simp] theorem showWords_exchP2 (a : Nat) (old new : List (List Word)) (s : State) : (showWords a old new s).exchP2 = s.exchP2 := rfl
@[simp] theorem showWords_drum (a : Nat) (old new : List (List Word)) (s : State) : (showWords a old new s).drum = s.drum := rfl
@[simp] theorem showWords_pump1 (a : Nat) (old new : List (List Word)) (s : State) : (showWords a old new s).pump1 = s.pump1 := rfl
@[simp] theorem showWords_pump2 (a : Nat) (old new : List (List Word)) (s : State) : (showWords a old new s).pump2 = s.pump2 := rfl
@[simp] theorem showWords_arb (a : Nat) (old new : List (List Word)) (s : State) : (showWords a old new s).arb = s.arb := rfl
@[simp] theorem showWords_calA (a : Nat) (old new : List (List Word)) (s : State) : (showWords a old new s).calA = s.calA := rfl
@[simp] theorem showWords_calB (a : Nat) (old new : List (List Word)) (s : State) : (showWords a old new s).calB = s.calB := rfl
@[simp] theorem showWords_lpr (a : Nat) (old new : List (List Word)) (s : State) : (showWords a old new s).lpr = s.lpr := rfl
@[simp] theorem showWords_trm (a : Nat) (old new : List (List Word)) (s : State) : (showWords a old new s).trm = s.trm := rfl
@[simp] theorem showWords_gcu (a : Nat) (old new : List (List Word)) (s : State) : (showWords a old new s).gcu = s.gcu := rfl
@[simp] theorem showWords_mem (a : Nat) (old new : List (List Word)) (s : State) : (showWords a old new s).mem = s.mem.writeChanged a old new := rfl
@[simp] theorem showWords_exch (a : Nat) (old new : List (List Word)) (s : State) (c' : Channel) : (showWords a old new s).exch c' = s.exch c' := by cases c' <;> rfl
@[simp] theorem showWords_pump (a : Nat) (old new : List (List Word)) (s : State) (q : PumpId) : (showWords a old new s).pump q = s.pump q := by cases q <;> rfl
@[simp] theorem showWords_cal (a : Nat) (old new : List (List Word)) (s : State) (v' : Conv) : (showWords a old new s).cal v' = s.cal v' := by cases v' <;> rfl
@[simp] theorem showWords_inFlight (a : Nat) (old new : List (List Word)) (s : State) (v' : Conv) : (showWords a old new s).inFlight v' = s.inFlight v' := by cases v' <;> rfl
@[simp] theorem showWords_cfg (a : Nat) (old new : List (List Word)) (s : State) : cfg (showWords a old new s) = cfg s := rfl

/-! ### setExch -/

@[simp] theorem setExch_pending (s : State) (ch : Channel) (e : Exchange) : (s.setExch ch e).pending = s.pending := by cases ch <;> rfl
@[simp] theorem setExch_draws (s : State) (ch : Channel) (e : Exchange) : (s.setExch ch e).draws = s.draws := by cases ch <;> rfl
@[simp] theorem setExch_phase (s : State) (ch : Channel) (e : Exchange) : (s.setExch ch e).phase = s.phase := by cases ch <;> rfl
@[simp] theorem setExch_now (s : State) (ch : Channel) (e : Exchange) : (s.setExch ch e).now = s.now := by cases ch <;> rfl
@[simp] theorem setExch_mem (s : State) (ch : Channel) (e : Exchange) : (s.setExch ch e).mem = s.mem := by cases ch <;> rfl
@[simp] theorem setExch_port (s : State) (ch : Channel) (e : Exchange) : (s.setExch ch e).port = s.port := by cases ch <;> rfl
@[simp] theorem setExch_intPend (s : State) (ch : Channel) (e : Exchange) : (s.setExch ch e).intPend = s.intPend := by cases ch <;> rfl
@[simp] theorem setExch_intEn (s : State) (ch : Channel) (e : Exchange) : (s.setExch ch e).intEn = s.intEn := by cases ch <;> rfl
@[simp] theorem setExch_hpar (s : State) (ch : Channel) (e : Exchange) : (s.setExch ch e).hpar = s.hpar := by cases ch <;> rfl
@[simp] theorem setExch_access (s : State) (ch : Channel) (e : Exchange) : (s.setExch ch e).access = s.access := by cases ch <;> rfl
@[simp] theorem setExch_parity (s : State) (ch : Channel) (e : Exchange) : (s.setExch ch e).parity = s.parity := by cases ch <;> rfl
@[simp] theorem setExch_drum (s : State) (ch : Channel) (e : Exchange) : (s.setExch ch e).drum = s.drum := by cases ch <;> rfl
@[simp] theorem setExch_pump1 (s : State) (ch : Channel) (e : Exchange) : (s.setExch ch e).pump1 = s.pump1 := by cases ch <;> rfl
@[simp] theorem setExch_pump2 (s : State) (ch : Channel) (e : Exchange) : (s.setExch ch e).pump2 = s.pump2 := by cases ch <;> rfl
@[simp] theorem setExch_arb (s : State) (ch : Channel) (e : Exchange) : (s.setExch ch e).arb = s.arb := by cases ch <;> rfl
@[simp] theorem setExch_calA (s : State) (ch : Channel) (e : Exchange) : (s.setExch ch e).calA = s.calA := by cases ch <;> rfl
@[simp] theorem setExch_calB (s : State) (ch : Channel) (e : Exchange) : (s.setExch ch e).calB = s.calB := by cases ch <;> rfl
@[simp] theorem setExch_lpr (s : State) (ch : Channel) (e : Exchange) : (s.setExch ch e).lpr = s.lpr := by cases ch <;> rfl
@[simp] theorem setExch_trm (s : State) (ch : Channel) (e : Exchange) : (s.setExch ch e).trm = s.trm := by cases ch <;> rfl
@[simp] theorem setExch_gcu (s : State) (ch : Channel) (e : Exchange) : (s.setExch ch e).gcu = s.gcu := by cases ch <;> rfl
@[simp] theorem setExch_pump (s : State) (ch : Channel) (e : Exchange) (q : PumpId) : (s.setExch ch e).pump q = s.pump q := by cases q <;> cases ch <;> rfl
@[simp] theorem setExch_cal (s : State) (ch : Channel) (e : Exchange) (v' : Conv) : (s.setExch ch e).cal v' = s.cal v' := by cases v' <;> cases ch <;> rfl
@[simp] theorem setExch_inFlight (s : State) (ch : Channel) (e : Exchange) (v' : Conv) : (s.setExch ch e).inFlight v' = s.inFlight v' := by cases v' <;> cases ch <;> rfl
@[simp] theorem setExch_cfg (s : State) (ch : Channel) (e : Exchange) : cfg (s.setExch ch e) = cfg s := by cases ch <;> rfl

/-! ### setPump -/

@[simp] theorem setPump_pending (s : State) (p : PumpId) (x : Pump) : (s.setPump p x).pending = s.pending := by cases p <;> rfl
@[simp] theorem setPump_draws (s : State) (p : PumpId) (x : Pump) : (s.setPump p x).draws = s.draws := by cases p <;> rfl
@[simp] theorem setPump_phase (s : State) (p : PumpId) (x : Pump) : (s.setPump p x).phase = s.phase := by cases p <;> rfl
@[simp] theorem setPump_now (s : State) (p : PumpId) (x : Pump) : (s.setPump p x).now = s.now := by cases p <;> rfl
@[simp] theorem setPump_mem (s : State) (p : PumpId) (x : Pump) : (s.setPump p x).mem = s.mem := by cases p <;> rfl
@[simp] theorem setPump_port (s : State) (p : PumpId) (x : Pump) : (s.setPump p x).port = s.port := by cases p <;> rfl
@[simp] theorem setPump_intPend (s : State) (p : PumpId) (x : Pump) : (s.setPump p x).intPend = s.intPend := by cases p <;> rfl
@[simp] theorem setPump_intEn (s : State) (p : PumpId) (x : Pump) : (s.setPump p x).intEn = s.intEn := by cases p <;> rfl
@[simp] theorem setPump_hpar (s : State) (p : PumpId) (x : Pump) : (s.setPump p x).hpar = s.hpar := by cases p <;> rfl
@[simp] theorem setPump_access (s : State) (p : PumpId) (x : Pump) : (s.setPump p x).access = s.access := by cases p <;> rfl
@[simp] theorem setPump_parity (s : State) (p : PumpId) (x : Pump) : (s.setPump p x).parity = s.parity := by cases p <;> rfl
@[simp] theorem setPump_exchD (s : State) (p : PumpId) (x : Pump) : (s.setPump p x).exchD = s.exchD := by cases p <;> rfl
@[simp] theorem setPump_exchP1 (s : State) (p : PumpId) (x : Pump) : (s.setPump p x).exchP1 = s.exchP1 := by cases p <;> rfl
@[simp] theorem setPump_exchP2 (s : State) (p : PumpId) (x : Pump) : (s.setPump p x).exchP2 = s.exchP2 := by cases p <;> rfl
@[simp] theorem setPump_drum (s : State) (p : PumpId) (x : Pump) : (s.setPump p x).drum = s.drum := by cases p <;> rfl
@[simp] theorem setPump_arb (s : State) (p : PumpId) (x : Pump) : (s.setPump p x).arb = s.arb := by cases p <;> rfl
@[simp] theorem setPump_calA (s : State) (p : PumpId) (x : Pump) : (s.setPump p x).calA = s.calA := by cases p <;> rfl
@[simp] theorem setPump_calB (s : State) (p : PumpId) (x : Pump) : (s.setPump p x).calB = s.calB := by cases p <;> rfl
@[simp] theorem setPump_lpr (s : State) (p : PumpId) (x : Pump) : (s.setPump p x).lpr = s.lpr := by cases p <;> rfl
@[simp] theorem setPump_trm (s : State) (p : PumpId) (x : Pump) : (s.setPump p x).trm = s.trm := by cases p <;> rfl
@[simp] theorem setPump_gcu (s : State) (p : PumpId) (x : Pump) : (s.setPump p x).gcu = s.gcu := by cases p <;> rfl
@[simp] theorem setPump_exch (s : State) (p : PumpId) (x : Pump) (c' : Channel) : (s.setPump p x).exch c' = s.exch c' := by cases c' <;> cases p <;> rfl
@[simp] theorem setPump_cal (s : State) (p : PumpId) (x : Pump) (v' : Conv) : (s.setPump p x).cal v' = s.cal v' := by cases v' <;> cases p <;> rfl
@[simp] theorem setPump_inFlight (s : State) (p : PumpId) (x : Pump) (v' : Conv) : (s.setPump p x).inFlight v' = s.inFlight v' := by cases v' <;> cases p <;> rfl
@[simp] theorem setPump_cfg (s : State) (p : PumpId) (x : Pump) : cfg (s.setPump p x) = cfg s := by cases p <;> rfl

/-! ### setCal -/

@[simp] theorem setCal_pending (s : State) (cv : Conv) (r : CalRecord) : (s.setCal cv r).pending = s.pending := by cases cv <;> rfl
@[simp] theorem setCal_draws (s : State) (cv : Conv) (r : CalRecord) : (s.setCal cv r).draws = s.draws := by cases cv <;> rfl
@[simp] theorem setCal_phase (s : State) (cv : Conv) (r : CalRecord) : (s.setCal cv r).phase = s.phase := by cases cv <;> rfl
@[simp] theorem setCal_now (s : State) (cv : Conv) (r : CalRecord) : (s.setCal cv r).now = s.now := by cases cv <;> rfl
@[simp] theorem setCal_mem (s : State) (cv : Conv) (r : CalRecord) : (s.setCal cv r).mem = s.mem := by cases cv <;> rfl
@[simp] theorem setCal_port (s : State) (cv : Conv) (r : CalRecord) : (s.setCal cv r).port = s.port := by cases cv <;> rfl
@[simp] theorem setCal_intPend (s : State) (cv : Conv) (r : CalRecord) : (s.setCal cv r).intPend = s.intPend := by cases cv <;> rfl
@[simp] theorem setCal_intEn (s : State) (cv : Conv) (r : CalRecord) : (s.setCal cv r).intEn = s.intEn := by cases cv <;> rfl
@[simp] theorem setCal_hpar (s : State) (cv : Conv) (r : CalRecord) : (s.setCal cv r).hpar = s.hpar := by cases cv <;> rfl
@[simp] theorem setCal_access (s : State) (cv : Conv) (r : CalRecord) : (s.setCal cv r).access = s.access := by cases cv <;> rfl
@[simp] theorem setCal_parity (s : State) (cv : Conv) (r : CalRecord) : (s.setCal cv r).parity = s.parity := by cases cv <;> rfl
@[simp] theorem setCal_exchD (s : State) (cv : Conv) (r : CalRecord) : (s.setCal cv r).exchD = s.exchD := by cases cv <;> rfl
@[simp] theorem setCal_exchP1 (s : State) (cv : Conv) (r : CalRecord) : (s.setCal cv r).exchP1 = s.exchP1 := by cases cv <;> rfl
@[simp] theorem setCal_exchP2 (s : State) (cv : Conv) (r : CalRecord) : (s.setCal cv r).exchP2 = s.exchP2 := by cases cv <;> rfl
@[simp] theorem setCal_drum (s : State) (cv : Conv) (r : CalRecord) : (s.setCal cv r).drum = s.drum := by cases cv <;> rfl
@[simp] theorem setCal_pump1 (s : State) (cv : Conv) (r : CalRecord) : (s.setCal cv r).pump1 = s.pump1 := by cases cv <;> rfl
@[simp] theorem setCal_pump2 (s : State) (cv : Conv) (r : CalRecord) : (s.setCal cv r).pump2 = s.pump2 := by cases cv <;> rfl
@[simp] theorem setCal_arb (s : State) (cv : Conv) (r : CalRecord) : (s.setCal cv r).arb = s.arb := by cases cv <;> rfl
@[simp] theorem setCal_lpr (s : State) (cv : Conv) (r : CalRecord) : (s.setCal cv r).lpr = s.lpr := by cases cv <;> rfl
@[simp] theorem setCal_trm (s : State) (cv : Conv) (r : CalRecord) : (s.setCal cv r).trm = s.trm := by cases cv <;> rfl
@[simp] theorem setCal_gcu (s : State) (cv : Conv) (r : CalRecord) : (s.setCal cv r).gcu = s.gcu := by cases cv <;> rfl
@[simp] theorem setCal_exch (s : State) (cv : Conv) (r : CalRecord) (c' : Channel) : (s.setCal cv r).exch c' = s.exch c' := by cases c' <;> cases cv <;> rfl
@[simp] theorem setCal_pump (s : State) (cv : Conv) (r : CalRecord) (q : PumpId) : (s.setCal cv r).pump q = s.pump q := by cases q <;> cases cv <;> rfl
@[simp] theorem setCal_inFlight (s : State) (cv : Conv) (r : CalRecord) (v' : Conv) : (s.setCal cv r).inFlight v' = s.inFlight v' := by cases v' <;> cases cv <;> rfl
@[simp] theorem setCal_cfg (s : State) (cv : Conv) (r : CalRecord) : cfg (s.setCal cv r) = cfg s := by cases cv <;> rfl

/-! ### modExch -/

@[simp] theorem modExch_pending (ch : Channel) (f : Exchange → Exchange) (s : State) : (modExch ch f s).pending = s.pending := by cases ch <;> rfl
@[simp] theorem modExch_draws (ch : Channel) (f : Exchange → Exchange) (s : State) : (modExch ch f s).draws = s.draws := by cases ch <;> rfl
@[simp] theorem modExch_phase (ch : Channel) (f : Exchange → Exchange) (s : State) : (modExch ch f s).phase = s.phase := by cases ch <;> rfl
@[simp] theorem modExch_now (ch : Channel) (f : Exchange → Exchange) (s : State) : (modExch ch f s).now = s.now := by cases ch <;> rfl
@[simp] theorem modExch_port (ch : Channel) (f : Exchange → Exchange) (s : State) : (modExch ch f s).port = s.port := by cases ch <;> rfl
@[simp] theorem modExch_intPend (ch : Channel) (f : Exchange → Exchange) (s : State) : (modExch ch f s).intPend = s.intPend := by cases ch <;> rfl
@[simp] theorem modExch_intEn (ch : Channel) (f : Exchange → Exchange) (s : State) : (modExch ch f s).intEn = s.intEn := by cases ch <;> rfl
@[simp] theorem modExch_hpar (ch : Channel) (f : Exchange → Exchange) (s : State) : (modExch ch f s).hpar = s.hpar := by cases ch <;> rfl
@[simp] theorem modExch_access (ch : Channel) (f : Exchange → Exchange) (s : State) : (modExch ch f s).access = s.access := by cases ch <;> rfl
@[simp] theorem modExch_parity (ch : Channel) (f : Exchange → Exchange) (s : State) : (modExch ch f s).parity = s.parity := by cases ch <;> rfl
@[simp] theorem modExch_drum (ch : Channel) (f : Exchange → Exchange) (s : State) : (modExch ch f s).drum = s.drum := by cases ch <;> rfl
@[simp] theorem modExch_pump1 (ch : Channel) (f : Exchange → Exchange) (s : State) : (modExch ch f s).pump1 = s.pump1 := by cases ch <;> rfl
@[simp] theorem modExch_pump2 (ch : Channel) (f : Exchange → Exchange) (s : State) : (modExch ch f s).pump2 = s.pump2 := by cases ch <;> rfl
@[simp] theorem modExch_arb (ch : Channel) (f : Exchange → Exchange) (s : State) : (modExch ch f s).arb = s.arb := by cases ch <;> rfl
@[simp] theorem modExch_calA (ch : Channel) (f : Exchange → Exchange) (s : State) : (modExch ch f s).calA = s.calA := by cases ch <;> rfl
@[simp] theorem modExch_calB (ch : Channel) (f : Exchange → Exchange) (s : State) : (modExch ch f s).calB = s.calB := by cases ch <;> rfl
@[simp] theorem modExch_lpr (ch : Channel) (f : Exchange → Exchange) (s : State) : (modExch ch f s).lpr = s.lpr := by cases ch <;> rfl
@[simp] theorem modExch_trm (ch : Channel) (f : Exchange → Exchange) (s : State) : (modExch ch f s).trm = s.trm := by cases ch <;> rfl
@[simp] theorem modExch_gcu (ch : Channel) (f : Exchange → Exchange) (s : State) : (modExch ch f s).gcu = s.gcu := by cases ch <;> rfl
@[simp] theorem modExch_pump (ch : Channel) (f : Exchange → Exchange) (s : State) (q : PumpId) : (modExch ch f s).pump q = s.pump q := by cases q <;> cases ch <;> rfl
@[simp] theorem modExch_cal (ch : Channel) (f : Exchange → Exchange) (s : State) (v' : Conv) : (modExch ch f s).cal v' = s.cal v' := by cases v' <;> cases ch <;> rfl
@[simp] theorem modExch_inFlight (ch : Channel) (f : Exchange → Exchange) (s : State) (v' : Conv) : (modExch ch f s).inFlight v' = s.inFlight v' := by cases v' <;> cases ch <;> rfl
@[simp] theorem modExch_cfg (ch : Channel) (f : Exchange → Exchange) (s : State) : cfg (modExch ch f s) = cfg s := by cases ch <;> rfl

/-! ### modDrum -/

@[simp] theorem modDrum_pending (f : Drum → Drum) (s : State) : (modDrum f s).pending = s.pending := rfl
@[simp] theorem modDrum_draws (f : Drum → Drum) (s : State) : (modDrum f s).draws = s.draws := rfl
@[simp] theorem modDrum_phase (f : Drum → Drum) (s : State) : (modDrum f s).phase = s.phase := rfl
@[simp] theorem modDrum_now (f : Drum → Drum) (s : State) : (modDrum f s).now = s.now := rfl
@[simp] theorem modDrum_port (f : Drum → Drum) (s : State) : (modDrum f s).port = s.port := rfl
@[simp] theorem modDrum_intPend (f : Drum → Drum) (s : State) : (modDrum f s).intPend = s.intPend := rfl
@[simp] theorem modDrum_intEn (f : Drum → Drum) (s : State) : (modDrum f s).intEn = s.intEn := rfl
@[simp] theorem modDrum_hpar (f : Drum → Drum) (s : State) : (modDrum f s).hpar = s.hpar := rfl
@[simp] theorem modDrum_access (f : Drum → Drum) (s : State) : (modDrum f s).access = s.access := rfl
@[simp] theorem modDrum_parity (f : Drum → Drum) (s : State) : (modDrum f s).parity = s.parity := rfl
@[simp] theorem modDrum_exchD (f : Drum → Drum) (s : State) : (modDrum f s).exchD = s.exchD := rfl
@[simp] theorem modDrum_exchP1 (f : Drum → Drum) (s : State) : (modDrum f s).exchP1 = s.exchP1 := rfl
@[simp] theorem modDrum_exchP2 (f : Drum → Drum) (s : State) : (modDrum f s).exchP2 = s.exchP2 := rfl
@[simp] theorem modDrum_pump1 (f : Drum → Drum) (s : State) : (modDrum f s).pump1 = s.pump1 := rfl
@[simp] theorem modDrum_pump2 (f : Drum → Drum) (s : State) : (modDrum f s).pump2 = s.pump2 := rfl
@[simp] theorem modDrum_arb (f : Drum → Drum) (s : State) : (modDrum f s).arb = s.arb := rfl
@[simp] theorem modDrum_calA (f : Drum → Drum) (s : State) : (modDrum f s).calA = s.calA := rfl
@[simp] theorem modDrum_calB (f : Drum → Drum) (s : State) : (modDrum f s).calB = s.calB := rfl
@[simp] theorem modDrum_lpr (f : Drum → Drum) (s : State) : (modDrum f s).lpr = s.lpr := rfl
@[simp] theorem modDrum_trm (f : Drum → Drum) (s : State) : (modDrum f s).trm = s.trm := rfl
@[simp] theorem modDrum_gcu (f : Drum → Drum) (s : State) : (modDrum f s).gcu = s.gcu := rfl
@[simp] theorem modDrum_drum (f : Drum → Drum) (s : State) : (modDrum f s).drum = f s.drum := rfl
@[simp] theorem modDrum_exch (f : Drum → Drum) (s : State) (c' : Channel) : (modDrum f s).exch c' = s.exch c' := by cases c' <;> rfl
@[simp] theorem modDrum_pump (f : Drum → Drum) (s : State) (q : PumpId) : (modDrum f s).pump q = s.pump q := by cases q <;> rfl
@[simp] theorem modDrum_cal (f : Drum → Drum) (s : State) (v' : Conv) : (modDrum f s).cal v' = s.cal v' := by cases v' <;> rfl
@[simp] theorem modDrum_inFlight (f : Drum → Drum) (s : State) (v' : Conv) : (modDrum f s).inFlight v' = s.inFlight v' := by cases v' <;> rfl
@[simp] theorem modDrum_cfg (f : Drum → Drum) (s : State) : cfg (modDrum f s) = cfg s := rfl

/-! ### modPump -/

@[simp] theorem modPump_pending (p : PumpId) (f : Pump → Pump) (s : State) : (modPump p f s).pending = s.pending := by cases p <;> rfl
@[simp] theorem modPump_draws (p : PumpId) (f : Pump → Pump) (s : State) : (modPump p f s).draws = s.draws := by cases p <;> rfl
@[simp] theorem modPump_phase (p : PumpId) (f : Pump → Pump) (s : State) : (modPump p f s).phase = s.phase := by cases p <;> rfl
@[simp] theorem modPump_now (p : PumpId) (f : Pump → Pump) (s : State) : (modPump p f s).now = s.now := by cases p <;> rfl
@[simp] theorem modPump_port (p : PumpId) (f : Pump → Pump) (s : State) : (modPump p f s).port = s.port := by cases p <;> rfl
@[simp] theorem modPump_intPend (p : PumpId) (f : Pump → Pump) (s : State) : (modPump p f s).intPend = s.intPend := by cases p <;> rfl
@[simp] theorem modPump_intEn (p : PumpId) (f : Pump → Pump) (s : State) : (modPump p f s).intEn = s.intEn := by cases p <;> rfl
@[simp] theorem modPump_hpar (p : PumpId) (f : Pump → Pump) (s : State) : (modPump p f s).hpar = s.hpar := by cases p <;> rfl
@[simp] theorem modPump_access (p : PumpId) (f : Pump → Pump) (s : State) : (modPump p f s).access = s.access := by cases p <;> rfl
@[simp] theorem modPump_parity (p : PumpId) (f : Pump → Pump) (s : State) : (modPump p f s).parity = s.parity := by cases p <;> rfl
@[simp] theorem modPump_exchD (p : PumpId) (f : Pump → Pump) (s : State) : (modPump p f s).exchD = s.exchD := by cases p <;> rfl
@[simp] theorem modPump_exchP1 (p : PumpId) (f : Pump → Pump) (s : State) : (modPump p f s).exchP1 = s.exchP1 := by cases p <;> rfl
@[simp] theorem modPump_exchP2 (p : PumpId) (f : Pump → Pump) (s : State) : (modPump p f s).exchP2 = s.exchP2 := by cases p <;> rfl
@[simp] theorem modPump_drum (p : PumpId) (f : Pump → Pump) (s : State) : (modPump p f s).drum = s.drum := by cases p <;> rfl
@[simp] theorem modPump_arb (p : PumpId) (f : Pump → Pump) (s : State) : (modPump p f s).arb = s.arb := by cases p <;> rfl
@[simp] theorem modPump_calA (p : PumpId) (f : Pump → Pump) (s : State) : (modPump p f s).calA = s.calA := by cases p <;> rfl
@[simp] theorem modPump_calB (p : PumpId) (f : Pump → Pump) (s : State) : (modPump p f s).calB = s.calB := by cases p <;> rfl
@[simp] theorem modPump_lpr (p : PumpId) (f : Pump → Pump) (s : State) : (modPump p f s).lpr = s.lpr := by cases p <;> rfl
@[simp] theorem modPump_trm (p : PumpId) (f : Pump → Pump) (s : State) : (modPump p f s).trm = s.trm := by cases p <;> rfl
@[simp] theorem modPump_gcu (p : PumpId) (f : Pump → Pump) (s : State) : (modPump p f s).gcu = s.gcu := by cases p <;> rfl
@[simp] theorem modPump_exch (p : PumpId) (f : Pump → Pump) (s : State) (c' : Channel) : (modPump p f s).exch c' = s.exch c' := by cases c' <;> cases p <;> rfl
@[simp] theorem modPump_cal (p : PumpId) (f : Pump → Pump) (s : State) (v' : Conv) : (modPump p f s).cal v' = s.cal v' := by cases v' <;> cases p <;> rfl
@[simp] theorem modPump_inFlight (p : PumpId) (f : Pump → Pump) (s : State) (v' : Conv) : (modPump p f s).inFlight v' = s.inFlight v' := by cases v' <;> cases p <;> rfl
@[simp] theorem modPump_cfg (p : PumpId) (f : Pump → Pump) (s : State) : cfg (modPump p f s) = cfg s := by cases p <;> rfl

/-! ### modDrumBank -/

@[simp] theorem modDrumBank_pending (b : Bank) (f : DrumBank → DrumBank) (s : State) : (modDrumBank b f s).pending = s.pending := rfl
@[simp] theorem modDrumBank_draws (b : Bank) (f : DrumBank → DrumBank) (s : State) : (modDrumBank b f s).draws = s.draws := rfl
@[simp] theorem modDrumBank_phase (b : Bank) (f : DrumBank → DrumBank) (s : State) : (modDrumBank b f s).phase = s.phase := rfl
@[simp] theorem modDrumBank_now (b : Bank) (f : DrumBank → DrumBank) (s : State) : (modDrumBank b f s).now = s.now := rfl
@[simp] theorem modDrumBank_port (b : Bank) (f : DrumBank → DrumBank) (s : State) : (modDrumBank b f s).port = s.port := rfl
@[simp] theorem modDrumBank_intPend (b : Bank) (f : DrumBank → DrumBank) (s : State) : (modDrumBank b f s).intPend = s.intPend := rfl
@[simp] theorem modDrumBank_intEn (b : Bank) (f : DrumBank → DrumBank) (s : State) : (modDrumBank b f s).intEn = s.intEn := rfl
@[simp] theorem modDrumBank_hpar (b : Bank) (f : DrumBank → DrumBank) (s : State) : (modDrumBank b f s).hpar = s.hpar := rfl
@[simp] theorem modDrumBank_access (b : Bank) (f : DrumBank → DrumBank) (s : State) : (modDrumBank b f s).access = s.access := rfl
@[simp] theorem modDrumBank_parity (b : Bank) (f : DrumBank → DrumBank) (s : State) : (modDrumBank b f s).parity = s.parity := rfl
@[simp] theorem modDrumBank_exchD (b : Bank) (f : DrumBank → DrumBank) (s : State) : (modDrumBank b f s).exchD = s.exchD := rfl
@[simp] theorem modDrumBank_exchP1 (b : Bank) (f : DrumBank → DrumBank) (s : State) : (modDrumBank b f s).exchP1 = s.exchP1 := rfl
@[simp] theorem modDrumBank_exchP2 (b : Bank) (f : DrumBank → DrumBank) (s : State) : (modDrumBank b f s).exchP2 = s.exchP2 := rfl
@[simp] theorem modDrumBank_pump1 (b : Bank) (f : DrumBank → DrumBank) (s : State) : (modDrumBank b f s).pump1 = s.pump1 := rfl
@[simp] theorem modDrumBank_pump2 (b : Bank) (f : DrumBank → DrumBank) (s : State) : (modDrumBank b f s).pump2 = s.pump2 := rfl
@[simp] theorem modDrumBank_arb (b : Bank) (f : DrumBank → DrumBank) (s : State) : (modDrumBank b f s).arb = s.arb := rfl
@[simp] theorem modDrumBank_calA (b : Bank) (f : DrumBank → DrumBank) (s : State) : (modDrumBank b f s).calA = s.calA := rfl
@[simp] theorem modDrumBank_calB (b : Bank) (f : DrumBank → DrumBank) (s : State) : (modDrumBank b f s).calB = s.calB := rfl
@[simp] theorem modDrumBank_lpr (b : Bank) (f : DrumBank → DrumBank) (s : State) : (modDrumBank b f s).lpr = s.lpr := rfl
@[simp] theorem modDrumBank_trm (b : Bank) (f : DrumBank → DrumBank) (s : State) : (modDrumBank b f s).trm = s.trm := rfl
@[simp] theorem modDrumBank_gcu (b : Bank) (f : DrumBank → DrumBank) (s : State) : (modDrumBank b f s).gcu = s.gcu := rfl
@[simp] theorem modDrumBank_drum (b : Bank) (f : DrumBank → DrumBank) (s : State) : (modDrumBank b f s).drum = s.drum.setBank b (f (s.drum.bank b)) := rfl
@[simp] theorem modDrumBank_exch (b : Bank) (f : DrumBank → DrumBank) (s : State) (c' : Channel) : (modDrumBank b f s).exch c' = s.exch c' := by cases c' <;> rfl
@[simp] theorem modDrumBank_pump (b : Bank) (f : DrumBank → DrumBank) (s : State) (q : PumpId) : (modDrumBank b f s).pump q = s.pump q := by cases q <;> rfl
@[simp] theorem modDrumBank_cal (b : Bank) (f : DrumBank → DrumBank) (s : State) (v' : Conv) : (modDrumBank b f s).cal v' = s.cal v' := by cases v' <;> rfl
@[simp] theorem modDrumBank_inFlight (b : Bank) (f : DrumBank → DrumBank) (s : State) (v' : Conv) : (modDrumBank b f s).inFlight v' = s.inFlight v' := by cases v' <;> rfl
@[simp] theorem modDrumBank_cfg (b : Bank) (f : DrumBank → DrumBank) (s : State) : cfg (modDrumBank b f s) = cfg s := rfl

/-! ### modPumpBank -/

@[simp] theorem modPumpBank_pending (p : PumpId) (b : Bank) (f : PumpBank → PumpBank) (s : State) : (modPumpBank p b f s).pending = s.pending := by cases p <;> rfl
@[simp] theorem modPumpBank_draws (p : PumpId) (b : Bank) (f : PumpBank → PumpBank) (s : State) : (modPumpBank p b f s).draws = s.draws := by cases p <;> rfl
@[simp] theorem modPumpBank_phase (p : PumpId) (b : Bank) (f : PumpBank → PumpBank) (s : State) : (modPumpBank p b f s).phase = s.phase := by cases p <;> rfl
@[simp] theorem modPumpBank_now (p : PumpId) (b : Bank) (f : PumpBank → PumpBank) (s : State) : (modPumpBank p b f s).now = s.now := by cases p <;> rfl
@[simp] theorem modPumpBank_port (p : PumpId) (b : Bank) (f : PumpBank → PumpBank) (s : State) : (modPumpBank p b f s).port = s.port := by cases p <;> rfl
@[simp] theorem modPumpBank_intPend (p : PumpId) (b : Bank) (f : PumpBank → PumpBank) (s : State) : (modPumpBank p b f s).intPend = s.intPend := by cases p <;> rfl
@[simp] theorem modPumpBank_intEn (p : PumpId) (b : Bank) (f : PumpBank → PumpBank) (s : State) : (modPumpBank p b f s).intEn = s.intEn := by cases p <;> rfl
@[simp] theorem modPumpBank_hpar (p : PumpId) (b : Bank) (f : PumpBank → PumpBank) (s : State) : (modPumpBank p b f s).hpar = s.hpar := by cases p <;> rfl
@[simp] theorem modPumpBank_access (p : PumpId) (b : Bank) (f : PumpBank → PumpBank) (s : State) : (modPumpBank p b f s).access = s.access := by cases p <;> rfl
@[simp] theorem modPumpBank_parity (p : PumpId) (b : Bank) (f : PumpBank → PumpBank) (s : State) : (modPumpBank p b f s).parity = s.parity := by cases p <;> rfl
@[simp] theorem modPumpBank_exchD (p : PumpId) (b : Bank) (f : PumpBank → PumpBank) (s : State) : (modPumpBank p b f s).exchD = s.exchD := by cases p <;> rfl
@[simp] theorem modPumpBank_exchP1 (p : PumpId) (b : Bank) (f : PumpBank → PumpBank) (s : State) : (modPumpBank p b f s).exchP1 = s.exchP1 := by cases p <;> rfl
@[simp] theorem modPumpBank_exchP2 (p : PumpId) (b : Bank) (f : PumpBank → PumpBank) (s : State) : (modPumpBank p b f s).exchP2 = s.exchP2 := by cases p <;> rfl
@[simp] theorem modPumpBank_drum (p : PumpId) (b : Bank) (f : PumpBank → PumpBank) (s : State) : (modPumpBank p b f s).drum = s.drum := by cases p <;> rfl
@[simp] theorem modPumpBank_arb (p : PumpId) (b : Bank) (f : PumpBank → PumpBank) (s : State) : (modPumpBank p b f s).arb = s.arb := by cases p <;> rfl
@[simp] theorem modPumpBank_calA (p : PumpId) (b : Bank) (f : PumpBank → PumpBank) (s : State) : (modPumpBank p b f s).calA = s.calA := by cases p <;> rfl
@[simp] theorem modPumpBank_calB (p : PumpId) (b : Bank) (f : PumpBank → PumpBank) (s : State) : (modPumpBank p b f s).calB = s.calB := by cases p <;> rfl
@[simp] theorem modPumpBank_lpr (p : PumpId) (b : Bank) (f : PumpBank → PumpBank) (s : State) : (modPumpBank p b f s).lpr = s.lpr := by cases p <;> rfl
@[simp] theorem modPumpBank_trm (p : PumpId) (b : Bank) (f : PumpBank → PumpBank) (s : State) : (modPumpBank p b f s).trm = s.trm := by cases p <;> rfl
@[simp] theorem modPumpBank_gcu (p : PumpId) (b : Bank) (f : PumpBank → PumpBank) (s : State) : (modPumpBank p b f s).gcu = s.gcu := by cases p <;> rfl
@[simp] theorem modPumpBank_exch (p : PumpId) (b : Bank) (f : PumpBank → PumpBank) (s : State) (c' : Channel) : (modPumpBank p b f s).exch c' = s.exch c' := by cases c' <;> cases p <;> rfl
@[simp] theorem modPumpBank_cal (p : PumpId) (b : Bank) (f : PumpBank → PumpBank) (s : State) (v' : Conv) : (modPumpBank p b f s).cal v' = s.cal v' := by cases v' <;> cases p <;> rfl
@[simp] theorem modPumpBank_inFlight (p : PumpId) (b : Bank) (f : PumpBank → PumpBank) (s : State) (v' : Conv) : (modPumpBank p b f s).inFlight v' = s.inFlight v' := by cases v' <;> cases p <;> rfl
@[simp] theorem modPumpBank_cfg (p : PumpId) (b : Bank) (f : PumpBank → PumpBank) (s : State) : cfg (modPumpBank p b f s) = cfg s := by cases p <;> rfl

/-! ### modCal -/

@[simp] theorem modCal_pending (cv : Conv) (f : CalRecord → CalRecord) (s : State) : (modCal cv f s).pending = s.pending := by cases cv <;> rfl
@[simp] theorem modCal_draws (cv : Conv) (f : CalRecord → CalRecord) (s : State) : (modCal cv f s).draws = s.draws := by cases cv <;> rfl
@[simp] theorem modCal_phase (cv : Conv) (f : CalRecord → CalRecord) (s : State) : (modCal cv f s).phase = s.phase := by cases cv <;> rfl
@[simp] theorem modCal_now (cv : Conv) (f : CalRecord → CalRecord) (s : State) : (modCal cv f s).now = s.now := by cases cv <;> rfl
@[simp] theorem modCal_port (cv : Conv) (f : CalRecord → CalRecord) (s : State) : (modCal cv f s).port = s.port := by cases cv <;> rfl
@[simp] theorem modCal_intPend (cv : Conv) (f : CalRecord → CalRecord) (s : State) : (modCal cv f s).intPend = s.intPend := by cases cv <;> rfl
@[simp] theorem modCal_intEn (cv : Conv) (f : CalRecord → CalRecord) (s : State) : (modCal cv f s).intEn = s.intEn := by cases cv <;> rfl
@[simp] theorem modCal_hpar (cv : Conv) (f : CalRecord → CalRecord) (s : State) : (modCal cv f s).hpar = s.hpar := by cases cv <;> rfl
@[simp] theorem modCal_access (cv : Conv) (f : CalRecord → CalRecord) (s : State) : (modCal cv f s).access = s.access := by cases cv <;> rfl
@[simp] theorem modCal_parity (cv : Conv) (f : CalRecord → CalRecord) (s : State) : (modCal cv f s).parity = s.parity := by cases cv <;> rfl
@[simp] theorem modCal_exchD (cv : Conv) (f : CalRecord → CalRecord) (s : State) : (modCal cv f s).exchD = s.exchD := by cases cv <;> rfl
@[simp] theorem modCal_exchP1 (cv : Conv) (f : CalRecord → CalRecord) (s : State) : (modCal cv f s).exchP1 = s.exchP1 := by cases cv <;> rfl
@[simp] theorem modCal_exchP2 (cv : Conv) (f : CalRecord → CalRecord) (s : State) : (modCal cv f s).exchP2 = s.exchP2 := by cases cv <;> rfl
@[simp] theorem modCal_drum (cv : Conv) (f : CalRecord → CalRecord) (s : State) : (modCal cv f s).drum = s.drum := by cases cv <;> rfl
@[simp] theorem modCal_pump1 (cv : Conv) (f : CalRecord → CalRecord) (s : State) : (modCal cv f s).pump1 = s.pump1 := by cases cv <;> rfl
@[simp] theorem modCal_pump2 (cv : Conv) (f : CalRecord → CalRecord) (s : State) : (modCal cv f s).pump2 = s.pump2 := by cases cv <;> rfl
@[simp] theorem modCal_arb (cv : Conv) (f : CalRecord → CalRecord) (s : State) : (modCal cv f s).arb = s.arb := by cases cv <;> rfl
@[simp] theorem modCal_lpr (cv : Conv) (f : CalRecord → CalRecord) (s : State) : (modCal cv f s).lpr = s.lpr := by cases cv <;> rfl
@[simp] theorem modCal_trm (cv : Conv) (f : CalRecord → CalRecord) (s : State) : (modCal cv f s).trm = s.trm := by cases cv <;> rfl
@[simp] theorem modCal_gcu (cv : Conv) (f : CalRecord → CalRecord) (s : State) : (modCal cv f s).gcu = s.gcu := by cases cv <;> rfl
@[simp] theorem modCal_exch (cv : Conv) (f : CalRecord → CalRecord) (s : State) (c' : Channel) : (modCal cv f s).exch c' = s.exch c' := by cases c' <;> cases cv <;> rfl
@[simp] theorem modCal_pump (cv : Conv) (f : CalRecord → CalRecord) (s : State) (q : PumpId) : (modCal cv f s).pump q = s.pump q := by cases q <;> cases cv <;> rfl
@[simp] theorem modCal_inFlight (cv : Conv) (f : CalRecord → CalRecord) (s : State) (v' : Conv) : (modCal cv f s).inFlight v' = s.inFlight v' := by cases v' <;> cases cv <;> rfl
@[simp] theorem modCal_cfg (cv : Conv) (f : CalRecord → CalRecord) (s : State) : cfg (modCal cv f s) = cfg s := by cases cv <;> rfl

/-! ### modTrm -/

@[simp] theorem modTrm_pending (f : TripMonitor → TripMonitor) (s : State) : (modTrm f s).pending = s.pending := rfl
@[simp] theorem modTrm_draws (f : TripMonitor → TripMonitor) (s : State) : (modTrm f s).draws = s.draws := rfl
@[simp] theorem modTrm_phase (f : TripMonitor → TripMonitor) (s : State) : (modTrm f s).phase = s.phase := rfl
@[simp] theorem modTrm_now (f : TripMonitor → TripMonitor) (s : State) : (modTrm f s).now = s.now := rfl
@[simp] theorem modTrm_port (f : TripMonitor → TripMonitor) (s : State) : (modTrm f s).port = s.port := rfl
@[simp] theorem modTrm_intPend (f : TripMonitor → TripMonitor) (s : State) : (modTrm f s).intPend = s.intPend := rfl
@[simp] theorem modTrm_intEn (f : TripMonitor → TripMonitor) (s : State) : (modTrm f s).intEn = s.intEn := rfl
@[simp] theorem modTrm_hpar (f : TripMonitor → TripMonitor) (s : State) : (modTrm f s).hpar = s.hpar := rfl
@[simp] theorem modTrm_access (f : TripMonitor → TripMonitor) (s : State) : (modTrm f s).access = s.access := rfl
@[simp] theorem modTrm_parity (f : TripMonitor → TripMonitor) (s : State) : (modTrm f s).parity = s.parity := rfl
@[simp] theorem modTrm_exchD (f : TripMonitor → TripMonitor) (s : State) : (modTrm f s).exchD = s.exchD := rfl
@[simp] theorem modTrm_exchP1 (f : TripMonitor → TripMonitor) (s : State) : (modTrm f s).exchP1 = s.exchP1 := rfl
@[simp] theorem modTrm_exchP2 (f : TripMonitor → TripMonitor) (s : State) : (modTrm f s).exchP2 = s.exchP2 := rfl
@[simp] theorem modTrm_drum (f : TripMonitor → TripMonitor) (s : State) : (modTrm f s).drum = s.drum := rfl
@[simp] theorem modTrm_pump1 (f : TripMonitor → TripMonitor) (s : State) : (modTrm f s).pump1 = s.pump1 := rfl
@[simp] theorem modTrm_pump2 (f : TripMonitor → TripMonitor) (s : State) : (modTrm f s).pump2 = s.pump2 := rfl
@[simp] theorem modTrm_arb (f : TripMonitor → TripMonitor) (s : State) : (modTrm f s).arb = s.arb := rfl
@[simp] theorem modTrm_calA (f : TripMonitor → TripMonitor) (s : State) : (modTrm f s).calA = s.calA := rfl
@[simp] theorem modTrm_calB (f : TripMonitor → TripMonitor) (s : State) : (modTrm f s).calB = s.calB := rfl
@[simp] theorem modTrm_lpr (f : TripMonitor → TripMonitor) (s : State) : (modTrm f s).lpr = s.lpr := rfl
@[simp] theorem modTrm_gcu (f : TripMonitor → TripMonitor) (s : State) : (modTrm f s).gcu = s.gcu := rfl
@[simp] theorem modTrm_trm (f : TripMonitor → TripMonitor) (s : State) : (modTrm f s).trm = f s.trm := rfl
@[simp] theorem modTrm_exch (f : TripMonitor → TripMonitor) (s : State) (c' : Channel) : (modTrm f s).exch c' = s.exch c' := by cases c' <;> rfl
@[simp] theorem modTrm_pump (f : TripMonitor → TripMonitor) (s : State) (q : PumpId) : (modTrm f s).pump q = s.pump q := by cases q <;> rfl
@[simp] theorem modTrm_cal (f : TripMonitor → TripMonitor) (s : State) (v' : Conv) : (modTrm f s).cal v' = s.cal v' := by cases v' <;> rfl
@[simp] theorem modTrm_inFlight (f : TripMonitor → TripMonitor) (s : State) (v' : Conv) : (modTrm f s).inFlight v' = s.inFlight v' := by cases v' <;> rfl
@[simp] theorem modTrm_cfg (f : TripMonitor → TripMonitor) (s : State) : cfg (modTrm f s) = cfg s := rfl

/-! ### setPower -/

@[simp] theorem setPower_pending (p : Power) (s : State) : (setPower p s).pending = s.pending := rfl
@[simp] theorem setPower_draws (p : Power) (s : State) : (setPower p s).draws = s.draws := rfl
@[simp] theorem setPower_phase (p : Power) (s : State) : (setPower p s).phase = s.phase := rfl
@[simp] theorem setPower_now (p : Power) (s : State) : (setPower p s).now = s.now := rfl
@[simp] theorem setPower_port (p : Power) (s : State) : (setPower p s).port = s.port := rfl
@[simp] theorem setPower_intPend (p : Power) (s : State) : (setPower p s).intPend = s.intPend := rfl
@[simp] theorem setPower_intEn (p : Power) (s : State) : (setPower p s).intEn = s.intEn := rfl
@[simp] theorem setPower_hpar (p : Power) (s : State) : (setPower p s).hpar = s.hpar := rfl
@[simp] theorem setPower_access (p : Power) (s : State) : (setPower p s).access = s.access := rfl
@[simp] theorem setPower_parity (p : Power) (s : State) : (setPower p s).parity = s.parity := rfl
@[simp] theorem setPower_exchD (p : Power) (s : State) : (setPower p s).exchD = s.exchD := rfl
@[simp] theorem setPower_exchP1 (p : Power) (s : State) : (setPower p s).exchP1 = s.exchP1 := rfl
@[simp] theorem setPower_exchP2 (p : Power) (s : State) : (setPower p s).exchP2 = s.exchP2 := rfl
@[simp] theorem setPower_drum (p : Power) (s : State) : (setPower p s).drum = s.drum := rfl
@[simp] theorem setPower_pump1 (p : Power) (s : State) : (setPower p s).pump1 = s.pump1 := rfl
@[simp] theorem setPower_pump2 (p : Power) (s : State) : (setPower p s).pump2 = s.pump2 := rfl
@[simp] theorem setPower_calA (p : Power) (s : State) : (setPower p s).calA = s.calA := rfl
@[simp] theorem setPower_calB (p : Power) (s : State) : (setPower p s).calB = s.calB := rfl
@[simp] theorem setPower_lpr (p : Power) (s : State) : (setPower p s).lpr = s.lpr := rfl
@[simp] theorem setPower_trm (p : Power) (s : State) : (setPower p s).trm = s.trm := rfl
@[simp] theorem setPower_gcu (p : Power) (s : State) : (setPower p s).gcu = s.gcu := rfl
@[simp] theorem setPower_arb (p : Power) (s : State) : (setPower p s).arb = { s.arb with power := p } := rfl
@[simp] theorem setPower_exch (p : Power) (s : State) (c' : Channel) : (setPower p s).exch c' = s.exch c' := by cases c' <;> rfl
@[simp] theorem setPower_pump (p : Power) (s : State) (q : PumpId) : (setPower p s).pump q = s.pump q := by cases q <;> rfl
@[simp] theorem setPower_cal (p : Power) (s : State) (v' : Conv) : (setPower p s).cal v' = s.cal v' := by cases v' <;> rfl
@[simp] theorem setPower_cfg (p : Power) (s : State) : cfg (setPower p s) = cfg s := rfl

/-! ### setList -/

@[simp] theorem setList_pending (l : List Entry) (s : State) : (setList l s).pending = s.pending := rfl
@[simp] theorem setList_draws (l : List Entry) (s : State) : (setList l s).draws = s.draws := rfl
@[simp] theorem setList_phase (l : List Entry) (s : State) : (setList l s).phase = s.phase := rfl
@[simp] theorem setList_now (l : List Entry) (s : State) : (setList l s).now = s.now := rfl
@[simp] theorem setList_mem (l : List Entry) (s : State) : (setList l s).mem = s.mem := rfl
@[simp] theorem setList_port (l : List Entry) (s : State) : (setList l s).port = s.port := rfl
@[simp] theorem setList_intPend (l : List Entry) (s : State) : (setList l s).intPend = s.intPend := rfl
@[simp] theorem setList_intEn (l : List Entry) (s : State) : (setList l s).intEn = s.intEn := rfl
@[simp] theorem setList_hpar (l : List Entry) (s : State) : (setList l s).hpar = s.hpar := rfl
@[simp] theorem setList_access (l : List Entry) (s : State) : (setList l s).access = s.access := rfl
@[simp] theorem setList_parity (l : List Entry) (s : State) : (setList l s).parity = s.parity := rfl
@[simp] theorem setList_exchD (l : List Entry) (s : State) : (setList l s).exchD = s.exchD := rfl
@[simp] theorem setList_exchP1 (l : List Entry) (s : State) : (setList l s).exchP1 = s.exchP1 := rfl
@[simp] theorem setList_exchP2 (l : List Entry) (s : State) : (setList l s).exchP2 = s.exchP2 := rfl
@[simp] theorem setList_drum (l : List Entry) (s : State) : (setList l s).drum = s.drum := rfl
@[simp] theorem setList_pump1 (l : List Entry) (s : State) : (setList l s).pump1 = s.pump1 := rfl
@[simp] theorem setList_pump2 (l : List Entry) (s : State) : (setList l s).pump2 = s.pump2 := rfl
@[simp] theorem setList_calA (l : List Entry) (s : State) : (setList l s).calA = s.calA := rfl
@[simp] theorem setList_calB (l : List Entry) (s : State) : (setList l s).calB = s.calB := rfl
@[simp] theorem setList_lpr (l : List Entry) (s : State) : (setList l s).lpr = s.lpr := rfl
@[simp] theorem setList_trm (l : List Entry) (s : State) : (setList l s).trm = s.trm := rfl
@[simp] theorem setList_gcu (l : List Entry) (s : State) : (setList l s).gcu = s.gcu := rfl
@[simp] theorem setList_arb (l : List Entry) (s : State) : (setList l s).arb = { s.arb with list := l } := rfl
@[simp] theorem setList_exch (l : List Entry) (s : State) (c' : Channel) : (setList l s).exch c' = s.exch c' := by cases c' <;> rfl
@[simp] theorem setList_pump (l : List Entry) (s : State) (q : PumpId) : (setList l s).pump q = s.pump q := by cases q <;> rfl
@[simp] theorem setList_cal (l : List Entry) (s : State) (v' : Conv) : (setList l s).cal v' = s.cal v' := by cases v' <;> rfl
@[simp] theorem setList_cfg (l : List Entry) (s : State) : cfg (setList l s) = cfg s := rfl

/-! ### setConverter -/

@[simp] theorem setConverter_pending (cv : Conv) (f : Option InFlight) (s : State) : (setConverter cv f s).pending = s.pending := by cases cv <;> rfl
@[simp] theorem setConverter_draws (cv : Conv) (f : Option InFlight) (s : State) : (setConverter cv f s).draws = s.draws := by cases cv <;> rfl
@[simp] theorem setConverter_phase (cv : Conv) (f : Option InFlight) (s : State) : (setConverter cv f s).phase = s.phase := by cases cv <;> rfl
@[simp] theorem setConverter_now (cv : Conv) (f : Option InFlight) (s : State) : (setConverter cv f s).now = s.now := by cases cv <;> rfl
@[simp] theorem setConverter_port (cv : Conv) (f : Option InFlight) (s : State) : (setConverter cv f s).port = s.port := by cases cv <;> rfl
@[simp] theorem setConverter_intPend (cv : Conv) (f : Option InFlight) (s : State) : (setConverter cv f s).intPend = s.intPend := by cases cv <;> rfl
@[simp] theorem setConverter_intEn (cv : Conv) (f : Option InFlight) (s : State) : (setConverter cv f s).intEn = s.intEn := by cases cv <;> rfl
@[simp] theorem setConverter_hpar (cv : Conv) (f : Option InFlight) (s : State) : (setConverter cv f s).hpar = s.hpar := by cases cv <;> rfl
@[simp] theorem setConverter_access (cv : Conv) (f : Option InFlight) (s : State) : (setConverter cv f s).access = s.access := by cases cv <;> rfl
@[simp] theorem setConverter_parity (cv : Conv) (f : Option InFlight) (s : State) : (setConverter cv f s).parity = s.parity := by cases cv <;> rfl
@[simp] theorem setConverter_exchD (cv : Conv) (f : Option InFlight) (s : State) : (setConverter cv f s).exchD = s.exchD := by cases cv <;> rfl
@[simp] theorem setConverter_exchP1 (cv : Conv) (f : Option InFlight) (s : State) : (setConverter cv f s).exchP1 = s.exchP1 := by cases cv <;> rfl
@[simp] theorem setConverter_exchP2 (cv : Conv) (f : Option InFlight) (s : State) : (setConverter cv f s).exchP2 = s.exchP2 := by cases cv <;> rfl
@[simp] theorem setConverter_drum (cv : Conv) (f : Option InFlight) (s : State) : (setConverter cv f s).drum = s.drum := by cases cv <;> rfl
@[simp] theorem setConverter_pump1 (cv : Conv) (f : Option InFlight) (s : State) : (setConverter cv f s).pump1 = s.pump1 := by cases cv <;> rfl
@[simp] theorem setConverter_pump2 (cv : Conv) (f : Option InFlight) (s : State) : (setConverter cv f s).pump2 = s.pump2 := by cases cv <;> rfl
@[simp] theorem setConverter_calA (cv : Conv) (f : Option InFlight) (s : State) : (setConverter cv f s).calA = s.calA := by cases cv <;> rfl
@[simp] theorem setConverter_calB (cv : Conv) (f : Option InFlight) (s : State) : (setConverter cv f s).calB = s.calB := by cases cv <;> rfl
@[simp] theorem setConverter_lpr (cv : Conv) (f : Option InFlight) (s : State) : (setConverter cv f s).lpr = s.lpr := by cases cv <;> rfl
@[simp] theorem setConverter_trm (cv : Conv) (f : Option InFlight) (s : State) : (setConverter cv f s).trm = s.trm := by cases cv <;> rfl
@[simp] theorem setConverter_gcu (cv : Conv) (f : Option InFlight) (s : State) : (setConverter cv f s).gcu = s.gcu := by cases cv <;> rfl
@[simp] theorem setConverter_exch (cv : Conv) (f : Option InFlight) (s : State) (c' : Channel) : (setConverter cv f s).exch c' = s.exch c' := by cases c' <;> cases cv <;> rfl
@[simp] theorem setConverter_pump (cv : Conv) (f : Option InFlight) (s : State) (q : PumpId) : (setConverter cv f s).pump q = s.pump q := by cases q <;> cases cv <;> rfl
@[simp] theorem setConverter_cal (cv : Conv) (f : Option InFlight) (s : State) (v' : Conv) : (setConverter cv f s).cal v' = s.cal v' := by cases v' <;> cases cv <;> rfl
@[simp] theorem setConverter_cfg (cv : Conv) (f : Option InFlight) (s : State) : cfg (setConverter cv f s) = cfg s := by cases cv <;> rfl

/-! ### setApply -/

@[simp] theorem setApply_pending (a : Option ApplyRun) (s : State) : (setApply a s).pending = s.pending := rfl
@[simp] theorem setApply_draws (a : Option ApplyRun) (s : State) : (setApply a s).draws = s.draws := rfl
@[simp] theorem setApply_phase (a : Option ApplyRun) (s : State) : (setApply a s).phase = s.phase := rfl
@[simp] theorem setApply_now (a : Option ApplyRun) (s : State) : (setApply a s).now = s.now := rfl
@[simp] theorem setApply_mem (a : Option ApplyRun) (s : State) : (setApply a s).mem = s.mem := rfl
@[simp] theorem setApply_port (a : Option ApplyRun) (s : State) : (setApply a s).port = s.port := rfl
@[simp] theorem setApply_intPend (a : Option ApplyRun) (s : State) : (setApply a s).intPend = s.intPend := rfl
@[simp] theorem setApply_intEn (a : Option ApplyRun) (s : State) : (setApply a s).intEn = s.intEn := rfl
@[simp] theorem setApply_hpar (a : Option ApplyRun) (s : State) : (setApply a s).hpar = s.hpar := rfl
@[simp] theorem setApply_access (a : Option ApplyRun) (s : State) : (setApply a s).access = s.access := rfl
@[simp] theorem setApply_parity (a : Option ApplyRun) (s : State) : (setApply a s).parity = s.parity := rfl
@[simp] theorem setApply_exchD (a : Option ApplyRun) (s : State) : (setApply a s).exchD = s.exchD := rfl
@[simp] theorem setApply_exchP1 (a : Option ApplyRun) (s : State) : (setApply a s).exchP1 = s.exchP1 := rfl
@[simp] theorem setApply_exchP2 (a : Option ApplyRun) (s : State) : (setApply a s).exchP2 = s.exchP2 := rfl
@[simp] theorem setApply_drum (a : Option ApplyRun) (s : State) : (setApply a s).drum = s.drum := rfl
@[simp] theorem setApply_pump1 (a : Option ApplyRun) (s : State) : (setApply a s).pump1 = s.pump1 := rfl
@[simp] theorem setApply_pump2 (a : Option ApplyRun) (s : State) : (setApply a s).pump2 = s.pump2 := rfl
@[simp] theorem setApply_arb (a : Option ApplyRun) (s : State) : (setApply a s).arb = s.arb := rfl
@[simp] theorem setApply_calA (a : Option ApplyRun) (s : State) : (setApply a s).calA = s.calA := rfl
@[simp] theorem setApply_calB (a : Option ApplyRun) (s : State) : (setApply a s).calB = s.calB := rfl
@[simp] theorem setApply_lpr (a : Option ApplyRun) (s : State) : (setApply a s).lpr = s.lpr := rfl
@[simp] theorem setApply_trm (a : Option ApplyRun) (s : State) : (setApply a s).trm = s.trm := rfl
@[simp] theorem setApply_gcu (a : Option ApplyRun) (s : State) : (setApply a s).gcu = { s.gcu with apply := a } := rfl
@[simp] theorem setApply_exch (a : Option ApplyRun) (s : State) (c' : Channel) : (setApply a s).exch c' = s.exch c' := by cases c' <;> rfl
@[simp] theorem setApply_pump (a : Option ApplyRun) (s : State) (q : PumpId) : (setApply a s).pump q = s.pump q := by cases q <;> rfl
@[simp] theorem setApply_cal (a : Option ApplyRun) (s : State) (v' : Conv) : (setApply a s).cal v' = s.cal v' := by cases v' <;> rfl
@[simp] theorem setApply_inFlight (a : Option ApplyRun) (s : State) (v' : Conv) : (setApply a s).inFlight v' = s.inFlight v' := by cases v' <;> rfl

/-! ### commandDone -/

@[simp] theorem commandDone_pending (ch : Channel) (tag code : Byte) (o : Outcome) (s : State) : (commandDone ch tag code o s).pending = s.pending := rfl
@[simp] theorem commandDone_draws (ch : Channel) (tag code : Byte) (o : Outcome) (s : State) : (commandDone ch tag code o s).draws = s.draws := rfl
@[simp] theorem commandDone_phase (ch : Channel) (tag code : Byte) (o : Outcome) (s : State) : (commandDone ch tag code o s).phase = s.phase := rfl
@[simp] theorem commandDone_now (ch : Channel) (tag code : Byte) (o : Outcome) (s : State) : (commandDone ch tag code o s).now = s.now := rfl
@[simp] theorem commandDone_port (ch : Channel) (tag code : Byte) (o : Outcome) (s : State) : (commandDone ch tag code o s).port = s.port := rfl
@[simp] theorem commandDone_intEn (ch : Channel) (tag code : Byte) (o : Outcome) (s : State) : (commandDone ch tag code o s).intEn = s.intEn := rfl
@[simp] theorem commandDone_hpar (ch : Channel) (tag code : Byte) (o : Outcome) (s : State) : (commandDone ch tag code o s).hpar = s.hpar := rfl
@[simp] theorem commandDone_access (ch : Channel) (tag code : Byte) (o : Outcome) (s : State) : (commandDone ch tag code o s).access = s.access := rfl
@[simp] theorem commandDone_parity (ch : Channel) (tag code : Byte) (o : Outcome) (s : State) : (commandDone ch tag code o s).parity = s.parity := rfl
@[simp] theorem commandDone_exchD (ch : Channel) (tag code : Byte) (o : Outcome) (s : State) : (commandDone ch tag code o s).exchD = s.exchD := rfl
@[simp] theorem commandDone_exchP1 (ch : Channel) (tag code : Byte) (o : Outcome) (s : State) : (commandDone ch tag code o s).exchP1 = s.exchP1 := rfl
@[simp] theorem commandDone_exchP2 (ch : Channel) (tag code : Byte) (o : Outcome) (s : State) : (commandDone ch tag code o s).exchP2 = s.exchP2 := rfl
@[simp] theorem commandDone_drum (ch : Channel) (tag code : Byte) (o : Outcome) (s : State) : (commandDone ch tag code o s).drum = s.drum := rfl
@[simp] theorem commandDone_pump1 (ch : Channel) (tag code : Byte) (o : Outcome) (s : State) : (commandDone ch tag code o s).pump1 = s.pump1 := rfl
@[simp] theorem commandDone_pump2 (ch : Channel) (tag code : Byte) (o : Outcome) (s : State) : (commandDone ch tag code o s).pump2 = s.pump2 := rfl
@[simp] theorem commandDone_arb (ch : Channel) (tag code : Byte) (o : Outcome) (s : State) : (commandDone ch tag code o s).arb = s.arb := rfl
@[simp] theorem commandDone_calA (ch : Channel) (tag code : Byte) (o : Outcome) (s : State) : (commandDone ch tag code o s).calA = s.calA := rfl
@[simp] theorem commandDone_calB (ch : Channel) (tag code : Byte) (o : Outcome) (s : State) : (commandDone ch tag code o s).calB = s.calB := rfl
@[simp] theorem commandDone_lpr (ch : Channel) (tag code : Byte) (o : Outcome) (s : State) : (commandDone ch tag code o s).lpr = s.lpr := rfl
@[simp] theorem commandDone_trm (ch : Channel) (tag code : Byte) (o : Outcome) (s : State) : (commandDone ch tag code o s).trm = s.trm := rfl
@[simp] theorem commandDone_gcu (ch : Channel) (tag code : Byte) (o : Outcome) (s : State) : (commandDone ch tag code o s).gcu = s.gcu := rfl
@[simp] theorem commandDone_intPend (ch : Channel) (tag code : Byte) (o : Outcome) (s : State) : (commandDone ch tag code o s).intPend = s.intPend ||| Cause.cmd.mask := rfl
@[simp] theorem commandDone_exch (ch : Channel) (tag code : Byte) (o : Outcome) (s : State) (c' : Channel) : (commandDone ch tag code o s).exch c' = s.exch c' := by cases c' <;> rfl
@[simp] theorem commandDone_pump (ch : Channel) (tag code : Byte) (o : Outcome) (s : State) (q : PumpId) : (commandDone ch tag code o s).pump q = s.pump q := by cases q <;> rfl
@[simp] theorem commandDone_cal (ch : Channel) (tag code : Byte) (o : Outcome) (s : State) (v' : Conv) : (commandDone ch tag code o s).cal v' = s.cal v' := by cases v' <;> rfl
@[simp] theorem commandDone_inFlight (ch : Channel) (tag code : Byte) (o : Outcome) (s : State) (v' : Conv) : (commandDone ch tag code o s).inFlight v' = s.inFlight v' := by cases v' <;> rfl
@[simp] theorem commandDone_cfg (ch : Channel) (tag code : Byte) (o : Outcome) (s : State) : cfg (commandDone ch tag code o s) = cfg s := rfl

/-! ### commandRefused -/

@[simp] theorem commandRefused_pending (ch : Channel) (tag code : Byte) (o : Outcome) (s : State) : (commandRefused ch tag code o s).pending = s.pending := rfl
@[simp] theorem commandRefused_draws (ch : Channel) (tag code : Byte) (o : Outcome) (s : State) : (commandRefused ch tag code o s).draws = s.draws := rfl
@[simp] theorem commandRefused_phase (ch : Channel) (tag code : Byte) (o : Outcome) (s : State) : (commandRefused ch tag code o s).phase = s.phase := rfl
@[simp] theorem commandRefused_now (ch : Channel) (tag code : Byte) (o : Outcome) (s : State) : (commandRefused ch tag code o s).now = s.now := rfl
@[simp] theorem commandRefused_port (ch : Channel) (tag code : Byte) (o : Outcome) (s : State) : (commandRefused ch tag code o s).port = s.port := rfl
@[simp] theorem commandRefused_intEn (ch : Channel) (tag code : Byte) (o : Outcome) (s : State) : (commandRefused ch tag code o s).intEn = s.intEn := rfl
@[simp] theorem commandRefused_hpar (ch : Channel) (tag code : Byte) (o : Outcome) (s : State) : (commandRefused ch tag code o s).hpar = s.hpar := rfl
@[simp] theorem commandRefused_access (ch : Channel) (tag code : Byte) (o : Outcome) (s : State) : (commandRefused ch tag code o s).access = s.access := rfl
@[simp] theorem commandRefused_parity (ch : Channel) (tag code : Byte) (o : Outcome) (s : State) : (commandRefused ch tag code o s).parity = s.parity := rfl
@[simp] theorem commandRefused_exchD (ch : Channel) (tag code : Byte) (o : Outcome) (s : State) : (commandRefused ch tag code o s).exchD = s.exchD := rfl
@[simp] theorem commandRefused_exchP1 (ch : Channel) (tag code : Byte) (o : Outcome) (s : State) : (commandRefused ch tag code o s).exchP1 = s.exchP1 := rfl
@[simp] theorem commandRefused_exchP2 (ch : Channel) (tag code : Byte) (o : Outcome) (s : State) : (commandRefused ch tag code o s).exchP2 = s.exchP2 := rfl
@[simp] theorem commandRefused_drum (ch : Channel) (tag code : Byte) (o : Outcome) (s : State) : (commandRefused ch tag code o s).drum = s.drum := rfl
@[simp] theorem commandRefused_pump1 (ch : Channel) (tag code : Byte) (o : Outcome) (s : State) : (commandRefused ch tag code o s).pump1 = s.pump1 := rfl
@[simp] theorem commandRefused_pump2 (ch : Channel) (tag code : Byte) (o : Outcome) (s : State) : (commandRefused ch tag code o s).pump2 = s.pump2 := rfl
@[simp] theorem commandRefused_arb (ch : Channel) (tag code : Byte) (o : Outcome) (s : State) : (commandRefused ch tag code o s).arb = s.arb := rfl
@[simp] theorem commandRefused_calA (ch : Channel) (tag code : Byte) (o : Outcome) (s : State) : (commandRefused ch tag code o s).calA = s.calA := rfl
@[simp] theorem commandRefused_calB (ch : Channel) (tag code : Byte) (o : Outcome) (s : State) : (commandRefused ch tag code o s).calB = s.calB := rfl
@[simp] theorem commandRefused_lpr (ch : Channel) (tag code : Byte) (o : Outcome) (s : State) : (commandRefused ch tag code o s).lpr = s.lpr := rfl
@[simp] theorem commandRefused_trm (ch : Channel) (tag code : Byte) (o : Outcome) (s : State) : (commandRefused ch tag code o s).trm = s.trm := rfl
@[simp] theorem commandRefused_gcu (ch : Channel) (tag code : Byte) (o : Outcome) (s : State) : (commandRefused ch tag code o s).gcu = s.gcu := rfl
@[simp] theorem commandRefused_intPend (ch : Channel) (tag code : Byte) (o : Outcome) (s : State) : (commandRefused ch tag code o s).intPend = s.intPend ||| Cause.cmd.mask := rfl
@[simp] theorem commandRefused_exch (ch : Channel) (tag code : Byte) (o : Outcome) (s : State) (c' : Channel) : (commandRefused ch tag code o s).exch c' = s.exch c' := by cases c' <;> rfl
@[simp] theorem commandRefused_pump (ch : Channel) (tag code : Byte) (o : Outcome) (s : State) (q : PumpId) : (commandRefused ch tag code o s).pump q = s.pump q := by cases q <;> rfl
@[simp] theorem commandRefused_cal (ch : Channel) (tag code : Byte) (o : Outcome) (s : State) (v' : Conv) : (commandRefused ch tag code o s).cal v' = s.cal v' := by cases v' <;> rfl
@[simp] theorem commandRefused_inFlight (ch : Channel) (tag code : Byte) (o : Outcome) (s : State) (v' : Conv) : (commandRefused ch tag code o s).inFlight v' = s.inFlight v' := by cases v' <;> rfl
@[simp] theorem commandRefused_cfg (ch : Channel) (tag code : Byte) (o : Outcome) (s : State) : cfg (commandRefused ch tag code o s) = cfg s := rfl

/-! ### globalDone -/

@[simp] theorem globalDone_pending (tag code : Byte) (o : Outcome) (n : Nat) (s : State) : (globalDone tag code o n s).pending = s.pending := rfl
@[simp] theorem globalDone_draws (tag code : Byte) (o : Outcome) (n : Nat) (s : State) : (globalDone tag code o n s).draws = s.draws := rfl
@[simp] theorem globalDone_phase (tag code : Byte) (o : Outcome) (n : Nat) (s : State) : (globalDone tag code o n s).phase = s.phase := rfl
@[simp] theorem globalDone_now (tag code : Byte) (o : Outcome) (n : Nat) (s : State) : (globalDone tag code o n s).now = s.now := rfl
@[simp] theorem globalDone_port (tag code : Byte) (o : Outcome) (n : Nat) (s : State) : (globalDone tag code o n s).port = s.port := rfl
@[simp] theorem globalDone_intEn (tag code : Byte) (o : Outcome) (n : Nat) (s : State) : (globalDone tag code o n s).intEn = s.intEn := rfl
@[simp] theorem globalDone_hpar (tag code : Byte) (o : Outcome) (n : Nat) (s : State) : (globalDone tag code o n s).hpar = s.hpar := rfl
@[simp] theorem globalDone_access (tag code : Byte) (o : Outcome) (n : Nat) (s : State) : (globalDone tag code o n s).access = s.access := rfl
@[simp] theorem globalDone_parity (tag code : Byte) (o : Outcome) (n : Nat) (s : State) : (globalDone tag code o n s).parity = s.parity := rfl
@[simp] theorem globalDone_exchD (tag code : Byte) (o : Outcome) (n : Nat) (s : State) : (globalDone tag code o n s).exchD = s.exchD := rfl
@[simp] theorem globalDone_exchP1 (tag code : Byte) (o : Outcome) (n : Nat) (s : State) : (globalDone tag code o n s).exchP1 = s.exchP1 := rfl
@[simp] theorem globalDone_exchP2 (tag code : Byte) (o : Outcome) (n : Nat) (s : State) : (globalDone tag code o n s).exchP2 = s.exchP2 := rfl
@[simp] theorem globalDone_drum (tag code : Byte) (o : Outcome) (n : Nat) (s : State) : (globalDone tag code o n s).drum = s.drum := rfl
@[simp] theorem globalDone_pump1 (tag code : Byte) (o : Outcome) (n : Nat) (s : State) : (globalDone tag code o n s).pump1 = s.pump1 := rfl
@[simp] theorem globalDone_pump2 (tag code : Byte) (o : Outcome) (n : Nat) (s : State) : (globalDone tag code o n s).pump2 = s.pump2 := rfl
@[simp] theorem globalDone_arb (tag code : Byte) (o : Outcome) (n : Nat) (s : State) : (globalDone tag code o n s).arb = s.arb := rfl
@[simp] theorem globalDone_calA (tag code : Byte) (o : Outcome) (n : Nat) (s : State) : (globalDone tag code o n s).calA = s.calA := rfl
@[simp] theorem globalDone_calB (tag code : Byte) (o : Outcome) (n : Nat) (s : State) : (globalDone tag code o n s).calB = s.calB := rfl
@[simp] theorem globalDone_lpr (tag code : Byte) (o : Outcome) (n : Nat) (s : State) : (globalDone tag code o n s).lpr = s.lpr := rfl
@[simp] theorem globalDone_trm (tag code : Byte) (o : Outcome) (n : Nat) (s : State) : (globalDone tag code o n s).trm = s.trm := rfl
@[simp] theorem globalDone_gcu (tag code : Byte) (o : Outcome) (n : Nat) (s : State) : (globalDone tag code o n s).gcu = s.gcu := rfl
@[simp] theorem globalDone_intPend (tag code : Byte) (o : Outcome) (n : Nat) (s : State) : (globalDone tag code o n s).intPend = s.intPend ||| Cause.cmd.mask := rfl
@[simp] theorem globalDone_exch (tag code : Byte) (o : Outcome) (n : Nat) (s : State) (c' : Channel) : (globalDone tag code o n s).exch c' = s.exch c' := by cases c' <;> rfl
@[simp] theorem globalDone_pump (tag code : Byte) (o : Outcome) (n : Nat) (s : State) (q : PumpId) : (globalDone tag code o n s).pump q = s.pump q := by cases q <;> rfl
@[simp] theorem globalDone_cal (tag code : Byte) (o : Outcome) (n : Nat) (s : State) (v' : Conv) : (globalDone tag code o n s).cal v' = s.cal v' := by cases v' <;> rfl
@[simp] theorem globalDone_inFlight (tag code : Byte) (o : Outcome) (n : Nat) (s : State) (v' : Conv) : (globalDone tag code o n s).inFlight v' = s.inFlight v' := by cases v' <;> rfl
@[simp] theorem globalDone_cfg (tag code : Byte) (o : Outcome) (n : Nat) (s : State) : cfg (globalDone tag code o n s) = cfg s := rfl

/-! ### globalRefused -/

@[simp] theorem globalRefused_pending (tag code : Byte) (o : Outcome) (s : State) : (globalRefused tag code o s).pending = s.pending := rfl
@[simp] theorem globalRefused_draws (tag code : Byte) (o : Outcome) (s : State) : (globalRefused tag code o s).draws = s.draws := rfl
@[simp] theorem globalRefused_phase (tag code : Byte) (o : Outcome) (s : State) : (globalRefused tag code o s).phase = s.phase := rfl
@[simp] theorem globalRefused_now (tag code : Byte) (o : Outcome) (s : State) : (globalRefused tag code o s).now = s.now := rfl
@[simp] theorem globalRefused_port (tag code : Byte) (o : Outcome) (s : State) : (globalRefused tag code o s).port = s.port := rfl
@[simp] theorem globalRefused_intEn (tag code : Byte) (o : Outcome) (s : State) : (globalRefused tag code o s).intEn = s.intEn := rfl
@[simp] theorem globalRefused_hpar (tag code : Byte) (o : Outcome) (s : State) : (globalRefused tag code o s).hpar = s.hpar := rfl
@[simp] theorem globalRefused_access (tag code : Byte) (o : Outcome) (s : State) : (globalRefused tag code o s).access = s.access := rfl
@[simp] theorem globalRefused_parity (tag code : Byte) (o : Outcome) (s : State) : (globalRefused tag code o s).parity = s.parity := rfl
@[simp] theorem globalRefused_exchD (tag code : Byte) (o : Outcome) (s : State) : (globalRefused tag code o s).exchD = s.exchD := rfl
@[simp] theorem globalRefused_exchP1 (tag code : Byte) (o : Outcome) (s : State) : (globalRefused tag code o s).exchP1 = s.exchP1 := rfl
@[simp] theorem globalRefused_exchP2 (tag code : Byte) (o : Outcome) (s : State) : (globalRefused tag code o s).exchP2 = s.exchP2 := rfl
@[simp] theorem globalRefused_drum (tag code : Byte) (o : Outcome) (s : State) : (globalRefused tag code o s).drum = s.drum := rfl
@[simp] theorem globalRefused_pump1 (tag code : Byte) (o : Outcome) (s : State) : (globalRefused tag code o s).pump1 = s.pump1 := rfl
@[simp] theorem globalRefused_pump2 (tag code : Byte) (o : Outcome) (s : State) : (globalRefused tag code o s).pump2 = s.pump2 := rfl
@[simp] theorem globalRefused_arb (tag code : Byte) (o : Outcome) (s : State) : (globalRefused tag code o s).arb = s.arb := rfl
@[simp] theorem globalRefused_calA (tag code : Byte) (o : Outcome) (s : State) : (globalRefused tag code o s).calA = s.calA := rfl
@[simp] theorem globalRefused_calB (tag code : Byte) (o : Outcome) (s : State) : (globalRefused tag code o s).calB = s.calB := rfl
@[simp] theorem globalRefused_lpr (tag code : Byte) (o : Outcome) (s : State) : (globalRefused tag code o s).lpr = s.lpr := rfl
@[simp] theorem globalRefused_trm (tag code : Byte) (o : Outcome) (s : State) : (globalRefused tag code o s).trm = s.trm := rfl
@[simp] theorem globalRefused_gcu (tag code : Byte) (o : Outcome) (s : State) : (globalRefused tag code o s).gcu = s.gcu := rfl
@[simp] theorem globalRefused_intPend (tag code : Byte) (o : Outcome) (s : State) : (globalRefused tag code o s).intPend = s.intPend ||| Cause.cmd.mask := rfl
@[simp] theorem globalRefused_exch (tag code : Byte) (o : Outcome) (s : State) (c' : Channel) : (globalRefused tag code o s).exch c' = s.exch c' := by cases c' <;> rfl
@[simp] theorem globalRefused_pump (tag code : Byte) (o : Outcome) (s : State) (q : PumpId) : (globalRefused tag code o s).pump q = s.pump q := by cases q <;> rfl
@[simp] theorem globalRefused_cal (tag code : Byte) (o : Outcome) (s : State) (v' : Conv) : (globalRefused tag code o s).cal v' = s.cal v' := by cases v' <;> rfl
@[simp] theorem globalRefused_inFlight (tag code : Byte) (o : Outcome) (s : State) (v' : Conv) : (globalRefused tag code o s).inFlight v' = s.inFlight v' := by cases v' <;> rfl
@[simp] theorem globalRefused_cfg (tag code : Byte) (o : Outcome) (s : State) : cfg (globalRefused tag code o s) = cfg s := rfl

/-! ### recordFault -/

@[simp] theorem recordFault_pending (a : Word) (k : FaultKind) (r : Option Role) (s : State) : (recordFault a k r s).pending = s.pending := rfl
@[simp] theorem recordFault_draws (a : Word) (k : FaultKind) (r : Option Role) (s : State) : (recordFault a k r s).draws = s.draws := rfl
@[simp] theorem recordFault_phase (a : Word) (k : FaultKind) (r : Option Role) (s : State) : (recordFault a k r s).phase = s.phase := rfl
@[simp] theorem recordFault_now (a : Word) (k : FaultKind) (r : Option Role) (s : State) : (recordFault a k r s).now = s.now := rfl
@[simp] theorem recordFault_port (a : Word) (k : FaultKind) (r : Option Role) (s : State) : (recordFault a k r s).port = s.port := rfl
@[simp] theorem recordFault_intEn (a : Word) (k : FaultKind) (r : Option Role) (s : State) : (recordFault a k r s).intEn = s.intEn := rfl
@[simp] theorem recordFault_hpar (a : Word) (k : FaultKind) (r : Option Role) (s : State) : (recordFault a k r s).hpar = s.hpar := rfl
@[simp] theorem recordFault_parity (a : Word) (k : FaultKind) (r : Option Role) (s : State) : (recordFault a k r s).parity = s.parity := rfl
@[simp] theorem recordFault_exchD (a : Word) (k : FaultKind) (r : Option Role) (s : State) : (recordFault a k r s).exchD = s.exchD := rfl
@[simp] theorem recordFault_exchP1 (a : Word) (k : FaultKind) (r : Option Role) (s : State) : (recordFault a k r s).exchP1 = s.exchP1 := rfl
@[simp] theorem recordFault_exchP2 (a : Word) (k : FaultKind) (r : Option Role) (s : State) : (recordFault a k r s).exchP2 = s.exchP2 := rfl
@[simp] theorem recordFault_drum (a : Word) (k : FaultKind) (r : Option Role) (s : State) : (recordFault a k r s).drum = s.drum := rfl
@[simp] theorem recordFault_pump1 (a : Word) (k : FaultKind) (r : Option Role) (s : State) : (recordFault a k r s).pump1 = s.pump1 := rfl
@[simp] theorem recordFault_pump2 (a : Word) (k : FaultKind) (r : Option Role) (s : State) : (recordFault a k r s).pump2 = s.pump2 := rfl
@[simp] theorem recordFault_arb (a : Word) (k : FaultKind) (r : Option Role) (s : State) : (recordFault a k r s).arb = s.arb := rfl
@[simp] theorem recordFault_calA (a : Word) (k : FaultKind) (r : Option Role) (s : State) : (recordFault a k r s).calA = s.calA := rfl
@[simp] theorem recordFault_calB (a : Word) (k : FaultKind) (r : Option Role) (s : State) : (recordFault a k r s).calB = s.calB := rfl
@[simp] theorem recordFault_lpr (a : Word) (k : FaultKind) (r : Option Role) (s : State) : (recordFault a k r s).lpr = s.lpr := rfl
@[simp] theorem recordFault_trm (a : Word) (k : FaultKind) (r : Option Role) (s : State) : (recordFault a k r s).trm = s.trm := rfl
@[simp] theorem recordFault_gcu (a : Word) (k : FaultKind) (r : Option Role) (s : State) : (recordFault a k r s).gcu = s.gcu := rfl
@[simp] theorem recordFault_access (a : Word) (k : FaultKind) (r : Option Role) (s : State) : (recordFault a k r s).access = s.access.record a k r := rfl
@[simp] theorem recordFault_exch (a : Word) (k : FaultKind) (r : Option Role) (s : State) (c' : Channel) : (recordFault a k r s).exch c' = s.exch c' := by cases c' <;> rfl
@[simp] theorem recordFault_pump (a : Word) (k : FaultKind) (r : Option Role) (s : State) (q : PumpId) : (recordFault a k r s).pump q = s.pump q := by cases q <;> rfl
@[simp] theorem recordFault_cal (a : Word) (k : FaultKind) (r : Option Role) (s : State) (v' : Conv) : (recordFault a k r s).cal v' = s.cal v' := by cases v' <;> rfl
@[simp] theorem recordFault_inFlight (a : Word) (k : FaultKind) (r : Option Role) (s : State) (v' : Conv) : (recordFault a k r s).inFlight v' = s.inFlight v' := by cases v' <;> rfl
@[simp] theorem recordFault_cfg (a : Word) (k : FaultKind) (r : Option Role) (s : State) : cfg (recordFault a k r s) = cfg s := rfl

/-! ### recordParity -/

@[simp] theorem recordParity_pending (src : ParitySource) (a : Nat) (s : State) : (recordParity src a s).pending = s.pending := rfl
@[simp] theorem recordParity_draws (src : ParitySource) (a : Nat) (s : State) : (recordParity src a s).draws = s.draws := rfl
@[simp] theorem recordParity_phase (src : ParitySource) (a : Nat) (s : State) : (recordParity src a s).phase = s.phase := rfl
@[simp] theorem recordParity_now (src : ParitySource) (a : Nat) (s : State) : (recordParity src a s).now = s.now := rfl
@[simp] theorem recordParity_port (src : ParitySource) (a : Nat) (s : State) : (recordParity src a s).port = s.port := rfl
@[simp] theorem recordParity_intEn (src : ParitySource) (a : Nat) (s : State) : (recordParity src a s).intEn = s.intEn := rfl
@[simp] theorem recordParity_hpar (src : ParitySource) (a : Nat) (s : State) : (recordParity src a s).hpar = s.hpar := rfl
@[simp] theorem recordParity_access (src : ParitySource) (a : Nat) (s : State) : (recordParity src a s).access = s.access := rfl
@[simp] theorem recordParity_exchD (src : ParitySource) (a : Nat) (s : State) : (recordParity src a s).exchD = s.exchD := rfl
@[simp] theorem recordParity_exchP1 (src : ParitySource) (a : Nat) (s : State) : (recordParity src a s).exchP1 = s.exchP1 := rfl
@[simp] theorem recordParity_exchP2 (src : ParitySource) (a : Nat) (s : State) : (recordParity src a s).exchP2 = s.exchP2 := rfl
@[simp] theorem recordParity_drum (src : ParitySource) (a : Nat) (s : State) : (recordParity src a s).drum = s.drum := rfl
@[simp] theorem recordParity_pump1 (src : ParitySource) (a : Nat) (s : State) : (recordParity src a s).pump1 = s.pump1 := rfl
@[simp] theorem recordParity_pump2 (src : ParitySource) (a : Nat) (s : State) : (recordParity src a s).pump2 = s.pump2 := rfl
@[simp] theorem recordParity_arb (src : ParitySource) (a : Nat) (s : State) : (recordParity src a s).arb = s.arb := rfl
@[simp] theorem recordParity_calA (src : ParitySource) (a : Nat) (s : State) : (recordParity src a s).calA = s.calA := rfl
@[simp] theorem recordParity_calB (src : ParitySource) (a : Nat) (s : State) : (recordParity src a s).calB = s.calB := rfl
@[simp] theorem recordParity_lpr (src : ParitySource) (a : Nat) (s : State) : (recordParity src a s).lpr = s.lpr := rfl
@[simp] theorem recordParity_trm (src : ParitySource) (a : Nat) (s : State) : (recordParity src a s).trm = s.trm := rfl
@[simp] theorem recordParity_gcu (src : ParitySource) (a : Nat) (s : State) : (recordParity src a s).gcu = s.gcu := rfl
@[simp] theorem recordParity_parity (src : ParitySource) (a : Nat) (s : State) : (recordParity src a s).parity = s.parity.record (w16 a) src := rfl
@[simp] theorem recordParity_exch (src : ParitySource) (a : Nat) (s : State) (c' : Channel) : (recordParity src a s).exch c' = s.exch c' := by cases c' <;> rfl
@[simp] theorem recordParity_pump (src : ParitySource) (a : Nat) (s : State) (q : PumpId) : (recordParity src a s).pump q = s.pump q := by cases q <;> rfl
@[simp] theorem recordParity_cal (src : ParitySource) (a : Nat) (s : State) (v' : Conv) : (recordParity src a s).cal v' = s.cal v' := by cases v' <;> rfl
@[simp] theorem recordParity_inFlight (src : ParitySource) (a : Nat) (s : State) (v' : Conv) : (recordParity src a s).inFlight v' = s.inFlight v' := by cases v' <;> rfl
@[simp] theorem recordParity_cfg (src : ParitySource) (a : Nat) (s : State) : cfg (recordParity src a s) = cfg s := rfl

/-! ### writeBankStatus -/

@[simp] theorem writeBankStatus_pending (ch : Channel) (b : Bank) (st : BankStatus) (s : State) : (writeBankStatus ch b st s).pending = s.pending := rfl
@[simp] theorem writeBankStatus_draws (ch : Channel) (b : Bank) (st : BankStatus) (s : State) : (writeBankStatus ch b st s).draws = s.draws := rfl
@[simp] theorem writeBankStatus_phase (ch : Channel) (b : Bank) (st : BankStatus) (s : State) : (writeBankStatus ch b st s).phase = s.phase := rfl
@[simp] theorem writeBankStatus_now (ch : Channel) (b : Bank) (st : BankStatus) (s : State) : (writeBankStatus ch b st s).now = s.now := rfl
@[simp] theorem writeBankStatus_port (ch : Channel) (b : Bank) (st : BankStatus) (s : State) : (writeBankStatus ch b st s).port = s.port := rfl
@[simp] theorem writeBankStatus_intPend (ch : Channel) (b : Bank) (st : BankStatus) (s : State) : (writeBankStatus ch b st s).intPend = s.intPend := rfl
@[simp] theorem writeBankStatus_intEn (ch : Channel) (b : Bank) (st : BankStatus) (s : State) : (writeBankStatus ch b st s).intEn = s.intEn := rfl
@[simp] theorem writeBankStatus_hpar (ch : Channel) (b : Bank) (st : BankStatus) (s : State) : (writeBankStatus ch b st s).hpar = s.hpar := rfl
@[simp] theorem writeBankStatus_access (ch : Channel) (b : Bank) (st : BankStatus) (s : State) : (writeBankStatus ch b st s).access = s.access := rfl
@[simp] theorem writeBankStatus_parity (ch : Channel) (b : Bank) (st : BankStatus) (s : State) : (writeBankStatus ch b st s).parity = s.parity := rfl
@[simp] theorem writeBankStatus_exchD (ch : Channel) (b : Bank) (st : BankStatus) (s : State) : (writeBankStatus ch b st s).exchD = s.exchD := rfl
@[simp] theorem writeBankStatus_exchP1 (ch : Channel) (b : Bank) (st : BankStatus) (s : State) : (writeBankStatus ch b st s).exchP1 = s.exchP1 := rfl
@[simp] theorem writeBankStatus_exchP2 (ch : Channel) (b : Bank) (st : BankStatus) (s : State) : (writeBankStatus ch b st s).exchP2 = s.exchP2 := rfl
@[simp] theorem writeBankStatus_drum (ch : Channel) (b : Bank) (st : BankStatus) (s : State) : (writeBankStatus ch b st s).drum = s.drum := rfl
@[simp] theorem writeBankStatus_pump1 (ch : Channel) (b : Bank) (st : BankStatus) (s : State) : (writeBankStatus ch b st s).pump1 = s.pump1 := rfl
@[simp] theorem writeBankStatus_pump2 (ch : Channel) (b : Bank) (st : BankStatus) (s : State) : (writeBankStatus ch b st s).pump2 = s.pump2 := rfl
@[simp] theorem writeBankStatus_arb (ch : Channel) (b : Bank) (st : BankStatus) (s : State) : (writeBankStatus ch b st s).arb = s.arb := rfl
@[simp] theorem writeBankStatus_calA (ch : Channel) (b : Bank) (st : BankStatus) (s : State) : (writeBankStatus ch b st s).calA = s.calA := rfl
@[simp] theorem writeBankStatus_calB (ch : Channel) (b : Bank) (st : BankStatus) (s : State) : (writeBankStatus ch b st s).calB = s.calB := rfl
@[simp] theorem writeBankStatus_lpr (ch : Channel) (b : Bank) (st : BankStatus) (s : State) : (writeBankStatus ch b st s).lpr = s.lpr := rfl
@[simp] theorem writeBankStatus_trm (ch : Channel) (b : Bank) (st : BankStatus) (s : State) : (writeBankStatus ch b st s).trm = s.trm := rfl
@[simp] theorem writeBankStatus_gcu (ch : Channel) (b : Bank) (st : BankStatus) (s : State) : (writeBankStatus ch b st s).gcu = s.gcu := rfl
@[simp] theorem writeBankStatus_exch (ch : Channel) (b : Bank) (st : BankStatus) (s : State) (c' : Channel) : (writeBankStatus ch b st s).exch c' = s.exch c' := by cases c' <;> rfl
@[simp] theorem writeBankStatus_pump (ch : Channel) (b : Bank) (st : BankStatus) (s : State) (q : PumpId) : (writeBankStatus ch b st s).pump q = s.pump q := by cases q <;> rfl
@[simp] theorem writeBankStatus_cal (ch : Channel) (b : Bank) (st : BankStatus) (s : State) (v' : Conv) : (writeBankStatus ch b st s).cal v' = s.cal v' := by cases v' <;> rfl
@[simp] theorem writeBankStatus_inFlight (ch : Channel) (b : Bank) (st : BankStatus) (s : State) (v' : Conv) : (writeBankStatus ch b st s).inFlight v' = s.inFlight v' := by cases v' <;> rfl
@[simp] theorem writeBankStatus_cfg (ch : Channel) (b : Bank) (st : BankStatus) (s : State) : cfg (writeBankStatus ch b st s) = cfg s := rfl

/-! ### modLiveSeq -/

@[simp] theorem modLiveSeq_pending (ch : Channel) (f : Exchange → Exchange) (s : State) : (modLiveSeq ch f s).pending = s.pending := by cases ch <;> rfl
@[simp] theorem modLiveSeq_draws (ch : Channel) (f : Exchange → Exchange) (s : State) : (modLiveSeq ch f s).draws = s.draws := by cases ch <;> rfl
@[simp] theorem modLiveSeq_phase (ch : Channel) (f : Exchange → Exchange) (s : State) : (modLiveSeq ch f s).phase = s.phase := by cases ch <;> rfl
@[simp] theorem modLiveSeq_now (ch : Channel) (f : Exchange → Exchange) (s : State) : (modLiveSeq ch f s).now = s.now := by cases ch <;> rfl
@[simp] theorem modLiveSeq_port (ch : Channel) (f : Exchange → Exchange) (s : State) : (modLiveSeq ch f s).port = s.port := by cases ch <;> rfl
@[simp] theorem modLiveSeq_intPend (ch : Channel) (f : Exchange → Exchange) (s : State) : (modLiveSeq ch f s).intPend = s.intPend := by cases ch <;> rfl
@[simp] theorem modLiveSeq_intEn (ch : Channel) (f : Exchange → Exchange) (s : State) : (modLiveSeq ch f s).intEn = s.intEn := by cases ch <;> rfl
@[simp] theorem modLiveSeq_hpar (ch : Channel) (f : Exchange → Exchange) (s : State) : (modLiveSeq ch f s).hpar = s.hpar := by cases ch <;> rfl
@[simp] theorem modLiveSeq_access (ch : Channel) (f : Exchange → Exchange) (s : State) : (modLiveSeq ch f s).access = s.access := by cases ch <;> rfl
@[simp] theorem modLiveSeq_parity (ch : Channel) (f : Exchange → Exchange) (s : State) : (modLiveSeq ch f s).parity = s.parity := by cases ch <;> rfl
@[simp] theorem modLiveSeq_drum (ch : Channel) (f : Exchange → Exchange) (s : State) : (modLiveSeq ch f s).drum = s.drum := by cases ch <;> rfl
@[simp] theorem modLiveSeq_pump1 (ch : Channel) (f : Exchange → Exchange) (s : State) : (modLiveSeq ch f s).pump1 = s.pump1 := by cases ch <;> rfl
@[simp] theorem modLiveSeq_pump2 (ch : Channel) (f : Exchange → Exchange) (s : State) : (modLiveSeq ch f s).pump2 = s.pump2 := by cases ch <;> rfl
@[simp] theorem modLiveSeq_arb (ch : Channel) (f : Exchange → Exchange) (s : State) : (modLiveSeq ch f s).arb = s.arb := by cases ch <;> rfl
@[simp] theorem modLiveSeq_calA (ch : Channel) (f : Exchange → Exchange) (s : State) : (modLiveSeq ch f s).calA = s.calA := by cases ch <;> rfl
@[simp] theorem modLiveSeq_calB (ch : Channel) (f : Exchange → Exchange) (s : State) : (modLiveSeq ch f s).calB = s.calB := by cases ch <;> rfl
@[simp] theorem modLiveSeq_lpr (ch : Channel) (f : Exchange → Exchange) (s : State) : (modLiveSeq ch f s).lpr = s.lpr := by cases ch <;> rfl
@[simp] theorem modLiveSeq_trm (ch : Channel) (f : Exchange → Exchange) (s : State) : (modLiveSeq ch f s).trm = s.trm := by cases ch <;> rfl
@[simp] theorem modLiveSeq_gcu (ch : Channel) (f : Exchange → Exchange) (s : State) : (modLiveSeq ch f s).gcu = s.gcu := by cases ch <;> rfl
@[simp] theorem modLiveSeq_pump (ch : Channel) (f : Exchange → Exchange) (s : State) (q : PumpId) : (modLiveSeq ch f s).pump q = s.pump q := by cases q <;> cases ch <;> rfl
@[simp] theorem modLiveSeq_cal (ch : Channel) (f : Exchange → Exchange) (s : State) (v' : Conv) : (modLiveSeq ch f s).cal v' = s.cal v' := by cases v' <;> cases ch <;> rfl
@[simp] theorem modLiveSeq_inFlight (ch : Channel) (f : Exchange → Exchange) (s : State) (v' : Conv) : (modLiveSeq ch f s).inFlight v' = s.inFlight v' := by cases v' <;> cases ch <;> rfl
@[simp] theorem modLiveSeq_cfg (ch : Channel) (f : Exchange → Exchange) (s : State) : cfg (modLiveSeq ch f s) = cfg s := by cases ch <;> rfl

/-! ### modRetiredSeq -/

@[simp] theorem modRetiredSeq_pending (ch : Channel) (f : Exchange → Exchange) (s : State) : (modRetiredSeq ch f s).pending = s.pending := by cases ch <;> rfl
@[simp] theorem modRetiredSeq_draws (ch : Channel) (f : Exchange → Exchange) (s : State) : (modRetiredSeq ch f s).draws = s.draws := by cases ch <;> rfl
@[simp] theorem modRetiredSeq_phase (ch : Channel) (f : Exchange → Exchange) (s : State) : (modRetiredSeq ch f s).phase = s.phase := by cases ch <;> rfl
@[simp] theorem modRetiredSeq_now (ch : Channel) (f : Exchange → Exchange) (s : State) : (modRetiredSeq ch f s).now = s.now := by cases ch <;> rfl
@[simp] theorem modRetiredSeq_port (ch : Channel) (f : Exchange → Exchange) (s : State) : (modRetiredSeq ch f s).port = s.port := by cases ch <;> rfl
@[simp] theorem modRetiredSeq_intPend (ch : Channel) (f : Exchange → Exchange) (s : State) : (modRetiredSeq ch f s).intPend = s.intPend := by cases ch <;> rfl
@[simp] theorem modRetiredSeq_intEn (ch : Channel) (f : Exchange → Exchange) (s : State) : (modRetiredSeq ch f s).intEn = s.intEn := by cases ch <;> rfl
@[simp] theorem modRetiredSeq_hpar (ch : Channel) (f : Exchange → Exchange) (s : State) : (modRetiredSeq ch f s).hpar = s.hpar := by cases ch <;> rfl
@[simp] theorem modRetiredSeq_access (ch : Channel) (f : Exchange → Exchange) (s : State) : (modRetiredSeq ch f s).access = s.access := by cases ch <;> rfl
@[simp] theorem modRetiredSeq_parity (ch : Channel) (f : Exchange → Exchange) (s : State) : (modRetiredSeq ch f s).parity = s.parity := by cases ch <;> rfl
@[simp] theorem modRetiredSeq_drum (ch : Channel) (f : Exchange → Exchange) (s : State) : (modRetiredSeq ch f s).drum = s.drum := by cases ch <;> rfl
@[simp] theorem modRetiredSeq_pump1 (ch : Channel) (f : Exchange → Exchange) (s : State) : (modRetiredSeq ch f s).pump1 = s.pump1 := by cases ch <;> rfl
@[simp] theorem modRetiredSeq_pump2 (ch : Channel) (f : Exchange → Exchange) (s : State) : (modRetiredSeq ch f s).pump2 = s.pump2 := by cases ch <;> rfl
@[simp] theorem modRetiredSeq_arb (ch : Channel) (f : Exchange → Exchange) (s : State) : (modRetiredSeq ch f s).arb = s.arb := by cases ch <;> rfl
@[simp] theorem modRetiredSeq_calA (ch : Channel) (f : Exchange → Exchange) (s : State) : (modRetiredSeq ch f s).calA = s.calA := by cases ch <;> rfl
@[simp] theorem modRetiredSeq_calB (ch : Channel) (f : Exchange → Exchange) (s : State) : (modRetiredSeq ch f s).calB = s.calB := by cases ch <;> rfl
@[simp] theorem modRetiredSeq_lpr (ch : Channel) (f : Exchange → Exchange) (s : State) : (modRetiredSeq ch f s).lpr = s.lpr := by cases ch <;> rfl
@[simp] theorem modRetiredSeq_trm (ch : Channel) (f : Exchange → Exchange) (s : State) : (modRetiredSeq ch f s).trm = s.trm := by cases ch <;> rfl
@[simp] theorem modRetiredSeq_gcu (ch : Channel) (f : Exchange → Exchange) (s : State) : (modRetiredSeq ch f s).gcu = s.gcu := by cases ch <;> rfl
@[simp] theorem modRetiredSeq_pump (ch : Channel) (f : Exchange → Exchange) (s : State) (q : PumpId) : (modRetiredSeq ch f s).pump q = s.pump q := by cases q <;> cases ch <;> rfl
@[simp] theorem modRetiredSeq_cal (ch : Channel) (f : Exchange → Exchange) (s : State) (v' : Conv) : (modRetiredSeq ch f s).cal v' = s.cal v' := by cases v' <;> cases ch <;> rfl
@[simp] theorem modRetiredSeq_inFlight (ch : Channel) (f : Exchange → Exchange) (s : State) (v' : Conv) : (modRetiredSeq ch f s).inFlight v' = s.inFlight v' := by cases v' <;> cases ch <;> rfl
@[simp] theorem modRetiredSeq_cfg (ch : Channel) (f : Exchange → Exchange) (s : State) : cfg (modRetiredSeq ch f s) = cfg s := by cases ch <;> rfl

/-! ### writeMissCount -/

@[simp] theorem writeMissCount_pending (p : PumpId) (s : State) : (writeMissCount p s).pending = s.pending := rfl
@[simp] theorem writeMissCount_draws (p : PumpId) (s : State) : (writeMissCount p s).draws = s.draws := rfl
@[simp] theorem writeMissCount_phase (p : PumpId) (s : State) : (writeMissCount p s).phase = s.phase := rfl
@[simp] theorem writeMissCount_now (p : PumpId) (s : State) : (writeMissCount p s).now = s.now := rfl
@[simp] theorem writeMissCount_port (p : PumpId) (s : State) : (writeMissCount p s).port = s.port := rfl
@[simp] theorem writeMissCount_intPend (p : PumpId) (s : State) : (writeMissCount p s).intPend = s.intPend := rfl
@[simp] theorem writeMissCount_intEn (p : PumpId) (s : State) : (writeMissCount p s).intEn = s.intEn := rfl
@[simp] theorem writeMissCount_hpar (p : PumpId) (s : State) : (writeMissCount p s).hpar = s.hpar := rfl
@[simp] theorem writeMissCount_access (p : PumpId) (s : State) : (writeMissCount p s).access = s.access := rfl
@[simp] theorem writeMissCount_parity (p : PumpId) (s : State) : (writeMissCount p s).parity = s.parity := rfl
@[simp] theorem writeMissCount_exchD (p : PumpId) (s : State) : (writeMissCount p s).exchD = s.exchD := rfl
@[simp] theorem writeMissCount_exchP1 (p : PumpId) (s : State) : (writeMissCount p s).exchP1 = s.exchP1 := rfl
@[simp] theorem writeMissCount_exchP2 (p : PumpId) (s : State) : (writeMissCount p s).exchP2 = s.exchP2 := rfl
@[simp] theorem writeMissCount_drum (p : PumpId) (s : State) : (writeMissCount p s).drum = s.drum := rfl
@[simp] theorem writeMissCount_pump1 (p : PumpId) (s : State) : (writeMissCount p s).pump1 = s.pump1 := rfl
@[simp] theorem writeMissCount_pump2 (p : PumpId) (s : State) : (writeMissCount p s).pump2 = s.pump2 := rfl
@[simp] theorem writeMissCount_arb (p : PumpId) (s : State) : (writeMissCount p s).arb = s.arb := rfl
@[simp] theorem writeMissCount_calA (p : PumpId) (s : State) : (writeMissCount p s).calA = s.calA := rfl
@[simp] theorem writeMissCount_calB (p : PumpId) (s : State) : (writeMissCount p s).calB = s.calB := rfl
@[simp] theorem writeMissCount_lpr (p : PumpId) (s : State) : (writeMissCount p s).lpr = s.lpr := rfl
@[simp] theorem writeMissCount_trm (p : PumpId) (s : State) : (writeMissCount p s).trm = s.trm := rfl
@[simp] theorem writeMissCount_gcu (p : PumpId) (s : State) : (writeMissCount p s).gcu = s.gcu := rfl
@[simp] theorem writeMissCount_exch (p : PumpId) (s : State) (c' : Channel) : (writeMissCount p s).exch c' = s.exch c' := by cases c' <;> rfl
@[simp] theorem writeMissCount_pump (p : PumpId) (s : State) (q : PumpId) : (writeMissCount p s).pump q = s.pump q := by cases q <;> rfl
@[simp] theorem writeMissCount_cal (p : PumpId) (s : State) (v' : Conv) : (writeMissCount p s).cal v' = s.cal v' := by cases v' <;> rfl
@[simp] theorem writeMissCount_inFlight (p : PumpId) (s : State) (v' : Conv) : (writeMissCount p s).inFlight v' = s.inFlight v' := by cases v' <;> rfl
@[simp] theorem writeMissCount_cfg (p : PumpId) (s : State) : cfg (writeMissCount p s) = cfg s := rfl

/-! ### leavePump -/

@[simp] theorem leavePump_pending (p : PumpId) (f : Pump → Pump) (s : State) : (leavePump p f s).pending = s.pending := by unfold leavePump; split <;> cases p <;> rfl
@[simp] theorem leavePump_draws (p : PumpId) (f : Pump → Pump) (s : State) : (leavePump p f s).draws = s.draws := by unfold leavePump; split <;> cases p <;> rfl
@[simp] theorem leavePump_phase (p : PumpId) (f : Pump → Pump) (s : State) : (leavePump p f s).phase = s.phase := by unfold leavePump; split <;> cases p <;> rfl
@[simp] theorem leavePump_now (p : PumpId) (f : Pump → Pump) (s : State) : (leavePump p f s).now = s.now := by unfold leavePump; split <;> cases p <;> rfl
@[simp] theorem leavePump_port (p : PumpId) (f : Pump → Pump) (s : State) : (leavePump p f s).port = s.port := by unfold leavePump; split <;> cases p <;> rfl
@[simp] theorem leavePump_intPend (p : PumpId) (f : Pump → Pump) (s : State) : (leavePump p f s).intPend = s.intPend := by unfold leavePump; split <;> cases p <;> rfl
@[simp] theorem leavePump_intEn (p : PumpId) (f : Pump → Pump) (s : State) : (leavePump p f s).intEn = s.intEn := by unfold leavePump; split <;> cases p <;> rfl
@[simp] theorem leavePump_hpar (p : PumpId) (f : Pump → Pump) (s : State) : (leavePump p f s).hpar = s.hpar := by unfold leavePump; split <;> cases p <;> rfl
@[simp] theorem leavePump_access (p : PumpId) (f : Pump → Pump) (s : State) : (leavePump p f s).access = s.access := by unfold leavePump; split <;> cases p <;> rfl
@[simp] theorem leavePump_parity (p : PumpId) (f : Pump → Pump) (s : State) : (leavePump p f s).parity = s.parity := by unfold leavePump; split <;> cases p <;> rfl
@[simp] theorem leavePump_exchD (p : PumpId) (f : Pump → Pump) (s : State) : (leavePump p f s).exchD = s.exchD := by unfold leavePump; split <;> cases p <;> rfl
@[simp] theorem leavePump_exchP1 (p : PumpId) (f : Pump → Pump) (s : State) : (leavePump p f s).exchP1 = s.exchP1 := by unfold leavePump; split <;> cases p <;> rfl
@[simp] theorem leavePump_exchP2 (p : PumpId) (f : Pump → Pump) (s : State) : (leavePump p f s).exchP2 = s.exchP2 := by unfold leavePump; split <;> cases p <;> rfl
@[simp] theorem leavePump_drum (p : PumpId) (f : Pump → Pump) (s : State) : (leavePump p f s).drum = s.drum := by unfold leavePump; split <;> cases p <;> rfl
@[simp] theorem leavePump_arb (p : PumpId) (f : Pump → Pump) (s : State) : (leavePump p f s).arb = s.arb := by unfold leavePump; split <;> cases p <;> rfl
@[simp] theorem leavePump_calA (p : PumpId) (f : Pump → Pump) (s : State) : (leavePump p f s).calA = s.calA := by unfold leavePump; split <;> cases p <;> rfl
@[simp] theorem leavePump_calB (p : PumpId) (f : Pump → Pump) (s : State) : (leavePump p f s).calB = s.calB := by unfold leavePump; split <;> cases p <;> rfl
@[simp] theorem leavePump_lpr (p : PumpId) (f : Pump → Pump) (s : State) : (leavePump p f s).lpr = s.lpr := by unfold leavePump; split <;> cases p <;> rfl
@[simp] theorem leavePump_trm (p : PumpId) (f : Pump → Pump) (s : State) : (leavePump p f s).trm = s.trm := by unfold leavePump; split <;> cases p <;> rfl
@[simp] theorem leavePump_gcu (p : PumpId) (f : Pump → Pump) (s : State) : (leavePump p f s).gcu = s.gcu := by unfold leavePump; split <;> cases p <;> rfl
@[simp] theorem leavePump_exch (p : PumpId) (f : Pump → Pump) (s : State) (c' : Channel) : (leavePump p f s).exch c' = s.exch c' := by unfold leavePump; split <;> cases c' <;> cases p <;> rfl
@[simp] theorem leavePump_cal (p : PumpId) (f : Pump → Pump) (s : State) (v' : Conv) : (leavePump p f s).cal v' = s.cal v' := by unfold leavePump; split <;> cases v' <;> cases p <;> rfl
@[simp] theorem leavePump_inFlight (p : PumpId) (f : Pump → Pump) (s : State) (v' : Conv) : (leavePump p f s).inFlight v' = s.inFlight v' := by unfold leavePump; split <;> cases v' <;> cases p <;> rfl
@[simp] theorem leavePump_cfg (p : PumpId) (f : Pump → Pump) (s : State) : cfg (leavePump p f s) = cfg s := by unfold leavePump; split <;> cases p <;> rfl

/-! ### rewriteResults -/

@[simp] theorem rewriteResults_pending (ch : Channel) (b : Bank) (off n : Nat) (s : State) : (rewriteResults ch b off n s).pending = s.pending := rfl
@[simp] theorem rewriteResults_draws (ch : Channel) (b : Bank) (off n : Nat) (s : State) : (rewriteResults ch b off n s).draws = s.draws := rfl
@[simp] theorem rewriteResults_phase (ch : Channel) (b : Bank) (off n : Nat) (s : State) : (rewriteResults ch b off n s).phase = s.phase := rfl
@[simp] theorem rewriteResults_now (ch : Channel) (b : Bank) (off n : Nat) (s : State) : (rewriteResults ch b off n s).now = s.now := rfl
@[simp] theorem rewriteResults_port (ch : Channel) (b : Bank) (off n : Nat) (s : State) : (rewriteResults ch b off n s).port = s.port := rfl
@[simp] theorem rewriteResults_intPend (ch : Channel) (b : Bank) (off n : Nat) (s : State) : (rewriteResults ch b off n s).intPend = s.intPend := rfl
@[simp] theorem rewriteResults_intEn (ch : Channel) (b : Bank) (off n : Nat) (s : State) : (rewriteResults ch b off n s).intEn = s.intEn := rfl
@[simp] theorem rewriteResults_hpar (ch : Channel) (b : Bank) (off n : Nat) (s : State) : (rewriteResults ch b off n s).hpar = s.hpar := rfl
@[simp] theorem rewriteResults_access (ch : Channel) (b : Bank) (off n : Nat) (s : State) : (rewriteResults ch b off n s).access = s.access := rfl
@[simp] theorem rewriteResults_parity (ch : Channel) (b : Bank) (off n : Nat) (s : State) : (rewriteResults ch b off n s).parity = s.parity := rfl
@[simp] theorem rewriteResults_exchD (ch : Channel) (b : Bank) (off n : Nat) (s : State) : (rewriteResults ch b off n s).exchD = s.exchD := rfl
@[simp] theorem rewriteResults_exchP1 (ch : Channel) (b : Bank) (off n : Nat) (s : State) : (rewriteResults ch b off n s).exchP1 = s.exchP1 := rfl
@[simp] theorem rewriteResults_exchP2 (ch : Channel) (b : Bank) (off n : Nat) (s : State) : (rewriteResults ch b off n s).exchP2 = s.exchP2 := rfl
@[simp] theorem rewriteResults_drum (ch : Channel) (b : Bank) (off n : Nat) (s : State) : (rewriteResults ch b off n s).drum = s.drum := rfl
@[simp] theorem rewriteResults_pump1 (ch : Channel) (b : Bank) (off n : Nat) (s : State) : (rewriteResults ch b off n s).pump1 = s.pump1 := rfl
@[simp] theorem rewriteResults_pump2 (ch : Channel) (b : Bank) (off n : Nat) (s : State) : (rewriteResults ch b off n s).pump2 = s.pump2 := rfl
@[simp] theorem rewriteResults_arb (ch : Channel) (b : Bank) (off n : Nat) (s : State) : (rewriteResults ch b off n s).arb = s.arb := rfl
@[simp] theorem rewriteResults_calA (ch : Channel) (b : Bank) (off n : Nat) (s : State) : (rewriteResults ch b off n s).calA = s.calA := rfl
@[simp] theorem rewriteResults_calB (ch : Channel) (b : Bank) (off n : Nat) (s : State) : (rewriteResults ch b off n s).calB = s.calB := rfl
@[simp] theorem rewriteResults_lpr (ch : Channel) (b : Bank) (off n : Nat) (s : State) : (rewriteResults ch b off n s).lpr = s.lpr := rfl
@[simp] theorem rewriteResults_trm (ch : Channel) (b : Bank) (off n : Nat) (s : State) : (rewriteResults ch b off n s).trm = s.trm := rfl
@[simp] theorem rewriteResults_gcu (ch : Channel) (b : Bank) (off n : Nat) (s : State) : (rewriteResults ch b off n s).gcu = s.gcu := rfl
@[simp] theorem rewriteResults_exch (ch : Channel) (b : Bank) (off n : Nat) (s : State) (c' : Channel) : (rewriteResults ch b off n s).exch c' = s.exch c' := by cases c' <;> rfl
@[simp] theorem rewriteResults_pump (ch : Channel) (b : Bank) (off n : Nat) (s : State) (q : PumpId) : (rewriteResults ch b off n s).pump q = s.pump q := by cases q <;> rfl
@[simp] theorem rewriteResults_cal (ch : Channel) (b : Bank) (off n : Nat) (s : State) (v' : Conv) : (rewriteResults ch b off n s).cal v' = s.cal v' := by cases v' <;> rfl
@[simp] theorem rewriteResults_inFlight (ch : Channel) (b : Bank) (off n : Nat) (s : State) (v' : Conv) : (rewriteResults ch b off n s).inFlight v' = s.inFlight v' := by cases v' <;> rfl
@[simp] theorem rewriteResults_cfg (ch : Channel) (b : Bank) (off n : Nat) (s : State) : cfg (rewriteResults ch b off n s) = cfg s := rfl

/-! ### rewriteLive -/

@[simp] theorem rewriteLive_pending (p : PumpId) (off n : Nat) (s : State) : (rewriteLive p off n s).pending = s.pending := by unfold rewriteLive; split <;> rfl
@[simp] theorem rewriteLive_draws (p : PumpId) (off n : Nat) (s : State) : (rewriteLive p off n s).draws = s.draws := by unfold rewriteLive; split <;> rfl
@[simp] theorem rewriteLive_phase (p : PumpId) (off n : Nat) (s : State) : (rewriteLive p off n s).phase = s.phase := by unfold rewriteLive; split <;> rfl
@[simp] theorem rewriteLive_now (p : PumpId) (off n : Nat) (s : State) : (rewriteLive p off n s).now = s.now := by unfold rewriteLive; split <;> rfl
@[simp] theorem rewriteLive_port (p : PumpId) (off n : Nat) (s : State) : (rewriteLive p off n s).port = s.port := by unfold rewriteLive; split <;> rfl
@[simp] theorem rewriteLive_intPend (p : PumpId) (off n : Nat) (s : State) : (rewriteLive p off n s).intPend = s.intPend := by unfold rewriteLive; split <;> rfl
@[simp] theorem rewriteLive_intEn (p : PumpId) (off n : Nat) (s : State) : (rewriteLive p off n s).intEn = s.intEn := by unfold rewriteLive; split <;> rfl
@[simp] theorem rewriteLive_hpar (p : PumpId) (off n : Nat) (s : State) : (rewriteLive p off n s).hpar = s.hpar := by unfold rewriteLive; split <;> rfl
@[simp] theorem rewriteLive_access (p : PumpId) (off n : Nat) (s : State) : (rewriteLive p off n s).access = s.access := by unfold rewriteLive; split <;> rfl
@[simp] theorem rewriteLive_parity (p : PumpId) (off n : Nat) (s : State) : (rewriteLive p off n s).parity = s.parity := by unfold rewriteLive; split <;> rfl
@[simp] theorem rewriteLive_exchD (p : PumpId) (off n : Nat) (s : State) : (rewriteLive p off n s).exchD = s.exchD := by unfold rewriteLive; split <;> rfl
@[simp] theorem rewriteLive_exchP1 (p : PumpId) (off n : Nat) (s : State) : (rewriteLive p off n s).exchP1 = s.exchP1 := by unfold rewriteLive; split <;> rfl
@[simp] theorem rewriteLive_exchP2 (p : PumpId) (off n : Nat) (s : State) : (rewriteLive p off n s).exchP2 = s.exchP2 := by unfold rewriteLive; split <;> rfl
@[simp] theorem rewriteLive_drum (p : PumpId) (off n : Nat) (s : State) : (rewriteLive p off n s).drum = s.drum := by unfold rewriteLive; split <;> rfl
@[simp] theorem rewriteLive_pump1 (p : PumpId) (off n : Nat) (s : State) : (rewriteLive p off n s).pump1 = s.pump1 := by unfold rewriteLive; split <;> rfl
@[simp] theorem rewriteLive_pump2 (p : PumpId) (off n : Nat) (s : State) : (rewriteLive p off n s).pump2 = s.pump2 := by unfold rewriteLive; split <;> rfl
@[simp] theorem rewriteLive_arb (p : PumpId) (off n : Nat) (s : State) : (rewriteLive p off n s).arb = s.arb := by unfold rewriteLive; split <;> rfl
@[simp] theorem rewriteLive_calA (p : PumpId) (off n : Nat) (s : State) : (rewriteLive p off n s).calA = s.calA := by unfold rewriteLive; split <;> rfl
@[simp] theorem rewriteLive_calB (p : PumpId) (off n : Nat) (s : State) : (rewriteLive p off n s).calB = s.calB := by unfold rewriteLive; split <;> rfl
@[simp] theorem rewriteLive_lpr (p : PumpId) (off n : Nat) (s : State) : (rewriteLive p off n s).lpr = s.lpr := by unfold rewriteLive; split <;> rfl
@[simp] theorem rewriteLive_trm (p : PumpId) (off n : Nat) (s : State) : (rewriteLive p off n s).trm = s.trm := by unfold rewriteLive; split <;> rfl
@[simp] theorem rewriteLive_gcu (p : PumpId) (off n : Nat) (s : State) : (rewriteLive p off n s).gcu = s.gcu := by unfold rewriteLive; split <;> rfl
@[simp] theorem rewriteLive_exch (p : PumpId) (off n : Nat) (s : State) (c' : Channel) : (rewriteLive p off n s).exch c' = s.exch c' := by unfold rewriteLive; split <;> cases c' <;> rfl
@[simp] theorem rewriteLive_pump (p : PumpId) (off n : Nat) (s : State) (q : PumpId) : (rewriteLive p off n s).pump q = s.pump q := by unfold rewriteLive; split <;> cases q <;> rfl
@[simp] theorem rewriteLive_cal (p : PumpId) (off n : Nat) (s : State) (v' : Conv) : (rewriteLive p off n s).cal v' = s.cal v' := by unfold rewriteLive; split <;> cases v' <;> rfl
@[simp] theorem rewriteLive_inFlight (p : PumpId) (off n : Nat) (s : State) (v' : Conv) : (rewriteLive p off n s).inFlight v' = s.inFlight v' := by unfold rewriteLive; split <;> cases v' <;> rfl
@[simp] theorem rewriteLive_cfg (p : PumpId) (off n : Nat) (s : State) : cfg (rewriteLive p off n s) = cfg s := by unfold rewriteLive; split <;> rfl

/-! ### rewriteSlot -/

@[simp] theorem rewriteSlot_pending (r : Request) (k n : Nat) (s : State) : (rewriteSlot r k n s).pending = s.pending := by unfold rewriteSlot; split <;> (try split) <;> rfl
@[simp] theorem rewriteSlot_draws (r : Request) (k n : Nat) (s : State) : (rewriteSlot r k n s).draws = s.draws := by unfold rewriteSlot; split <;> (try split) <;> rfl
@[simp] theorem rewriteSlot_phase (r : Request) (k n : Nat) (s : State) : (rewriteSlot r k n s).phase = s.phase := by unfold rewriteSlot; split <;> (try split) <;> rfl
@[simp] theorem rewriteSlot_now (r : Request) (k n : Nat) (s : State) : (rewriteSlot r k n s).now = s.now := by unfold rewriteSlot; split <;> (try split) <;> rfl
@[simp] theorem rewriteSlot_port (r : Request) (k n : Nat) (s : State) : (rewriteSlot r k n s).port = s.port := by unfold rewriteSlot; split <;> (try split) <;> rfl
@[simp] theorem rewriteSlot_intPend (r : Request) (k n : Nat) (s : State) : (rewriteSlot r k n s).intPend = s.intPend := by unfold rewriteSlot; split <;> (try split) <;> rfl
@[simp] theorem rewriteSlot_intEn (r : Request) (k n : Nat) (s : State) : (rewriteSlot r k n s).intEn = s.intEn := by unfold rewriteSlot; split <;> (try split) <;> rfl
@[simp] theorem rewriteSlot_hpar (r : Request) (k n : Nat) (s : State) : (rewriteSlot r k n s).hpar = s.hpar := by unfold rewriteSlot; split <;> (try split) <;> rfl
@[simp] theorem rewriteSlot_access (r : Request) (k n : Nat) (s : State) : (rewriteSlot r k n s).access = s.access := by unfold rewriteSlot; split <;> (try split) <;> rfl
@[simp] theorem rewriteSlot_parity (r : Request) (k n : Nat) (s : State) : (rewriteSlot r k n s).parity = s.parity := by unfold rewriteSlot; split <;> (try split) <;> rfl
@[simp] theorem rewriteSlot_exchD (r : Request) (k n : Nat) (s : State) : (rewriteSlot r k n s).exchD = s.exchD := by unfold rewriteSlot; split <;> (try split) <;> rfl
@[simp] theorem rewriteSlot_exchP1 (r : Request) (k n : Nat) (s : State) : (rewriteSlot r k n s).exchP1 = s.exchP1 := by unfold rewriteSlot; split <;> (try split) <;> rfl
@[simp] theorem rewriteSlot_exchP2 (r : Request) (k n : Nat) (s : State) : (rewriteSlot r k n s).exchP2 = s.exchP2 := by unfold rewriteSlot; split <;> (try split) <;> rfl
@[simp] theorem rewriteSlot_drum (r : Request) (k n : Nat) (s : State) : (rewriteSlot r k n s).drum = s.drum := by unfold rewriteSlot; split <;> (try split) <;> rfl
@[simp] theorem rewriteSlot_pump1 (r : Request) (k n : Nat) (s : State) : (rewriteSlot r k n s).pump1 = s.pump1 := by unfold rewriteSlot; split <;> (try split) <;> rfl
@[simp] theorem rewriteSlot_pump2 (r : Request) (k n : Nat) (s : State) : (rewriteSlot r k n s).pump2 = s.pump2 := by unfold rewriteSlot; split <;> (try split) <;> rfl
@[simp] theorem rewriteSlot_arb (r : Request) (k n : Nat) (s : State) : (rewriteSlot r k n s).arb = s.arb := by unfold rewriteSlot; split <;> (try split) <;> rfl
@[simp] theorem rewriteSlot_calA (r : Request) (k n : Nat) (s : State) : (rewriteSlot r k n s).calA = s.calA := by unfold rewriteSlot; split <;> (try split) <;> rfl
@[simp] theorem rewriteSlot_calB (r : Request) (k n : Nat) (s : State) : (rewriteSlot r k n s).calB = s.calB := by unfold rewriteSlot; split <;> (try split) <;> rfl
@[simp] theorem rewriteSlot_lpr (r : Request) (k n : Nat) (s : State) : (rewriteSlot r k n s).lpr = s.lpr := by unfold rewriteSlot; split <;> (try split) <;> rfl
@[simp] theorem rewriteSlot_trm (r : Request) (k n : Nat) (s : State) : (rewriteSlot r k n s).trm = s.trm := by unfold rewriteSlot; split <;> (try split) <;> rfl
@[simp] theorem rewriteSlot_gcu (r : Request) (k n : Nat) (s : State) : (rewriteSlot r k n s).gcu = s.gcu := by unfold rewriteSlot; split <;> (try split) <;> rfl
@[simp] theorem rewriteSlot_exch (r : Request) (k n : Nat) (s : State) (c' : Channel) : (rewriteSlot r k n s).exch c' = s.exch c' := by unfold rewriteSlot; split <;> (try split) <;> cases c' <;> rfl
@[simp] theorem rewriteSlot_pump (r : Request) (k n : Nat) (s : State) (q : PumpId) : (rewriteSlot r k n s).pump q = s.pump q := by unfold rewriteSlot; split <;> (try split) <;> cases q <;> rfl
@[simp] theorem rewriteSlot_cal (r : Request) (k n : Nat) (s : State) (v' : Conv) : (rewriteSlot r k n s).cal v' = s.cal v' := by unfold rewriteSlot; split <;> (try split) <;> cases v' <;> rfl
@[simp] theorem rewriteSlot_inFlight (r : Request) (k n : Nat) (s : State) (v' : Conv) : (rewriteSlot r k n s).inFlight v' = s.inFlight v' := by unfold rewriteSlot; split <;> (try split) <;> cases v' <;> rfl
@[simp] theorem rewriteSlot_cfg (r : Request) (k n : Nat) (s : State) : cfg (rewriteSlot r k n s) = cfg s := by unfold rewriteSlot; split <;> (try split) <;> rfl

/-! ### writeDue -/

@[simp] theorem writeDue_pending (cv : Conv) (s : State) : (writeDue cv s).pending = s.pending := rfl
@[simp] theorem writeDue_draws (cv : Conv) (s : State) : (writeDue cv s).draws = s.draws := rfl
@[simp] theorem writeDue_phase (cv : Conv) (s : State) : (writeDue cv s).phase = s.phase := rfl
@[simp] theorem writeDue_now (cv : Conv) (s : State) : (writeDue cv s).now = s.now := rfl
@[simp] theorem writeDue_port (cv : Conv) (s : State) : (writeDue cv s).port = s.port := rfl
@[simp] theorem writeDue_intPend (cv : Conv) (s : State) : (writeDue cv s).intPend = s.intPend := rfl
@[simp] theorem writeDue_intEn (cv : Conv) (s : State) : (writeDue cv s).intEn = s.intEn := rfl
@[simp] theorem writeDue_hpar (cv : Conv) (s : State) : (writeDue cv s).hpar = s.hpar := rfl
@[simp] theorem writeDue_access (cv : Conv) (s : State) : (writeDue cv s).access = s.access := rfl
@[simp] theorem writeDue_parity (cv : Conv) (s : State) : (writeDue cv s).parity = s.parity := rfl
@[simp] theorem writeDue_exchD (cv : Conv) (s : State) : (writeDue cv s).exchD = s.exchD := rfl
@[simp] theorem writeDue_exchP1 (cv : Conv) (s : State) : (writeDue cv s).exchP1 = s.exchP1 := rfl
@[simp] theorem writeDue_exchP2 (cv : Conv) (s : State) : (writeDue cv s).exchP2 = s.exchP2 := rfl
@[simp] theorem writeDue_drum (cv : Conv) (s : State) : (writeDue cv s).drum = s.drum := rfl
@[simp] theorem writeDue_pump1 (cv : Conv) (s : State) : (writeDue cv s).pump1 = s.pump1 := rfl
@[simp] theorem writeDue_pump2 (cv : Conv) (s : State) : (writeDue cv s).pump2 = s.pump2 := rfl
@[simp] theorem writeDue_arb (cv : Conv) (s : State) : (writeDue cv s).arb = s.arb := rfl
@[simp] theorem writeDue_calA (cv : Conv) (s : State) : (writeDue cv s).calA = s.calA := rfl
@[simp] theorem writeDue_calB (cv : Conv) (s : State) : (writeDue cv s).calB = s.calB := rfl
@[simp] theorem writeDue_lpr (cv : Conv) (s : State) : (writeDue cv s).lpr = s.lpr := rfl
@[simp] theorem writeDue_trm (cv : Conv) (s : State) : (writeDue cv s).trm = s.trm := rfl
@[simp] theorem writeDue_gcu (cv : Conv) (s : State) : (writeDue cv s).gcu = s.gcu := rfl
@[simp] theorem writeDue_exch (cv : Conv) (s : State) (c' : Channel) : (writeDue cv s).exch c' = s.exch c' := by cases c' <;> rfl
@[simp] theorem writeDue_pump (cv : Conv) (s : State) (q : PumpId) : (writeDue cv s).pump q = s.pump q := by cases q <;> rfl
@[simp] theorem writeDue_cal (cv : Conv) (s : State) (v' : Conv) : (writeDue cv s).cal v' = s.cal v' := by cases v' <;> rfl
@[simp] theorem writeDue_inFlight (cv : Conv) (s : State) (v' : Conv) : (writeDue cv s).inFlight v' = s.inFlight v' := by cases v' <;> rfl
@[simp] theorem writeDue_cfg (cv : Conv) (s : State) : cfg (writeDue cv s) = cfg s := rfl

/-! ### writeSwitchResult -/

@[simp] theorem writeSwitchResult_pending (ch : Channel) (o : SwitchOutcome) (b : Option Bank) (s : State) : (writeSwitchResult ch o b s).pending = s.pending := rfl
@[simp] theorem writeSwitchResult_draws (ch : Channel) (o : SwitchOutcome) (b : Option Bank) (s : State) : (writeSwitchResult ch o b s).draws = s.draws := rfl
@[simp] theorem writeSwitchResult_phase (ch : Channel) (o : SwitchOutcome) (b : Option Bank) (s : State) : (writeSwitchResult ch o b s).phase = s.phase := rfl
@[simp] theorem writeSwitchResult_now (ch : Channel) (o : SwitchOutcome) (b : Option Bank) (s : State) : (writeSwitchResult ch o b s).now = s.now := rfl
@[simp] theorem writeSwitchResult_port (ch : Channel) (o : SwitchOutcome) (b : Option Bank) (s : State) : (writeSwitchResult ch o b s).port = s.port := rfl
@[simp] theorem writeSwitchResult_intPend (ch : Channel) (o : SwitchOutcome) (b : Option Bank) (s : State) : (writeSwitchResult ch o b s).intPend = s.intPend := rfl
@[simp] theorem writeSwitchResult_intEn (ch : Channel) (o : SwitchOutcome) (b : Option Bank) (s : State) : (writeSwitchResult ch o b s).intEn = s.intEn := rfl
@[simp] theorem writeSwitchResult_hpar (ch : Channel) (o : SwitchOutcome) (b : Option Bank) (s : State) : (writeSwitchResult ch o b s).hpar = s.hpar := rfl
@[simp] theorem writeSwitchResult_access (ch : Channel) (o : SwitchOutcome) (b : Option Bank) (s : State) : (writeSwitchResult ch o b s).access = s.access := rfl
@[simp] theorem writeSwitchResult_parity (ch : Channel) (o : SwitchOutcome) (b : Option Bank) (s : State) : (writeSwitchResult ch o b s).parity = s.parity := rfl
@[simp] theorem writeSwitchResult_exchD (ch : Channel) (o : SwitchOutcome) (b : Option Bank) (s : State) : (writeSwitchResult ch o b s).exchD = s.exchD := rfl
@[simp] theorem writeSwitchResult_exchP1 (ch : Channel) (o : SwitchOutcome) (b : Option Bank) (s : State) : (writeSwitchResult ch o b s).exchP1 = s.exchP1 := rfl
@[simp] theorem writeSwitchResult_exchP2 (ch : Channel) (o : SwitchOutcome) (b : Option Bank) (s : State) : (writeSwitchResult ch o b s).exchP2 = s.exchP2 := rfl
@[simp] theorem writeSwitchResult_drum (ch : Channel) (o : SwitchOutcome) (b : Option Bank) (s : State) : (writeSwitchResult ch o b s).drum = s.drum := rfl
@[simp] theorem writeSwitchResult_pump1 (ch : Channel) (o : SwitchOutcome) (b : Option Bank) (s : State) : (writeSwitchResult ch o b s).pump1 = s.pump1 := rfl
@[simp] theorem writeSwitchResult_pump2 (ch : Channel) (o : SwitchOutcome) (b : Option Bank) (s : State) : (writeSwitchResult ch o b s).pump2 = s.pump2 := rfl
@[simp] theorem writeSwitchResult_arb (ch : Channel) (o : SwitchOutcome) (b : Option Bank) (s : State) : (writeSwitchResult ch o b s).arb = s.arb := rfl
@[simp] theorem writeSwitchResult_calA (ch : Channel) (o : SwitchOutcome) (b : Option Bank) (s : State) : (writeSwitchResult ch o b s).calA = s.calA := rfl
@[simp] theorem writeSwitchResult_calB (ch : Channel) (o : SwitchOutcome) (b : Option Bank) (s : State) : (writeSwitchResult ch o b s).calB = s.calB := rfl
@[simp] theorem writeSwitchResult_lpr (ch : Channel) (o : SwitchOutcome) (b : Option Bank) (s : State) : (writeSwitchResult ch o b s).lpr = s.lpr := rfl
@[simp] theorem writeSwitchResult_trm (ch : Channel) (o : SwitchOutcome) (b : Option Bank) (s : State) : (writeSwitchResult ch o b s).trm = s.trm := rfl
@[simp] theorem writeSwitchResult_gcu (ch : Channel) (o : SwitchOutcome) (b : Option Bank) (s : State) : (writeSwitchResult ch o b s).gcu = s.gcu := rfl
@[simp] theorem writeSwitchResult_exch (ch : Channel) (o : SwitchOutcome) (b : Option Bank) (s : State) (c' : Channel) : (writeSwitchResult ch o b s).exch c' = s.exch c' := by cases c' <;> rfl
@[simp] theorem writeSwitchResult_pump (ch : Channel) (o : SwitchOutcome) (b : Option Bank) (s : State) (q : PumpId) : (writeSwitchResult ch o b s).pump q = s.pump q := by cases q <;> rfl
@[simp] theorem writeSwitchResult_cal (ch : Channel) (o : SwitchOutcome) (b : Option Bank) (s : State) (v' : Conv) : (writeSwitchResult ch o b s).cal v' = s.cal v' := by cases v' <;> rfl
@[simp] theorem writeSwitchResult_inFlight (ch : Channel) (o : SwitchOutcome) (b : Option Bank) (s : State) (v' : Conv) : (writeSwitchResult ch o b s).inFlight v' = s.inFlight v' := by cases v' <;> rfl
@[simp] theorem writeSwitchResult_cfg (ch : Channel) (o : SwitchOutcome) (b : Option Bank) (s : State) : cfg (writeSwitchResult ch o b s) = cfg s := rfl

/-! ### The memory after an update that shows a record -/

theorem modExch_mem (ch : Channel) (f : Exchange → Exchange) (s : State) :
    (modExch ch f s).mem = s.mem.writeChanged (controlAddr ch offRoles) (singles (s.exch ch).words)
      (singles (f (s.exch ch)).words) := by
  cases ch <;> rfl

theorem modDrum_mem (f : Drum → Drum) (s : State) :
    (modDrum f s).mem = s.mem.writeChanged (controlAddr .d offState) s.drum.quantities (f s.drum).quantities := rfl

theorem modPump_mem (p : PumpId) (f : Pump → Pump) (s : State) :
    (modPump p f s).mem =
      s.mem.writeChanged (controlAddr (pumpChannel p) offState) (singles (s.pump p).words)
        (singles (f (s.pump p)).words) := by
  cases p <;> rfl

theorem modDrumBank_mem (b : Bank) (f : DrumBank → DrumBank) (s : State) :
    (modDrumBank b f s).mem =
      s.mem.writeChanged (bankBase .d b + offResults .d) (s.drum.bank b).quantities
      (f (s.drum.bank b)).quantities := rfl

theorem modPumpBank_mem (p : PumpId) (b : Bank) (f : PumpBank → PumpBank) (s : State) :
    (modPumpBank p b f s).mem =
      s.mem.writeChanged (bankBase (pumpChannel p) b + offResults (pumpChannel p)) ((s.pump p).bank b).quantities
        (f ((s.pump p).bank b)).quantities := by
  cases p <;> rfl

theorem modCal_mem (cv : Conv) (f : CalRecord → CalRecord) (s : State) :
    (modCal cv f s).mem = s.mem.writeChanged (calAddr cv) (s.cal cv).quantities (f (s.cal cv)).quantities := by
  cases cv <;> rfl

theorem setPower_mem (p : Power) (s : State) :
    (setPower p s).mem = s.mem.writeChanged powerAddr [[w16 s.arb.power.code]] [[w16 p.code]] := rfl

theorem setConverter_mem (cv : Conv) (f : Option InFlight) (s : State) :
    (setConverter cv f s).mem = s.mem.write (convStatusAddr cv) (convStatusWord f) := by
  cases cv <;> rfl

theorem modTrm_mem (f : TripMonitor → TripMonitor) (s : State) :
    (modTrm f s).mem =
      ((s.mem.writeChanged (controlAddr .d offTripInputs) [[s.trm.inputsWord .d]] [[(f s.trm).inputsWord .d]]).writeChanged
        (controlAddr .p1 offTripInputs) [[s.trm.inputsWord .p1]] [[(f s.trm).inputsWord .p1]]).writeChanged
        (controlAddr .p2 offTripInputs) [[s.trm.inputsWord .p2]] [[(f s.trm).inputsWord .p2]] := rfl

theorem commandDone_mem (ch : Channel) (tag code : Byte) (o : Outcome) (s : State) :
    (commandDone ch tag code o s).mem = s.mem.writeList (controlAddr ch offCmdDone) (outcomeWords tag o code) := rfl

theorem commandRefused_mem (ch : Channel) (tag code : Byte) (o : Outcome) (s : State) :
    (commandRefused ch tag code o s).mem = s.mem.writeList (controlAddr ch offCmdRefused) (outcomeWords tag o code) := rfl

theorem globalDone_mem (tag code : Byte) (o : Outcome) (n : Nat) (s : State) :
    (globalDone tag code o n s).mem = s.mem.writeList gcmdDoneAddr (outcomeWords tag o code ++ [w16 n]) := rfl

theorem globalRefused_mem (tag code : Byte) (o : Outcome) (s : State) :
    (globalRefused tag code o s).mem = s.mem.writeList gcmdRefusedAddr (outcomeWords tag o code) := rfl

theorem recordFault_mem (a : Word) (k : FaultKind) (r : Option Role) (s : State) :
    (recordFault a k r s).mem = s.mem.writeChanged accessAddr (singles s.access.words)
      (singles (s.access.record a k r).words) := rfl

theorem recordParity_mem (src : ParitySource) (a : Nat) (s : State) :
    (recordParity src a s).mem = s.mem.writeChanged parityAddr (singles s.parity.words)
      (singles (s.parity.record (w16 a) src).words) := rfl

theorem writeBankStatus_mem (ch : Channel) (b : Bank) (st : BankStatus) (s : State) :
    (writeBankStatus ch b st s).mem = s.mem.write (bankBase ch b + offStatus ch) (w16 st.code) := rfl

theorem modLiveSeq_mem (ch : Channel) (f : Exchange → Exchange) (s : State) :
    (modLiveSeq ch f s).mem =
      (s.mem.writeChanged (controlAddr ch offRoles) (singles (s.exch ch).words) (singles (f (s.exch ch)).words)).write
        (controlAddr ch offLiveSeq) (f (s.exch ch)).liveSeq := by
  cases ch <;> rfl

theorem modRetiredSeq_mem (ch : Channel) (f : Exchange → Exchange) (s : State) :
    (modRetiredSeq ch f s).mem =
      (s.mem.writeChanged (controlAddr ch offRoles) (singles (s.exch ch).words) (singles (f (s.exch ch)).words)).write
        (controlAddr ch offRetiredSeq) (f (s.exch ch)).retiredSeq := by
  cases ch <;> rfl

theorem writeMissCount_mem (p : PumpId) (s : State) :
    (writeMissCount p s).mem =
      s.mem.write (controlAddr (pumpChannel p) offMissCount) (w16 (s.pump p).comm.missCount) := rfl

theorem rewriteResults_mem (ch : Channel) (b : Bank) (off n : Nat) (s : State) :
    (rewriteResults ch b off n s).mem =
      s.mem.writeList (bankBase ch b + (offResults ch + (off - offResults ch)))
        (((bankResults ch b s).drop (off - offResults ch)).take n) := rfl

theorem writeDue_mem (cv : Conv) (s : State) :
    (writeDue cv s).mem = s.mem.writeList (calAddr cv + 2) (twoWords (s.cal cv).due) := rfl

theorem writeSwitchResult_mem (ch : Channel) (o : SwitchOutcome) (b : Option Bank) (s : State) :
    (writeSwitchResult ch o b s).mem =
      s.mem.write (controlAddr ch offSwitchResult) (pack [(o.code, 0), (bankNumber b, 8)]) := rfl

/-! ### The copies of a record, after their updates -/

@[simp] theorem setExch_same (s : State) (ch : Channel) (e : Exchange) : (s.setExch ch e).exch ch = e := by
  cases ch <;> rfl

@[simp] theorem setExch_other (s : State) {c ch : Channel} (e : Exchange) (h : c ≠ ch) :
    (s.setExch ch e).exch c = s.exch c := by
  cases ch <;> cases c <;> first | rfl | exact absurd rfl h

@[simp] theorem modExch_same (ch : Channel) (f : Exchange → Exchange) (s : State) :
    (modExch ch f s).exch ch = f (s.exch ch) := by
  cases ch <;> rfl

@[simp] theorem modExch_other {c ch : Channel} (f : Exchange → Exchange) (s : State) (h : c ≠ ch) :
    (modExch ch f s).exch c = s.exch c := by
  cases ch <;> cases c <;> first | rfl | exact absurd rfl h

@[simp] theorem modLiveSeq_same (ch : Channel) (f : Exchange → Exchange) (s : State) :
    (modLiveSeq ch f s).exch ch = f (s.exch ch) := by
  cases ch <;> rfl

@[simp] theorem modLiveSeq_other {c ch : Channel} (f : Exchange → Exchange) (s : State) (h : c ≠ ch) :
    (modLiveSeq ch f s).exch c = s.exch c := by
  cases ch <;> cases c <;> first | rfl | exact absurd rfl h

@[simp] theorem modRetiredSeq_same (ch : Channel) (f : Exchange → Exchange) (s : State) :
    (modRetiredSeq ch f s).exch ch = f (s.exch ch) := by
  cases ch <;> rfl

@[simp] theorem modRetiredSeq_other {c ch : Channel} (f : Exchange → Exchange) (s : State) (h : c ≠ ch) :
    (modRetiredSeq ch f s).exch c = s.exch c := by
  cases ch <;> cases c <;> first | rfl | exact absurd rfl h

@[simp] theorem setPump_same (s : State) (p : PumpId) (x : Pump) : (s.setPump p x).pump p = x := by cases p <;> rfl

@[simp] theorem setPump_other (s : State) {q p : PumpId} (x : Pump) (h : q ≠ p) :
    (s.setPump p x).pump q = s.pump q := by
  cases p <;> cases q <;> first | rfl | exact absurd rfl h

@[simp] theorem modPump_same (p : PumpId) (f : Pump → Pump) (s : State) : (modPump p f s).pump p = f (s.pump p) := by
  cases p <;> rfl

@[simp] theorem modPump_other {q p : PumpId} (f : Pump → Pump) (s : State) (h : q ≠ p) :
    (modPump p f s).pump q = s.pump q := by
  cases p <;> cases q <;> first | rfl | exact absurd rfl h

@[simp] theorem leavePump_same (p : PumpId) (f : Pump → Pump) (s : State) :
    (leavePump p f s).pump p = f (s.pump p) := by
  unfold leavePump; split <;> cases p <;> rfl

@[simp] theorem leavePump_other {q p : PumpId} (f : Pump → Pump) (s : State) (h : q ≠ p) :
    (leavePump p f s).pump q = s.pump q := by
  unfold leavePump; split <;> cases p <;> cases q <;> first | rfl | exact absurd rfl h

@[simp] theorem modPumpBank_same (p : PumpId) (b : Bank) (f : PumpBank → PumpBank) (s : State) :
    (modPumpBank p b f s).pump p = (s.pump p).setBank b (f ((s.pump p).bank b)) := by
  cases p <;> rfl

@[simp] theorem modPumpBank_other {q p : PumpId} (b : Bank) (f : PumpBank → PumpBank) (s : State) (h : q ≠ p) :
    (modPumpBank p b f s).pump q = s.pump q := by
  cases p <;> cases q <;> first | rfl | exact absurd rfl h

@[simp] theorem modCal_same (cv : Conv) (f : CalRecord → CalRecord) (s : State) : (modCal cv f s).cal cv = f (s.cal cv) := by
  cases cv <;> rfl

@[simp] theorem modCal_other {c cv : Conv} (f : CalRecord → CalRecord) (s : State) (h : c ≠ cv) :
    (modCal cv f s).cal c = s.cal c := by
  cases cv <;> cases c <;> first | rfl | exact absurd rfl h

@[simp] theorem setConverter_same (cv : Conv) (f : Option InFlight) (s : State) : (setConverter cv f s).inFlight cv = f := by
  cases cv <;> rfl

@[simp] theorem setConverter_other {c cv : Conv} (f : Option InFlight) (s : State) (h : c ≠ cv) :
    (setConverter cv f s).inFlight c = s.inFlight c := by
  cases cv <;> cases c <;> first | rfl | exact absurd rfl h

@[simp] theorem setConverter_list (cv : Conv) (f : Option InFlight) (s : State) : (setConverter cv f s).arb.list = s.arb.list := by
  cases cv <;> rfl

@[simp] theorem setConverter_power (cv : Conv) (f : Option InFlight) (s : State) :
    (setConverter cv f s).arb.power = s.arb.power := by
  cases cv <;> rfl

@[simp] theorem setConverter_idleStart (cv : Conv) (f : Option InFlight) (s : State) :
    (setConverter cv f s).arb.idleStart = s.arb.idleStart := by
  cases cv <;> rfl

@[simp] theorem setRole_same (e : Exchange) (b : Bank) (r : Role) : (e.setRole b r).role b = r := by cases b <;> rfl

@[simp] theorem setRole_other (e : Exchange) (b : Bank) (r : Role) : (e.setRole b r).role (otherBank b) = e.role (otherBank b) := by
  cases b <;> rfl

@[simp] theorem setRole_liveSeq (e : Exchange) (b : Bank) (r : Role) : (e.setRole b r).liveSeq = e.liveSeq := by
  cases b <;> rfl

@[simp] theorem setRole_retiredSeq (e : Exchange) (b : Bank) (r : Role) : (e.setRole b r).retiredSeq = e.retiredSeq := by
  cases b <;> rfl

@[simp] theorem drum_setBank_same (d : Drum) (b : Bank) (x : DrumBank) : (d.setBank b x).bank b = x := by cases b <;> rfl

@[simp] theorem drum_setBank_other (d : Drum) (b : Bank) (x : DrumBank) :
    (d.setBank b x).bank (otherBank b) = d.bank (otherBank b) := by
  cases b <;> rfl

@[simp] theorem pump_setBank_same (x : Pump) (b : Bank) (y : PumpBank) : (x.setBank b y).bank b = y := by cases b <;> rfl

@[simp] theorem pump_setBank_other (x : Pump) (b : Bank) (y : PumpBank) :
    (x.setBank b y).bank (otherBank b) = x.bank (otherBank b) := by
  cases b <;> rfl

/-- The results of a bank are no part of what the drum itself is. -/
@[simp] theorem drum_setBank_own (d : Drum) (b : Bank) (x : DrumBank) : (d.setBank b x).own = d.own := by cases b <;> rfl

/-- The results of a bank are no part of what a pump itself is. -/
@[simp] theorem pump_setBank_own (x : Pump) (b : Bank) (y : PumpBank) : (x.setBank b y).own = x.own := by cases b <;> rfl

end Sys2Proof.Machine
end

