-- ==== Sys2Proof/Laws/Effects.lean ====
section
/-! SUPPORT. What the arbiter's operations can do, said once: an effect of the arbiter changes nothing but the results in
the banks, the exchange by retirements, the pending list and the converters, the calibration records, the account and the
words that show them. Every operation of Slots, Arbiter and Calibration is such an effect, and effects compose. -/

namespace Sys2Proof.Machine

/-! ### Interrupt flags -/

/-- The flags that were pending are pending still. -/
def KeepsFlags (s t : State) : Prop := s.intPend &&& ~~~t.intPend = 0

theorem keepsFlags_refl (s : State) : KeepsFlags s s := by simp [KeepsFlags]

theorem flags_trans {a b c : BitVec 12} (h : a &&& ~~~b = 0) (g : b &&& ~~~c = 0) : a &&& ~~~c = 0 := by
  ext i hi
  have h1 := congrArg (fun x => x.getLsbD i) h
  have g1 := congrArg (fun x => x.getLsbD i) g
  simp [hi] at h1 g1 ⊢
  intro ha
  exact g1 (h1 ha)

theorem KeepsFlags.trans {s t u : State} (h : KeepsFlags s t) (g : KeepsFlags t u) : KeepsFlags s u := flags_trans h g

theorem flags_or (a m : BitVec 12) : a &&& ~~~(a ||| m) = 0 := by
  ext i hi
  simp
  intro h h'
  simp [h] at h'

/-- A raised cause keeps every flag, and is pending. -/
theorem keepsFlags_raise (c : Cause) (s : State) : KeepsFlags s (raise c s) := flags_or _ _

/-- A flag that is pending stays pending through what keeps the flags. -/
theorem KeepsFlags.pending {s t : State} (h : KeepsFlags s t) {c : Cause} (hc : s.intPend &&& c.mask ≠ 0) :
    t.intPend &&& c.mask ≠ 0 := by
  intro h0
  apply hc
  ext i hi
  have h1 := congrArg (fun x => x.getLsbD i) h
  have h2 := congrArg (fun x => x.getLsbD i) h0
  simp [hi] at h1 h2 ⊢
  intro ha
  exact h2 (h1 ha)

/-- A cause is pending right after it is raised. -/
theorem raise_isPending (c : Cause) (s : State) : (raise c s).intPend &&& c.mask ≠ 0 := by
  have hm : c.mask ≠ 0 := by cases c <;> decide
  intro h
  apply hm
  ext i hi
  have h1 := congrArg (fun x => x.getLsbD i) h
  simp [hi] at h1 ⊢
  cases hm : c.mask[i]
  · rfl
  · exact (h1 (.inr hm)).symm.trans hm |>.symm

/-! ### Words -/

theorem mem_span {a n x : Nat} : x ∈ span a n ↔ a ≤ x ∧ x < a + n := by
  simp only [span, List.mem_map, List.mem_range]
  constructor
  · rintro ⟨i, hi, rfl⟩; omega
  · intro h; exact ⟨x - a, by omega, by omega⟩

theorem keepsOutside_refl (s : State) (ws : List Nat) : KeepsOutside s s ws := fun _ _ => rfl

theorem KeepsOutside.trans {s t u : State} {ws : List Nat} (h : KeepsOutside s t ws) (g : KeepsOutside t u ws) :
    KeepsOutside s u ws := fun a ha => (g a ha).trans (h a ha)

theorem KeepsOutside.mono {s t : State} {ws vs : List Nat} (h : KeepsOutside s t ws) (hs : ∀ a ∈ ws, a ∈ vs) :
    KeepsOutside s t vs := fun a ha => h a (fun hw => ha (hs a hw))

/-- A change that leaves the memory alone keeps every word. -/
theorem keepsOutside_of_mem_eq {s t : State} (h : t.mem = s.mem) (ws : List Nat) : KeepsOutside s t ws :=
  fun a _ => by rw [h]

theorem keepsOutside_write {s t : State} {a : Nat} {v : Word} {ws : List Nat} (h : t.mem = s.mem.write a v)
    (ha : a ∈ ws) : KeepsOutside s t ws := fun b hb => by
  rw [h]
  exact Memory.write_read_ne _ _ (fun hba => hb (hba ▸ ha))

theorem keepsOutside_writeList {s t : State} {a : Nat} {vs : List Word} {ws : List Nat}
    (h : t.mem = s.mem.writeList a vs) (ha : ∀ i < vs.length, a + i ∈ ws) : KeepsOutside s t ws := fun b hb => by
  rw [h]
  apply Memory.writeList_read_out
  by_contra hc
  have := ha (b - a) (by omega)
  rw [show a + (b - a) = b by omega] at this
  exact hb this

theorem keepsOutside_writeChanged {s t : State} {a : Nat} {old new : List (List Word)} {ws : List Nat}
    (h : t.mem = s.mem.writeChanged a old new) (ha : ∀ i < (wordsOf new).length, a + i ∈ ws) : KeepsOutside s t ws :=
  fun b hb => by
  rw [h]
  apply Memory.writeChanged_read_out
  by_contra hc
  have := ha (b - a) (by omega)
  rw [show a + (b - a) = b by omega] at this
  exact hb this

/-! ### Lengths of the records -/

/-! Each record's words are the words of its quantities, and so many of them. -/

@[simp] theorem wordsOf_drumBank (b : DrumBank) : wordsOf b.quantities = b.words := rfl

@[simp] theorem wordsOf_pumpBank (b : PumpBank) : wordsOf b.quantities = b.words := rfl

@[simp] theorem wordsOf_cal (r : CalRecord) : wordsOf r.quantities = r.words := rfl

@[simp] theorem wordsOf_drum (d : Drum) : wordsOf d.quantities = d.words := rfl

@[simp] theorem wordsOf_profiler (l : Profiler) : wordsOf l.quantities = l.words := rfl

@[simp] theorem wordsOf_drumTrip (d : Drum) : wordsOf d.tripQuantities = d.tripWords := rfl

@[simp] theorem wordsOf_pumpTrip (x : Pump) : wordsOf x.tripQuantities = x.tripWords := rfl

@[simp] theorem hallQuantities_length (l : List HallRecord) (dropped : BitVec 8) :
    (wordsOf (hallQuantities l dropped)).length = 13 := by
  simp [hallQuantities, HallRecord.quantities, twoWords]

@[simp] theorem drumBank_words_length (b : DrumBank) : b.words.length = 48 := by
  simp [DrumBank.words, DrumBank.quantities, WindowRecord.words, SlotRecord.words]

@[simp] theorem pumpBank_words_length (b : PumpBank) : b.words.length = 29 := by
  simp [PumpBank.words, PumpBank.quantities, PumpSlot.quantities, SlotRecord.words, twoWords, twoWordsNat]

@[simp] theorem cal_words_length (r : CalRecord) : r.words.length = 7 := by
  simp [CalRecord.words, CalRecord.quantities, twoWords]

@[simp] theorem exchange_words_length (e : Exchange) : e.words.length = 3 := rfl

@[simp] theorem drum_words_length (d : Drum) : d.words.length = 6 := by simp [Drum.words, Drum.quantities, twoWords]

@[simp] theorem pump_words_length (x : Pump) : x.words.length = 3 := rfl

@[simp] theorem profiler_words_length (l : Profiler) : l.words.length = 21 := by
  have h : ∀ cs : List (BitVec 32), (wordsOf (cs.map twoWords)).length = 2 * cs.length := by
    intro cs
    induction cs with
    | nil => rfl
    | cons c cs ih =>
      simp only [List.map_cons, wordsOf_cons, List.length_append, ih, List.length_cons]
      simp [twoWords]; omega
  simp [Profiler.words, Profiler.quantities, h]

@[simp] theorem drum_tripWords_length (d : Drum) : d.tripWords.length = 7 := by
  simp [Drum.tripWords, Drum.tripQuantities, Machine.tripQuantities, twoWords]

@[simp] theorem pump_tripWords_length (x : Pump) : x.tripWords.length = 8 := by
  simp [Pump.tripWords, Pump.tripQuantities, Machine.tripQuantities, twoWords, twoWordsNat]

@[simp] theorem access_words_length (r : AccessRecord) : r.words.length = 2 := rfl

@[simp] theorem parity_words_length (r : ParityRecord) : r.words.length = 2 := rfl

@[simp] theorem bankResults_length (ch : Channel) (b : Bank) (s : State) :
    (bankResults ch b s).length = match ch with
      | .d => 48
      | _ => 29 := by
  cases ch <;> simp [bankResults]

@[simp] theorem outcomeWords_length (tag : Byte) (o : Outcome) (code : Byte) : (outcomeWords tag o code).length = 2 := rfl

/-- The arbiter's words by their ranges. -/
theorem mem_arbiterWords {x : Nat} :
    x ∈ arbiterWords ↔ (0x00A ≤ x ∧ x < 0x040) ∨ (0x0C2 ≤ x ∧ x < 0x0C5) ∨ (0x0E2 ≤ x ∧ x < 0x0E5)
      ∨ (0x102 ≤ x ∧ x < 0x105) ∨ (0x130 ≤ x ∧ x < 0x170) ∨ (0x180 ≤ x ∧ x < 0x1C0) ∨ (0x1CC ≤ x ∧ x < 0x1F0)
      ∨ (0x1FC ≤ x ∧ x < 0x220) ∨ (0x22C ≤ x ∧ x < 0x250) ∨ (0x25C ≤ x ∧ x < 0x280) := by
  simp only [arbiterWords, resultWords, List.mem_append, mem_span, controlAddr, controlBase, offRoles, bankBase, planWords,
    bankWords]
  omega

/-! ### The exchange -/

/-- The exchange is as before, but that a RETIRING bank may have become HOST. -/
def OnlyRetires (s t : State) : Prop :=
  ∀ ch, (t.exch ch).liveSeq = (s.exch ch).liveSeq ∧
    ∀ b, (t.exch ch).role b = (s.exch ch).role b ∨
      ((s.exch ch).role b = .retiring ∧ (t.exch ch).role b = .host)

theorem onlyRetires_refl (s : State) : OnlyRetires s s := fun _ => ⟨rfl, fun _ => .inl rfl⟩

theorem OnlyRetires.trans {s t u : State} (h : OnlyRetires s t) (g : OnlyRetires t u) : OnlyRetires s u := fun ch =>
  ⟨(g ch).1.trans (h ch).1, fun b => by
    rcases (g ch).2 b with g1 | ⟨g1, g2⟩ <;> rcases (h ch).2 b with h1 | ⟨h1, h2⟩
    · exact .inl (g1.trans h1)
    · exact .inr ⟨h1, g1.trans h2⟩
    · exact .inr ⟨h1 ▸ g1, g2⟩
    · rw [h2] at g1; cases g1⟩

theorem onlyRetires_of_exch {s t : State} (h : ∀ ch, t.exch ch = s.exch ch) : OnlyRetires s t := fun ch =>
  ⟨by rw [h], fun b => .inl (by rw [h])⟩

/-! ### The effect of the arbiter -/

/-- What an operation of the arbiter can change (R93 to R120). -/
structure ArbiterEffect (s t : State) : Prop where
  rest : KeepsRest s t
  parity : t.parity = s.parity
  drum : t.drum.own = s.drum.own
  pump1 : t.pump1.own = s.pump1.own
  pump2 : t.pump2.own = s.pump2.own
  words : KeepsOutside s t arbiterWords
  flags : KeepsFlags s t
  form : s.mem.wf → t.mem.wf
  exch : OnlyRetires s t

theorem keepsRest_refl (s : State) : KeepsRest s s := rfl

theorem keepsRest_iff {s t : State} :
    KeepsRest s t ↔ t.pending = s.pending ∧ t.draws = s.draws ∧ t.phase = s.phase ∧ t.now = s.now ∧ t.port = s.port ∧
      t.intEn = s.intEn ∧ t.hpar = s.hpar ∧ t.access = s.access ∧ t.trm = s.trm ∧ t.gcu = s.gcu := by
  unfold KeepsRest
  cases s
  cases t
  simp only [State.mk.injEq, true_and]

theorem KeepsRest.trans {s t u : State} (h : KeepsRest s t) (g : KeepsRest t u) : KeepsRest s u := by
  rw [keepsRest_iff] at *
  obtain ⟨h1, h2, h3, h4, h5, h6, h7, h8, h9, h10⟩ := h
  obtain ⟨g1, g2, g3, g4, g5, g6, g7, g8, g9, g10⟩ := g
  exact ⟨g1.trans h1, g2.trans h2, g3.trans h3, g4.trans h4, g5.trans h5, g6.trans h6, g7.trans h7, g8.trans h8,
    g9.trans h9, g10.trans h10⟩

theorem arbiterEffect_refl (s : State) : ArbiterEffect s s :=
  ⟨rfl, rfl, rfl, rfl, rfl, keepsOutside_refl _ _, keepsFlags_refl _, id, onlyRetires_refl _⟩

theorem ArbiterEffect.trans {s t u : State} (h : ArbiterEffect s t) (g : ArbiterEffect t u) : ArbiterEffect s u :=
  ⟨h.rest.trans g.rest, g.parity.trans h.parity, g.drum.trans h.drum, g.pump1.trans h.pump1, g.pump2.trans h.pump2,
    h.words.trans g.words, h.flags.trans g.flags, fun w => g.form (h.form w), h.exch.trans g.exch⟩

/-- NOW is as before. -/
theorem ArbiterEffect.now {s t : State} (h : ArbiterEffect s t) : t.now = s.now := (keepsRest_iff.mp h.rest).2.2.2.1

/-- The configuration is as before. -/
theorem ArbiterEffect.cfg {s t : State} (h : ArbiterEffect s t) : cfg t = cfg s := by
  have := (keepsRest_iff.mp h.rest).2.2.2.2.2.2.2.2.2
  simp only [Machine.cfg, this]

/-! ### The single updates -/

theorem raise_effect (c : Cause) (s : State) : ArbiterEffect s (raise c s) :=
  ⟨rfl, rfl, rfl, rfl, rfl, keepsOutside_of_mem_eq rfl _, keepsFlags_raise c s, id,
    onlyRetires_of_exch (fun ch => raise_exch c s ch)⟩

theorem setList_effect (l : List Entry) (s : State) : ArbiterEffect s (setList l s) :=
  ⟨rfl, rfl, rfl, rfl, rfl, keepsOutside_of_mem_eq rfl _, keepsFlags_refl _, id,
    onlyRetires_of_exch (fun ch => setList_exch l s ch)⟩

theorem setConverter_effect (cv : Conv) (f : Option InFlight) (s : State) : ArbiterEffect s (setConverter cv f s) :=
  ⟨keepsRest_iff.mpr (by simp), by simp, by simp, by simp, by simp,
    keepsOutside_write (setConverter_mem cv f s) (mem_arbiterWords.mpr (by cases cv <;> simp [convStatusAddr])),
    by simp [KeepsFlags], fun h => by rw [setConverter_mem]; exact Memory.write_wf h _ _,
    onlyRetires_of_exch (fun ch => setConverter_exch cv f s ch)⟩

theorem setPower_effect (p : Power) (s : State) : ArbiterEffect s (setPower p s) :=
  ⟨keepsRest_iff.mpr (by simp), by simp, by simp, by simp, by simp,
    keepsOutside_writeChanged (setPower_mem p s)
      (fun i hi => mem_arbiterWords.mpr (by simp at hi; simp [powerAddr, hi])),
    by simp [KeepsFlags], fun h => by rw [setPower_mem]; exact Memory.writeChanged_wf h _ _ _,
    onlyRetires_of_exch (fun ch => setPower_exch p s ch)⟩

theorem modDrumBank_effect (b : Bank) (f : DrumBank → DrumBank) (s : State) : ArbiterEffect s (modDrumBank b f s) :=
  ⟨keepsRest_iff.mpr (by simp), by simp, by simp, by simp, by simp,
    keepsOutside_writeChanged (modDrumBank_mem b f s)
      (fun i hi => mem_arbiterWords.mpr (by simp at hi; cases b <;> simp only [bankBase, offResults] <;> omega)),
    by simp [KeepsFlags], fun h => by rw [modDrumBank_mem]; exact Memory.writeChanged_wf h _ _ _,
    onlyRetires_of_exch (fun ch => modDrumBank_exch b f s ch)⟩

theorem modPumpBank_effect (p : PumpId) (b : Bank) (f : PumpBank → PumpBank) (s : State) :
    ArbiterEffect s (modPumpBank p b f s) := by
  refine ⟨keepsRest_iff.mpr (by simp), by simp, by simp, ?_, ?_,
    keepsOutside_writeChanged (modPumpBank_mem p b f s)
      (fun i hi => mem_arbiterWords.mpr (by
        simp at hi; cases p <;> cases b <;> simp only [bankBase, pumpChannel, offResults] <;> omega)),
    by simp [KeepsFlags], fun h => by rw [modPumpBank_mem]; exact Memory.writeChanged_wf h _ _ _,
    onlyRetires_of_exch (fun ch => modPumpBank_exch p b f s ch)⟩
  · cases p
    · exact pump_setBank_own _ _ _
    · rfl
  · cases p
    · rfl
    · exact pump_setBank_own _ _ _

theorem modCal_effect (cv : Conv) (f : CalRecord → CalRecord) (s : State) : ArbiterEffect s (modCal cv f s) :=
  ⟨keepsRest_iff.mpr (by simp), by simp, by simp, by simp, by simp,
    keepsOutside_writeChanged (modCal_mem cv f s)
      (fun i hi => mem_arbiterWords.mpr (by simp at hi; cases cv <;> simp only [calAddr] <;> omega)),
    by simp [KeepsFlags], fun h => by rw [modCal_mem]; exact Memory.writeChanged_wf h _ _ _,
    onlyRetires_of_exch (fun ch => modCal_exch cv f s ch)⟩

/-- The results of a bank written again as they stand are an effect of the arbiter. -/
theorem rewriteResults_effect (ch : Channel) (b : Bank) (off n : Nat) (s : State) :
    ArbiterEffect s (rewriteResults ch b off n s) :=
  ⟨keepsRest_iff.mpr (by simp), by simp, by simp, by simp, by simp,
    keepsOutside_writeList (rewriteResults_mem ch b off n s)
      (fun i hi => mem_arbiterWords.mpr (by
        simp at hi; cases ch <;> cases b <;> simp only [bankBase, offResults] at * <;> omega)),
    by simp [KeepsFlags], fun h => by rw [rewriteResults_mem]; exact Memory.writeList_wf h _ _,
    onlyRetires_of_exch (fun c => rewriteResults_exch ch b off n s c)⟩

theorem rewriteSlot_effect (r : Request) (k n : Nat) (s : State) : ArbiterEffect s (rewriteSlot r k n s) := by
  unfold rewriteSlot
  split
  · split <;> first | exact rewriteResults_effect _ _ _ _ _ | exact arbiterEffect_refl s
  · exact arbiterEffect_refl s

theorem writeDue_effect (cv : Conv) (s : State) : ArbiterEffect s (writeDue cv s) :=
  ⟨rfl, rfl, rfl, rfl, rfl,
    keepsOutside_writeList (writeDue_mem cv s)
      (fun i hi => mem_arbiterWords.mpr (by simp [twoWords] at hi; cases cv <;> simp only [calAddr] <;> omega)),
    keepsFlags_refl _, fun h => Memory.writeList_wf h _ _, onlyRetires_of_exch (fun _ => rfl)⟩

/-! ### Statuses, settling, retirement -/

theorem modNamedSlot_effect (r : Request) (fd : SlotRecord → SlotRecord) (fp : PumpSlot → PumpSlot) (s : State) :
    ArbiterEffect s (modNamedSlot r fd fp s) := by
  unfold modNamedSlot
  split
  · exact arbiterEffect_refl s
  · split
    · exact modDrumBank_effect _ _ _
    · exact modPumpBank_effect _ _ _ _
    · exact modPumpBank_effect _ _ _ _
    · exact arbiterEffect_refl s

theorem modSlotStatus_effect (r : Request) (fd : SlotRecord → SlotRecord) (fp : PumpSlot → PumpSlot) (s : State) :
    ArbiterEffect s (modSlotStatus r fd fp s) :=
  (modNamedSlot_effect r fd fp s).trans (rewriteSlot_effect _ _ _ _)

theorem writeStatus_effect (r : Request) (st : SlotStatus) (s : State) : ArbiterEffect s (writeStatus r st s) :=
  modSlotStatus_effect _ _ _ _

theorem settlePair_effect (b : Bank) (s : State) : ArbiterEffect s (settlePair b s) := by
  unfold settlePair
  simp only
  split
  · exact ((modDrumBank_effect _ _ s).trans (rewriteResults_effect _ _ _ _ _)).trans (rewriteResults_effect _ _ _ _ _)
  · exact arbiterEffect_refl s

theorem settleAfter_effect (r : Request) (s : State) : ArbiterEffect s (settleAfter r s) := by
  unfold settleAfter
  split
  · split
    · exact settlePair_effect _ _
    · exact arbiterEffect_refl s
  · exact arbiterEffect_refl s

theorem retire_mem (ch : Channel) (b : Bank) (s : State) :
    (retire ch b s).mem =
      (((s.mem.writeList (bankBase ch b + offRetireTime ch) (twoWords s.now)).write (bankBase ch b + offStatus ch)
        (w16 BankStatus.retired.code)).writeChanged (controlAddr ch offRoles) (singles (s.exch ch).words)
        (singles ({ (s.exch ch).setRole b .host with retiredSeq := bankSeq ch b s } : Exchange).words)).write
        (controlAddr ch offRetiredSeq) (bankSeq ch b s) := by
  simp [retire, modRetiredSeq_mem, writeBankStatus_mem]

theorem retire_exch (ch : Channel) (b : Bank) (s : State) :
    (retire ch b s).exch ch = { (s.exch ch).setRole b .host with retiredSeq := bankSeq ch b s } := by
  simp [retire]

theorem retire_exch_other {c ch : Channel} (b : Bank) (s : State) (h : c ≠ ch) : (retire ch b s).exch c = s.exch c := by
  simp [retire, h]

/-- A retirement of a RETIRING bank: its words lie in the bank and in the channel's role words, the bank becomes HOST. -/
theorem retire_effect (ch : Channel) (b : Bank) (s : State) (h : (s.exch ch).role b = .retiring) :
    ArbiterEffect s (retire ch b s) := by
  refine ⟨keepsRest_iff.mpr (by simp [retire]), by simp [retire], by simp [retire], by simp [retire], by simp [retire],
    ?_, ?_, ?_, ?_⟩
  · intro x hx
    rw [mem_arbiterWords] at hx
    rw [retire_mem, Memory.write_read_ne, Memory.writeChanged_read_out, Memory.write_read_ne,
      Memory.writeList_read_out]
    · cases ch <;> cases b <;> simp only [bankBase, offRetireTime, twoWords, List.length_cons, List.length_nil] <;> omega
    · cases ch <;> cases b <;> simp only [bankBase, offStatus] <;> omega
    · rw [wordsOf_singles, exchange_words_length]
      cases ch <;> simp only [controlAddr, controlBase, offRoles] <;> omega
    · cases ch <;> simp only [controlAddr, controlBase, offRetiredSeq] <;> omega
  · have : (retire ch b s).intPend = s.intPend ||| (retCause ch).mask := by simp [retire]
    rw [KeepsFlags, this]
    exact flags_or _ _
  · intro hw
    rw [retire_mem]
    exact Memory.write_wf (Memory.writeChanged_wf (Memory.write_wf (Memory.writeList_wf hw _ _) _ _) _ _ _) _ _
  · intro c
    by_cases hc : c = ch
    · subst hc
      rw [retire_exch]
      refine ⟨by cases b <;> rfl, fun b' => ?_⟩
      by_cases hb : b' = b
      · subst hb
        exact .inr ⟨h, by cases b' <;> rfl⟩
      · refine .inl ?_
        cases b <;> cases b' <;> first | rfl | exact absurd rfl hb
    · rw [retire_exch_other b s hc]
      exact ⟨rfl, fun _ => .inl rfl⟩

/-- The bank found in a role has it. -/
theorem bankIn_role {e : Exchange} {r : Role} {b : Bank} (h : e.bankIn r = some b) : e.role b = r := by
  unfold Exchange.bankIn at h
  split at h
  · cases h; assumption
  · split at h
    · cases h; assumption
    · cases h

theorem retireCheck_effect (ch : Channel) (s : State) : ArbiterEffect s (retireCheck ch s) := by
  unfold retireCheck
  split
  · split
    · exact arbiterEffect_refl s
    · exact retire_effect _ _ _ (bankIn_role ‹_›)
  · exact arbiterEffect_refl s

theorem reportToPxl_effect (o : Origin) (s : State) : ArbiterEffect s (reportToPxl o s) := by
  unfold reportToPxl
  split <;> first | exact retireCheck_effect _ _ | exact arbiterEffect_refl s

theorem foldl_effect {α : Type} (f : State → α → State) (h : ∀ s a, ArbiterEffect s (f s a)) (l : List α) (s : State) :
    ArbiterEffect s (l.foldl f s) := by
  induction l generalizing s with
  | nil => exact arbiterEffect_refl s
  | cons a l ih => exact (h s a).trans (ih (f s a))

theorem dropEntries_effect (ch : Channel) (st : SlotStatus) (which : Request → Bool) (s : State) :
    ArbiterEffect s (dropEntries ch st which s) := by
  unfold dropEntries
  simp only
  refine ArbiterEffect.trans ?_ (retireCheck_effect _ _)
  refine ArbiterEffect.trans ?_ (foldl_effect _ (fun t r => settleAfter_effect r t) _ _)
  refine ArbiterEffect.trans ?_ (foldl_effect _ (fun t r => writeStatus_effect r st t) _ _)
  exact setList_effect _ s

/-! ### Reports, starts, offers -/

theorem report_effect (o : Origin) (k : Fin 10) (s : State) : ArbiterEffect s (report o k s) := by
  have h : ArbiterEffect s (showWords profilerAddr s.lpr.quantities (s.lpr.count k).quantities { s with lpr := s.lpr.count k }) :=
    ⟨rfl, rfl, rfl, rfl, rfl,
      keepsOutside_writeChanged (showWords_mem _ _ _ _)
        (fun i hi => mem_arbiterWords.mpr (by simp at hi; simp only [profilerAddr]; omega)),
      keepsFlags_refl _, fun h => Memory.writeChanged_wf h _ _ _,
      onlyRetires_of_exch (fun ch => by cases ch <;> rfl)⟩
  unfold report
  split
  · simp only
    split
    · exact h.trans (raise_effect _ _)
    · exact h
  · exact arbiterEffect_refl s

theorem setCalPhase_effect (o : Origin) (ph : CalPhase) (s : State) : ArbiterEffect s (setCalPhase o ph s) := by
  unfold setCalPhase
  split
  · exact modCal_effect _ _ _
  · exact arbiterEffect_refl s

theorem startConversion_effect (cv : Conv) (e : Entry) (s : State) : ArbiterEffect s (startConversion cv e s) := by
  unfold startConversion
  simp only
  refine ArbiterEffect.trans ?_ (reportToPxl_effect _ _)
  refine ArbiterEffect.trans ?_ (report_effect _ _ _)
  refine ArbiterEffect.trans ?_ (setCalPhase_effect _ _ _)
  refine ArbiterEffect.trans ?_ (writeStatus_effect _ _ _)
  exact (setList_effect _ s).trans (setConverter_effect _ _ _)

theorem assignTo_effect (cv : Conv) (s : State) : ArbiterEffect s (assignTo cv s) := by
  unfold assignTo
  split
  · split
    · exact startConversion_effect _ _ _
    · exact arbiterEffect_refl s
  · exact arbiterEffect_refl s

theorem assign_effect (s : State) : ArbiterEffect s (assign s) := by
  unfold assign
  split
  · exact (assignTo_effect _ _).trans (assignTo_effect _ _)
  · exact arbiterEffect_refl s

theorem replaceSame_effect (r : Request) (s : State) : ArbiterEffect s (replaceSame r s) := by
  unfold replaceSame
  split
  · exact ((setList_effect _ s).trans (writeStatus_effect _ _ _)).trans (reportToPxl_effect _ _)
  · exact arbiterEffect_refl s

/-- A change of the arbiter's own record alone, which writes no word, is an effect of the arbiter. -/
theorem setArb_effect (a : Arbiter) (s : State) : ArbiterEffect s { s with arb := a } :=
  ⟨rfl, rfl, rfl, rfl, rfl, keepsOutside_of_mem_eq rfl _, keepsFlags_refl _, id,
    onlyRetires_of_exch (fun ch => by cases ch <;> rfl)⟩

/-- Everything a wake cause does to the arbiter (R123). -/
theorem wakeCause_arb (s : State) :
    (wakeCause s).arb =
      if s.arb.power = .sleep then { s.arb with power := .waking, wakeEnd := s.now + ticks Config.wakeTicks }
      else if s.arb.power = .awake then { s.arb with wakeNow := true } else s.arb := by
  unfold wakeCause
  split
  · simp [setPower]
  · split <;> rfl

theorem wakeCause_effect (s : State) : ArbiterEffect s (wakeCause s) := by
  unfold wakeCause
  split
  · exact (setArb_effect _ s).trans (setPower_effect _ _)
  · split
    · exact setArb_effect _ s
    · exact arbiterEffect_refl s

theorem insertOffer_effect (r : Request) (s : State) : ArbiterEffect s (insertOffer r s) := by
  have h := ((setList_effect (placeEntry { req := r, eligible := reached s.now r.inst } s.arb.list) s).trans
    (writeStatus_effect r .queued _)).trans (setCalPhase_effect r.origin .listed _)
  unfold insertOffer
  simp only
  split
  · exact h.trans (wakeCause_effect _)
  · exact h

theorem evict_effect (r : Request) (s : State) : ArbiterEffect s (evict r s) := by
  have h := (modSlotStatus_effect r (fun x => { x with status := .evicted })
    (fun x => { x with status := .evicted, evictedCount := satInc x.evictedCount }) s).trans
      (report_effect r.origin counterEvicted _)
  unfold evict
  simp only
  refine ArbiterEffect.trans ?_ (reportToPxl_effect _ _)
  split
  · exact h.trans (modCal_effect _ _ _)
  · exact h

theorem offerListed_effect (r : Request) (s : State) : ArbiterEffect s (offerListed r s) := by
  unfold offerListed
  simp only
  split
  · exact (replaceSame_effect r s).trans (insertOffer_effect _ _)
  · split
    · split
      · exact (((replaceSame_effect r s).trans (setList_effect _ _)).trans (evict_effect _ _)).trans
          (insertOffer_effect _ _)
      · exact (replaceSame_effect r s).trans (evict_effect _ _)
    · exact (replaceSame_effect r s).trans (insertOffer_effect _ _)

/-- Everything an offer can change (R96, R97). -/
theorem offer_effect (r : Request) (s : State) : ArbiterEffect s (offer r s) := by
  unfold offer
  simp only
  split
  · exact (offerListed_effect r s).trans (assign_effect _)
  · exact offerListed_effect r s

/-- Everything an eligibility event can change (R98). -/
theorem becomeEligible_effect (s : State) : ArbiterEffect s (becomeEligible s) :=
  (setList_effect _ s).trans (assign_effect _)

/-- Everything an expiry can change (R101). -/
theorem expireEntry_effect (e : Entry) (s : State) : ArbiterEffect s (expireEntry e s) := by
  unfold expireEntry
  simp only
  exact ((((setList_effect _ s).trans (modSlotStatus_effect _ _ _ _)).trans (report_effect _ _ _)).trans
    (settleAfter_effect _ _)).trans (reportToPxl_effect _ _)

theorem raiseListed_effect (cv : Conv) (cls : ReqClass) (s : State) : ArbiterEffect s (raiseListed cv cls s) := by
  unfold raiseListed
  split
  · exact setList_effect _ s
  · exact arbiterEffect_refl s

/-! ### Calibration and completion -/

theorem beginSweep_effect (cv : Conv) (cls : CalClass) (s : State) : ArbiterEffect s (beginSweep cv cls s) :=
  (modCal_effect _ _ s).trans (offer_effect _ _)

theorem raiseSweep_effect (cv : Conv) (cls : CalClass) (s : State) : ArbiterEffect s (raiseSweep cv cls s) := by
  unfold raiseSweep
  simp only
  refine ArbiterEffect.trans ?_ (wakeCause_effect _)
  split
  · exact (modCal_effect _ _ s).trans (raiseListed_effect _ _ _)
  · exact (modCal_effect _ _ s).trans (offer_effect _ _)
  · exact modCal_effect _ _ s

theorem actOnRaise_effect (cv : Conv) (s : State) : ArbiterEffect s (actOnRaise cv s) := by
  unfold actOnRaise
  split
  · exact raiseSweep_effect _ _ _
  · exact arbiterEffect_refl s

theorem endSweep_effect (cv : Conv) (sum : Nat) (s : State) : ArbiterEffect s (endSweep cv sum s) := by
  unfold endSweep
  simp only
  split
  · exact (modCal_effect _ _ s).trans (raise_effect _ _)
  · exact modCal_effect _ _ s

theorem calResult_effect (cv : Conv) (raw : Raw) (s : State) : ArbiterEffect s (calResult cv raw s) := by
  unfold calResult
  simp only
  split
  · exact endSweep_effect _ _ _
  · exact modCal_effect _ _ _

theorem reofferAtCompletion_effect (cv : Conv) (s : State) : ArbiterEffect s (reofferAtCompletion cv s) := by
  unfold reofferAtCompletion
  split
  · exact offerListed_effect _ _
  · exact arbiterEffect_refl s

theorem calAfterCompletion_effect (o : Origin) (s : State) : ArbiterEffect s (calAfterCompletion o s) := by
  unfold calAfterCompletion
  simp only
  refine ArbiterEffect.trans ?_ (reofferAtCompletion_effect _ _)
  refine ArbiterEffect.trans ?_ (reofferAtCompletion_effect _ _)
  split
  · split
    · exact arbiterEffect_refl s
    · exact offerListed_effect _ _
  · exact arbiterEffect_refl s

theorem rewritePumpSlot_effect (r : Request) (s : State) : ArbiterEffect s (rewritePumpSlot r s) :=
  (rewriteSlot_effect _ _ _ s).trans (rewriteSlot_effect _ _ _ _)

theorem deliverResult_effect (cv : Conv) (f : InFlight) (raw : Raw) (s : State) :
    ArbiterEffect s (deliverResult cv f raw s) := by
  unfold deliverResult
  simp only
  split
  · split
    · exact ((modDrumBank_effect _ _ s).trans (rewriteSlot_effect _ _ _ _)).trans (settleAfter_effect _ _)
    · exact arbiterEffect_refl s
  · exact (modPumpBank_effect _ _ _ s).trans (rewritePumpSlot_effect _ _)
  · exact (modPumpBank_effect _ _ _ s).trans (rewritePumpSlot_effect _ _)
  · exact calResult_effect _ _ _
  · exact calResult_effect _ _ _
  · exact arbiterEffect_refl s

/-- A change of the idle start, which no word shows, is an effect of the arbiter. -/
theorem idleStart_effect (s : State) (t : Tick) : ArbiterEffect s { s with arb := { s.arb with idleStart := t } } :=
  setArb_effect _ s

/-- Everything a completion can change (R105). -/
theorem complete_effect (cv : Conv) (f : InFlight) (raw : Raw) (s : State) : ArbiterEffect s (complete cv f raw s) := by
  unfold complete
  simp only
  refine ArbiterEffect.trans ?_ (assign_effect _)
  refine ArbiterEffect.trans ?_ (calAfterCompletion_effect _ _)
  refine ArbiterEffect.trans ?_ (reportToPxl_effect _ _)
  refine ArbiterEffect.trans ?_ (deliverResult_effect _ _ _ _)
  exact (idleStart_effect s s.now).trans (setConverter_effect _ _ _)

theorem recalibrateOne_effect (cv : Conv) (s : State) : ArbiterEffect s (recalibrateOne cv s) := by
  unfold recalibrateOne
  split
  · exact (modCal_effect _ _ s).trans (beginSweep_effect _ _ _)
  · exact arbiterEffect_refl s

theorem recountCal_effect (cv : Conv) (s : State) : ArbiterEffect s (recountCal cv s) := by
  unfold recountCal
  split
  · simp only
    split
    · exact ((modCal_effect _ _ s).trans (writeDue_effect _ _)).trans (beginSweep_effect _ _ _)
    · exact (modCal_effect _ _ s).trans (writeDue_effect _ _)
  · exact (actOnRaise_effect _ _).trans (actOnRaise_effect _ _)

/-- Everything the entry into AWAKE can change (R100, R123). -/
theorem enterAwake_effect (s : State) : ArbiterEffect s (enterAwake s) :=
  ((idleStart_effect s s.now).trans (setPower_effect _ _)).trans (assign_effect _)

end Sys2Proof.Machine
end

