-- ==== Sys2Proof/Laws/Channels.lean ====
section
/-! SUPPORT. The switches of a phase, said once for each movement; and what a pump's own events can change: the pump, its
control block and the result words of its banks, and the pending interrupts, nothing else. -/

namespace Sys2Proof.Machine

/-! ### The switches of one phase (R26 to R28, R66, R67) -/

/-- The low position is reached as R28, R66 and R67 say. -/
theorem toLow_turnsLow (dt : Nat) (l : Leg) : l.TurnsLow dt (l.toLow dt) := by
  unfold Leg.TurnsLow Leg.toLow Leg.highOff
  cases h : l.high <;> cases h' : l.low <;> simp only [h, h', Bool.false_eq_true, if_true, if_false] <;>
    (try split) <;> simp_all

/-- The high position is reached as R66 says. -/
theorem toHigh_turnsHigh (dt : Nat) (l : Leg) : l.TurnsHigh dt (l.toHigh dt) := by
  unfold Leg.TurnsHigh Leg.toHigh Leg.lowOff
  cases h : l.low <;> cases h' : l.high <;> simp only [h, h', Bool.false_eq_true, if_true, if_false] <;>
    (try split) <;> simp_all

/-- Into OFF every switch is off and none waits. -/
@[simp] theorem toOff_off (l : Leg) : l.toOff.Off := by
  unfold Leg.toOff Leg.lowOff Leg.highOff Leg.Off
  cases h : l.high <;> cases h' : l.low <;> simp [h, h']

/-- The low position has its high side off, and only its low side waits. -/
theorem toLow_noHigh (dt : Nat) (l : Leg) : (l.toLow dt).NoHigh := by
  unfold Leg.toLow Leg.highOff Leg.NoHigh
  cases h : l.high <;> simp only [h, if_true, if_false, Bool.false_eq_true] <;> split <;> (try split) <;> simp_all

/-- A phase whose switches are off has its high side off. -/
theorem Leg.Off.noHigh {l : Leg} (h : l.Off) : l.NoHigh := ⟨h.1, fun w hw => by rw [h.2.2] at hw; cases hw⟩

/-- A phase with its high side off does not have both switches on. -/
theorem Leg.NoHigh.apart {l : Leg} (h : l.NoHigh) : l.Apart := fun hb => by rw [h.1] at hb; cases hb.1

theorem toHigh_apart (dt : Nat) (l : Leg) : (l.toHigh dt).Apart := by
  unfold Leg.toHigh Leg.lowOff Leg.Apart
  cases h : l.low <;> simp only [h, if_true, if_false, Bool.false_eq_true] <;> split <;> (try split) <;> simp_all

theorem upEdge_apart (dt : Nat) {l : Leg} (h : l.Apart) : (l.upEdge dt).Apart := by
  unfold Leg.upEdge Leg.lowOff
  split
  · exact h
  · unfold Leg.Apart at *
    cases h' : l.low <;> simp_all

theorem downEdge_apart (dt : Nat) {l : Leg} (h : l.Apart) : (l.downEdge dt).Apart := by
  unfold Leg.downEdge Leg.highOff
  split
  · exact h
  · unfold Leg.Apart at *
    cases h' : l.high <;> simp_all

theorem deadTimeEnd_apart {l : Leg} (h : l.Apart) : l.deadTimeEnd.Apart := by
  unfold Leg.deadTimeEnd
  split
  · split
    · split <;> (unfold Leg.Apart at *; cases h' : l.high <;> cases h'' : l.low <;> simp_all)
    · exact h
  · exact h

/-- A tick switches nothing. -/
@[simp] theorem tick_high (l : Leg) : l.tick.high = l.high := rfl

@[simp] theorem tick_low (l : Leg) : l.tick.low = l.low := rfl

@[simp] theorem tick_pos (l : Leg) : l.tick.pos = l.pos := rfl

/-- The high-side phase of a step follows the modulation. -/
theorem highLeg_follows (dt : Nat) (on : Bool) (l : Leg) : l.Follows dt on (highLeg dt on l) := by
  cases on
  · exact ⟨nofun, fun _ => toOff_off l⟩
  · exact ⟨fun _ => toHigh_turnsHigh dt l, nofun⟩

theorem highLeg_apart (dt : Nat) (on : Bool) (l : Leg) : (highLeg dt on l).Apart := by
  cases on
  · exact (toOff_off l).noHigh.apart
  · exact toHigh_apart dt l

/-- The pattern of a step drives its three phases (R65, R66). -/
theorem stepLegs_drives (dt : Nat) (on : Bool) (i : Nat) (legs : Tri Leg) :
    DrivesStep dt on i legs (stepLegs dt on (sixStep i) legs) := by
  have h : (sixStep i).high ≠ (sixStep i).low ∧ (sixStep i).high ≠ (sixStep i).floating ∧
      (sixStep i).low ≠ (sixStep i).floating := by
    unfold sixStep
    split <;> decide
  have hget : ∀ ph, (stepLegs dt on (sixStep i) legs).get ph = stepLeg dt on (sixStep i) ph (legs.get ph) := by
    intro ph
    cases ph <;> rfl
  refine ⟨?_, ?_, ?_⟩ <;> rw [hget] <;> unfold stepLeg
  · simpa using highLeg_follows dt on _
  · simpa [h.1.symm] using toLow_turnsLow dt _
  · simp [h.2.1.symm, h.2.2.symm]

/-- The phases in OFF or SHORT have their high sides off, as long as those held in SHORT already had. -/
theorem safeLegs_noHigh (held : Bool) (a : SafeOut) (dt : Nat) (legs : Tri Leg) (h : held = true → legs.All Leg.NoHigh) :
    (safeLegs held a dt legs).All Leg.NoHigh := by
  cases a
  · exact ⟨(toOff_off _).noHigh, (toOff_off _).noHigh, (toOff_off _).noHigh⟩
  · cases held
    · exact ⟨toLow_noHigh _ _, toLow_noHigh _ _, toLow_noHigh _ _⟩
    · exact h rfl

/-- What a change of condition does to the phases (R28, R67). -/
theorem safeLegs_goesTo (held : Bool) (a : SafeOut) (dt : Nat) (legs : Tri Leg) :
    LegsGo held a dt legs (safeLegs held a dt legs) := by
  cases a <;> cases held
  · exact ⟨toOff_off _, toOff_off _, toOff_off _⟩
  · exact ⟨toOff_off _, toOff_off _, toOff_off _⟩
  · intro ph
    cases ph <;> exact toLow_turnsLow dt _
  · rfl

/-- From SHORT or BRAKING to SHORT there is no switching (R28, R67). -/
@[simp] theorem safeLegs_held (dt : Nat) (legs : Tri Leg) : safeLegs true .short dt legs = legs := rfl

/-- The phases in OFF have every switch off. -/
theorem safeLegs_off (held : Bool) (dt : Nat) (legs : Tri Leg) : (safeLegs held .off dt legs).All Leg.Off :=
  ⟨toOff_off _, toOff_off _, toOff_off _⟩

/-- The pattern of a step has no phase with both switches on. -/
theorem stepLegs_apart (dt : Nat) (on : Bool) (st : SixStep) (legs : Tri Leg) :
    (stepLegs dt on st legs).All Leg.Apart := by
  have h : ∀ ph l, (stepLeg dt on st ph l).Apart := by
    intro ph l
    unfold stepLeg
    split
    · exact highLeg_apart _ _ _
    · split
      · exact (toLow_noHigh _ _).apart
      · exact (toOff_off _).noHigh.apart
  exact ⟨h _ _, h _ _, h _ _⟩

/-! ### The three values by phase -/

@[simp] theorem tri_get_set_same {α : Type} (t : Tri α) (ph : Phase) (x : α) : (t.set ph x).get ph = x := by
  cases ph <;> rfl

@[simp] theorem tri_get_set_other {α : Type} (t : Tri α) {q ph : Phase} (x : α) (h : q ≠ ph) :
    (t.set ph x).get q = t.get q := by
  cases ph <;> cases q <;> first | rfl | exact absurd rfl h

@[simp] theorem tri_get_map {α β : Type} (f : α → β) (t : Tri α) (ph : Phase) : (t.map f).get ph = f (t.get ph) := by
  cases ph <;> rfl

theorem tri_all_map {α β : Type} {f : α → β} {p : β → Prop} (h : ∀ x, p (f x)) (t : Tri α) : (t.map f).All p :=
  ⟨h _, h _, h _⟩

/-! ### The effect of a pump's own events -/

/-- What an event of one pump's own timers can change (R65 to R83), but for a boundary. -/
structure PumpEffect (p : PumpId) (s t : State) : Prop where
  rest : KeepsRest s t
  parity : t.parity = s.parity
  drum : t.drum = s.drum
  other : t.pump (otherPump p) = s.pump (otherPump p)
  exch : ∀ ch, t.exch ch = s.exch ch
  arb : t.arb = s.arb
  cal : ∀ cv, t.cal cv = s.cal cv
  lpr : t.lpr = s.lpr
  words : KeepsOutside s t (channelWords (pumpChannel p))
  flags : KeepsFlags s t
  form : s.mem.wf → t.mem.wf

theorem pumpEffect_refl (p : PumpId) (s : State) : PumpEffect p s s :=
  ⟨rfl, rfl, rfl, rfl, fun _ => rfl, rfl, fun _ => rfl, rfl, keepsOutside_refl _ _, keepsFlags_refl _, id⟩

theorem PumpEffect.trans {p : PumpId} {s t u : State} (h : PumpEffect p s t) (g : PumpEffect p t u) :
    PumpEffect p s u :=
  ⟨h.rest.trans g.rest, g.parity.trans h.parity, g.drum.trans h.drum, g.other.trans h.other,
    fun ch => (g.exch ch).trans (h.exch ch), g.arb.trans h.arb, fun cv => (g.cal cv).trans (h.cal cv),
    g.lpr.trans h.lpr, h.words.trans g.words, h.flags.trans g.flags, fun w => g.form (h.form w)⟩

/-- The effect as the statements say it. -/
theorem PumpEffect.onlyPump {p : PumpId} {s t : State} (h : PumpEffect p s t) : OnlyPump p s t := by
  refine ⟨?_, h.words⟩
  have hr := keepsRest_iff.mp h.rest
  have h1 := h.parity
  have h2 := h.drum
  have h3 := h.other
  have h4 : t.exchD = s.exchD := h.exch .d
  have h5 : t.exchP1 = s.exchP1 := h.exch .p1
  have h6 : t.exchP2 = s.exchP2 := h.exch .p2
  have h7 := h.arb
  have h8 : t.calA = s.calA := h.cal .a
  have h9 : t.calB = s.calB := h.cal .b
  have h10 := h.lpr
  clear h
  cases p <;> cases s <;> cases t <;> simp_all [State.setPump, State.pump, otherPump]

/-- The words of a pump's control block and banks that the part writes, by their ranges. -/
theorem mem_channelWords_pump {p : PumpId} {x : Nat} :
    x ∈ channelWords (pumpChannel p) ↔
      (controlBase (pumpChannel p) + 2 ≤ x ∧ x < controlBase (pumpChannel p) + 5)
      ∨ (controlBase (pumpChannel p) + 6 ≤ x ∧ x < controlBase (pumpChannel p) + 10)
      ∨ (controlBase (pumpChannel p) + 11 ≤ x ∧ x < controlBase (pumpChannel p) + 32)
      ∨ (bankBase (pumpChannel p) .b0 + 12 ≤ x ∧ x < bankBase (pumpChannel p) .b0 + 48)
      ∨ (bankBase (pumpChannel p) .b1 + 12 ≤ x ∧ x < bankBase (pumpChannel p) .b1 + 48) := by
  cases p <;>
    simp only [channelWords, resultWords, List.mem_append, mem_span, controlAddr, offRoles, offCmdDone, offState,
      pumpChannel, planWords, bankWords, controlBase, bankBase] <;>
    omega

theorem raise_pumpEffect (p : PumpId) (c : Cause) (s : State) : PumpEffect p s (raise c s) :=
  ⟨rfl, rfl, rfl, by simp, by simp, rfl, by simp, rfl, keepsOutside_of_mem_eq rfl _, keepsFlags_raise c s, id⟩

theorem modPump_effect (p : PumpId) (f : Pump → Pump) (s : State) : PumpEffect p s (modPump p f s) :=
  ⟨keepsRest_iff.mpr (by simp), by simp, by simp, modPump_other _ _ (by cases p <;> simp [otherPump]), by simp, by simp,
    by simp, by simp,
    keepsOutside_writeChanged (modPump_mem p f s)
      (fun i hi => mem_channelWords_pump.mpr (by simp at hi; simp only [controlAddr, offState]; omega)),
    by simp [KeepsFlags], fun h => by rw [modPump_mem]; exact Memory.writeChanged_wf h _ _ _⟩

theorem modPumpBank_pumpEffect (p : PumpId) (b : Bank) (f : PumpBank → PumpBank) (s : State) :
    PumpEffect p s (modPumpBank p b f s) :=
  ⟨keepsRest_iff.mpr (by simp), by simp, by simp, modPumpBank_other _ _ _ (by cases p <;> simp [otherPump]), by simp,
    by simp, by simp, by simp,
    keepsOutside_writeChanged (modPumpBank_mem p b f s)
      (fun i hi => mem_channelWords_pump.mpr (by
        simp at hi; cases p <;> cases b <;> simp only [pumpChannel, offResults, bankBase] <;> omega)),
    by simp [KeepsFlags], fun h => by rw [modPumpBank_mem]; exact Memory.writeChanged_wf h _ _ _⟩

/-- Words written within a pump's own are an effect of the pump. -/
theorem putWord_pumpEffect (p : PumpId) (a : Nat) (v : Word) (s : State) (h : a ∈ channelWords (pumpChannel p)) :
    PumpEffect p s (putWord a v s) :=
  ⟨rfl, rfl, rfl, rfl, fun _ => rfl, rfl, fun _ => rfl, rfl, keepsOutside_write (putWord_mem a v s) h,
    keepsFlags_refl _, fun w => Memory.write_wf w _ _⟩

theorem writeMissCount_pumpEffect (p : PumpId) (s : State) : PumpEffect p s (writeMissCount p s) :=
  putWord_pumpEffect p _ _ s (mem_channelWords_pump.mpr (by simp only [controlAddr, offMissCount]; omega))

/-- Everything the leaving of the driven states can change (R83). -/
theorem leavePump_effect (p : PumpId) (f : Pump → Pump) (s : State) : PumpEffect p s (leavePump p f s) := by
  unfold leavePump
  split
  · exact (modPump_effect p f s).trans (writeMissCount_pumpEffect p _)
  · exact modPump_effect p f s

theorem rewriteResults_pumpEffect (p : PumpId) (b : Bank) (off n : Nat) (s : State) :
    PumpEffect p s (rewriteResults (pumpChannel p) b off n s) :=
  ⟨rfl, rfl, rfl, rfl, fun _ => rfl, rfl, fun _ => rfl, rfl,
    keepsOutside_writeList (rewriteResults_mem _ b off n s)
      (fun i hi => mem_channelWords_pump.mpr (by
        simp at hi; cases p <;> cases b <;> simp only [pumpChannel, offResults, bankBase] at * <;> omega)),
    keepsFlags_refl _, fun h => Memory.writeList_wf h _ _⟩

theorem rewriteLive_effect (p : PumpId) (off n : Nat) (s : State) : PumpEffect p s (rewriteLive p off n s) := by
  unfold rewriteLive
  split
  · exact rewriteResults_pumpEffect _ _ _ _ _
  · exact pumpEffect_refl _ _

theorem modLivePumpBank_effect (p : PumpId) (f : PumpBank → PumpBank) (s : State) :
    PumpEffect p s (modLivePumpBank p f s) := by
  unfold modLivePumpBank
  split
  · exact modPumpBank_pumpEffect _ _ _ _
  · exact pumpEffect_refl _ _

theorem modComm_effect (p : PumpId) (f : CommState → CommState) (s : State) : PumpEffect p s (modComm p f s) :=
  modPump_effect _ _ _

/-- Everything a stall can change (R73, R81). -/
theorem stallPump_effect (p : PumpId) (r : StallReason) (s : State) : PumpEffect p s (stallPump p r s) :=
  (leavePump_effect _ _ s).trans (raise_pumpEffect _ _ _)

/-- Everything a commutation can change (R65). -/
theorem commutate_effect (p : PumpId) (s : State) : PumpEffect p s (commutate p s) :=
  (modPump_effect _ _ s).trans (modLivePumpBank_effect _ _ _)

theorem alignExpiry_effect (p : PumpId) (s : State) : PumpEffect p s (alignExpiry p s) :=
  (modPump_effect _ _ s).trans (commutate_effect _ _)

theorem rampStepEndEvent_effect (p : PumpId) (s : State) : PumpEffect p s (rampStepEndEvent p s) := by
  have h : PumpEffect p s (if (s.pump p).comm.zc.confirmed then s else modComm p (fun c => { c with good := 0 }) s) := by
    split
    · exact pumpEffect_refl _ _
    · exact modComm_effect _ _ _
  unfold rampStepEndEvent
  simp only
  split
  · exact (h.trans (modComm_effect _ _ _)).trans (commutate_effect _ _)
  · split
    · exact (h.trans (modComm_effect _ _ _)).trans (commutate_effect _ _)
    · exact h.trans (stallPump_effect _ _ _)

theorem missStep_effect (p : PumpId) (s : State) : PumpEffect p s (missStep p s) := by
  have h := ((commutate_effect p s).trans (modLivePumpBank_effect p (fun b => { b with misses := satInc b.misses }) _)).trans
    (modComm_effect p (fun c => { c with missCount := c.missCount + 1 }) _)
  unfold missStep
  simp only
  split
  · exact h.trans (stallPump_effect _ _ _)
  · exact h

theorem scheduleComm_effect (p : PumpId) (zc : Tick) (timedOut : Bool) (s : State) :
    PumpEffect p s (scheduleComm p zc timedOut s) := by
  unfold scheduleComm
  simp only
  split
  · exact (commutate_effect _ s).trans (modLivePumpBank_effect _ _ _)
  · exact modComm_effect _ _ _

theorem setEstimate_effect (p : PumpId) (est : Nat) (s : State) : PumpEffect p s (setEstimate p est s) :=
  ((modComm_effect _ _ s).trans (modLivePumpBank_effect _ _ _)).trans (rewriteLive_effect _ _ _ _)

theorem lockPump_effect (p : PumpId) (zc : Tick) (s : State) : PumpEffect p s (lockPump p zc s) :=
  (((setEstimate_effect _ _ s).trans (modPump_effect _ _ _)).trans (raise_pumpEffect _ _ _)).trans
    (scheduleComm_effect _ _ _ _)

theorem confirmRamp_effect (p : PumpId) (zc : Tick) (s : State) : PumpEffect p s (confirmRamp p zc s) := by
  unfold confirmRamp
  simp only
  split
  · exact (modComm_effect _ _ s).trans (lockPump_effect _ _ _)
  · exact modComm_effect _ _ s

theorem confirmRun_effect (p : PumpId) (zc : Tick) (timedOut : Bool) (s : State) :
    PumpEffect p s (confirmRun p zc timedOut s) := by
  unfold confirmRun
  simp only
  split
  · exact (setEstimate_effect _ _ s).trans (scheduleComm_effect _ _ _ _)
  · exact scheduleComm_effect _ _ _ _

/-- The two counts of a confirmed crossing in the LIVE bank leave everything else (R76, R77). -/
theorem confirmCounts_effect (p : PumpId) (c : Prop) [Decidable c] (iv : Option Nat) (s : State) :
    PumpEffect p s (match iv with
      | some i => rewriteLive p 26 2 (modLivePumpBank p (fun b => { b with lastInterval := i })
          (if c then modLivePumpBank p (fun b => { b with early := satInc b.early }) s else s))
      | none => if c then modLivePumpBank p (fun b => { b with early := satInc b.early }) s else s) := by
  have h : PumpEffect p s (if c then modLivePumpBank p (fun b => { b with early := satInc b.early }) s else s) := by
    split
    · exact modLivePumpBank_effect _ _ _
    · exact pumpEffect_refl _ _
  cases iv with
  | none => exact h
  | some i => exact (h.trans (modLivePumpBank_effect _ _ _)).trans (rewriteLive_effect _ _ _ _)

/-- Everything a confirmed crossing can change (R76 to R79). -/
theorem confirmCrossing_effect (p : PumpId) (s : State) : PumpEffect p s (confirmCrossing p s) := by
  have h := (modComm_effect p (fun c => c.confirm ((s.pump p).comm.zc.zcTime (s.pump p).half)) s).trans
    (confirmCounts_effect p ((s.pump p).comm.zc.firstAfterBlank = true)
      ((modComm p (fun c => c.confirm ((s.pump p).comm.zc.zcTime (s.pump p).half)) s).pump p).comm.interval _)
  unfold confirmCrossing
  split
  · exact h.trans (confirmRun_effect _ _ _ _)
  · exact h.trans (confirmRamp_effect _ _ _)

/-- Everything a peak can change (R75 to R79). -/
theorem peakEvent_effect (p : PumpId) (level : Bool) (s : State) : PumpEffect p s (peakEvent p level s) := by
  unfold peakEvent
  simp only
  split
  · split
    · exact ((modPump_effect _ _ s).trans (modComm_effect _ _ _)).trans (confirmCrossing_effect _ _)
    · exact (modPump_effect _ _ s).trans (modComm_effect _ _ _)
  · exact modPump_effect _ _ s

theorem pwmEdgeEvent_effect (p : PumpId) (s : State) : PumpEffect p s (pwmEdgeEvent p s) := by
  unfold pwmEdgeEvent
  simp only
  split <;> exact modPump_effect _ _ s

end Sys2Proof.Machine
end

