-- ==== Sys2Proof/Laws/Boundary.lean ====
section
/-! SUPPORT. What an operation of one channel can change, said once: that channel, its control block and the result words
of its banks, the parity record, and what the arbiter's work changes. The operations of a boundary, of STOP and of a trip
are such effects, and effects compose. -/

namespace Sys2Proof.Machine

/-- The words that an operation of a channel may write. -/
def boundaryWords (ch : Channel) : List Nat := span parityAddr 2 ++ channelWords ch ++ arbiterWords

/-- What an operation of one channel can change. -/
structure ChannelEffect (ch : Channel) (s t : State) : Prop where
  rest : KeepsRest s t
  drum : ch ≠ .d → t.drum.own = s.drum.own
  pump1 : ch ≠ .p1 → t.pump1.own = s.pump1.own
  pump2 : ch ≠ .p2 → t.pump2.own = s.pump2.own
  words : KeepsOutside s t (boundaryWords ch)
  flags : KeepsFlags s t
  form : s.mem.wf → t.mem.wf

theorem channelEffect_refl (ch : Channel) (s : State) : ChannelEffect ch s s :=
  ⟨rfl, fun _ => rfl, fun _ => rfl, fun _ => rfl, keepsOutside_refl _ _, keepsFlags_refl _, id⟩

theorem ChannelEffect.trans {ch : Channel} {s t u : State} (h : ChannelEffect ch s t) (g : ChannelEffect ch t u) :
    ChannelEffect ch s u :=
  ⟨h.rest.trans g.rest, fun c => (g.drum c).trans (h.drum c), fun c => (g.pump1 c).trans (h.pump1 c),
    fun c => (g.pump2 c).trans (h.pump2 c), h.words.trans g.words, h.flags.trans g.flags, fun w => g.form (h.form w)⟩

/-- The work of the arbiter is an effect of any channel. -/
theorem ArbiterEffect.channel {s t : State} (h : ArbiterEffect s t) (ch : Channel) : ChannelEffect ch s t :=
  ⟨h.rest, fun _ => h.drum, fun _ => h.pump1, fun _ => h.pump2,
    h.words.mono (fun a ha => by simp [boundaryWords, ha]), h.flags, h.form⟩

/-- What a pump's own events can change is an effect of its channel. -/
theorem PumpEffect.channel {p : PumpId} {s t : State} (h : PumpEffect p s t) : ChannelEffect (pumpChannel p) s t := by
  refine ⟨h.rest, fun _ => congrArg Drum.own h.drum, ?_, ?_,
    h.words.mono (fun a ha => by simp [boundaryWords, ha]), h.flags, h.form⟩
  · cases p
    · exact fun c => absurd rfl c
    · exact fun _ => congrArg Pump.own h.other
  · cases p
    · exact fun _ => congrArg Pump.own h.other
    · exact fun c => absurd rfl c

/-- The words of a channel, by their ranges. -/
theorem mem_boundaryWords {ch : Channel} {x : Nat} (h :
    (0x008 ≤ x ∧ x < 0x00A) ∨
    (controlBase ch + 2 ≤ x ∧ x < controlBase ch + 5) ∨ (controlBase ch + 6 ≤ x ∧ x < controlBase ch + 10) ∨
    (controlBase ch + 11 ≤ x ∧ x < controlBase ch + 32) ∨
    (bankBase ch .b0 + planWords ch ≤ x ∧ x < bankBase ch .b0 + bankWords ch) ∨
    (bankBase ch .b1 + planWords ch ≤ x ∧ x < bankBase ch .b1 + bankWords ch)) : x ∈ boundaryWords ch := by
  cases ch <;>
    simp only [boundaryWords, parityAddr, channelWords, resultWords, List.mem_append, mem_span, controlAddr, offRoles,
      offCmdDone, offState, planWords, bankWords, controlBase, bankBase] at * <;>
    omega

/-! ### The single updates -/

theorem raise_channelEffect (ch : Channel) (c : Cause) (s : State) : ChannelEffect ch s (raise c s) :=
  (raise_effect c s).channel ch

theorem modDrum_effect (f : Drum → Drum) (s : State) : ChannelEffect .d s (modDrum f s) :=
  ⟨keepsRest_iff.mpr (by simp), fun h => absurd rfl h, by simp, by simp,
    keepsOutside_writeChanged (modDrum_mem f s)
      (fun i hi => mem_boundaryWords (by simp at hi; simp only [controlAddr, offState]; omega)),
    by simp [KeepsFlags], fun h => by rw [modDrum_mem]; exact Memory.writeChanged_wf h _ _ _⟩

theorem modPump_channelEffect (p : PumpId) (f : Pump → Pump) (s : State) :
    ChannelEffect (pumpChannel p) s (modPump p f s) := by
  have h := modPump_other (q := otherPump p) (p := p) f s (by cases p <;> simp [otherPump])
  refine ⟨keepsRest_iff.mpr (by simp), by simp, ?_, ?_,
    keepsOutside_writeChanged (modPump_mem p f s)
      (fun i hi => mem_boundaryWords (by simp at hi; simp only [controlAddr, offState]; omega)),
    by simp [KeepsFlags], fun h => by rw [modPump_mem]; exact Memory.writeChanged_wf h _ _ _⟩
  · cases p
    · exact fun c => absurd rfl c
    · exact fun _ => congrArg Pump.own h
  · cases p
    · exact fun _ => congrArg Pump.own h
    · exact fun c => absurd rfl c

theorem modExch_effect (ch : Channel) (f : Exchange → Exchange) (s : State) : ChannelEffect ch s (modExch ch f s) :=
  ⟨keepsRest_iff.mpr (by simp), by simp, by simp, by simp,
    keepsOutside_writeChanged (modExch_mem ch f s)
      (fun i hi => mem_boundaryWords (by simp at hi; simp only [controlAddr, offRoles]; omega)),
    by simp [KeepsFlags], fun h => by rw [modExch_mem]; exact Memory.writeChanged_wf h _ _ _⟩

theorem putWord_channelEffect (ch : Channel) (a : Nat) (v : Word) (s : State) (h : a ∈ boundaryWords ch) :
    ChannelEffect ch s (putWord a v s) :=
  ⟨rfl, fun _ => rfl, fun _ => rfl, fun _ => rfl, keepsOutside_write (putWord_mem a v s) h, keepsFlags_refl _,
    fun w => Memory.write_wf w _ _⟩

theorem modLiveSeq_effect (ch : Channel) (f : Exchange → Exchange) (s : State) :
    ChannelEffect ch s (modLiveSeq ch f s) :=
  (modExch_effect ch f s).trans (putWord_channelEffect ch _ _ _ (mem_boundaryWords (by
    simp only [controlAddr, offLiveSeq]; omega)))

/-- Words written within a channel's own are an effect of the channel. -/
theorem putWords_effect (ch : Channel) (a : Nat) (ws : List Word) (s : State)
    (h : ∀ i < ws.length, a + i ∈ boundaryWords ch) : ChannelEffect ch s (putWords a ws s) :=
  ⟨rfl, fun _ => rfl, fun _ => rfl, fun _ => rfl, keepsOutside_writeList (putWords_mem a ws s) h, keepsFlags_refl _,
    fun w => Memory.writeList_wf w _ _⟩

theorem writeBankStatus_effect (ch : Channel) (b : Bank) (st : BankStatus) (s : State) :
    ChannelEffect ch s (writeBankStatus ch b st s) :=
  ⟨rfl, fun _ => rfl, fun _ => rfl, fun _ => rfl,
    keepsOutside_write (writeBankStatus_mem ch b st s)
      (mem_boundaryWords (by cases b <;> cases ch <;> simp [offStatus, planWords, bankWords, bankBase])),
    keepsFlags_refl _, fun h => Memory.write_wf h _ _⟩

theorem recordParity_effect (ch : Channel) (src : ParitySource) (a : Nat) (s : State) :
    ChannelEffect ch s (recordParity src a s) :=
  ⟨rfl, fun _ => rfl, fun _ => rfl, fun _ => rfl,
    keepsOutside_writeChanged (recordParity_mem src a s)
      (fun i hi => mem_boundaryWords (by simp at hi; simp only [parityAddr]; omega)),
    keepsFlags_raise _ s, fun h => by rw [recordParity_mem]; exact Memory.writeChanged_wf h _ _ _⟩

theorem commandDone_effect (ch : Channel) (tag code : Byte) (o : Outcome) (s : State) :
    ChannelEffect ch s (commandDone ch tag code o s) :=
  (putWords_effect ch _ _ s (fun i hi => mem_boundaryWords (by
    simp at hi; simp only [controlAddr, offCmdDone]; omega))).trans (raise_channelEffect ch _ _)

theorem commandRefused_effect (ch : Channel) (tag code : Byte) (o : Outcome) (s : State) :
    ChannelEffect ch s (commandRefused ch tag code o s) :=
  (putWords_effect ch _ _ s (fun i hi => mem_boundaryWords (by
    simp at hi; simp only [controlAddr, offCmdRefused]; omega))).trans (raise_channelEffect ch _ _)

/-! ### Trips (R138 to R142) -/

theorem tripDrum_effect (c : TripCause) (s : State) : ChannelEffect .d s (tripDrum c s) :=
  (((modDrum_effect _ s).trans (putWords_effect .d _ _ _ (fun i hi => mem_boundaryWords (by
    simp at hi; simp only [controlAddr, offTrip]; omega)))).trans ((dropEntries_effect _ _ _ _).channel .d)).trans
    (raise_channelEffect .d _ _)

theorem tripPump_effect (p : PumpId) (c : TripCause) (s : State) :
    ChannelEffect (pumpChannel p) s (tripPump p c s) :=
  (((leavePump_effect p _ s).channel.trans (putWords_effect _ _ _ _ (fun i hi => mem_boundaryWords (by
    simp at hi; simp only [controlAddr, offTrip]; omega)))).trans ((dropEntries_effect _ _ _ _).channel _)).trans
    (raise_channelEffect _ _ _)

/-- Words of a record that change within a channel's own are an effect of the channel. -/
theorem showWords_effect (ch : Channel) (a : Nat) (old new : List (List Word)) (s : State)
    (h : ∀ i < (wordsOf new).length, a + i ∈ boundaryWords ch) : ChannelEffect ch s (showWords a old new s) :=
  ⟨rfl, fun _ => rfl, fun _ => rfl, fun _ => rfl, keepsOutside_writeChanged (showWords_mem a old new s) h,
    keepsFlags_refl _, fun w => Memory.writeChanged_wf w _ _ _⟩

theorem furtherDrum_effect (c : TripCause) (s : State) : ChannelEffect .d s (furtherDrum c s) := by
  unfold furtherDrum
  simp only
  split
  · exact channelEffect_refl _ _
  · exact ((modDrum_effect _ s).trans (showWords_effect .d _ _ _ _ (fun i hi => mem_boundaryWords (by
      simp at hi; simp only [controlAddr, offTrip]; omega)))).trans (raise_channelEffect .d _ _)

theorem furtherPump_effect (p : PumpId) (c : TripCause) (s : State) :
    ChannelEffect (pumpChannel p) s (furtherPump p c s) := by
  unfold furtherPump
  simp only
  split
  · exact channelEffect_refl _ _
  · exact ((modPump_channelEffect p _ s).trans (showWords_effect _ _ _ _ _ (fun i hi => mem_boundaryWords (by
      simp at hi; simp only [controlAddr, offTrip]; omega)))).trans (raise_channelEffect _ _ _)

/-- When a gate-supply assertion is a further cause (R142, R144). -/
theorem takesGate_iff (r : TripRecord) (priorDriven thisTick : Bool) :
    r.takesGate priorDriven thisTick = true ↔ r.action = .short ∨ (priorDriven = true ∧ thisTick = true) := by
  simp [TripRecord.takesGate]

/-- Which prior states of the drum drive its outputs (R138). -/
theorem drumPriorDriven_iff (s : State) :
    drumPriorDriven s = true ↔ s.drum.tripPrior = .running ∨ s.drum.tripPrior = .braking ∨
      (s.drum.tripPrior = .starved ∧ (cfg s).safeAction = .short) := by
  unfold drumPriorDriven
  cases s.drum.tripPrior <;> simp

/-- Everything an assertion can change in the drum (R138). -/
theorem assertOnDrum_effect (c : TripCause) (s : State) : ChannelEffect .d s (assertOnDrum c s) := by
  unfold assertOnDrum
  split <;> split <;>
    first | exact channelEffect_refl _ _ | exact furtherDrum_effect _ _ | exact tripDrum_effect _ _

/-- Everything an assertion can change in a pump (R138). -/
theorem assertOnPump_effect (p : PumpId) (c : TripCause) (s : State) :
    ChannelEffect (pumpChannel p) s (assertOnPump p c s) := by
  unfold assertOnPump
  split <;> split <;>
    first | exact channelEffect_refl _ _ | exact furtherPump_effect _ _ _ | exact tripPump_effect _ _ _

/-! ### The exchange at a boundary (R8 to R18) -/

theorem cancelBank_effect (ch : Channel) (b : Bank) (s : State) : ChannelEffect ch s (cancelBank ch b s) :=
  (writeBankStatus_effect ch b _ s).trans (modExch_effect ch _ _)

theorem rejectBank_effect (ch : Channel) (b : Bank) (code : BankStatus) (s : State) :
    ChannelEffect ch s (rejectBank ch b code s) :=
  ((writeBankStatus_effect ch b _ s).trans (modExch_effect ch _ _)).trans (raise_channelEffect ch _ _)

theorem reportPlanParity_effect (ch : Channel) (bad : List Nat) (s : State) :
    ChannelEffect ch s (reportPlanParity ch bad s) := by
  unfold reportPlanParity
  induction bad generalizing s with
  | nil => exact channelEffect_refl _ _
  | cons a as ih => exact (recordParity_effect ch _ a s).trans (ih _)

theorem goLive_effect (ch : Channel) (b : Bank) (seq : Word) (s : State) : ChannelEffect ch s (goLive ch b seq s) := by
  unfold goLive
  split
  · exact (modLiveSeq_effect ch _ s).trans ((dropEntries_effect _ _ _ _).channel ch)
  · exact modLiveSeq_effect ch _ s

@[simp] theorem initialResults_length_drum (now : Tick) (b : DrumBank) :
    (initialResults .d now b.words).length = 64 := by
  simp [initialResults, bankWords, planWords, twoWords]

@[simp] theorem initialResults_length_pump (p : PumpId) (now : Tick) (b : PumpBank) :
    (initialResults (pumpChannel p) now b.words).length = 36 := by
  cases p <;> simp [initialResults, bankWords, planWords, twoWords, pumpChannel]

theorem acceptDrum_effect (b : Bank) (plan : DrumPlan) (s : State) : ChannelEffect .d s (acceptDrum b plan s) := by
  have h : ChannelEffect .d s { s with drum := s.drum.setBank b (freshDrumBank plan) } :=
    ⟨rfl, fun c => absurd rfl c, fun _ => rfl, fun _ => rfl, keepsOutside_of_mem_eq rfl _, keepsFlags_refl _, id⟩
  unfold acceptDrum
  refine ((h.trans ?_).trans (goLive_effect .d b _ _)).trans (modDrum_effect _ _)
  refine putWords_effect .d _ _ _ (fun i hi => mem_boundaryWords ?_)
  rw [initialResults_length_drum] at hi
  cases b <;> simp only [bankBase, offStatus, planWords, bankWords] <;> omega

theorem setPump_effect (p : PumpId) (x : Pump) (s : State) : ChannelEffect (pumpChannel p) s (s.setPump p x) := by
  cases p
  · exact ⟨rfl, fun _ => rfl, fun c => absurd rfl c, fun _ => rfl, keepsOutside_of_mem_eq rfl _, keepsFlags_refl _, id⟩
  · exact ⟨rfl, fun _ => rfl, fun _ => rfl, fun c => absurd rfl c, keepsOutside_of_mem_eq rfl _, keepsFlags_refl _, id⟩

theorem acceptPump_effect (p : PumpId) (b : Bank) (plan : PumpPlan) (s : State) :
    ChannelEffect (pumpChannel p) s (acceptPump p b plan s) :=
  ((setPump_effect p _ s).trans (putWords_effect _ _ _ _ (fun i hi => mem_boundaryWords (by
    simp at hi; cases p <;> cases b <;> simp only [pumpChannel, bankBase, offStatus, planWords, bankWords] <;>
      omega)))).trans (goLive_effect _ b _ _)

theorem holdDrum_effect (s : State) : ChannelEffect .d s (holdDrum s) := by
  unfold holdDrum
  split
  · exact channelEffect_refl _ _
  · simp only
    split
    · exact (((((modDrumBank_effect _ _ s).trans (rewriteResults_effect .d _ 22 17 _)).trans
        (rewriteResults_effect .d _ 40 16 _)).channel .d).trans (modDrum_effect _ _)).trans
        (raise_channelEffect .d _ _)
    · exact (((modDrumBank_effect _ _ s).trans (rewriteResults_effect .d _ 22 17 _)).trans
        (rewriteResults_effect .d _ 40 16 _)).channel .d

/-- Everything a take or hold of the drum can change (R8 to R14). -/
theorem takeOrHoldDrum_effect (s : State) : ChannelEffect .d s (takeOrHoldDrum s).1 := by
  unfold takeOrHoldDrum
  split
  · exact holdDrum_effect s
  · split
    · exact ((reportPlanParity_effect .d _ s).trans (rejectBank_effect .d _ _ _)).trans (holdDrum_effect _)
    · split
      · exact (rejectBank_effect .d _ _ s).trans (holdDrum_effect _)
      · exact acceptDrum_effect _ _ s

/-- Everything a take or hold of a pump can change (R8, R9, R11 to R13, R15). -/
theorem takeOrHoldPump_effect (p : PumpId) (s : State) : ChannelEffect (pumpChannel p) s (takeOrHoldPump p s) := by
  unfold takeOrHoldPump
  split
  · exact channelEffect_refl _ _
  · split
    · exact (reportPlanParity_effect _ _ s).trans (rejectBank_effect _ _ _ _)
    · exact acceptPump_effect _ _ _ s

/-- Everything a performed RELEASE can change (R18). -/
theorem performRelease_effect (ch : Channel) (s : State) : ChannelEffect ch s (performRelease ch s) := by
  have h : ChannelEffect ch s (match pendingBank ch s with
      | some b => cancelBank ch b s
      | none => s) := by
    split
    · exact cancelBank_effect ch _ s
    · exact channelEffect_refl _ _
  unfold performRelease
  simp only
  split
  · exact (h.trans (modLiveSeq_effect ch _ _)).trans ((dropEntries_effect _ _ _ _).channel ch)
  · exact h.trans (modLiveSeq_effect ch _ _)

/-! ### The drum boundary (R33) -/

theorem stopDrum_effect (s : State) : ChannelEffect .d s (stopDrum s) :=
  (modDrum_effect _ s).trans ((dropEntries_effect _ _ _ _).channel .d)

theorem drumPlanStep_effect (s : State) : ChannelEffect .d s (drumPlanStep s).1 := by
  unfold drumPlanStep
  split
  · split
    · exact ((modDrum_effect _ s).trans (performRelease_effect .d _)).trans (commandDone_effect .d _ _ _ _)
    · exact ((modDrum_effect _ s).trans (commandDone_effect .d _ _ _ _)).trans (takeOrHoldDrum_effect _)
  · exact takeOrHoldDrum_effect s

theorem drumStart_effect (accepted : Bool) (s : State) : ChannelEffect .d s (drumStart accepted s).1 := by
  unfold drumStart
  split
  · exact channelEffect_refl _ _
  · split
    · exact channelEffect_refl _ _
    · generalize (if s.drum.state = .starved then !accepted else (liveBank .d s).isNone) = c
      cases c <;> simp only [if_true, if_false, Bool.false_eq_true]
      · exact modDrum_effect _ s
      · exact channelEffect_refl _ _

theorem drumBrake_effect (s : State) : ChannelEffect .d s (drumBrake s) := by
  unfold drumBrake
  split
  · exact (modDrum_effect _ s).trans (tripDrum_effect _ _)
  · exact modDrum_effect _ s

theorem drumClear_effect (s : State) : ChannelEffect .d s (drumClear s).1 := by
  unfold drumClear
  split
  · exact channelEffect_refl _ _
  · split
    · exact channelEffect_refl _ _
    · dsimp only
      exact modDrum_effect _ s

theorem drumTake_effect (code : ChannelCode) (accepted : Bool) (s : State) :
    ChannelEffect .d s (drumTake code accepted s).1 := by
  unfold drumTake
  split <;>
    first
    | exact channelEffect_refl _ _
    | exact drumStart_effect _ _
    | exact drumBrake_effect _
    | exact drumClear_effect _

theorem drumCommandStep_effect (accepted : Bool) (s : State) : ChannelEffect .d s (drumCommandStep accepted s) := by
  unfold drumCommandStep
  split
  · exact ((modDrum_effect _ s).trans (drumTake_effect _ _ _)).trans (commandDone_effect .d _ _ _ _)
  · exact channelEffect_refl _ _

theorem drumStarveStep_effect (s : State) : ChannelEffect .d s (drumStarveStep s) := by
  unfold drumStarveStep
  split
  · simp only
    refine ChannelEffect.trans ?_ (raise_channelEffect .d _ _)
    split
    · exact (modDrum_effect _ s).trans (tripDrum_effect _ _)
    · exact modDrum_effect _ s
  · exact channelEffect_refl _ _

theorem layoutStatus_effect (b : Bank) (sl : Slot) (st : SlotStatus) (s : State) :
    ArbiterEffect s (layoutStatus b sl st s) := by
  unfold layoutStatus
  split
  · exact (modDrumBank_effect _ _ s).trans (rewriteResults_effect _ _ _ _ _)
  · exact arbiterEffect_refl s

theorem layoutShunt_effect (b : Bank) (sl : Slot) (win : Window) (edge : Nat) (s : State) :
    ArbiterEffect s (layoutShunt b sl win edge s) := by
  unfold layoutShunt
  split
  · exact offer_effect _ _
  · exact layoutStatus_effect _ _ _ _
  · exact arbiterEffect_refl _

theorem layoutUser_effect (b : Bank) (sl : Slot) (u : UserSlot) (half : Nat) (s : State) :
    ArbiterEffect s (layoutUser b sl u half s) := by
  unfold layoutUser
  split
  · exact arbiterEffect_refl _
  · split
    · exact layoutStatus_effect _ _ _ _
    · exact offer_effect _ _

theorem layoutOffers_effect (b : Bank) (half : Nat) (s : State) : ArbiterEffect s (layoutOffers b half s) :=
  (((layoutShunt_effect _ _ _ _ s).trans (layoutShunt_effect _ _ _ _ _)).trans (layoutUser_effect _ _ _ _ _)).trans
    (layoutUser_effect _ _ _ _ _)

theorem writeWindows_effect (b : Bank) (r : WindowRecord) (s : State) : ArbiterEffect s (writeWindows b r s) :=
  (modDrumBank_effect _ _ s).trans (rewriteResults_effect _ _ _ _ _)

theorem layoutPeriod_effect (b : Bank) (half : Nat) (s : State) : ChannelEffect .d s (layoutPeriod b half s) := by
  unfold layoutPeriod
  split
  · exact ((writeWindows_effect _ _ s).channel .d).trans (modDrum_effect _ _)
  · exact (writeWindows_effect _ _ s).channel .d

theorem drumLayoutStep_effect (s : State) : ChannelEffect .d s (drumLayoutStep s) := by
  unfold drumLayoutStep
  simp only
  split
  · exact ((modDrum_effect _ s).trans (layoutPeriod_effect _ _ _)).trans ((layoutOffers_effect _ _ _).channel .d)
  · exact modDrum_effect _ s

/-- Everything the drum boundary can change (R33). -/
theorem drumBoundaryEvent_effect (s : State) : ChannelEffect .d s (drumBoundaryEvent s) :=
  (((((modDrum_effect _ s).trans ((dropEntries_effect _ _ _ _).channel .d)).trans (drumPlanStep_effect _)).trans
    (drumCommandStep_effect _ _)).trans (drumStarveStep_effect _)).trans (drumLayoutStep_effect _)

/-! ### The pump boundary (R64) -/

theorem stopPump_effect (p : PumpId) (s : State) : ChannelEffect (pumpChannel p) s (stopPump p s) :=
  (leavePump_effect p _ s).channel.trans ((dropEntries_effect _ _ _ _).channel _)

/-- Everything the entry into ALIGN can change (R72). -/
theorem enterAlign_effect (p : PumpId) (s : State) : PumpEffect p s (enterAlign p s) :=
  ((modPump_effect p _ s).trans (putWord_pumpEffect p _ _ _ (mem_channelWords_pump.mpr (by
    simp only [controlAddr, offStepIndex]; omega)))).trans (writeMissCount_pumpEffect p _)

theorem pumpPlanStep_effect (p : PumpId) (s : State) : ChannelEffect (pumpChannel p) s (pumpPlanStep p s) := by
  unfold pumpPlanStep
  split
  · split
    · exact ((modPump_channelEffect p _ s).trans (performRelease_effect _ _)).trans (commandDone_effect _ _ _ _ _)
    · exact ((modPump_channelEffect p _ s).trans (commandDone_effect _ _ _ _ _)).trans (takeOrHoldPump_effect _ _)
  · exact takeOrHoldPump_effect p s

theorem pumpStart_effect (p : PumpId) (s : State) : ChannelEffect (pumpChannel p) s (pumpStart p s).1 := by
  unfold pumpStart
  split
  · exact channelEffect_refl _ _
  · split
    · exact channelEffect_refl _ _
    · split
      · exact channelEffect_refl _ _
      · exact (enterAlign_effect p s).channel

theorem pumpBrake_effect (p : PumpId) (s : State) : ChannelEffect (pumpChannel p) s (pumpBrake p s) := by
  unfold pumpBrake
  split
  · exact (leavePump_effect p _ s).channel.trans (tripPump_effect _ _ _)
  · exact (leavePump_effect p _ s).channel

theorem pumpClear_effect (p : PumpId) (s : State) : ChannelEffect (pumpChannel p) s (pumpClear p s).1 := by
  unfold pumpClear
  split
  · exact channelEffect_refl _ _
  · split
    · exact channelEffect_refl _ _
    · dsimp only
      exact modPump_channelEffect p _ s

theorem pumpTake_effect (p : PumpId) (code : ChannelCode) (s : State) :
    ChannelEffect (pumpChannel p) s (pumpTake p code s).1 := by
  unfold pumpTake
  split <;>
    first
    | exact channelEffect_refl _ _
    | exact pumpStart_effect _ _
    | exact pumpBrake_effect _ _
    | exact pumpClear_effect _ _

theorem pumpCommandStep_effect (p : PumpId) (s : State) : ChannelEffect (pumpChannel p) s (pumpCommandStep p s) := by
  unfold pumpCommandStep
  split
  · exact ((modPump_channelEffect p _ s).trans (pumpTake_effect _ _ _)).trans (commandDone_effect _ _ _ _ _)
  · exact channelEffect_refl _ _

theorem layoutSlot0_effect (p : PumpId) (b : Bank) (tp : Nat) (s : State) :
    ChannelEffect (pumpChannel p) s (layoutSlot0 p b tp s) := by
  unfold layoutSlot0
  simp only
  split
  · exact (modPump_channelEffect p _ s).trans ((offer_effect _ _).channel _)
  · exact modPump_channelEffect p _ s

theorem layoutSlot1_effect (p : PumpId) (b : Bank) (tp : Nat) (s : State) :
    ChannelEffect (pumpChannel p) s (layoutSlot1 p b tp s) := by
  unfold layoutSlot1
  simp only
  split
  · exact (modPump_channelEffect p _ s).trans ((offer_effect _ _).channel _)
  · exact modPump_channelEffect p _ s

theorem layoutDutyFlags_effect (p : PumpId) (b : Bank) (tp : Nat) (s : State) :
    ArbiterEffect s (layoutDutyFlags p b tp s) := by
  unfold layoutDutyFlags
  split
  · exact (modPumpBank_effect _ _ _ s).trans (rewriteResults_effect _ _ _ _ _)
  · exact arbiterEffect_refl s

theorem layoutPumpBank_effect (p : PumpId) (b : Bank) (tp : Nat) (s : State) :
    ChannelEffect (pumpChannel p) s (layoutPumpBank p b tp s) := by
  unfold layoutPumpBank
  simp only
  refine ChannelEffect.trans (ChannelEffect.trans ?_ (layoutSlot0_effect _ _ _ _)) (layoutSlot1_effect _ _ _ _)
  split
  · exact ((modPumpBank_effect _ _ _ s).trans (layoutDutyFlags_effect _ _ _ _)).channel _
  · exact (modPumpBank_effect _ _ _ s).channel _

theorem pumpLayoutStep_effect (p : PumpId) (s : State) : ChannelEffect (pumpChannel p) s (pumpLayoutStep p s) := by
  unfold pumpLayoutStep
  simp only
  split
  · exact (modPump_channelEffect p _ s).trans (layoutPumpBank_effect _ _ _ _)
  · exact modPump_channelEffect p _ s

/-- Everything a pump boundary can change (R64). -/
theorem pumpBoundaryEvent_effect (p : PumpId) (s : State) :
    ChannelEffect (pumpChannel p) s (pumpBoundaryEvent p s) :=
  ((pumpPlanStep_effect p s).trans (pumpCommandStep_effect p _)).trans (pumpLayoutStep_effect p _)

/-! ### Channel commands (R29, R69) -/

theorem setWaiting_effect (ch : Channel) (w : Option WaitingCommand) (s : State) :
    ChannelEffect ch s (setWaiting ch w s) := by
  unfold setWaiting
  split
  · exact modDrum_effect _ s
  · exact modPump_channelEffect .p1 _ s
  · exact modPump_channelEffect .p2 _ s

theorem stopChannel_effect (ch : Channel) (s : State) : ChannelEffect ch s (stopChannel ch s) := by
  cases ch
  · exact stopDrum_effect s
  · exact stopPump_effect .p1 s
  · exact stopPump_effect .p2 s

theorem supersede_effect (ch : Channel) (s : State) : ChannelEffect ch s (supersede ch s) := by
  unfold supersede
  split
  · exact (setWaiting_effect ch _ s).trans (commandRefused_effect ch _ _ _ _)
  · exact channelEffect_refl _ _

theorem stopEvent_effect (ch : Channel) (tag : Byte) (s : State) : ChannelEffect ch s (stopEvent ch tag s) := by
  unfold stopEvent
  split
  · exact commandDone_effect ch _ _ _ s
  · split
    · exact (supersede_effect ch s).trans (commandDone_effect ch _ _ _ _)
    · exact ((supersede_effect ch s).trans (stopChannel_effect ch _)).trans (commandDone_effect ch _ _ _ _)

theorem waitEvent_effect (ch : Channel) (code : ChannelCode) (tag : Byte) (s : State) :
    ChannelEffect ch s (waitEvent ch code tag s) := by
  unfold waitEvent
  split
  · exact commandRefused_effect ch _ _ _ s
  · exact setWaiting_effect ch _ s

/-- Everything a command event of a channel can change, after its word has landed (R29, R69). -/
theorem commandEvent_effect (ch : Channel) (w : Word) (s : State) : ChannelEffect ch s (commandEvent ch w s) := by
  unfold commandEvent
  split
  · exact commandRefused_effect ch _ _ _ s
  · exact stopEvent_effect ch _ s
  · exact waitEvent_effect ch _ _ s

end Sys2Proof.Machine
end

