-- ==== Sys2Proof/Laws/Causes.lean ====
section
/-! SUPPORT. Which interrupt causes an operation can raise, said once: beside a list of its own, LATE by a report that
CombineMask selects, and the RET cause of a channel by a bank that comes back to the host. Such flows compose, and every
operation of the arbiter, of a boundary and of a trip is one (R170). -/

namespace Sys2Proof.Machine

/-- The causes an operation can raise: those of a list, LATE by a counted report, RET by a returned bank. With it goes what
makes such flows compose: LPR's counters do not fall, the configuration stays, and a bank that is HOST stays HOST. -/
structure Flow (ks : List Cause) (s t : State) : Prop where
  raised : ∀ k, Raised k s t →
    k ∈ ks ∨ (k = .late ∧ LateCounted s t) ∨ ∃ ch, k = retCause ch ∧ BankReturned ch s t
  counters : ∀ k : Fin 10, (s.lpr.counters.get k).toNat ≤ (t.lpr.counters.get k).toNat
  config : cfg t = cfg s
  hosts : ∀ ch b, (s.exch ch).role b = .host → (t.exch ch).role b = .host

/-- What leaves the pending set, the account, the configuration and the exchange raises nothing. -/
theorem flow_of_eq {s t : State} (hi : t.intPend = s.intPend) (hl : t.lpr = s.lpr) (hg : cfg t = cfg s)
    (he : ∀ ch, t.exch ch = s.exch ch) : Flow [] s t :=
  ⟨fun k h => absurd h.1 (hi ▸ h.2), fun k => by rw [hl], hg, fun ch b h => by rw [he]; exact h⟩

theorem flow_refl (s : State) : Flow [] s s := flow_of_eq rfl rfl rfl (fun _ => rfl)

theorem Flow.mono {ks js : List Cause} {s t : State} (h : Flow ks s t) (hs : ∀ k ∈ ks, k ∈ js) : Flow js s t :=
  ⟨fun k hk => (h.raised k hk).imp (hs k) id, h.counters, h.config, h.hosts⟩

theorem Flow.trans {ks js : List Cause} {s t u : State} (h : Flow ks s t) (g : Flow js t u) : Flow (ks ++ js) s u := by
  refine ⟨fun k hk => ?_, fun k => (h.counters k).trans (g.counters k), g.config.trans h.config,
    fun ch b hb => g.hosts ch b (h.hosts ch b hb)⟩
  by_cases hm : t.intPend &&& k.mask = 0
  · rcases g.raised k ⟨hm, hk.2⟩ with h1 | ⟨rfl, h1, j, h2, h3⟩ | ⟨ch, rfl, b, h1, h2⟩
    · exact .inl (List.mem_append_right _ h1)
    · refine .inr (.inl ⟨rfl, h1, j, h2, ?_⟩)
      have := h.counters j
      rcases h3 with h3 | h3
      · exact .inl (by omega)
      · by_cases hs : s.lpr.counters.get j = BitVec.allOnes 32
        · exact .inr hs
        · have hne : (s.lpr.counters.get j).toNat ≠ (BitVec.allOnes 32).toNat := fun e => hs (BitVec.eq_of_toNat_eq e)
          have := g.counters j
          rw [h3] at this
          have := (s.lpr.counters.get j).isLt
          rw [BitVec.toNat_allOnes] at *
          exact .inl (by omega)
    · exact .inr (.inr ⟨ch, rfl, b, fun e => h1 (h.hosts ch b e), h2⟩)
  · rcases h.raised k ⟨hk.1, hm⟩ with h1 | ⟨rfl, h1, j, h2, h3⟩ | ⟨ch, rfl, b, h1, h2⟩
    · exact .inl (List.mem_append_left _ h1)
    · refine .inr (.inl ⟨rfl, g.config ▸ h1, j, g.config ▸ h2, ?_⟩)
      rcases h3 with h3 | h3
      · exact .inl (h3.trans_le (g.counters j))
      · exact .inr h3
    · exact .inr (.inr ⟨ch, rfl, b, h1, g.hosts ch b h2⟩)

/-- A flow after one that raises nothing of its own. -/
theorem Flow.after {ks : List Cause} {s t u : State} (h : Flow [] s t) (g : Flow ks t u) : Flow ks s u := h.trans g

/-- A flow before one that raises nothing of its own. -/
theorem Flow.before {ks : List Cause} {s t u : State} (h : Flow ks s t) (g : Flow [] t u) : Flow ks s u :=
  (h.trans g).mono (by simp)

/-- A flow within a list, followed by one within it. -/
theorem Flow.and {ks : List Cause} {s t u : State} (h : Flow ks s t) (g : Flow ks t u) : Flow ks s u :=
  (h.trans g).mono (by simp)

/-- A cause outside the list, other than LATE and the three RET causes, is not raised. -/
theorem Flow.not_raised {ks : List Cause} {s t : State} (h : Flow ks s t) {k : Cause} (hk : k ∉ ks) (hl : k ≠ .late)
    (hr : ∀ ch, k ≠ retCause ch) : ¬Raised k s t := fun hx => by
  rcases h.raised k hx with h1 | h1 | ⟨ch, h1, _⟩
  · exact hk h1
  · exact hl h1.1
  · exact hr ch h1

/-! ### The single updates -/

theorem mask_and_mask {c k : Cause} (h : k ≠ c) : c.mask &&& k.mask = 0 := by
  cases c <;> cases k <;> first | exact absurd rfl h | rfl

theorem raise_flow (c : Cause) (s : State) : Flow [c] s (raise c s) := by
  refine ⟨fun k hk => .inl ?_, fun k => by rw [raise_lpr], raise_cfg c s, fun ch b h => by rw [raise_exch]; exact h⟩
  by_contra hc
  have hne : k ≠ c := by simpa using hc
  apply hk.2
  rw [raise_intPend, show (s.intPend ||| c.mask) &&& k.mask = (s.intPend &&& k.mask) ||| (c.mask &&& k.mask) by
    ext i; simp [Bool.and_or_distrib_right], hk.1, mask_and_mask hne]
  rfl

theorem modDrum_flow (f : Drum → Drum) (s : State) : Flow [] s (modDrum f s) :=
  flow_of_eq (by simp) (by simp) (by simp) (by simp)

theorem modPump_flow (p : PumpId) (f : Pump → Pump) (s : State) : Flow [] s (modPump p f s) :=
  flow_of_eq (by simp) (by simp) (by simp) (by simp)

theorem modDrumBank_flow (b : Bank) (f : DrumBank → DrumBank) (s : State) : Flow [] s (modDrumBank b f s) :=
  flow_of_eq (by simp) (by simp) (by simp) (by simp)

theorem modPumpBank_flow (p : PumpId) (b : Bank) (f : PumpBank → PumpBank) (s : State) :
    Flow [] s (modPumpBank p b f s) :=
  flow_of_eq (by simp) (by simp) (by simp) (by simp)

theorem modCal_flow (cv : Conv) (f : CalRecord → CalRecord) (s : State) : Flow [] s (modCal cv f s) :=
  flow_of_eq (by simp) (by simp) (by simp) (by simp)

theorem setList_flow (l : List Entry) (s : State) : Flow [] s (setList l s) :=
  flow_of_eq rfl rfl rfl (by simp)

theorem putWords_flow (a : Nat) (ws : List Word) (s : State) : Flow [] s (putWords a ws s) :=
  flow_of_eq rfl rfl rfl (by simp)

theorem showWords_flow (a : Nat) (old new : List (List Word)) (s : State) : Flow [] s (showWords a old new s) :=
  flow_of_eq rfl rfl rfl (by simp)

theorem rewriteResults_flow (ch : Channel) (b : Bank) (off n : Nat) (s : State) :
    Flow [] s (rewriteResults ch b off n s) :=
  flow_of_eq rfl rfl rfl (by simp)

theorem rewriteSlot_flow (r : Request) (k n : Nat) (s : State) : Flow [] s (rewriteSlot r k n s) :=
  flow_of_eq (by simp) (by simp) (by simp) (by simp)

theorem setConverter_flow (cv : Conv) (f : Option InFlight) (s : State) : Flow [] s (setConverter cv f s) :=
  flow_of_eq (by simp) (by simp) (by simp) (by simp)

/-- A change of the arbiter's own record raises nothing. -/
theorem arb_flow (s : State) (a : Arbiter) : Flow [] s { s with arb := a } :=
  flow_of_eq rfl rfl rfl (fun ch => by cases ch <;> rfl)

theorem setPower_flow (p : Power) (s : State) : Flow [] s (setPower p s) :=
  flow_of_eq rfl rfl rfl (by simp)

/-- A change of the roles that makes no HOST bank anything else raises nothing. -/
theorem modExch_flow (ch : Channel) (f : Exchange → Exchange) (s : State)
    (h : ∀ b, (s.exch ch).role b = .host → (f (s.exch ch)).role b = .host) : Flow [] s (modExch ch f s) := by
  refine ⟨fun k hk => absurd hk.1 (by have := hk.2; rwa [modExch_intPend] at this), fun k => by rw [modExch_lpr],
    modExch_cfg ch f s, fun c b hb => ?_⟩
  by_cases hc : c = ch
  · subst hc
    rw [modExch_same]
    exact h b hb
  · rw [modExch_other f s hc]
    exact hb

theorem putWord_flow (a : Nat) (v : Word) (s : State) : Flow [] s (putWord a v s) :=
  flow_of_eq rfl rfl rfl (by simp)

theorem modLiveSeq_flow (ch : Channel) (f : Exchange → Exchange) (s : State)
    (h : ∀ b, (s.exch ch).role b = .host → (f (s.exch ch)).role b = .host) : Flow [] s (modLiveSeq ch f s) :=
  (modExch_flow ch f s h).after (putWord_flow _ _ _)

theorem writeBankStatus_flow (ch : Channel) (b : Bank) (st : BankStatus) (s : State) :
    Flow [] s (writeBankStatus ch b st s) :=
  putWord_flow _ _ s

theorem recordParity_flow (src : ParitySource) (a : Nat) (s : State) : Flow [.parity] s (recordParity src a s) :=
  Flow.after (flow_of_eq (t := showWords parityAddr (singles s.parity.words)
    (singles (s.parity.record (w16 a) src).words) { s with parity := s.parity.record (w16 a) src }) rfl rfl rfl
    (fun ch => by cases ch <;> rfl)) (raise_flow _ _)

theorem recordFault_flow (a : Word) (k : FaultKind) (r : Option Role) (s : State) :
    Flow [.access] s (recordFault a k r s) :=
  Flow.after (flow_of_eq (t := showWords accessAddr (singles s.access.words)
    (singles (s.access.record a k r).words) { s with access := s.access.record a k r }) rfl rfl rfl
    (fun ch => by cases ch <;> rfl)) (raise_flow _ _)

theorem commandDone_flow (ch : Channel) (tag code : Byte) (o : Outcome) (s : State) :
    Flow [.cmd] s (commandDone ch tag code o s) := (putWords_flow _ _ s).after (raise_flow _ _)

theorem commandRefused_flow (ch : Channel) (tag code : Byte) (o : Outcome) (s : State) :
    Flow [.cmd] s (commandRefused ch tag code o s) := (putWords_flow _ _ s).after (raise_flow _ _)

theorem globalDone_flow (tag code : Byte) (o : Outcome) (n : Nat) (s : State) :
    Flow [.cmd] s (globalDone tag code o n s) := (putWords_flow _ _ s).after (raise_flow _ _)

theorem globalRefused_flow (tag code : Byte) (o : Outcome) (s : State) :
    Flow [.cmd] s (globalRefused tag code o s) := (putWords_flow _ _ s).after (raise_flow _ _)

theorem modTrm_flow (f : TripMonitor → TripMonitor) (s : State) : Flow [] s (modTrm f s) :=
  flow_of_eq (by simp) (by simp) (by simp) (by simp)

/-! ### Statuses, settling, retirement -/

theorem modNamedSlot_flow (r : Request) (fd : SlotRecord → SlotRecord) (fp : PumpSlot → PumpSlot) (s : State) :
    Flow [] s (modNamedSlot r fd fp s) := by
  unfold modNamedSlot
  split
  · exact flow_refl s
  · split
    · exact modDrumBank_flow _ _ _
    · exact modPumpBank_flow _ _ _ _
    · exact modPumpBank_flow _ _ _ _
    · exact flow_refl s

theorem modSlotStatus_flow (r : Request) (fd : SlotRecord → SlotRecord) (fp : PumpSlot → PumpSlot) (s : State) :
    Flow [] s (modSlotStatus r fd fp s) :=
  (modNamedSlot_flow r fd fp s).after (rewriteSlot_flow _ _ _ _)

theorem settlePair_flow (b : Bank) (s : State) : Flow [] s (settlePair b s) := by
  unfold settlePair
  simp only
  split
  · exact ((modDrumBank_flow _ _ s).after (rewriteResults_flow _ _ _ _ _)).after (rewriteResults_flow _ _ _ _ _)
  · exact flow_refl s

theorem settleAfter_flow (r : Request) (s : State) : Flow [] s (settleAfter r s) := by
  unfold settleAfter
  split
  · split
    · exact settlePair_flow _ _
    · exact flow_refl s
  · exact flow_refl s

/-- A bank that goes from another role to HOST raises its channel's RET cause, and nothing else. -/
theorem returned_flow (ch : Channel) (b : Bank) (s t : State) (hr : (s.exch ch).role b ≠ .host)
    (he : ∀ c, (t.exch ch).role c = ((s.exch ch).setRole b .host).role c) (ho : ∀ c, c ≠ ch → t.exch c = s.exch c)
    (hi : t.intPend = s.intPend ||| (retCause ch).mask) (hl : t.lpr = s.lpr) (hg : cfg t = cfg s) : Flow [] s t := by
  refine ⟨fun k hk => .inr (.inr ⟨ch, ?_, b, hr, by rw [he, setRole_same]⟩), fun k => by rw [hl], hg, fun c d hd => ?_⟩
  · by_contra hne
    have := (raise_flow (retCause ch) s).raised k ⟨hk.1, by rw [raise_intPend, ← hi]; exact hk.2⟩
    rcases this with h | ⟨_, _, j, _, h⟩ | ⟨c, _, d, h1, h2⟩
    · exact hne (by simpa using h)
    · rw [raise_lpr] at h
      rcases h with h | h
      · omega
      · exact hk.2 (by
          rw [hi, show (s.intPend ||| (retCause ch).mask) &&& k.mask
            = (s.intPend &&& k.mask) ||| ((retCause ch).mask &&& k.mask) by
              ext i; simp [Bool.and_or_distrib_right], hk.1, mask_and_mask hne]
          rfl)
    · rw [raise_exch] at h2
      exact h1 h2
  · by_cases hc : c = ch
    · subst hc
      rw [he]
      cases b <;> cases d <;> first | rfl | exact hd
    · rw [ho c hc]
      exact hd

theorem retire_flow (ch : Channel) (b : Bank) (s : State) (h : (s.exch ch).role b = .retiring) :
    Flow [] s (retire ch b s) :=
  returned_flow ch b s _ (by rw [h]; simp)
    (fun c => by rw [retire_exch]; cases b <;> cases c <;> rfl) (fun c hc => retire_exch_other b s hc)
    (by simp [retire]) (by simp [retire]) (by simp [retire])

theorem retireCheck_flow (ch : Channel) (s : State) : Flow [] s (retireCheck ch s) := by
  unfold retireCheck
  split
  · split
    · exact flow_refl s
    · exact retire_flow _ _ _ (bankIn_role ‹_›)
  · exact flow_refl s

theorem reportToPxl_flow (o : Origin) (s : State) : Flow [] s (reportToPxl o s) := by
  unfold reportToPxl
  split <;> first | exact retireCheck_flow _ _ | exact flow_refl s

theorem foldl_flow {α : Type} (ks : List Cause) (f : State → α → State) (h : ∀ s a, Flow ks s (f s a)) (l : List α)
    (s : State) : Flow ks s (l.foldl f s) := by
  induction l generalizing s with
  | nil => exact (flow_refl s).mono (by simp)
  | cons a l ih => exact (h s a).and (ih (f s a))

theorem dropEntries_flow (ch : Channel) (st : SlotStatus) (which : Request → Bool) (s : State) :
    Flow [] s (dropEntries ch st which s) := by
  unfold dropEntries
  simp only
  refine Flow.after ?_ (retireCheck_flow _ _)
  refine Flow.after ?_ (foldl_flow [] _ (fun t r => settleAfter_flow r t) _ _)
  refine Flow.after ?_ (foldl_flow [] _ (fun t r => modSlotStatus_flow r _ _ t) _ _)
  exact setList_flow _ s

/-! ### Reports, starts, offers -/

theorem count_le (l : Profiler) (k j : Fin 10) : (l.counters.get j).toNat ≤ ((l.count k).counters.get j).toNat := by
  unfold Profiler.count
  simp only
  split
  · exact Nat.le_refl _
  · have hne : (l.counters.get k).toNat ≠ (BitVec.allOnes 32).toNat := fun e => ‹¬_› (BitVec.eq_of_toNat_eq e)
    have := (l.counters.get k).isLt
    rw [BitVec.toNat_allOnes] at hne
    by_cases hj : j = k
    · subst hj
      simp only [Vector.get_eq_getElem, Vector.getElem_set_self] at *
      rw [BitVec.toNat_add]
      simp
      omega
    · have : k.val ≠ j.val := fun e => hj (Fin.ext e.symm)
      simp [Vector.get_eq_getElem, Vector.getElem_set_ne, this]

theorem count_lt (l : Profiler) (k : Fin 10) (h : l.counters.get k ≠ BitVec.allOnes 32) :
    (l.counters.get k).toNat < ((l.count k).counters.get k).toNat := by
  unfold Profiler.count
  simp only [if_neg h]
  have hne : (l.counters.get k).toNat ≠ (BitVec.allOnes 32).toNat := fun e => h (BitVec.eq_of_toNat_eq e)
  have := (l.counters.get k).isLt
  rw [BitVec.toNat_allOnes] at hne
  simp only [Vector.get_eq_getElem, Vector.getElem_set_self] at *
  rw [BitVec.toNat_add]
  simp
  omega

/-- A report raises LATE where it is counted against a counter that CombineMask selects (R131). -/
theorem report_flow (o : Origin) (k : Fin 10) (s : State) : Flow [] s (report o k s) := by
  unfold report
  split
  · rename_i hc
    have hp : (cfg s).profileEnable = true := by
      unfold reportCounted at hc
      simp only [Bool.and_eq_true] at hc
      exact hc.1
    have he : ∀ ch, State.exch { s with lpr := s.lpr.count k } ch = s.exch ch := fun ch => by cases ch <;> rfl
    simp only
    split
    · rename_i hm
      refine ⟨fun j hj => ?_, fun j => ?_, by simp [cfg], fun ch b hb => by simp [he, hb]⟩
      · by_cases hl : j = .late
        · subst hl
          refine .inr (.inl ⟨rfl, by simpa [cfg] using hp, k, by simpa [cfg] using hm, ?_⟩)
          by_cases hx : s.lpr.counters.get k = BitVec.allOnes 32
          · exact .inr hx
          · exact .inl (by simpa using count_lt s.lpr k hx)
        · exfalso
          apply hj.2
          rw [raise_intPend, showWords_intPend, show (s.intPend ||| Cause.late.mask) &&& j.mask
            = (s.intPend &&& j.mask) ||| (Cause.late.mask &&& j.mask) by
              ext i; simp [Bool.and_or_distrib_right], hj.1, mask_and_mask hl]
          rfl
      · simpa using count_le s.lpr k j
    · refine ⟨fun j hj => absurd hj.1 hj.2, fun j => by simpa using count_le s.lpr k j, by simp [cfg],
        fun ch b hb => by simp [he, hb]⟩
  · exact flow_refl s

theorem setCalPhase_flow (o : Origin) (ph : CalPhase) (s : State) : Flow [] s (setCalPhase o ph s) := by
  unfold setCalPhase
  split
  · exact modCal_flow _ _ _
  · exact flow_refl s

theorem startConversion_flow (cv : Conv) (e : Entry) (s : State) : Flow [] s (startConversion cv e s) := by
  unfold startConversion
  simp only
  refine Flow.after ?_ (reportToPxl_flow _ _)
  refine Flow.after ?_ (report_flow _ _ _)
  refine Flow.after ?_ (setCalPhase_flow _ _ _)
  refine Flow.after ?_ (modSlotStatus_flow _ _ _ _)
  exact (setList_flow _ s).after (setConverter_flow _ _ _)

theorem assignTo_flow (cv : Conv) (s : State) : Flow [] s (assignTo cv s) := by
  unfold assignTo
  split
  · split
    · exact startConversion_flow _ _ _
    · exact flow_refl s
  · exact flow_refl s

theorem assign_flow (s : State) : Flow [] s (assign s) := by
  unfold assign
  split
  · exact (assignTo_flow _ _).after (assignTo_flow _ _)
  · exact flow_refl s

theorem replaceSame_flow (r : Request) (s : State) : Flow [] s (replaceSame r s) := by
  unfold replaceSame
  split
  · exact ((setList_flow _ s).after (modSlotStatus_flow _ _ _ _)).after (reportToPxl_flow _ _)
  · exact flow_refl s

theorem wakeCause_flow (s : State) : Flow [] s (wakeCause s) := by
  unfold wakeCause
  split
  · exact (arb_flow s _).after (setPower_flow _ _)
  · split
    · exact arb_flow s _
    · exact flow_refl s

theorem insertOffer_flow (r : Request) (s : State) : Flow [] s (insertOffer r s) := by
  have h := ((setList_flow (placeEntry { req := r, eligible := reached s.now r.inst } s.arb.list) s).after
    (modSlotStatus_flow r (fun x => { x with status := .queued }) (fun x => { x with status := .queued }) _)).after
      (setCalPhase_flow r.origin .listed _)
  unfold insertOffer
  simp only
  split
  · exact h.after (wakeCause_flow _)
  · exact h

theorem evict_flow (r : Request) (s : State) : Flow [] s (evict r s) := by
  have h := (modSlotStatus_flow r (fun x => { x with status := .evicted })
    (fun x => { x with status := .evicted, evictedCount := satInc x.evictedCount }) s).after
      (report_flow r.origin counterEvicted _)
  unfold evict
  simp only
  refine Flow.after ?_ (reportToPxl_flow _ _)
  split
  · exact h.after (modCal_flow _ _ _)
  · exact h

theorem offerListed_flow (r : Request) (s : State) : Flow [] s (offerListed r s) := by
  unfold offerListed
  simp only
  split
  · exact (replaceSame_flow r s).after (insertOffer_flow _ _)
  · split
    · split
      · exact (((replaceSame_flow r s).after (setList_flow _ _)).after (evict_flow _ _)).after (insertOffer_flow _ _)
      · exact (replaceSame_flow r s).after (evict_flow _ _)
    · exact (replaceSame_flow r s).after (insertOffer_flow _ _)

theorem offer_flow (r : Request) (s : State) : Flow [] s (offer r s) := by
  unfold offer
  simp only
  split
  · exact (offerListed_flow r s).after (assign_flow _)
  · exact offerListed_flow r s

theorem becomeEligible_flow (s : State) : Flow [] s (becomeEligible s) := (setList_flow _ s).after (assign_flow _)

theorem expireEntry_flow (e : Entry) (s : State) : Flow [] s (expireEntry e s) := by
  unfold expireEntry
  simp only
  exact ((((setList_flow _ s).after (modSlotStatus_flow _ _ _ _)).after (report_flow _ _ _)).after
    (settleAfter_flow _ _)).after (reportToPxl_flow _ _)

theorem raiseListed_flow (cv : Conv) (cls : ReqClass) (s : State) : Flow [] s (raiseListed cv cls s) := by
  unfold raiseListed
  split
  · exact setList_flow _ s
  · exact flow_refl s

/-! ### Calibration and completion -/

theorem beginSweep_flow (cv : Conv) (cls : CalClass) (s : State) : Flow [] s (beginSweep cv cls s) :=
  (modCal_flow _ _ s).after (offer_flow _ _)

theorem raiseSweep_flow (cv : Conv) (cls : CalClass) (s : State) : Flow [] s (raiseSweep cv cls s) := by
  unfold raiseSweep
  simp only
  refine Flow.after ?_ (wakeCause_flow _)
  split
  · exact (modCal_flow _ _ s).after (raiseListed_flow _ _ _)
  · exact (modCal_flow _ _ s).after (offer_flow _ _)
  · exact modCal_flow _ _ s

theorem actOnRaise_flow (cv : Conv) (s : State) : Flow [] s (actOnRaise cv s) := by
  unfold actOnRaise
  split
  · exact raiseSweep_flow _ _ _
  · exact flow_refl s

theorem recalibrateOne_flow (cv : Conv) (s : State) : Flow [] s (recalibrateOne cv s) := by
  unfold recalibrateOne
  split
  · exact (modCal_flow _ _ s).after (beginSweep_flow _ _ _)
  · exact flow_refl s

theorem recountCal_flow (cv : Conv) (s : State) : Flow [] s (recountCal cv s) := by
  unfold recountCal
  split
  · simp only
    split
    · exact ((modCal_flow _ _ s).after (putWords_flow _ _ _)).after (beginSweep_flow _ _ _)
    · exact (modCal_flow _ _ s).after (putWords_flow _ _ _)
  · exact (actOnRaise_flow _ _).after (actOnRaise_flow _ _)

/-- The sixteenth result of a sweep raises CALR where its offset is clamped (R118), and every other result nothing. -/
theorem calResult_flow (cv : Conv) (raw : Raw) (s : State) :
    Flow [.calr] s (calResult cv raw s) ∧
      (¬((s.cal cv).progress + 1 = 16 ∧
          (exactOffset ((s.cal cv).sum + raw.toNat) < -64 ∨ 63 < exactOffset ((s.cal cv).sum + raw.toNat))) →
        Flow [] s (calResult cv raw s)) := by
  unfold calResult endSweep
  simp only
  split
  · have hc : clampInt (offsetOfSum ((s.cal cv).sum + raw.toNat)) (-64) 63 ≠ offsetOfSum ((s.cal cv).sum + raw.toNat) ↔
        exactOffset ((s.cal cv).sum + raw.toNat) < -64 ∨ 63 < exactOffset ((s.cal cv).sum + raw.toNat) := by
      rw [show exactOffset ((s.cal cv).sum + raw.toNat) = offsetOfSum ((s.cal cv).sum + raw.toNat) from rfl]
      unfold clampInt
      split
      · omega
      · split <;> omega
    split
    · exact ⟨(modCal_flow _ _ s).after (raise_flow _ _), fun h => absurd ⟨‹_›, hc.mp ‹_›⟩ h⟩
    · exact ⟨(modCal_flow _ _ s).mono (by simp), fun _ => modCal_flow _ _ s⟩
  · exact ⟨(modCal_flow _ _ s).mono (by simp), fun _ => modCal_flow _ _ s⟩

theorem reofferAtCompletion_flow (cv : Conv) (s : State) : Flow [] s (reofferAtCompletion cv s) := by
  unfold reofferAtCompletion
  split
  · exact offerListed_flow _ _
  · exact flow_refl s

theorem calAfterCompletion_flow (o : Origin) (s : State) : Flow [] s (calAfterCompletion o s) := by
  unfold calAfterCompletion
  simp only
  refine Flow.after ?_ (reofferAtCompletion_flow _ _)
  refine Flow.after ?_ (reofferAtCompletion_flow _ _)
  split
  · split
    · exact flow_refl s
    · exact offerListed_flow _ _
  · exact flow_refl s

theorem rewritePumpSlot_flow (r : Request) (s : State) : Flow [] s (rewritePumpSlot r s) :=
  (rewriteSlot_flow _ _ _ s).after (rewriteSlot_flow _ _ _ _)

/-- A delivery raises CALR at most, and that by a result of REF (R118). -/
theorem deliverResult_flow (cv : Conv) (f : InFlight) (raw : Raw) (s : State) :
    Flow [.calr] s (deliverResult cv f raw s) ∧
      ((∀ cv', f.req.origin = convOrigin cv' → ¬((s.cal cv').progress + 1 = 16 ∧
          (exactOffset ((s.cal cv').sum + raw.toNat) < -64 ∨ 63 < exactOffset ((s.cal cv').sum + raw.toNat)))) →
        Flow [] s (deliverResult cv f raw s)) := by
  unfold deliverResult
  simp only
  have both : ∀ {t : State} {P : Prop}, Flow [] s t → Flow [.calr] s t ∧ (P → Flow [] s t) :=
    fun h => ⟨h.mono (by simp), fun _ => h⟩
  split
  · split
    · exact both (((modDrumBank_flow _ _ s).after (rewriteSlot_flow _ _ _ _)).after (settleAfter_flow _ _))
    · exact both (flow_refl s)
  · exact both ((modPumpBank_flow _ _ _ s).after (rewritePumpSlot_flow _ _))
  · exact both ((modPumpBank_flow _ _ _ s).after (rewritePumpSlot_flow _ _))
  · exact ⟨(calResult_flow .a raw s).1, fun h => (calResult_flow .a raw s).2 (h .a ‹_›)⟩
  · exact ⟨(calResult_flow .b raw s).1, fun h => (calResult_flow .b raw s).2 (h .b ‹_›)⟩
  · exact both (flow_refl s)

/-- The causes of a completion (R118, R131, R20). -/
theorem complete_flow (cv : Conv) (f : InFlight) (raw : Raw) (s : State) :
    Flow [.calr] s (complete cv f raw s) ∧
      ((∀ cv', f.req.origin = convOrigin cv' → ¬((s.cal cv').progress + 1 = 16 ∧
          (exactOffset ((s.cal cv').sum + raw.toNat) < -64 ∨ 63 < exactOffset ((s.cal cv').sum + raw.toNat)))) →
        Flow [] s (complete cv f raw s)) := by
  have h : Flow [] s (setConverter cv none { s with arb := { s.arb with idleStart := s.now } }) :=
    (arb_flow s _).after (setConverter_flow _ _ _)
  have hc : ∀ cv', (setConverter cv none { s with arb := { s.arb with idleStart := s.now } }).cal cv' = s.cal cv' :=
    fun cv' => by cases cv' <;> simp [State.cal]
  have tail : ∀ t, Flow [] t (assign (calAfterCompletion f.req.origin (reportToPxl f.req.origin t))) := fun t =>
    ((reportToPxl_flow _ t).after (calAfterCompletion_flow _ _)).after (assign_flow _)
  have d := deliverResult_flow cv f raw (setConverter cv none { s with arb := { s.arb with idleStart := s.now } })
  simp only [hc] at d
  exact ⟨(h.after d.1).before (tail _), fun hn => (h.after (d.2 hn)).after (tail _)⟩

theorem enterAwake_flow (s : State) : Flow [] s (enterAwake s) :=
  ((arb_flow s _).after (setPower_flow _ _)).after (assign_flow _)

/-! ### Trips (R138 to R142) -/

theorem leavePump_flow (p : PumpId) (f : Pump → Pump) (s : State) : Flow [] s (leavePump p f s) := by
  unfold leavePump
  split
  · exact (modPump_flow p f s).after (putWord_flow _ _ _)
  · exact modPump_flow p f s

theorem tripDrum_flow (c : TripCause) (s : State) : Flow [.trip] s (tripDrum c s) :=
  (((modDrum_flow _ s).after (putWords_flow _ _ _)).after (dropEntries_flow _ _ _ _)).after (raise_flow _ _)

theorem tripPump_flow (p : PumpId) (c : TripCause) (s : State) : Flow [.trip] s (tripPump p c s) :=
  (((leavePump_flow p _ s).after (putWords_flow _ _ _)).after (dropEntries_flow _ _ _ _)).after (raise_flow _ _)

theorem furtherDrum_flow (c : TripCause) (s : State) : Flow [.trip] s (furtherDrum c s) := by
  unfold furtherDrum
  simp only
  split
  · exact (flow_refl s).mono (by simp)
  · exact ((modDrum_flow _ s).after (showWords_flow _ _ _ _)).after (raise_flow _ _)

theorem furtherPump_flow (p : PumpId) (c : TripCause) (s : State) : Flow [.trip] s (furtherPump p c s) := by
  unfold furtherPump
  simp only
  split
  · exact (flow_refl s).mono (by simp)
  · exact ((modPump_flow p _ s).after (showWords_flow _ _ _ _)).after (raise_flow _ _)

theorem assertOnDrum_flow (c : TripCause) (s : State) : Flow [.trip] s (assertOnDrum c s) := by
  unfold assertOnDrum
  split <;> split <;>
    first | exact (flow_refl s).mono (by simp) | exact furtherDrum_flow _ _ | exact tripDrum_flow _ _

theorem assertOnPump_flow (p : PumpId) (c : TripCause) (s : State) : Flow [.trip] s (assertOnPump p c s) := by
  unfold assertOnPump
  split <;> split <;>
    first | exact (flow_refl s).mono (by simp) | exact furtherPump_flow _ _ _ | exact tripPump_flow _ _ _

theorem reachChannels_flow (pin : TripPin) (s : State) : Flow [.trip] s (reachChannels pin s) := by
  unfold reachChannels
  split
  · exact assertOnDrum_flow _ _
  · exact assertOnPump_flow _ _ _
  · exact assertOnPump_flow _ _ _
  · exact ((assertOnDrum_flow _ s).and (assertOnPump_flow _ _ _)).and (assertOnPump_flow _ _ _)
  · exact assertOnDrum_flow _ _
  · exact (assertOnPump_flow _ _ s).and (assertOnPump_flow _ _ _)

/-! ### The exchange at a boundary (R8 to R18) -/

/-- A bank that becomes HOST leaves every HOST bank HOST. -/
theorem setRole_host (e : Exchange) (b c : Bank) (h : e.role c = .host) : (e.setRole b .host).role c = .host := by
  cases b <;> cases c <;> first | rfl | exact h

theorem setRole_hosts (e : Exchange) (b c : Bank) (r : Role) (hb : e.role b ≠ .host) (h : e.role c = .host) :
    (e.setRole b r).role c = .host := by
  cases b <;> cases c <;> first | exact absurd h hb | exact h

theorem cancelBank_flow (ch : Channel) (b : Bank) (s : State) : Flow [] s (cancelBank ch b s) :=
  (writeBankStatus_flow ch b _ s).after (modExch_flow ch _ _ (fun c h => setRole_host _ _ _ (by simpa using h)))

theorem rejectBank_flow (ch : Channel) (b : Bank) (code : BankStatus) (s : State) (h : (s.exch ch).role b ≠ .host) :
    Flow [] s (rejectBank ch b code s) :=
  returned_flow ch b s _ h (fun c => by simp [rejectBank]) (fun c hc => by simp [rejectBank, hc])
    (by simp [rejectBank]) (by simp [rejectBank]) (by simp [rejectBank])

theorem reportPlanParity_flow (ch : Channel) (bad : List Nat) (s : State) :
    Flow [.parity] s (reportPlanParity ch bad s) :=
  foldl_flow [.parity] _ (fun t a => recordParity_flow _ a t) _ _

@[simp] theorem reportPlanParity_exch (ch : Channel) (bad : List Nat) (s : State) (c : Channel) :
    (reportPlanParity ch bad s).exch c = s.exch c := by
  unfold reportPlanParity
  induction bad generalizing s with
  | nil => rfl
  | cons a as ih => rw [List.foldl_cons, ih]; simp [recordParity]; cases c <;> rfl

theorem goLive_flow (ch : Channel) (b : Bank) (seq : Word) (s : State) (h : (s.exch ch).role b ≠ .host) :
    Flow [] s (goLive ch b seq s) := by
  unfold goLive
  split
  · rename_i ob hob
    have hl : (s.exch ch).role ob ≠ .host := by rw [bankIn_role hob]; simp
    refine Flow.after (modLiveSeq_flow ch _ s (fun c hc => ?_)) (dropEntries_flow _ _ _ _)
    show (((s.exch ch).setRole ob .retiring).setRole b .live).role c = .host
    have h1 := setRole_hosts (s.exch ch) ob c .retiring hl hc
    cases b <;> cases c <;> first | exact absurd hc h | exact h1
  · refine modLiveSeq_flow ch _ s (fun c hc => ?_)
    show ((s.exch ch).setRole b .live).role c = .host
    exact setRole_hosts _ _ _ _ h hc

theorem acceptDrum_flow (b : Bank) (plan : DrumPlan) (s : State) (h : s.exchD.role b ≠ .host) :
    Flow [] s (acceptDrum b plan s) := by
  have h1 : Flow [] s { s with drum := s.drum.setBank b (freshDrumBank plan) } :=
    flow_of_eq rfl rfl rfl (fun ch => by cases ch <;> rfl)
  unfold acceptDrum
  refine ((h1.after (putWords_flow _ _ _)).after (goLive_flow .d b _ _ ?_)).after (modDrum_flow _ _)
  rw [putWords_exch]
  exact h

theorem acceptPump_flow (p : PumpId) (b : Bank) (plan : PumpPlan) (s : State)
    (h : (s.exch (pumpChannel p)).role b ≠ .host) : Flow [] s (acceptPump p b plan s) := by
  have h1 : ∀ x, Flow [] s (s.setPump p x) := fun x => flow_of_eq (by simp) (by simp) (by simp) (by simp)
  exact ((h1 _).after (putWords_flow _ _ _)).after (goLive_flow _ b _ _ (by simpa using h))

theorem performRelease_flow (ch : Channel) (s : State) : Flow [] s (performRelease ch s) := by
  have h : Flow [] s (match pendingBank ch s with
      | some b => cancelBank ch b s
      | none => s) := by
    split
    · exact cancelBank_flow ch _ s
    · exact flow_refl s
  unfold performRelease
  simp only
  split
  · rename_i b hb
    refine Flow.after (h.after (modLiveSeq_flow ch _ _ (fun c hc => ?_))) (dropEntries_flow _ _ _ _)
    exact setRole_hosts _ b c .retiring (fun e => Role.noConfusion (e.symm.trans (bankIn_role hb))) hc
  · exact h.after (modLiveSeq_flow ch _ _ (fun c hc => hc))

/-- A drum hold raises HOLD in RUNNING with a LIVE bank, and nothing else (R14). -/
theorem holdDrum_flow (s : State) :
    Flow [.hold] s (holdDrum s) ∧ (¬(s.drum.state = .running ∧ liveBank .d s ≠ none) → Flow [] s (holdDrum s)) := by
  unfold holdDrum
  split
  · exact ⟨(flow_refl s).mono (by simp), fun _ => flow_refl s⟩
  · rename_i b hb
    have h : Flow [] s _ := ((modDrumBank_flow b (fun x =>
      { x with repeats := satInc x.repeats, window := notComputed, shuntA := blankSlot, shuntB := blankSlot,
               u1 := blankSlot, u2 := blankSlot }) s).after (rewriteResults_flow .d b 22 17 _)).after
        (rewriteResults_flow .d b 40 16 _)
    simp only
    split
    · exact ⟨(h.after (modDrum_flow _ _)).after (raise_flow _ _), fun hn => absurd ⟨‹_›, by simp [hb]⟩ hn⟩
    · exact ⟨h.mono (by simp), fun _ => h⟩

end Sys2Proof.Machine
end

