-- ==== Sys2Proof/Laws/Alike.lean ====
section
/-! SUPPORT. The arbiter's view of a state: NOW, the configuration, the list and the converters,
    LPR's account and the LATE flag.
States that are alike in it stay alike under an offer, whatever else differs (R96 to R99, R127 to R131). -/

namespace Sys2Proof.Machine

variable {s t u : State}

/-- Two states are alike to the arbiter: the same NOW, configuration, list and converters, account, and LATE flag. -/
structure Alike (s t : State) : Prop where
  now : t.now = s.now
  config : cfg t = cfg s
  arb : t.arb = s.arb
  lpr : t.lpr = s.lpr
  late : t.intPend &&& Cause.late.mask = s.intPend &&& Cause.late.mask

theorem Alike.refl (s : State) : Alike s s := ⟨rfl, rfl, rfl, rfl, rfl⟩

theorem Alike.trans (h : Alike s t) (g : Alike t u) : Alike s u :=
  ⟨g.now.trans h.now, g.config.trans h.config, g.arb.trans h.arb, g.lpr.trans h.lpr, g.late.trans h.late⟩

theorem Alike.symm (h : Alike s t) : Alike t s := ⟨h.now.symm, h.config.symm, h.arb.symm, h.lpr.symm, h.late.symm⟩

theorem alike_of (hn : t.now = s.now) (hc : cfg t = cfg s) (ha : t.arb = s.arb) (hl : t.lpr = s.lpr)
    (hi : t.intPend = s.intPend) : Alike s t := ⟨hn, hc, ha, hl, by rw [hi]⟩

theorem raise_alike (c : Cause) (hc : c ≠ .late) (s : State) : Alike s (raise c s) := by
  refine ⟨rfl, rfl, rfl, rfl, ?_⟩
  rw [raise_intPend, show (s.intPend ||| c.mask) &&& Cause.late.mask = (s.intPend &&& Cause.late.mask) |||
      (c.mask &&& Cause.late.mask) by
    ext i; simp [Bool.and_or_distrib_right], mask_and_mask (Ne.symm hc)]
  simp

theorem modNamedSlot_alike (r : Request) (fd : SlotRecord → SlotRecord) (fp : PumpSlot → PumpSlot) (s : State) : Alike s
    (modNamedSlot r fd fp s) := by
  unfold modNamedSlot
  split
  · exact .refl s
  · split
    all_goals first | exact .refl s | exact alike_of (by simp) (by simp) (by simp) (by simp) (by simp)

theorem rewriteResults_alike (ch : Channel) (b : Bank) (off n : Nat) (s : State) : Alike s (rewriteResults ch b off n s) :=
    alike_of rfl rfl rfl rfl rfl

theorem rewriteSlot_alike (r : Request) (k n : Nat) (s : State) : Alike s (rewriteSlot r k n s) := alike_of (by simp)
    (by simp) (by simp) (by simp) (by simp)

theorem modSlotStatus_alike (r : Request) (fd : SlotRecord → SlotRecord) (fp : PumpSlot → PumpSlot) (s : State) : Alike s
    (modSlotStatus r fd fp s) :=
  (modNamedSlot_alike r fd fp s).trans (rewriteSlot_alike r 0 1 _)

theorem retireCheck_alike (ch : Channel) (s : State) : Alike s (retireCheck ch s) := by
  unfold retireCheck
  split
  · split
    · exact .refl s
    · unfold retire
      refine Alike.trans (alike_of ?_ ?_ ?_ ?_ ?_) (raise_alike _ (by cases ch <;> simp [retCause]) _) <;> simp
  · exact .refl s

theorem reportToPxl_alike (o : Origin) (s : State) : Alike s (reportToPxl o s) := by
  unfold reportToPxl
  split <;> first | exact retireCheck_alike _ _ | exact .refl s

theorem modCal_alike (cv : Conv) (f : CalRecord → CalRecord) (s : State) : Alike s (modCal cv f s) := alike_of (by simp)
    (by simp) (by simp) (by simp) (by simp)

theorem setCalPhase_alike (o : Origin) (ph : CalPhase) (s : State) : Alike s (setCalPhase o ph s) := by
  unfold setCalPhase
  split
  · exact modCal_alike _ _ s
  · exact .refl s

theorem setList_congr (h : Alike s t) (l : List Entry) : Alike (setList l s) (setList l t) :=
  ⟨h.now, h.config, by show ({ t.arb with list := l } : Arbiter) = _; rw [h.arb]; rfl, h.lpr, h.late⟩

theorem setConverter_congr (h : Alike s t) (cv : Conv) (f : Option InFlight) : Alike (setConverter cv f s)
    (setConverter cv f t) := by
  cases cv
  · exact ⟨h.now, h.config, by show ({ t.arb with cva := f } : Arbiter) = _; rw [h.arb]; rfl, h.lpr, h.late⟩
  · exact ⟨h.now, h.config, by show ({ t.arb with cvb := f } : Arbiter) = _; rw [h.arb]; rfl, h.lpr, h.late⟩

theorem Alike.inFlight (h : Alike s t) (cv : Conv) : t.inFlight cv = s.inFlight cv := by
  cases cv <;> simp [State.inFlight, h.arb]

/-- Both sides by an operation that changes nothing of it. -/
theorem Alike.both {f g : State → State} (hf : ∀ s, Alike s (f s)) (hg : ∀ s, Alike s (g s)) (h : Alike s t) : Alike (f s)
    (g t) :=
  ((hf s).symm.trans h).trans (hg t)

theorem report_congr (h : Alike s t) (o : Origin) (k : Fin 10) : Alike (report o k s) (report o k t) := by
  have hc : reportCounted o t = reportCounted o s := by unfold reportCounted; rw [h.config]
  unfold report
  rw [hc]
  split
  · simp only
    rw [h.config]
    have base : Alike (showWords profilerAddr s.lpr.quantities (s.lpr.count k).quantities { s with lpr := s.lpr.count k })
        (showWords profilerAddr t.lpr.quantities (t.lpr.count k).quantities { t with lpr := t.lpr.count k }) :=
      ⟨h.now, h.config, h.arb, by show t.lpr.count k = s.lpr.count k; rw [h.lpr], h.late⟩
    split
    · refine ⟨base.now, base.config, base.arb, base.lpr, ?_⟩
      have hm : ∀ x : BitVec 12, (x ||| Cause.late.mask) &&& Cause.late.mask = Cause.late.mask := by
        intro x
        ext i
        simp only [BitVec.getElem_and, BitVec.getElem_or]
        cases x[i] <;> simp
      rw [raise_intPend, raise_intPend, hm, hm]
    · exact base
  · exact h

theorem startConversion_congr (h : Alike s t) (cv : Conv) (e : Entry) : Alike (startConversion cv e s)
    (startConversion cv e t) := by
  unfold startConversion
  simp only
  rw [h.now, h.arb]
  refine Alike.both (reportToPxl_alike _) (reportToPxl_alike _) (report_congr ?_ _ _)
  refine Alike.both (setCalPhase_alike _ _) (setCalPhase_alike _ _) ?_
  refine Alike.both (modSlotStatus_alike _ _ _) (modSlotStatus_alike _ _ _) ?_
  exact setConverter_congr (setList_congr h _) _ _

theorem assignTo_congr (h : Alike s t) (cv : Conv) : Alike (assignTo cv s) (assignTo cv t) := by
  unfold assignTo convIdle
  rw [h.inFlight, h.arb]
  split
  · split
    · exact startConversion_congr h _ _
    · exact h
  · exact h

theorem assign_congr (h : Alike s t) : Alike (assign s) (assign t) := by
  unfold assign
  rw [h.arb]
  split
  · exact assignTo_congr (assignTo_congr h _) _
  · exact h

theorem replaceSame_congr (h : Alike s t) (r : Request) : Alike (replaceSame r s) (replaceSame r t) := by
  unfold replaceSame
  rw [h.arb]
  split
  · exact Alike.both (reportToPxl_alike _) (reportToPxl_alike _) (Alike.both (modSlotStatus_alike _ _ _)
      (modSlotStatus_alike _ _ _) (setList_congr h _))
  · exact h

theorem setPower_congr (h : Alike s t) (p : Power) : Alike (setPower p s) (setPower p t) :=
  ⟨h.now, h.config, by show ({ t.arb with power := p } : Arbiter) = { s.arb with power := p }; rw [h.arb], h.lpr, h.late⟩

theorem wakeCause_congr (h : Alike s t) : Alike (wakeCause s) (wakeCause t) := by
  unfold wakeCause
  rw [h.arb]
  split
  · apply setPower_congr
    refine ⟨h.now, h.config, ?_, h.lpr, h.late⟩
    show ({ s.arb with wakeEnd := t.now + ticks Config.wakeTicks } : Arbiter) = _
    rw [h.now]
  · split
    · exact ⟨h.now, h.config, rfl, h.lpr, h.late⟩
    · exact h

theorem insertOffer_congr (h : Alike s t) (r : Request) : Alike (insertOffer r s) (insertOffer r t) := by
  unfold insertOffer
  simp only
  rw [h.now, h.arb]
  have b := Alike.both (setCalPhase_alike r.origin .listed) (setCalPhase_alike r.origin .listed)
    (Alike.both (modSlotStatus_alike r (fun x => { x with status := .queued }) (fun x => { x with status := .queued }))
        (modSlotStatus_alike r (fun x => { x with status := .queued }) (fun x => { x with status := .queued }))
      (setList_congr h (placeEntry { req := r, eligible := reached s.now r.inst } s.arb.list)))
  split
  · exact wakeCause_congr b
  · exact b

theorem evict_congr (h : Alike s t) (r : Request) : Alike (evict r s) (evict r t) := by
  unfold evict
  simp only
  refine Alike.both (reportToPxl_alike _) (reportToPxl_alike _) ?_
  have b := report_congr (Alike.both (modSlotStatus_alike r (fun x => { x with status := .evicted })
    (fun x => { x with status := .evicted, evictedCount := satInc x.evictedCount })) (modSlotStatus_alike r
        (fun x => { x with status := .evicted })
    (fun x => { x with status := .evicted, evictedCount := satInc x.evictedCount })) h) r.origin counterEvicted
  split
  · exact Alike.both (modCal_alike _ _) (modCal_alike _ _) b
  · exact b

theorem offerListed_congr (h : Alike s t) (r : Request) : Alike (offerListed r s) (offerListed r t) := by
  have h0 := replaceSame_congr h r
  unfold offerListed
  simp only
  rw [h0.arb]
  split
  · exact insertOffer_congr h0 r
  · split
    · split
      · exact insertOffer_congr (evict_congr (setList_congr h0 _) _) r
      · exact evict_congr h0 r
    · exact insertOffer_congr h0 r

theorem offer_congr (h : Alike s t) (r : Request) : Alike (offer r s) (offer r t) := by
  have h0 := offerListed_congr h r
  unfold offer insertedReady convIdle
  simp only
  rw [h0.arb, h0.inFlight, h0.inFlight]
  split
  · exact assign_congr h0
  · exact h0

theorem offerAll_congr (h : Alike s t) (rs : List Request) : Alike (offerAll rs s) (offerAll rs t) := by
  unfold offerAll
  induction rs generalizing s t with
  | nil => exact h
  | cons r rs ih => exact ih (offer_congr h r)

end Sys2Proof.Machine
end

