-- ==== Sys2Proof/Laws/Edges.lean ====
section
/-! SUPPORT. What a phase does at an edge and at the start of a RUNNING period, in the terms of the claims, and the edges of
the period that a layout schedules (R26 to R28, R53, R66). -/

namespace Sys2Proof.Machine

/-! ### The movements of a phase -/

/-- An up edge moves a phase as R26 to R28 say. -/
theorem upEdge_rises (dt : Nat) (l : Leg) : l.Rises dt (l.upEdge dt) := by
  unfold Leg.Rises Leg.upEdge Leg.lowOff
  cases h : l.low <;> split <;> simp_all

/-- A down edge moves a phase as R26 to R28 say. -/
theorem downEdge_falls (dt : Nat) (l : Leg) : l.Falls dt (l.downEdge dt) := by
  unfold Leg.Falls Leg.downEdge Leg.highOff
  cases h : l.high <;> split <;> simp_all

/-- In the low position a phase is in the low position. -/
@[simp] theorem toLow_pos (dt : Nat) (l : Leg) : (l.toLow dt).pos = .low := by
  unfold Leg.toLow Leg.highOff
  cases h : l.high <;> simp only [h, if_true, if_false, Bool.false_eq_true] <;> split <;> (try split) <;> rfl

/-- The start of a RUNNING period moves a phase as R26 and R28 say. -/
theorem runLeg_opens (dt up d : Nat) (l : Leg) : l.OpensPeriod dt up d (runLeg dt up d l) := by
  unfold Leg.OpensPeriod runLeg
  split
  · exact ⟨fun _ => upEdge_rises dt l, fun h => absurd ‹_› h⟩
  · split
    · exact ⟨fun h => absurd h ‹_›, fun _ => ⟨fun _ => ⟨toLow_pos dt l, toLow_turnsLow dt l⟩, fun h => absurd ‹_› h⟩⟩
    · exact ⟨fun h => absurd h ‹_›, fun _ => ⟨fun h => absurd h ‹_›, fun _ => downEdge_falls dt l⟩⟩

/-! The off-times of a phase's switches follow every movement. -/

theorem toOff_offTimes (l : Leg) : l.OffTimes l.toOff := by
  unfold Leg.OffTimes Leg.toOff Leg.lowOff Leg.highOff
  cases h : l.high <;> cases h' : l.low <;> simp [h, h']

theorem toLow_offTimes (dt : Nat) (l : Leg) : l.OffTimes (l.toLow dt) := by
  unfold Leg.OffTimes Leg.toLow Leg.highOff
  cases h : l.high <;> cases h' : l.low <;> simp only [h, h', Bool.false_eq_true, if_true, if_false] <;>
    (try split) <;> simp_all

theorem toHigh_offTimes (dt : Nat) (l : Leg) : l.OffTimes (l.toHigh dt) := by
  unfold Leg.OffTimes Leg.toHigh Leg.lowOff
  cases h : l.high <;> cases h' : l.low <;> simp only [h, h', Bool.false_eq_true, if_true, if_false] <;>
    (try split) <;> simp_all

theorem upEdge_offTimes (dt : Nat) (l : Leg) : l.OffTimes (l.upEdge dt) := by
  unfold Leg.OffTimes Leg.upEdge Leg.lowOff
  cases h : l.high <;> cases h' : l.low <;> split <;> simp_all

theorem downEdge_offTimes (dt : Nat) (l : Leg) : l.OffTimes (l.downEdge dt) := by
  unfold Leg.OffTimes Leg.downEdge Leg.highOff
  cases h : l.high <;> cases h' : l.low <;> split <;> simp_all

theorem runLeg_offTimes (dt up d : Nat) (l : Leg) : l.OffTimes (runLeg dt up d l) := by
  unfold runLeg
  split
  · exact upEdge_offTimes dt l
  · split
    · exact toLow_offTimes dt l
    · exact downEdge_offTimes dt l

theorem stepLegs_offTimes (dt : Nat) (on : Bool) (st : SixStep) (legs : Tri Leg) (ph : Phase) :
    (legs.get ph).OffTimes ((stepLegs dt on st legs).get ph) := by
  have h : ∀ l : Leg, l.OffTimes (stepLeg dt on st ph l) := by
    intro l
    unfold stepLeg highLeg
    split
    · split
      · exact toHigh_offTimes dt l
      · exact toOff_offTimes l
    · split
      · exact toLow_offTimes dt l
      · exact toOff_offTimes l
  cases ph <;> exact h _

/-! ### The edges of a RUNNING period -/

theorem runEdges_edges (x : Drum) (b : Tick) (half dt : Nat) (r : WindowRecord) (duty : Tri Nat) (ph : Phase) :
    let y := x.runEdges b half dt r duty
    y.upAt.get ph = (if r.up.get ph = 0 ∨ duty.get ph = 0 then none else some (b + BitVec.ofNat 32 (r.up.get ph))) ∧
    y.downAt.get ph = (if r.down.get ph = 0 ∨ duty.get ph = 0 then none
      else some (b + BitVec.ofNat 32 (2 * half - r.down.get ph))) ∧
    (x.legs.get ph).OpensPeriod dt (r.up.get ph) (duty.get ph) (y.legs.get ph) ∧
    (x.legs.get ph).OffTimes (y.legs.get ph) := by
  cases ph <;> exact ⟨rfl, rfl, runLeg_opens _ _ _ _, runLeg_offTimes _ _ _ _⟩

end Sys2Proof.Machine
end

