-- ==== Sys2Proof/Laws/Frames.lean ====
section
/-! SUPPORT. What the steps of a boundary and a trip leave of a channel, said once: its state, its legs and its waiting command
through the take or hold, the command and the layout, and the plan words that a take reads (R8 to R18, R33, R64, R139). -/

namespace Sys2Proof.Machine

variable {s t u : State}

/-- What the drum is apart from its banks, the counts and the waiting command. -/
def Drum.frame (d : Drum) : Drum := { d.own with missCount := 0, waiting := none, periodCount := 0 }

theorem frame_of_own {d e : Drum} (h : d.own = e.own) : d.frame = e.frame := by unfold Drum.frame; rw [h]

@[simp] theorem setBank_frame (d : Drum) (b : Bank) (x : DrumBank) : (d.setBank b x).frame = d.frame := by
  cases b <;> rfl

theorem dropEntries_frame (ch : Channel) (st : SlotStatus) (w : Request → Bool) (s : State) :
    (dropEntries ch st w s).drum.frame = s.drum.frame :=
  frame_of_own (dropEntries_effect ch st w s).drum

theorem frame_state {d e : Drum} (h : d.frame = e.frame) : d.state = e.state := by
  have := congrArg Drum.state h; exact this

def Drum.core (d : Drum) : Drum := { d.own with missCount := 0, periodCount := 0 }

@[simp] theorem setBank_core (d : Drum) (b : Bank) (x : DrumBank) : (d.setBank b x).core = d.core := by
  cases b <;> rfl

theorem dropEntries_core (ch : Channel) (st : SlotStatus) (w : Request → Bool) (s : State) :
    (dropEntries ch st w s).drum.core = s.drum.core := by
  unfold Drum.core; rw [(dropEntries_effect ch st w s).drum]

theorem frame_of_core {d e : Drum} (h : d.core = e.core) : d.frame = e.frame := by
  have := congrArg (fun d : Drum => { d with waiting := none }) h
  exact this

theorem core_waiting {d e : Drum} (h : d.core = e.core) : d.waiting = e.waiting := by
  have := congrArg Drum.waiting h
  exact this

theorem holdDrum_core (s : State) : (holdDrum s).drum.core = s.drum.core := by
  unfold holdDrum
  split
  · rfl
  · simp only
    split
    · simp only [raise_drum, modDrum_drum, rewriteResults_drum, modDrumBank_drum]
      exact setBank_core _ _ _
    · simp only [rewriteResults_drum, modDrumBank_drum]
      exact setBank_core _ _ _

theorem goLive_core (ch : Channel) (b : Bank) (q : Word) (s : State) : (goLive ch b q s).drum.core = s.drum.core := by
  unfold goLive
  split
  · rw [dropEntries_core]; simp
  · simp

theorem reportPlanParity_drum (bad : List Nat) (s : State) : (reportPlanParity .d bad s).drum = s.drum := by
    induction bad generalizing s with
    | nil => rfl
    | cons a as ih => exact (ih _).trans (by simp [recordParity])

theorem takeOrHoldDrum_core (s : State) : (takeOrHoldDrum s).1.drum.core = s.drum.core := by
  unfold takeOrHoldDrum
  split
  · exact holdDrum_core s
  · split
    · rw [holdDrum_core]; simp [rejectBank, reportPlanParity_drum]
    · split
      · rw [holdDrum_core]; simp [rejectBank]
      · rename_i b _ _ _ _ _
        simp only [acceptDrum, modDrum_drum]
        refine Eq.trans (?_ : _ = (goLive .d b (drumPlanOf (planData .d b s)).seq (putWords (bankBase .d b + offStatus .d)
          (initialResults .d s.now (freshDrumBank (drumPlanOf (planData .d b s))).words)
          { s with drum := s.drum.setBank b (freshDrumBank (drumPlanOf (planData .d b s))) })).drum.core) ?_
        · rfl
        · rw [goLive_core]
          exact setBank_core _ _ _

theorem takeOrHoldDrum_frame (s : State) : (takeOrHoldDrum s).1.drum.frame = s.drum.frame := frame_of_core
    (takeOrHoldDrum_core s)

theorem performRelease_drumframe (s : State) : (performRelease .d s).drum.frame = s.drum.frame := by
  unfold performRelease
  simp only
  split <;> (try rw [dropEntries_frame]) <;> simp <;> split <;> simp [cancelBank]

theorem drumPlanStep_frame (s : State) : (drumPlanStep s).1.drum.frame = s.drum.frame := by
  unfold drumPlanStep
  split
  · split
    · simp only [commandDone_drum, performRelease_drumframe]; simp [takeWaitingDrum, Drum.frame, Drum.own]
    · rw [takeOrHoldDrum_frame]; simp [takeWaitingDrum, Drum.frame, Drum.own]
  · exact takeOrHoldDrum_frame s

theorem drumDropStep_frame (s : State) : (drumDropStep s).drum.frame = s.drum.frame := by
  unfold drumDropStep
  rw [dropEntries_frame]; simp [Drum.frame, Drum.own]

theorem bankIn_pending_of_retires {e f : Exchange} {r : Role} (h1 : r ≠ .retiring) (h2 : r ≠ .host)
    (h : ∀ b, f.role b = e.role b ∨ (e.role b = .retiring ∧ f.role b = .host)) : f.bankIn r = e.bankIn r := by
  have key : ∀ b, f.role b = r ↔ e.role b = r := by
    intro b
    rcases h b with h | ⟨h3, h4⟩
    · rw [h]
    · rw [h3, h4]; exact ⟨fun h => absurd h.symm h2, fun h => absurd h.symm h1⟩
  have k0 := key .b0
  have k1 := key .b1
  simp only [Exchange.role] at k0 k1
  unfold Exchange.bankIn
  simp only [k0, k1]

theorem OnlyRetires.pendingBank (h : OnlyRetires s t) (ch : Channel) : pendingBank ch t = pendingBank ch s :=
  bankIn_pending_of_retires (by simp) (by simp) (h ch).2

theorem OnlyRetires.liveBank (h : OnlyRetires s t) (ch : Channel) : liveBank ch t = liveBank ch s :=
  bankIn_pending_of_retires (by simp) (by simp) (h ch).2

theorem planAddrs_out (ch : Channel) (b : Bank) : ∀ a ∈ planAddrs ch b, a ∉ boundaryWords ch := by
  intro a ha
  simp only [planAddrs, List.mem_map, List.mem_range] at ha
  obtain ⟨i, hi, rfl⟩ := ha
  intro hm
  simp only [boundaryWords, parityAddr, channelWords, resultWords, arbiterWords, List.mem_append, mem_span, controlAddr,
    offRoles, offCmdDone, offState] at hm
  cases ch <;> cases b <;> simp only [planWords, bankWords, controlBase, bankBase] at * <;> omega

theorem badPlanWords_of {ch : Channel} (h : KeepsOutside s t (boundaryWords ch)) (b : Bank) :
    badPlanWords ch b t = badPlanWords ch b s := by
  unfold badPlanWords
  apply List.filter_congr
  intro a ha
  rw [h a (planAddrs_out ch b a ha)]

theorem planData_of {ch : Channel} (h : KeepsOutside s t (boundaryWords ch)) (b : Bank) :
    planData ch b t = planData ch b s := by
  unfold planData
  apply List.map_congr_left
  intro a ha
  unfold dataAt
  rw [h a (planAddrs_out ch b a ha)]

/-- What carries over to the take. -/
structure SamePlan (ch : Channel) (s t : State) : Prop where
  pending : pendingBank ch t = pendingBank ch s
  live : liveBank ch t = liveBank ch s
  words : KeepsOutside s t (boundaryWords ch)

theorem drumDropStep_same (s : State) : SamePlan .d s (drumDropStep s) := by
  have h := dropEntries_effect .d .droppedBoundary (fun _ => true) (modDrum (fun d => { d with periodCount :=
      d.periodCount + 1 }) s)
  refine ⟨?_, ?_, ?_⟩
  · unfold drumDropStep; rw [h.exch.pendingBank]; simp [pendingBank]
  · unfold drumDropStep; rw [h.exch.liveBank]; simp [liveBank]
  · exact (modDrum_effect _ s).words.trans (h.words.mono (fun a ha => by simp [boundaryWords, ha]))

theorem takeDone_same (tag code : Byte) (o : Outcome) (s : State) : SamePlan .d s (commandDone .d tag code o
    (takeWaitingDrum s)) := by
  refine ⟨by simp [pendingBank, takeWaitingDrum], by simp [liveBank, takeWaitingDrum], ?_⟩
  exact ((modDrum_effect _ s).trans (commandDone_effect .d _ _ _ _)).words

theorem SamePlan.trans {ch} (h : SamePlan ch s t) (g : SamePlan ch t u) : SamePlan ch s u :=
  ⟨g.pending.trans h.pending, g.live.trans h.live, h.words.trans g.words⟩

/-- The drum after a trip, apart from what the drop does in its banks. -/
theorem tripDrum_own (c : TripCause) (s : State) :
    (tripDrum c s).drum.own =
      { s.drum.own with
        state := .tripped, out := (newTripRecord .d c s).action.drumOut, missCount := 0, upAt := Tri.const none,
        downAt := Tri.const none,
        legs := safeLegs (decide (s.drum.out = .short)) (newTripRecord .d c s).action (cfg s).dtD s.drum.legs,
        trip := newTripRecord .d c s, tripPrior := s.drum.state, tripPeriodCount := s.drum.periodCount,
        tripNow := true } := by
  show (raise _ (dropEntries _ _ _ _)).drum.own = _
  rw [raise_drum, (dropEntries_effect _ _ _ _).drum, putWords_drum, modDrum_drum]
  rfl

@[simp] theorem tripDrum_state (c : TripCause) (s : State) : (tripDrum c s).drum.state = .tripped := by
  have := congrArg Drum.state (tripDrum_own c s); exact this

@[simp] theorem tripDrum_prior (c : TripCause) (s : State) : (tripDrum c s).drum.tripPrior = s.drum.state := by
  have := congrArg Drum.tripPrior (tripDrum_own c s); exact this

/-- What the layout leaves of the drum: its own state but the period and, in RUNNING, the edges and the legs. -/
theorem drumLayoutStep_own (s : State) :
    { (drumLayoutStep s).drum.own with
        periodStart := s.drum.periodStart, half := s.drum.half, upAt := s.drum.upAt,
        downAt := s.drum.downAt, legs := s.drum.legs } = s.drum.own ∧
    (s.drum.state ≠ .running → (drumLayoutStep s).drum.legs = s.drum.legs ∧ (drumLayoutStep s).drum.upAt = s.drum.upAt ∧
        (drumLayoutStep s).drum.downAt = s.drum.downAt) := by
  have hw : ∀ (b r) (u : State), (writeWindows b r u).drum.own = u.drum.own := fun b r u => (writeWindows_effect b r u).drum
  have ho : ∀ (b half) (u : State), (layoutOffers b half u).drum.own = u.drum.own := fun b h u =>
      (layoutOffers_effect b h u).drum
  unfold drumLayoutStep
  simp only
  split
  · rename_i b hb
    have h1 := ho b (layoutHalf s) (layoutPeriod b (layoutHalf s) (modDrum (fun d => { d with
        periodStart := s.now, half := layoutHalf s }) s))
    generalize hu : layoutPeriod b (layoutHalf s) (modDrum (fun d => { d with
        periodStart := s.now, half := layoutHalf s }) s) = u at h1
    have key : { u.drum.own with
        periodStart := s.drum.periodStart, half := s.drum.half, upAt := s.drum.upAt,
        downAt := s.drum.downAt, legs := s.drum.legs } = s.drum.own ∧
      (s.drum.state ≠ .running → u.drum.own.legs = s.drum.legs ∧ u.drum.own.upAt = s.drum.upAt ∧ u.drum.own.downAt = s.drum.downAt) := by
      rw [← hu]
      unfold layoutPeriod
      split
      · rename_i hr
        refine ⟨?_, fun h => absurd (by simpa using hr) h⟩
        rw [modDrum_drum]
        simp only [Drum.runEdges]
        have := hw b (layoutWindows (layoutHalf s) (cfg (modDrum (fun d => { d with
        periodStart := s.now, half := layoutHalf s }) s)).settle (cfg (modDrum (fun d => { d with
            periodStart := s.now, half := layoutHalf s })
            s)).lead ((modDrum (fun d => { d with
        periodStart := s.now, half := layoutHalf s }) s).drum.bank b).plan)
            (modDrum (fun d => { d with
        periodStart := s.now, half := layoutHalf s }) s)
        have := congrArg (fun d : Drum => { d with
            periodStart := s.drum.periodStart, half := s.drum.half, upAt :=
            s.drum.upAt, downAt := s.drum.downAt, legs := s.drum.legs }) this
        exact this
      · have := hw b notComputed (modDrum (fun d => { d with
        periodStart := s.now, half := layoutHalf s }) s)
        rw [this]
        exact ⟨rfl, fun _ => ⟨rfl, rfl, rfl⟩⟩
    refine ⟨?_, fun h => ?_⟩
    · rw [h1]; exact key.1
    · have k := key.2 h
      rw [← h1] at k
      exact k
  · exact ⟨rfl, fun _ => ⟨rfl, rfl, rfl⟩⟩

theorem drumTake_brake (a : Bool) (s : State) (h2 : s.drum.state ≠ .tripped) (h1 : s.drum.state ≠ .braking) :
    drumTake .brake a s = (drumBrake s, .done) := by
  unfold drumTake
  split <;> simp_all

/-- The miss count and the state after the command step. -/
theorem drumTake_running (code : ChannelCode) (a : Bool) (s : State) (h : (drumTake code a s).1.drum.state = .running) :
    (drumTake code a s).1.drum.missCount = s.drum.missCount ∧ (drumTake code a s).1.drum.trip = s.drum.trip := by
  unfold drumTake at *
  split at h <;> (try exact ⟨rfl, rfl⟩)
  · revert h
    unfold drumStart
    split
    · exact fun _ => ⟨rfl, rfl⟩
    · split
      · exact fun _ => ⟨rfl, rfl⟩
      · generalize (if s.drum.state = .starved then !a else (liveBank .d s).isNone) = c
        cases c <;> simp
  · revert h
    unfold drumBrake
    split
    · intro h
      have := congrArg Drum.state (tripDrum_own .gate (modDrum (fun d => { d with state := .braking, missCount := 0 }) s))
      have h' : (tripDrum .gate (modDrum (fun d => { d with state := .braking, missCount := 0 })
          s)).drum.own.state = .running := h
      rw [this] at h'
      cases h'
    · simp [Drum.quiet]
  · revert h
    unfold drumClear
    split
    · exact fun _ => ⟨rfl, rfl⟩
    · split
      · exact fun _ => ⟨rfl, rfl⟩
      · simp [Drum.quiet]

theorem missCount_planStep (s : State) (h : s.drum.state ≠ .running) :
    (drumPlanStep s).1.drum.missCount = s.drum.missCount ∨ (drumPlanStep s).1.drum.missCount = 0 := by
  have hold : ∀ t : State, t.drum.state ≠ .running → (holdDrum t).drum.missCount = t.drum.missCount := by
    intro t ht
    unfold holdDrum
    split
    · rfl
    · simp only [if_neg ht, rewriteResults_drum, modDrumBank_drum]
      rename_i b _
      cases b <;> rfl
  have toh : ∀ t : State, t.drum.state ≠ .running → (takeOrHoldDrum t).1.drum.missCount = t.drum.missCount ∨
      (takeOrHoldDrum t).1.drum.missCount = 0 := by
    intro t ht
    unfold takeOrHoldDrum
    split
    · exact .inl (hold t ht)
    · split
      · left
        rw [hold _ (by simpa [rejectBank, reportPlanParity_drum] using ht)]
        simp [rejectBank, reportPlanParity_drum]
      · split
        · left
          rw [hold _ (by simpa [rejectBank] using ht)]
          simp [rejectBank]
        · right
          simp [acceptDrum]
  unfold drumPlanStep
  split
  · split
    · left
      have : ∀ u : State, (performRelease .d u).drum.missCount = u.drum.missCount := by
        intro u
        unfold performRelease
        simp only
        have de : ∀ (v : State) w, (dropEntries .d .droppedBoundary w v).drum.missCount = v.drum.missCount := fun v w =>
          show (dropEntries .d .droppedBoundary w v).drum.own.missCount = v.drum.own.missCount by
            rw [(dropEntries_effect .d .droppedBoundary w v).drum]
        split <;> (try rw [de]) <;> simp <;> split <;> simp [cancelBank]
      simp [this, takeWaitingDrum]
    · rcases toh (commandDone .d ‹Byte› ChannelCode.release.code .wrongState (takeWaitingDrum s))
        (by simpa [takeWaitingDrum] using h) with h1 | h1
      · left; rw [h1]; simp [takeWaitingDrum]
      · exact .inr h1
  · exact toh s h

theorem layout_state (s : State) : (drumLayoutStep s).drum.state = s.drum.state ∧
    (drumLayoutStep s).drum.tripPrior = s.drum.tripPrior := by
  have h := (drumLayoutStep_own s).1
  have h1 := congrArg Drum.state h
  have h2 := congrArg Drum.tripPrior h
  exact ⟨h1, h2⟩

theorem drumTake_tripped (code : ChannelCode) (a : Bool) (s : State) (h : s.drum.state = .tripped) :
    (drumTake code a s).1.drum.state ≠ .running := by
  unfold drumTake
  split <;> (try (rw [h]; simp)) <;> (try (simp_all; done))
  unfold drumClear
  split
  · simp [h]
  · split
    · simp [h]
    · simp [Drum.quiet]

theorem takeDonePump_same (p : PumpId) (tag code : Byte) (o : Outcome) (s : State) : SamePlan (pumpChannel p) s (commandDone
    (pumpChannel p) tag code o (takeWaitingPump p s)) := by
  refine ⟨by simp [pendingBank, takeWaitingPump], by simp [liveBank, takeWaitingPump], ?_⟩
  exact ((modPump_channelEffect p _ s).trans (commandDone_effect (pumpChannel p) _ _ _ _)).words

/-- A pump apart from its banks and the slot countdowns. -/
def Pump.core (x : Pump) : Pump := { x.own with countdown0 := 0, countdown1 := 0 }

theorem pumpCore_state {x y : Pump} (h : x.core = y.core) : x.state = y.state := by
  have := congrArg Pump.state h; exact this

theorem pumpCore_waiting {x y : Pump} (h : x.core = y.core) : x.waiting = y.waiting := by
  have := congrArg Pump.waiting h; exact this

@[simp] theorem pumpSetBank_core (x : Pump) (b : Bank) (y : PumpBank) : (x.setBank b y).core = x.core := by
  cases b <;> rfl

theorem ArbiterEffect.pump_own (h : ArbiterEffect s t) (p : PumpId) : (t.pump p).own = (s.pump p).own := by
  cases p
  · exact h.pump1
  · exact h.pump2

theorem ArbiterEffect.pump_core (h : ArbiterEffect s t) (p : PumpId) : (t.pump p).core = (s.pump p).core := by
  unfold Pump.core
  rw [h.pump_own p]

theorem goLive_pumpCore (ch : Channel) (b : Bank) (q : Word) (p : PumpId) (s : State) : ((goLive ch b q s).pump p).core =
    (s.pump p).core := by
  unfold goLive
  split
  · rw [(dropEntries_effect _ _ _ _).pump_core p]; simp
  · simp

theorem reportPlanParity_pump (ch : Channel) (bad : List Nat) (p : PumpId) (s : State) :
    (reportPlanParity ch bad s).pump p = s.pump p := by
  induction bad generalizing s with
  | nil => rfl
  | cons a as ih => exact (ih _).trans (by cases p <;> simp [recordParity, State.pump])

theorem takeOrHoldPump_core (p : PumpId) (s : State) : ((takeOrHoldPump p s).pump p).core = (s.pump p).core := by
  unfold takeOrHoldPump
  split
  · rfl
  · split
    · have : ∀ t : State, (rejectBank (pumpChannel p) ‹Bank› .rejParity t).pump p = t.pump p := by
        intro t; cases p <;> simp [rejectBank, State.pump]
      rw [this, reportPlanParity_pump]
    · unfold acceptPump
      simp only
      rw [goLive_pumpCore]
      simp only [putWords_pump, setPump_same]
      exact pumpSetBank_core _ _ _

theorem performRelease_pumpCore (ch : Channel) (p : PumpId) (s : State) : ((performRelease ch s).pump p).core =
    (s.pump p).core := by
  unfold performRelease
  simp only
  split <;> (try rw [(dropEntries_effect _ _ _ _).pump_core p]) <;> simp <;> split <;> simp [cancelBank]

theorem pumpPlanStep_state (p : PumpId) (s : State) : ((pumpPlanStep p s).pump p).state = (s.pump p).state := by
  unfold pumpPlanStep
  split
  · split
    · rw [commandDone_pump, pumpCore_state (performRelease_pumpCore _ p _)]
      simp [takeWaitingPump]
    · rw [pumpCore_state (takeOrHoldPump_core p _)]
      simp [takeWaitingPump]
  · rw [pumpCore_state (takeOrHoldPump_core p _)]

theorem pumpPlanStep_waiting (p : PumpId) (s : State) (h : (s.pump p).waiting = none) :
    ((pumpPlanStep p s).pump p).waiting = none := by
  have e : pumpPlanStep p s = takeOrHoldPump p s := by
    unfold pumpPlanStep
    rw [h]
  rw [e, pumpCore_waiting (takeOrHoldPump_core p s), h]

theorem layoutPumpBank_core (p : PumpId) (b : Bank) (tp : Nat) (s : State) : ((layoutPumpBank p b tp s).pump p).core =
    (s.pump p).core := by
  have f1 : ∀ (u : State) f, (modPumpBank p b f u).pump p = (u.pump p).setBank b (f ((u.pump p).bank b)) := by
    intro u f; cases p <;> rfl
  have h0 : ∀ (u : State), ((layoutSlot0 p b tp u).pump p).core = (u.pump p).core := by
    intro u
    unfold layoutSlot0
    simp only
    split
    · rw [(offer_effect _ _).pump_core p]; simp [Pump.core, Pump.own]
    · simp [Pump.core, Pump.own]
  have h1 : ∀ (u : State), ((layoutSlot1 p b tp u).pump p).core = (u.pump p).core := by
    intro u
    unfold layoutSlot1
    simp only
    split
    · rw [(offer_effect _ _).pump_core p]; simp [Pump.core, Pump.own]
    · simp [Pump.core, Pump.own]
  have h2 : ∀ (u : State), ((layoutDutyFlags p b tp u).pump p).core = (u.pump p).core := by
    intro u
    unfold layoutDutyFlags
    split
    · rw [(rewriteResults_effect _ _ _ _ _).pump_core p, f1]; simp
    · rfl
  unfold layoutPumpBank
  simp only
  rw [h1, h0]
  split
  · rw [h2, f1]; simp
  · rw [f1]; simp

/-- What a layout leaves of the pump: the period laid out, and its own state otherwise. -/
theorem pumpLayoutStep_core (p : PumpId) (s : State) : ((pumpLayoutStep p s).pump p).core =
    ((s.pump p).laidOut s.now ((cfg s).pump p).tp (layoutDuty p ((cfg s).pump p).tp s) (pumpDead p s)).core := by
  unfold pumpLayoutStep
  simp only
  split
  · rw [layoutPumpBank_core]; simp
  · simp

theorem pumpLayoutStep_state (p : PumpId) (s : State) : ((pumpLayoutStep p s).pump p).state = (s.pump p).state := by
  rw [pumpCore_state (pumpLayoutStep_core p s)]
  rfl

/-- A pump after a trip, apart from what the drop does in its banks. -/
theorem tripPump_own (p : PumpId) (c : TripCause) (s : State) :
    ((tripPump p c s).pump p).own =
      { (s.pump p).own with
        state := .tripped, duty := 0, pwmOn := false, onAt := none, offAt := none, comm := clearComm,
        legs := safeLegs (decide ((s.pump p).state = .braking)) (newTripRecord (pumpChannel p) c s).action
          ((cfg s).pump p).deadTime (s.pump p).legs,
        trip := newTripRecord (pumpChannel p) c s, tripPrior := (s.pump p).state, tripStep := (s.pump p).stepIndex,
        tripEst := (s.pump p).comm.est, tripNow := true } := by
  have hl : ∀ (f : Pump → Pump) (u : State), (leavePump p f u).pump p = f (u.pump p) := by
    intro f u
    unfold leavePump writeMissCount
    split <;> simp
  show ((raise _ (dropEntries _ _ _ _)).pump p).own = _
  rw [raise_pump, (dropEntries_effect _ _ _ _).pump_own p, putWords_pump, hl]
  rfl

@[simp] theorem tripPump_state (p : PumpId) (c : TripCause) (s : State) : ((tripPump p c s).pump p).state = .tripped := by
  have := congrArg Pump.state (tripPump_own p c s); exact this

@[simp] theorem tripPump_prior (p : PumpId) (c : TripCause) (s : State) : ((tripPump p c s).pump p).tripPrior =
    (s.pump p).state := by
  have := congrArg Pump.tripPrior (tripPump_own p c s); exact this

theorem isTripped_pump (p : PumpId) (s : State) : isTripped (pumpChannel p) s = decide ((s.pump p).state = .tripped) := by
  cases p <;> rfl

theorem waitingOf_pump (p : PumpId) (s : State) : waitingOf (pumpChannel p) s = (s.pump p).waiting := by
  cases p <;> rfl

theorem pumpTake_brake (p : PumpId) (s : State) (h2 : (s.pump p).state ≠ .tripped) (h1 : (s.pump p).state ≠ .braking)
    (h3 : ∀ r, (s.pump p).state ≠ .stalled r) : pumpTake p .brake s = (pumpBrake p s, .done) := by
  unfold pumpTake
  split <;> simp_all

theorem leavePump_pump (p : PumpId) (f : Pump → Pump) (s : State) : (leavePump p f s).pump p = f (s.pump p) := by
  unfold leavePump writeMissCount
  split <;> simp

theorem stallPump_state (p : PumpId) (r : StallReason) (s : State) : ((stallPump p r s).pump p).state = .stalled r := by
  unfold stallPump
  rw [raise_pump, leavePump_pump]
  rfl

theorem modLivePumpBank_state (p : PumpId) (f : PumpBank → PumpBank) (s : State) : ((modLivePumpBank p f s).pump p).state =
    (s.pump p).state := by
  unfold modLivePumpBank
  split
  · rename_i b _
    cases p <;> cases b <;> rfl
  · rfl

theorem scheduleComm_state (p : PumpId) (zc : Tick) (b : Bool) (s : State) : ((scheduleComm p zc b s).pump p).state =
    (s.pump p).state := by
  unfold scheduleComm
  simp only
  split
  · rw [modLivePumpBank_state]
    unfold commutate
    rw [modLivePumpBank_state]
    simp [Pump.commutated]
  · simp [modComm]

theorem tripOf_pump (p : PumpId) (s : State) : tripOf (pumpChannel p) s = (s.pump p).trip := by cases p <;> rfl

/-- Other channels keep trip state and record. -/
theorem keepsTrip_of_effect {ch c : Channel} (h : ChannelEffect c s t) (hne : ch ≠ c) :
    isTripped ch t = isTripped ch s ∧ tripOf ch t = tripOf ch s := by
  cases ch
  · have h1 := h.drum (fun e => hne e.symm)
    have a := congrArg Drum.state h1
    have b := congrArg Drum.trip h1
    have a' : t.drum.state = s.drum.state := a
    have b' : t.drum.trip = s.drum.trip := b
    exact ⟨by simp [isTripped, a'], by simp [tripOf, b']⟩
  · have h1 := h.pump1 (fun e => hne e.symm)
    have a := congrArg Pump.state h1
    have b := congrArg Pump.trip h1
    have a' : t.pump1.state = s.pump1.state := a
    have b' : t.pump1.trip = s.pump1.trip := b
    exact ⟨by simp [isTripped, a'], by simp [tripOf, b']⟩
  · have h1 := h.pump2 (fun e => hne e.symm)
    have a := congrArg Pump.state h1
    have b := congrArg Pump.trip h1
    have a' : t.pump2.state = s.pump2.state := a
    have b' : t.pump2.trip = s.pump2.trip := b
    exact ⟨by simp [isTripped, a'], by simp [tripOf, b']⟩

theorem controlOf_addr {a : Nat} {ch : Channel} {off : Nat} (h : controlOf a = some (ch, off)) : a = controlAddr ch off := by
  unfold controlOf at h
  unfold controlAddr
  split at h
  · cases h
  · split at h
    · cases h; simp [controlBase]; omega
    · split at h
      · cases h; simp [controlBase]; omega
      · split at h
        · cases h; simp [controlBase]; omega
        · cases h

theorem controlWord_toNat (ch : Channel) (off : Nat) (h : off < 0x20) : (controlWord ch off).toNat = controlAddr ch off := by
  unfold controlWord controlAddr w16
  rw [BitVec.toNat_ofNat, Nat.mod_eq_of_lt]
  cases ch <;> simp [controlBase] <;> omega

end Sys2Proof.Machine
end

