-- ==== Sys2Proof/Laws/Occurrences.lean ====
section
/-! SUPPORT. What raises each cause, event by event: every operation of a boundary, of a pump step, of a trip, of a host write
and of a configuration read raises only causes whose occurrence the table of R170 names. -/

namespace Sys2Proof.Machine

variable {P : Cause → Prop} {s t u : State}

/-- An operation raises, beside LATE by a counted report and RET by a returned bank, only causes with a property. -/
def Raises (P : Cause → Prop) (s t : State) : Prop := ∃ ks, (∀ k ∈ ks, P k) ∧ Flow ks s t

theorem Raises.trans (h : Raises P s t) (g : Raises P t u) : Raises P s u := by
  obtain ⟨ks, h1, h2⟩ := h
  obtain ⟨js, g1, g2⟩ := g
  exact ⟨ks ++ js, fun k hk => (List.mem_append.mp hk).elim (h1 k) (g1 k), h2.trans g2⟩

theorem Flow.raises (h : Flow [] s t) : Raises P s t := ⟨[], by simp, h⟩

theorem Flow.raises1 {k : Cause} (h : Flow [k] s t) (hk : P k) : Raises P s t := ⟨[k], by simpa using hk, h⟩

theorem takeOrHoldDrum_raises (s : State)
    (hp : ∀ b, pendingBank .d s = some b → badPlanWords .d b s ≠ [] → P .parity)
    (hh : s.drum.state = .running → liveBank .d s ≠ none → P .hold) : Raises P s (takeOrHoldDrum s).1 := by
  have hold : ∀ t : State, t.drum.state = s.drum.state → (liveBank .d t ≠ none → liveBank .d s ≠ none) →
      Raises P t (holdDrum t) := by
    intro t h1 h2
    by_cases h : t.drum.state = .running ∧ liveBank .d t ≠ none
    · exact (holdDrum_flow t).1.raises1 (hh (h1 ▸ h.1) (h2 h.2))
    · exact ((holdDrum_flow t).2 h).raises
  have rej : ∀ (t : State) (b : Bank) (code), t.exchD = s.exchD → pendingBank .d s = some b → t.drum.state = s.drum.state →
      Raises P t (holdDrum (rejectBank .d b code t)) := by
    intro t b code h1 h2 h3
    have hr := bankIn_role h2
    refine Raises.trans (rejectBank_flow .d b code t (by
      show t.exchD.role b ≠ _; rw [h1]; intro h; rw [show (s.exch .d).role b = s.exchD.role b from rfl, h] at hr;
          cases hr)).raises
      (hold _ (by simpa [rejectBank] using h3) ?_)
    intro hl
    have : liveBank .d (rejectBank .d b code t) = (t.exchD.setRole b .host).bankIn .live := by
      simp [liveBank, rejectBank]
      rfl
    rw [this, h1] at hl
    have h4 : s.exchD.role b = .pending := hr
    show s.exchD.bankIn .live ≠ none
    unfold Exchange.bankIn at *
    have h5 : (s.exchD.setRole b .host).role (otherBank b) = s.exchD.role (otherBank b) := by cases b <;> rfl
    cases b
    · simp only [Exchange.role] at h4
      simp only [Exchange.setRole] at hl
      rw [h4]
      simp only [reduceCtorEq, if_false] at hl ⊢
      exact hl
    · simp only [Exchange.role] at h4
      simp only [Exchange.setRole] at hl
      rw [h4]
      simp only [reduceCtorEq, if_false] at hl ⊢
      exact hl
  unfold takeOrHoldDrum
  split
  · exact hold s rfl id
  · rename_i b hb
    split
    · rename_i a as hbad
      have hpar := hp b hb (by rw [hbad]; simp)
      refine Raises.trans ((reportPlanParity_flow .d (a :: as) s).raises1 hpar) (rej _ b _ ?_ hb ?_)
      · exact reportPlanParity_exch .d _ s .d
      · rw [reportPlanParity_drum]
    · split
      · exact rej s b _ rfl hb rfl
      · exact (acceptDrum_flow b _ s (by
          have hr := bankIn_role hb
          intro h; rw [show (s.exch .d).role b = s.exchD.role b from rfl, h] at hr; cases hr)).raises

theorem drumPlanStep_raises (s : State)
    (hc : s.drum.waiting ≠ none → P .cmd)
    (hp : ∀ b, pendingBank .d s = some b → badPlanWords .d b s ≠ [] → P .parity)
    (hh : s.drum.state = .running → liveBank .d s ≠ none → P .hold) : Raises P s (drumPlanStep s).1 := by
  unfold drumPlanStep
  split
  · rename_i tag hw
    have hcmd := hc (by rw [hw]; simp)
    split
    · exact (((modDrum_flow _ s).after (performRelease_flow .d _)).raises).trans ((commandDone_flow _ _ _ _ _).raises1 hcmd)
    · have hs := takeDone_same tag ChannelCode.release.code .wrongState s
      refine Raises.trans ((Flow.after (modDrum_flow _ s) (commandDone_flow .d tag ChannelCode.release.code .wrongState _)).raises1 hcmd) (takeOrHoldDrum_raises _ ?_ ?_)
      · intro b h1 h2
        exact hp b (hs.pending ▸ h1) (by rw [← badPlanWords_of hs.words]; exact h2)
      · intro h1 h2
        exact hh (by simpa [takeWaitingDrum] using h1) (hs.live ▸ h2)
  · exact takeOrHoldDrum_raises s hp hh

theorem drumStart_flow (a : Bool) (s : State) : Flow [] s (drumStart a s).1 := by
  unfold drumStart
  split
  · exact flow_refl s
  · split
    · exact flow_refl s
    · generalize (if s.drum.state = .starved then !a else (liveBank .d s).isNone) = c
      cases c <;> simp only [if_true, if_false, Bool.false_eq_true]
      · exact modDrum_flow _ s
      · exact flow_refl s

theorem drumClear_flow (s : State) : Flow [] s (drumClear s).1 := by
  unfold drumClear
  split
  · exact flow_refl s
  · split
    · exact flow_refl s
    · dsimp only
      exact modDrum_flow _ s

theorem layoutStatus_flow (b : Bank) (sl : Slot) (st : SlotStatus) (s : State) : Flow [] s (layoutStatus b sl st s) := by
  unfold layoutStatus
  split
  · exact (modDrumBank_flow _ _ s).after (rewriteResults_flow _ _ _ _ _)
  · exact flow_refl s

theorem layoutShunt_flow (b : Bank) (sl : Slot) (win : Window) (edge : Nat) (s : State) : Flow [] s
    (layoutShunt b sl win edge s) := by
  unfold layoutShunt
  split
  · exact offer_flow _ s
  · exact layoutStatus_flow _ _ _ s
  · exact flow_refl s

theorem layoutUser_flow (b : Bank) (sl : Slot) (u : UserSlot) (half : Nat) (s : State) : Flow [] s
    (layoutUser b sl u half s) := by
  unfold layoutUser
  split
  · exact flow_refl s
  · split
    · exact layoutStatus_flow _ _ _ s
    · exact offer_flow _ s

theorem layoutOffers_flow (b : Bank) (half : Nat) (s : State) : Flow [] s (layoutOffers b half s) :=
  (((layoutShunt_flow _ _ _ _ s).after (layoutShunt_flow _ _ _ _ _)).after (layoutUser_flow _ _ _ _ _)).after
    (layoutUser_flow _ _ _ _ _)

theorem writeWindows_flow (b : Bank) (r : WindowRecord) (s : State) : Flow [] s (writeWindows b r s) :=
  (modDrumBank_flow _ _ s).after (rewriteResults_flow _ _ _ _ _)

theorem layoutPeriod_flow (b : Bank) (half : Nat) (s : State) : Flow [] s (layoutPeriod b half s) := by
  unfold layoutPeriod
  split
  · exact (writeWindows_flow _ _ s).after (modDrum_flow _ _)
  · exact writeWindows_flow _ _ s

theorem drumLayoutStep_flow (s : State) : Flow [] s (drumLayoutStep s) := by
  unfold drumLayoutStep
  simp only
  split
  · exact ((modDrum_flow _ s).after (layoutPeriod_flow _ _ _)).after (layoutOffers_flow _ _ _)
  · exact modDrum_flow _ s

theorem drumBrake_flow (s : State) : Flow [.trip] s (drumBrake s) := by
  unfold drumBrake
  split
  · exact Flow.after (modDrum_flow _ s) (tripDrum_flow _ _)
  · exact (modDrum_flow _ s).mono (by simp)

/-- Which commands trip the drum. -/
theorem drumTake_raises (code : ChannelCode) (a : Bool) (s : State) (ht :
    gateAsserted .d s = true → code = .brake → s.drum.state ≠ .tripped → s.drum.state ≠ .braking → P .trip) :
    Raises P s (drumTake code a s).1 := by
  unfold drumTake
  split
  · exact (flow_refl s).raises
  · exact (flow_refl s).raises
  · exact (drumStart_flow _ s).raises
  · exact (flow_refl s).raises
  · exact (flow_refl s).raises
  · rename_i h1 h2
    by_cases hg : gateAsserted .d s = true
    · exact (drumBrake_flow s).raises1 (ht hg rfl h2 h1)
    · unfold drumBrake
      rw [if_neg hg]
      dsimp only
      exact (modDrum_flow _ s).raises
  · exact (drumClear_flow s).raises
  · exact (flow_refl s).raises
  · exact (flow_refl s).raises

theorem drumCommandStep_raises (a : Bool) (s : State) (hc : s.drum.waiting ≠ none → P .cmd)
    (ht : gateAsserted .d s = true → (∃ tag, s.drum.waiting = some ⟨.brake, tag⟩)
        → s.drum.state ≠ .tripped → s.drum.state ≠ .braking → P .trip) :
    Raises P s (drumCommandStep a s) := by
  unfold drumCommandStep
  split
  · rename_i w hw
    simp only
    refine Raises.trans (Raises.trans (modDrum_flow _ s).raises (drumTake_raises w.code a _ ?_))
        ((commandDone_flow _ _ _ _ _).raises1 (hc (by rw [hw]; simp)))
    intro hg hcode h1 h2
    refine ht hg ⟨w.tag, ?_⟩ h1 h2
    rw [hw, ← hcode]
  · exact (flow_refl s).raises

theorem drumStarveStep_raises (s : State) (hs : s.drum.state = .running → s.drum.missCount = (cfg s).missLimit → P .stall)
    (ht : s.drum.state = .running → s.drum.missCount = (cfg s).missLimit →
        (cfg s).safeAction = .short → gateAsserted .d s = true → P .trip) :
    Raises P s (drumStarveStep s) := by
  unfold drumStarveStep
  split
  · rename_i h
    simp only
    refine Raises.trans ?_ ((raise_flow .stall _).raises1 (hs h.1 h.2))
    split
    · rename_i hg
      exact Raises.trans (modDrum_flow _ s).raises ((tripDrum_flow _ _).raises1 (ht h.1 h.2 hg.1 hg.2))
    · exact (modDrum_flow _ s).raises
  · exact (flow_refl s).raises

theorem drumBoundary_occurred (s : State) (k : Cause) (h : Raised k s (drumBoundaryEvent s)) :
    Occurred k .drumBoundary s (drumBoundaryEvent s) := by
  have hdrop : Flow [] s (drumDropStep s) := (modDrum_flow _ s).after (dropEntries_flow _ _ _ _)
  have hsame := drumDropStep_same s
  have hst0 : (drumDropStep s).drum.state = s.drum.state := frame_state (drumDropStep_frame s)
  have hwt0 : (drumDropStep s).drum.waiting = s.drum.waiting := by
    have h1 : (drumDropStep s).drum.own = _ := (dropEntries_effect .d .droppedBoundary (fun _ => true) (modDrum
        (fun d => { d with periodCount := d.periodCount + 1 }) s)).drum
    have := congrArg Drum.waiting h1
    exact this
  set r := drumPlanStep (drumDropStep s) with hr
  have hst1 : r.1.drum.state = s.drum.state := (frame_state (drumPlanStep_frame _)).trans hst0
  have hwt1 : r.1.drum.waiting ≠ none → s.drum.waiting ≠ none := by
    intro hw hn
    apply hw
    have e : drumPlanStep (drumDropStep s) = takeOrHoldDrum (drumDropStep s) := by
      unfold drumPlanStep
      rw [hwt0, hn]
    rw [hr, e, core_waiting (takeOrHoldDrum_core _), hwt0, hn]
  have ht : drumBoundaryEvent s = drumLayoutStep (drumStarveStep (drumCommandStep r.2 r.1)) := rfl
  set t := drumBoundaryEvent s with htd
  have main : Raises (fun k => Occurred k .drumBoundary s t) s t := by
    rw [ht]
    have hstarved : (drumCommandStep r.2 r.1).drum.state = .running →
        (drumCommandStep r.2 r.1).drum.missCount = (cfg (drumCommandStep r.2 r.1)).missLimit →
        s.MissesCounted → 1 ≤ (cfg s).missLimit → s.drum.state = .running := by
      intro h1 h2 h3 h4
      by_contra hne
      have hm0 : s.drum.missCount = 0 := h3.2 hne
      have hm1 : (drumDropStep s).drum.missCount = 0 := by
        have h1 : (drumDropStep s).drum.own = _ := (dropEntries_effect .d .droppedBoundary (fun _ => true) (modDrum
            (fun d => { d with periodCount := d.periodCount + 1 }) s)).drum
        have := congrArg Drum.missCount h1
        exact this.trans hm0
      have hm2 : r.1.drum.missCount = 0 := by
        rcases missCount_planStep (drumDropStep s) (by rw [hst0]; exact hne) with h | h
        · exact h.trans hm1
        · exact h
      have hc : cfg (drumCommandStep r.2 r.1) = cfg s := by
        have e1 := (keepsRest_iff.mp (drumCommandStep_effect r.2 r.1).rest).2.2.2.2.2.2.2.2.2
        have e2 := (keepsRest_iff.mp (drumPlanStep_effect (drumDropStep s)).rest).2.2.2.2.2.2.2.2.2
        have e3 := hdrop.config
        unfold cfg at *
        rw [e1, e2, e3]
      rw [hc] at h2
      have : (drumCommandStep r.2 r.1).drum.missCount = 0 := by
        unfold drumCommandStep at h1 ⊢
        split at h1
        · simp only [commandDone_drum] at h1 ⊢
          rw [(drumTake_running _ _ _ h1).1]
          simpa [takeWaitingDrum] using hm2
        · exact hm2
      omega
    refine Raises.trans (Raises.trans (Raises.trans (Raises.trans hdrop.raises (drumPlanStep_raises _ ?_ ?_ ?_))
        (drumCommandStep_raises _ _ ?_ ?_)) (drumStarveStep_raises _ ?_ ?_)) (drumLayoutStep_flow _).raises
    · intro hw
      exact .inl ⟨.d, rfl, by rw [hwt0] at hw; exact hw⟩
    · intro b h1 h2
      exact .inl ⟨.d, b, rfl, hsame.pending ▸ h1, by rw [← badPlanWords_of hsame.words]; exact h2⟩
    · intro h1 h2
      exact ⟨rfl, hst0 ▸ h1, hsame.live ▸ h2⟩
    · intro hw
      exact .inl ⟨.d, rfl, hwt1 hw⟩
    · rintro hg ⟨tag, hw⟩ h1 h2
      refine ⟨.d, ?_, .inl ⟨rfl, ?_⟩⟩
      · have e1 : drumCommandStep r.2 r.1 = commandDone .d tag ChannelCode.brake.code .done (drumBrake
          (takeWaitingDrum r.1)) := by
          unfold drumCommandStep
          rw [hw]
          simp only
          rw [drumTake_brake r.2 _ (by simpa [takeWaitingDrum] using h1) (by simpa [takeWaitingDrum] using h2)]
        have e2 : (drumCommandStep r.2 r.1).drum.state = .tripped := by
          rw [e1, commandDone_drum]
          have hg' : gateAsserted .d (takeWaitingDrum r.1) = true := hg
          unfold drumBrake
          rw [if_pos hg']
          exact tripDrum_state _ _
        have e3 : drumStarveStep (drumCommandStep r.2 r.1) = drumCommandStep r.2 r.1 := by
          unfold drumStarveStep
          rw [if_neg (by rw [e2]; simp)]
        apply decide_eq_true
        rw [e3, (layout_state _).1, e2]
      · show decide (s.drum.state = .tripped) = false
        rw [← hst1]
        simpa using h1
    · intro h1 h2
      refine .inl ⟨rfl, hstarved h1 h2, ?_⟩
      rw [(layout_state _).1, (layout_state _).2]
      unfold drumStarveStep
      rw [if_pos ⟨h1, h2⟩]
      simp only [raise_drum]
      split
      · right
        exact ⟨tripDrum_state _ _, by rw [tripDrum_prior, modDrum_drum]⟩
      · left
        simp [Drum.quiet]
    · intro h1 h2 h3 h4
      refine ⟨.d, ?_, .inl ⟨rfl, ?_⟩⟩
      · apply decide_eq_true
        rw [(layout_state _).1]
        unfold drumStarveStep
        rw [if_pos ⟨h1, h2⟩]
        simp only [raise_drum]
        rw [if_pos ⟨h3, h4⟩]
        exact tripDrum_state _ _
      · show decide (s.drum.state = .tripped) = false
        have : s.drum.state ≠ .tripped := by
          intro hx
          unfold drumCommandStep at h1
          split at h1
          · simp only [commandDone_drum] at h1
            exact drumTake_tripped _ _ _ (by simpa [takeWaitingDrum, hx] using hst1) h1
          · rw [hst1, hx] at h1
            cases h1
        simpa using this
  obtain ⟨ks, h1, h2⟩ := main
  rcases h2.raised k h with h3 | ⟨rfl, h3⟩ | ⟨ch, rfl, h3⟩
  · exact h1 k h3
  · exact h3
  · cases ch <;> exact h3

/-- From a flow within causes that have occurred. -/
theorem Raises.occurred {c : Instr} (h : Raises (fun k => Occurred k c s t) s t) (k : Cause) (hk : Raised k s t) :
    Occurred k c s t := by
  obtain ⟨ks, h1, h2⟩ := h
  rcases h2.raised k hk with h3 | ⟨rfl, h3⟩ | ⟨ch, rfl, h3⟩
  · exact h1 k h3
  · exact h3
  · cases ch <;> exact h3

theorem not_raised_of_intPend {k : Cause} (h : t.intPend = s.intPend) : ¬Raised k s t := fun hk => hk.2 (h ▸ hk.1)

theorem raised_or {c k : Cause} (h : t.intPend = s.intPend ||| c.mask) (hk : Raised k s t) : k = c := by
  by_contra hne
  apply hk.2
  rw [h, show (s.intPend ||| c.mask) &&& k.mask = (s.intPend &&& k.mask) ||| (c.mask &&& k.mask) by
    ext i; simp [Bool.and_or_distrib_right], hk.1, mask_and_mask hne]
  rfl

theorem modLivePumpBank_flow (p : PumpId) (f : PumpBank → PumpBank) (s : State) : Flow [] s (modLivePumpBank p f s) := by
  unfold modLivePumpBank
  split
  · exact modPumpBank_flow _ _ _ s
  · exact flow_refl s

theorem rewriteLive_flow (p : PumpId) (off n : Nat) (s : State) : Flow [] s (rewriteLive p off n s) := by
  unfold rewriteLive
  split
  · exact rewriteResults_flow _ _ _ _ s
  · exact flow_refl s

theorem commutate_flow (p : PumpId) (s : State) : Flow [] s (commutate p s) := (modPump_flow p _ s).after
    (modLivePumpBank_flow _ _ _)

theorem modComm_flow (p : PumpId) (f : CommState → CommState) (s : State) : Flow [] s (modComm p f s) := modPump_flow p _ s

theorem writeMissCount_flow (p : PumpId) (s : State) : Flow [] s (writeMissCount p s) := putWord_flow _ _ s

theorem enterAlign_flow (p : PumpId) (s : State) : Flow [] s (enterAlign p s) :=
  ((modPump_flow p _ s).after (putWord_flow _ _ _)).after (writeMissCount_flow p _)

theorem pumpStart_flow (p : PumpId) (s : State) : Flow [] s (pumpStart p s).1 := by
  unfold pumpStart
  split
  · exact flow_refl s
  · split
    · exact flow_refl s
    · split
      · exact flow_refl s
      · dsimp only
        exact enterAlign_flow p s

theorem pumpClear_flow (p : PumpId) (s : State) : Flow [] s (pumpClear p s).1 := by
  unfold pumpClear
  split
  · exact flow_refl s
  · split
    · exact flow_refl s
    · dsimp only
      exact modPump_flow p _ s

theorem pumpBrake_flow (p : PumpId) (s : State) : Flow [.trip] s (pumpBrake p s) := by
  unfold pumpBrake
  split
  · exact Flow.after (leavePump_flow p _ s) (tripPump_flow p _ _)
  · exact (leavePump_flow p _ s).mono (by simp)

theorem pumpTake_raises (p : PumpId) (code : ChannelCode) (s : State)
    (ht : gateAsserted (pumpChannel p) s = true → code = .brake → (s.pump p).state ≠ .tripped →
      (s.pump p).state ≠ .braking → (∀ r, (s.pump p).state ≠ .stalled r) → P .trip) :
    Raises P s (pumpTake p code s).1 := by
  unfold pumpTake
  split
  · exact (pumpStart_flow p s).raises
  · exact (pumpStart_flow p s).raises
  · exact (flow_refl s).raises
  · exact (flow_refl s).raises
  · exact (flow_refl s).raises
  · exact (flow_refl s).raises
  · exact (flow_refl s).raises
  · exact (flow_refl s).raises
  · exact (flow_refl s).raises
  · exact (flow_refl s).raises
  · rename_i h1 h2 h3
    by_cases hg : gateAsserted (pumpChannel p) s = true
    · exact (pumpBrake_flow p s).raises1 (ht hg rfl h3 h1 h2)
    · unfold pumpBrake
      rw [if_neg hg]
      dsimp only
      exact (leavePump_flow p _ s).raises
  · exact (pumpClear_flow p s).raises
  · exact (flow_refl s).raises
  · exact (flow_refl s).raises

theorem layoutSlot0_flow (p : PumpId) (b : Bank) (tp : Nat) (s : State) : Flow [] s (layoutSlot0 p b tp s) := by
  unfold layoutSlot0
  simp only
  split
  · exact (modPump_flow p _ s).after (offer_flow _ _)
  · exact modPump_flow p _ s

theorem layoutSlot1_flow (p : PumpId) (b : Bank) (tp : Nat) (s : State) : Flow [] s (layoutSlot1 p b tp s) := by
  unfold layoutSlot1
  simp only
  split
  · exact (modPump_flow p _ s).after (offer_flow _ _)
  · exact modPump_flow p _ s

theorem layoutDutyFlags_flow (p : PumpId) (b : Bank) (tp : Nat) (s : State) : Flow [] s (layoutDutyFlags p b tp s) := by
  unfold layoutDutyFlags
  split
  · exact (modPumpBank_flow p b _ s).after (rewriteResults_flow _ _ _ _ _)
  · exact flow_refl s

theorem layoutPumpBank_flow (p : PumpId) (b : Bank) (tp : Nat) (s : State) : Flow [] s (layoutPumpBank p b tp s) := by
  unfold layoutPumpBank
  simp only
  refine Flow.after (Flow.after ?_ (layoutSlot0_flow _ _ _ _)) (layoutSlot1_flow _ _ _ _)
  split
  · exact (modPumpBank_flow p b _ s).after (layoutDutyFlags_flow _ _ _ _)
  · exact modPumpBank_flow p b _ s

theorem pumpLayoutStep_flow (p : PumpId) (s : State) : Flow [] s (pumpLayoutStep p s) := by
  unfold pumpLayoutStep
  simp only
  split
  · exact (modPump_flow p _ s).after (layoutPumpBank_flow _ _ _ _)
  · exact modPump_flow p _ s

theorem takeOrHoldPump_raises (p : PumpId) (s : State)
    (hp : ∀ b, pendingBank (pumpChannel p) s = some b → badPlanWords (pumpChannel p) b s ≠ [] → P .parity) :
    Raises P s (takeOrHoldPump p s) := by
  unfold takeOrHoldPump
  split
  · exact (flow_refl s).raises
  · rename_i b hb
    have hr : (s.exch (pumpChannel p)).role b ≠ .host := by
      have := bankIn_role hb
      intro h; rw [h] at this; cases this
    split
    · rename_i a as hbad
      refine Raises.trans ((reportPlanParity_flow _ (a :: as) s).raises1 (hp b hb (by rw [hbad]; simp)))
          (rejectBank_flow _ b _ _ ?_).raises
      rw [reportPlanParity_exch]
      exact hr
    · exact (acceptPump_flow p b _ s hr).raises

theorem pumpPlanStep_raises (p : PumpId) (s : State)
    (hc : (s.pump p).waiting ≠ none → P .cmd)
    (hp : ∀ b, pendingBank (pumpChannel p) s = some b → badPlanWords (pumpChannel p) b s ≠ [] → P .parity) :
    Raises P s (pumpPlanStep p s) := by
  unfold pumpPlanStep
  split
  · rename_i tag hw
    have hcmd := hc (by rw [hw]; simp)
    split
    · exact (((modPump_flow p _ s).after (performRelease_flow _ _)).raises).trans ((commandDone_flow _ _ _ _ _).raises1 hcmd)
    · have hs := takeDonePump_same p tag ChannelCode.release.code .wrongState s
      refine Raises.trans ((Flow.after (modPump_flow p _ s) (commandDone_flow (pumpChannel p)
          tag ChannelCode.release.code .wrongState _)).raises1 hcmd) (takeOrHoldPump_raises p _ ?_)
      intro b h1 h2
      exact hp b (hs.pending ▸ h1) (by rw [← badPlanWords_of hs.words]; exact h2)
  · exact takeOrHoldPump_raises p s hp

theorem pumpCommandStep_raises (p : PumpId) (s : State) (hc : (s.pump p).waiting ≠ none → P .cmd)
    (ht : gateAsserted (pumpChannel p) s = true → (∃ tag, (s.pump p).waiting = some ⟨.brake, tag⟩) →
        (s.pump p).state ≠ .tripped → (s.pump p).state ≠ .braking → (∀ r, (s.pump p).state ≠ .stalled r) → P .trip) :
    Raises P s (pumpCommandStep p s) := by
  unfold pumpCommandStep
  split
  · rename_i w hw
    simp only
    refine Raises.trans (Raises.trans (modPump_flow p _ s).raises (pumpTake_raises p w.code _ ?_))
        ((commandDone_flow _ _ _ _ _).raises1 (hc (by rw [hw]; simp)))
    intro hg hcode h1 h2 h3
    refine ht ?_ ⟨w.tag, ?_⟩ (by simpa using h1) (by simpa using h2) (by simpa using h3)
    · revert hg; cases p <;> exact id
    · rw [hw, ← hcode]
  · exact (flow_refl s).raises

theorem pumpBoundary_occurred (p : PumpId) (s : State) (k : Cause) (h : Raised k s (pumpBoundaryEvent p s)) :
    Occurred k (.pumpBoundary p) s (pumpBoundaryEvent p s) := by
  set r := pumpPlanStep p s with hr
  have ht : pumpBoundaryEvent p s = pumpLayoutStep p (pumpCommandStep p r) := rfl
  have hst : (r.pump p).state = (s.pump p).state := pumpPlanStep_state p s
  refine Raises.occurred ?_ k h
  set t := pumpBoundaryEvent p s with htd
  rw [ht]
  refine Raises.trans (Raises.trans (pumpPlanStep_raises p s ?_ ?_) (pumpCommandStep_raises p r ?_ ?_))
      (pumpLayoutStep_flow p _).raises
  · intro hw
    exact .inl ⟨pumpChannel p, rfl, by rw [waitingOf_pump]; exact hw⟩
  · intro b h1 h2
    exact .inl ⟨pumpChannel p, b, rfl, h1, h2⟩
  · intro hw
    refine .inl ⟨pumpChannel p, rfl, ?_⟩
    rw [waitingOf_pump]
    intro hn
    exact hw (pumpPlanStep_waiting p s hn)
  · rintro hg ⟨tag, hw⟩ h1 h2 h3
    refine ⟨pumpChannel p, ?_, .inl ⟨rfl, ?_⟩⟩
    · rw [isTripped_pump]
      apply decide_eq_true
      rw [pumpLayoutStep_state]
      unfold pumpCommandStep
      rw [hw]
      simp only
      rw [pumpTake_brake p _ (by simpa [takeWaitingPump] using h1) (by simpa [takeWaitingPump] using h2)
          (by simpa [takeWaitingPump] using h3)]
      have hg' : gateAsserted (pumpChannel p) (takeWaitingPump p r) = true := by
        revert hg; cases p <;> exact id
      rw [commandDone_pump]
      unfold pumpBrake
      rw [if_pos hg']
      exact tripPump_state _ _ _
    · rw [isTripped_pump]
      apply decide_eq_false
      rw [← hst]
      exact h1

theorem stallPump_flow (p : PumpId) (r : StallReason) (s : State) : Flow [.stall] s (stallPump p r s) :=
    (leavePump_flow p _ s).after (raise_flow _ _)

theorem rampStepEnd_occurred (p : PumpId) (s : State) (hd : rampEndDue p s = true) (k : Cause)
    (h : Raised k s (rampStepEndEvent p s)) : Occurred k (.rampStepEnd p) s (rampStepEndEvent p s) := by
  refine Raises.occurred ?_ k h
  have h1 : ∀ c : Prop, [Decidable c] → Flow [] s (if c then s else modComm p (fun c => { c with good := 0 }) s) := by
    intro c _
    split
    · exact flow_refl s
    · exact modComm_flow p _ s
  have hs : (s.pump p).state = .ramp := by
    unfold rampEndDue at hd
    simp only [Bool.and_eq_true, decide_eq_true_eq] at hd
    exact hd.1
  unfold rampStepEndEvent
  simp only
  split
  · exact (((h1 _).after (modComm_flow p _ _)).after (commutate_flow p _)).raises
  · split
    · exact (((h1 _).after (modComm_flow p _ _)).after (commutate_flow p _)).raises
    · exact ((h1 _).after (stallPump_flow p _ _)).raises1 (.inr (.inl ⟨p, rfl, hs, stallPump_state _ _ _⟩))

theorem timeout_occurred (p : PumpId) (s : State) (hd : timeoutDue p s = true) (k : Cause)
    (h : Raised k s (missStep p s)) : Occurred k (.timeout p) s (missStep p s) := by
  refine Raises.occurred ?_ k h
  have hs : (s.pump p).state = .run := by
    unfold timeoutDue at hd
    simp only [Bool.and_eq_true, decide_eq_true_eq] at hd
    exact hd.1.1
  unfold missStep
  simp only
  have h1 := ((commutate_flow p s).after (modLivePumpBank_flow p (fun b => { b with misses := satInc b.misses }) _)).after
      (modComm_flow p (fun c => { c with missCount := c.missCount + 1 }) _)
  split
  · exact (h1.after (stallPump_flow p _ _)).raises1 (.inr (.inr ⟨p, rfl, hs, stallPump_state _ _ _⟩))
  · exact h1.raises

theorem scheduleComm_flow (p : PumpId) (zc : Tick) (b : Bool) (s : State) : Flow [] s (scheduleComm p zc b s) := by
  unfold scheduleComm
  simp only
  split
  · exact (commutate_flow p s).after (modLivePumpBank_flow p _ _)
  · exact modComm_flow p _ s

theorem setEstimate_flow (p : PumpId) (est : Nat) (s : State) : Flow [] s (setEstimate p est s) :=
  ((modComm_flow p _ s).after (modLivePumpBank_flow p _ _)).after (rewriteLive_flow p _ _ _)

theorem confirmRamp_raises (p : PumpId) (zc : Tick) (s : State) (hl : ((confirmRamp p zc s).pump p).state = .run → P .lock) :
    Raises P s (confirmRamp p zc s) := by
  unfold confirmRamp at *
  simp only at *
  split
  · rw [if_pos ‹_›] at hl
    unfold lockPump at *
    simp only at *
    refine Raises.trans ?_ (scheduleComm_flow p _ _ _).raises
    refine Raises.trans ?_ ((raise_flow .lock _).raises1 (hl ?_))
    · exact ((modComm_flow p _ s).after ((setEstimate_flow p _ _).after (modPump_flow p _ _))).raises
    · rw [scheduleComm_state]
      simp
  · exact (modComm_flow p _ s).raises

theorem confirmRun_flow (p : PumpId) (zc : Tick) (b : Bool) (s : State) : Flow [] s (confirmRun p zc b s) := by
  unfold confirmRun
  simp only
  refine Flow.after ?_ (scheduleComm_flow p _ _ _)
  split
  · exact setEstimate_flow p _ _
  · exact flow_refl _

theorem confirmCrossing_raises (p : PumpId) (s : State)
    (hl : (s.pump p).state ≠ .run → ((confirmCrossing p s).pump p).state = .run → P .lock) :
    Raises P s (confirmCrossing p s) := by
  have f3 : ∀ (c : Bool) v, Flow [] v (if c then modLivePumpBank p (fun b => { b with early := satInc b.early }) v else v) := by
    intro c v
    split
    · exact modLivePumpBank_flow p _ v
    · exact flow_refl v
  have f4 : ∀ (o : Option Nat) w, Flow [] w (match o with
      | some i => rewriteLive p 26 2 (modLivePumpBank p (fun b => { b with lastInterval := i }) w)
      | none => w) := by
    intro o w
    split
    · exact (modLivePumpBank_flow p _ w).after (rewriteLive_flow p _ _ _)
    · exact flow_refl w
  unfold confirmCrossing at *
  simp only at *
  have pre := (Flow.after (Flow.after (modComm_flow p (fun c => c.confirm ((s.pump p).comm.zc.zcTime (s.pump p).half)) s)
      (f3 (s.pump p).comm.zc.firstAfterBlank _)) (f4 ((modComm p (fun c => c.confirm ((s.pump p).comm.zc.zcTime
      (s.pump p).half)) s).pump p).comm.interval _))
  split
  · exact (pre.after (confirmRun_flow p _ _ _)).raises
  · rename_i hn
    refine Raises.trans pre.raises (confirmRamp_raises p _ _ ?_)
    rw [if_neg hn] at hl
    exact hl hn

theorem peak_occurred (p : PumpId) (level : Bool) (s : State) (k : Cause)
    (h : Raised k s (peakEvent p level s)) : Occurred k (.peak p level) s (peakEvent p level s) := by
  refine Raises.occurred ?_ k h
  have gen : ∀ P : Cause → Prop, ((s.pump p).state = .ramp → ((peakEvent p level s).pump p).state = .run → P .lock) →
      Raises P s (peakEvent p level s) := by
    intro P hl
    unfold peakEvent at *
    simp only at *
    split
    · rename_i hsn
      rw [if_pos hsn] at hl
      have f1 : Flow [] s (modComm p (fun c => { c with zc := c.zc.sample s.now (decide (level = postLevel
          ((cfg s).pump p).direction (s.pump p).stepIndex)) }) (modPump p (fun x => { x with peakDue := false }) s)) :=
        (modPump_flow p _ s).after (modComm_flow p _ _)
      have hrr : (s.pump p).state = .ramp ∨ (s.pump p).state = .run := by
        unfold samplesNow at hsn
        simp only [Bool.and_eq_true, Bool.or_eq_true, decide_eq_true_eq] at hsn
        exact hsn.1.1
      split
      · rename_i hc
        rw [if_pos hc] at hl
        refine Raises.trans f1.raises (confirmCrossing_raises p _ ?_)
        intro h1 h2
        refine hl ?_ h2
        rcases hrr with h | h
        · exact h
        · exact absurd (by simpa [modComm] using h) h1
      · exact f1.raises
    · exact (modPump_flow p _ s).raises
  exact gen _ (fun h1 h2 => ⟨p, level, rfl, h1, h2⟩)

/-- What an assertion on a channel leaves: the trip flag only with the channel TRIPPED and new, or with a changed record. -/
def TripsChannel (ch : Channel) (s t : State) : Prop :=
  Flow [] s t ∨ (Flow [.trip] s t ∧ isTripped ch t = true ∧ (isTripped ch s = false ∨ tripOf ch t ≠ tripOf ch s))

theorem assertOnDrum_trips (c : TripCause) (s : State) : TripsChannel .d s (assertOnDrum c s) := by
  unfold assertOnDrum
  split
  · rename_i hs
    split
    · exact .inl (flow_refl s)
    · by_cases hn : s.drum.trip.further c (causeAction .d c s) = s.drum.trip
      · left
        unfold furtherDrum
        rw [if_pos hn]
        exact flow_refl s
      · right
        refine ⟨furtherDrum_flow c s, ?_, .inr ?_⟩
        · apply decide_eq_true
          unfold furtherDrum
          simp only [if_neg hn, raise_drum, showWords_drum, modDrum_drum]
          exact hs
        · show (furtherDrum c s).drum.trip ≠ s.drum.trip
          unfold furtherDrum
          simp only [if_neg hn, raise_drum, showWords_drum, modDrum_drum]
          exact hn
  · rename_i hs
    split
    · exact .inl (flow_refl s)
    · exact .inr ⟨tripDrum_flow c s, decide_eq_true (tripDrum_state c s), .inl (decide_eq_false hs)⟩

theorem assertOnPump_trips (p : PumpId) (c : TripCause) (s : State) : TripsChannel (pumpChannel p) s (assertOnPump p c s) := by
  unfold assertOnPump
  split
  · rename_i hs
    split
    · exact .inl (flow_refl s)
    · by_cases hn : (s.pump p).trip.further c (causeAction (pumpChannel p) c s) = (s.pump p).trip
      · left
        unfold furtherPump
        rw [if_pos hn]
        exact flow_refl s
      · right
        refine ⟨furtherPump_flow p c s, ?_, .inr ?_⟩
        · rw [isTripped_pump]
          apply decide_eq_true
          unfold furtherPump
          simp only [if_neg hn, raise_pump, showWords_pump, modPump_same]
          exact hs
        · rw [tripOf_pump, tripOf_pump]
          unfold furtherPump
          simp only [if_neg hn, raise_pump, showWords_pump, modPump_same]
          exact hn
  · rename_i hs
    split
    · exact .inl (flow_refl s)
    · refine .inr ⟨tripPump_flow p c s, ?_, .inl ?_⟩
      · rw [isTripped_pump]; exact decide_eq_true (tripPump_state p c s)
      · rw [isTripped_pump]; exact decide_eq_false hs

theorem TripsChannel.raises {ch : Channel} (h : TripsChannel ch s t)
    (hp : isTripped ch t = true → (isTripped ch s = false ∨ tripOf ch t ≠ tripOf ch s) → P .trip) : Raises P s t := by
  rcases h with h | ⟨h1, h2, h3⟩
  · exact h.raises
  · exact h1.raises1 (hp h2 h3)

theorem reachChannels_raises (pin : TripPin) (s : State)
    (hp : ∀ ch, isTripped ch (reachChannels pin s) = true → (isTripped ch s = false ∨ tripOf ch (reachChannels pin s)
        ≠ tripOf ch s) → P .trip) :
    Raises P s (reachChannels pin s) := by
  unfold reachChannels at *
  split
  · exact (assertOnDrum_trips _ s).raises (hp .d)
  · exact (assertOnPump_trips .p1 _ s).raises (hp .p1)
  · exact (assertOnPump_trips .p2 _ s).raises (hp .p2)
  · simp only at hp
    have e1 := assertOnDrum_effect .busOv s
    have e2 := assertOnPump_effect .p1 .busOv (assertOnDrum .busOv s)
    have e3 := assertOnPump_effect .p2 .busOv (assertOnPump .p1 .busOv (assertOnDrum .busOv s))
    refine Raises.trans (Raises.trans ((assertOnDrum_trips _ s).raises ?_) ((assertOnPump_trips .p1 _ _).raises ?_))
        ((assertOnPump_trips .p2 _ _).raises ?_)
    · intro h1 h2
      have k2 := keepsTrip_of_effect (ch := .d) e2 (by simp [pumpChannel])
      have k3 := keepsTrip_of_effect (ch := .d) e3 (by simp [pumpChannel])
      exact hp .d (by rw [k3.1, k2.1]; exact h1) (by rw [k3.2, k2.2]; exact h2)
    · intro h1 h2
      have k1 := keepsTrip_of_effect (ch := .p1) e1 (by simp)
      have k3 := keepsTrip_of_effect (ch := .p1) e3 (by simp [pumpChannel])
      exact hp .p1 (by rw [k3.1]; exact h1) (by rw [k3.2]; rw [← k1.1, ← k1.2]; exact h2)
    · intro h1 h2
      have k1 := keepsTrip_of_effect (ch := .p2) e1 (by simp)
      have k2 := keepsTrip_of_effect (ch := .p2) e2 (by simp [pumpChannel])
      exact hp .p2 h1 (by rw [← k1.1, ← k2.1, ← k1.2, ← k2.2]; exact h2)
  · exact (assertOnDrum_trips _ s).raises (hp .d)
  · simp only at hp
    have e2 := assertOnPump_effect .p1 .gate s
    have e3 := assertOnPump_effect .p2 .gate (assertOnPump .p1 .gate s)
    refine Raises.trans ((assertOnPump_trips .p1 _ _).raises ?_) ((assertOnPump_trips .p2 _ _).raises ?_)
    · intro h1 h2
      have k3 := keepsTrip_of_effect (ch := .p1) e3 (by simp [pumpChannel])
      exact hp .p1 (by rw [k3.1]; exact h1) (by rw [k3.2]; exact h2)
    · intro h1 h2
      have k2 := keepsTrip_of_effect (ch := .p2) e2 (by simp [pumpChannel])
      exact hp .p2 h1 (by rw [← k2.1, ← k2.2]; exact h2)

theorem setWaiting_flow (ch : Channel) (w : Option WaitingCommand) (s : State) : Flow [] s (setWaiting ch w s) := by
  unfold setWaiting
  split
  · exact modDrum_flow _ s
  · exact modPump_flow .p1 _ s
  · exact modPump_flow .p2 _ s

theorem supersede_flow (ch : Channel) (s : State) : Flow [.cmd] s (supersede ch s) := by
  unfold supersede
  split
  · exact (setWaiting_flow ch _ s).after (commandRefused_flow _ _ _ _ _)
  · exact (flow_refl s).mono (by simp)

theorem stopChannel_flow (ch : Channel) (s : State) : Flow [] s (stopChannel ch s) := by
  unfold stopChannel stopDrum stopPump
  split
  · exact (modDrum_flow _ s).after (dropEntries_flow _ _ _ _)
  · exact (leavePump_flow .p1 _ s).after (dropEntries_flow _ _ _ _)
  · exact (leavePump_flow .p2 _ s).after (dropEntries_flow _ _ _ _)

theorem commandEvent_flow (ch : Channel) (w : Word) (s : State) : Flow [.cmd] s (commandEvent ch w s) := by
  unfold commandEvent
  split
  · exact commandRefused_flow _ _ _ _ s
  · unfold stopEvent
    split
    · exact commandDone_flow _ _ _ _ s
    · split
      · exact (supersede_flow ch s).and (commandDone_flow _ _ _ _ _)
      · exact ((supersede_flow ch s).before (stopChannel_flow ch _)).and (commandDone_flow _ _ _ _ _)
  · unfold waitEvent
    split
    · exact commandRefused_flow _ _ _ _ s
    · exact (setWaiting_flow ch _ s).mono (by simp)

theorem setApply_flow (a : Option ApplyRun) (s : State) : Flow [] s (setApply a s) := flow_of_eq rfl rfl rfl
    (fun ch => by cases ch <;> rfl)

/-- A global command raises CMD, or LATE by the offers of a RECALIBRATE. -/
theorem globalEvent_cases (w : Word) (s : State) : Flow [.cmd] s (globalEvent w s) ∨
    (globalEvent w s).intPend = s.intPend ||| Cause.cmd.mask := by
  unfold globalEvent
  split
  · exact .inl (globalRefused_flow _ _ _ s)
  · split
    · exact .inl (globalRefused_flow _ _ _ s)
    · unfold carryOut
      split
      · left
        unfold takeApply
        split
        · exact (setApply_flow _ s).mono (by simp)
        · exact globalDone_flow _ _ _ _ s
      · right
        simp [globalDone, clearAccount]
      · left
        exact Flow.after (flow_of_eq (t := emptyFaults s) rfl rfl rfl (fun ch => by cases ch <;> rfl))
            (globalDone_flow _ _ _ _ _)
      · left
        exact ((recalibrateOne_flow .a s).after (recalibrateOne_flow .b _)).after (globalDone_flow _ _ _ _ _)

theorem switchEvent_intPend (ch : Channel) (w : Word) (s : State) : (switchEvent ch w s).intPend = s.intPend := by
  unfold switchEvent
  split
  · unfold switchTakeEvent
    split <;> simp [writeSwitchResult, stageBank, cancelBank]
  · unfold switchCancelEvent
    split <;> simp [writeSwitchResult, cancelBank]
  · simp [writeSwitchResult]

theorem grantEvent_flow (s : State) : Flow [] s (grantEvent s) := by
  unfold grantEvent
  split
  · exact flow_refl s
  · exact wakeCause_flow s

theorem deliver_cases (a : Nat) (w : Word) (s : State) (k : Cause) (h : Raised k s (deliver a w s)) :
    (k = .cmd ∧ (a = gcmdAddr ∨ ∃ ch, a = controlAddr ch offCommand)) ∨ (k = .late ∧ LateCounted s (deliver a w s)) ∨
      ∃ ch, k = retCause ch ∧ BankReturned ch s (deliver a w s) := by
  unfold deliver at *
  split
  · rename_i ha
    rw [if_pos ha] at h
    rcases globalEvent_cases w s with g | g
    · rcases g.raised k h with h1 | h1 | h1
      · exact .inl ⟨by simpa using h1, .inl ha⟩
      · exact .inr (.inl h1)
      · exact .inr (.inr h1)
    · exact .inl ⟨raised_or g h, .inl ha⟩
  · rename_i ha
    rw [if_neg ha] at h
    split
    · rename_i ch off hco
      rw [hco] at h
      simp only at h
      split
      · rw [if_pos ‹_›] at h
        exact absurd h (not_raised_of_intPend (switchEvent_intPend ch w s))
      · rw [if_neg ‹_›] at h
        split
        · rename_i hoff
          rw [if_pos hoff] at h
          rcases (commandEvent_flow ch w s).raised k h with h1 | h1 | h1
          · exact .inl ⟨by simpa using h1, .inr ⟨ch, by rw [controlOf_addr hco, hoff]⟩⟩
          · exact .inr (.inl h1)
          · exact .inr (.inr h1)
        · rw [if_neg ‹_›] at h
          split
          · rw [if_pos ‹_›] at h
            rcases (grantEvent_flow s).raised k h with h1 | h1 | h1
            · exact absurd h1 (by simp)
            · exact .inr (.inl h1)
            · exact .inr (.inr h1)
          · rw [if_neg ‹_›] at h
            exact absurd h (not_raised_of_intPend rfl)
    · rename_i hco
      rw [hco] at h
      exact absurd h (not_raised_of_intPend rfl)

theorem hostWrite_occurred (c : Instr) (a w : Word) (s s' : State) (hp : s = { s' with port := s.port })
    (hw : hostWordOf c s' = some (a.toNat, w)) (k : Cause) (h : Raised k s' (hostWrite a w s)) :
    Occurred k c s' (hostWrite a w s) := by
  have hi : s.intPend = s'.intPend := by rw [hp]
  have hl : s.lpr = s'.lpr := by rw [hp]
  have he : ∀ ch, s.exch ch = s'.exch ch := by intro ch; rw [hp]; cases ch <;> rfl
  have hwf : writeFault a.toNat s = writeFault a.toNat s' := by
    rw [hp]
    unfold writeFault busyRole
    have : ∀ ch, State.exch { s' with port := s.port } ch = s'.exch ch := by intro ch; cases ch <;> rfl
    simp only [this]
  have hr : Raised k s (hostWrite a w s) := ⟨hi ▸ h.1, h.2⟩
  unfold hostWrite at *
  split
  · rename_i hrd
    rw [if_pos hrd] at hr h
    unfold hostWriteReady at *
    split
    · rename_i f hf
      rw [hf] at hr
      simp only at hr
      have := (recordFault_flow a f.1 f.2 s).raised k hr
      rcases this with h1 | ⟨rfl, h1, j, h2, h3⟩ | ⟨ch, rfl, b, h1, h2⟩
      · have : k = .access := by simpa using h1
        subst this
        exact ⟨a.toNat, w, hw, by rw [← hwf, hf]; simp⟩
      · exact ⟨h1, j, h2, by rw [← hl]; exact h3⟩
      · have : BankReturned ch s' (recordFault a f.1 f.2 s) := ⟨b, by rw [← he]; exact h1, h2⟩
        cases ch <;> exact this
    · rename_i hf
      rw [hf] at hr
      simp only at hr
      have hr' : Raised k (putWord a.toNat w s) (deliver a.toNat w (putWord a.toNat w s)) := hr
      rcases deliver_cases _ _ _ _ hr' with ⟨rfl, h1⟩ | ⟨rfl, h1, j, h2, h3⟩ | ⟨ch, rfl, b, h1, h2⟩
      · exact .inr (.inl ⟨a.toNat, w, hw, h1⟩)
      · exact ⟨h1, j, h2, by rw [← hl]; exact h3⟩
      · have : BankReturned ch s' (deliver a.toNat w (putWord a.toNat w s)) := ⟨b, by rw [← he]; simpa using h1, h2⟩
        cases ch <;> exact this
  · rename_i hrd
    rw [if_neg hrd] at hr
    exact absurd hr (not_raised_of_intPend rfl)

theorem namedWrite_occurred (c : Instr) (a w : Word) (s : State) (hc : hostWriteOf c = some (a.toNat, w))
    (k : Cause) (h : Raised k s (namedWrite a w s)) : Occurred k c s (namedWrite a w s) := by
  unfold namedWrite at *
  split
  · rw [if_pos ‹_›] at h
    refine hostWrite_occurred c a w (passWord s) s ?_ ?_ k h
    · unfold passWord nextWord
      split <;> rfl
    · unfold hostWordOf
      split
      · simp [hostWriteOf] at hc
      · simp [hostWriteOf] at hc
      · exact hc
  · rw [if_neg ‹_›] at h
    exact absurd h (not_raised_of_intPend rfl)

theorem regWrite_intPend (a w : Word) (s : State) (k : Cause) : ¬Raised k s (regWrite a w s) := by
  intro h
  have hp : (passWord s).intPend = s.intPend := by unfold passWord nextWord; split <;> rfl
  unfold regWrite at h
  split at h
  · split at h
    · unfold regWriteReady at h
      split at h
      · exact not_raised_of_intPend hp h
      · split at h
        · apply h.2
          show ((passWord s).intPend &&& ~~~(w.setWidth 12)) &&& k.mask = 0
          rw [hp, show (s.intPend &&& ~~~(w.setWidth 12)) &&& k.mask = (s.intPend &&& k.mask) &&& ~~~(w.setWidth 12) by
            ext i; simp; cases s.intPend[i] <;> cases k.mask[i] <;> simp, h.1]
          simp
        · split at h
          · split at h
            · apply h.2
              have : (softResetEvent (passWord s)).intPend = 0 := rfl
              rw [this]; simp
            · exact not_raised_of_intPend hp h
          · exact not_raised_of_intPend hp h
    · exact not_raised_of_intPend hp h
  · exact not_raised_of_intPend rfl h

theorem succeedApply_occ (r : ApplyRun) (ws : List Word) (s : State) (k : Cause) (h : Raised k s (succeedApply r ws s)) :
    k = .cmd ∨ (k = .late ∧ LateCounted s (succeedApply r ws s)) ∨ ∃ ch, k = retCause ch ∧ BankReturned ch s
        (succeedApply r ws s) := by
  have f : Flow [.cmd] { s with gcu := { s.gcu with shadow := shadowOf ws } } (succeedApply r ws s) := by
    unfold succeedApply requalify
    simp only
    refine Flow.before (Flow.after ?_ (globalDone_flow _ _ _ _ _)) (setApply_flow _ _)
    refine Flow.after (Flow.after ?_ (modTrm_flow _ _)) (wakeCause_flow _)
    exact (recountCal_flow .a _).after (recountCal_flow .b _)
  have he : ∀ ch, State.exch { s with gcu := { s.gcu with shadow := shadowOf ws } } ch = s.exch ch := by
    intro ch; cases ch <;> rfl
  rcases f.raised k h with h1 | h1 | ⟨ch, h1, b, h2, h3⟩
  · exact .inl (by simpa using h1)
  · exact .inr (.inl h1)
  · exact .inr (.inr ⟨ch, h1, b, by rw [← he]; exact h2, h3⟩)

theorem failApply_flow (r : ApplyRun) (o : Outcome) (d : Nat) (s : State) : Flow [.cmd] s (failApply r o d s) := by
  unfold failApply
  exact Flow.before (Flow.after (wakeCause_flow s) (globalDone_flow _ _ _ _ _)) (setApply_flow _ _)

theorem configRead_occurred (r : ApplyRun) (s : State) (ha : s.gcu.apply = some r) (k : Cause)
    (h : Raised k s (configReadEvent r s)) : Occurred k .configWordRead s (configReadEvent r s) := by
  have hfail : ∀ (o d) (u : State), (failApply r o d u).gcu.apply = none := fun o d u => rfl
  unfold configReadEvent at *
  simp only at *
  split
  · rename_i hb
    rw [if_pos hb] at h
    refine Raises.occurred ?_ k h
    refine Raises.trans ((recordParity_flow (readSource (readAddr r.words r.words.length)) (readAddr r.words r.words.length)
        s).raises1 (.inr ⟨rfl, r, ha, by simpa using hb⟩)) ?_
    exact (failApply_flow r _ _ _).raises1 (.inr (.inr ⟨rfl, by rw [ha]; simp, rfl⟩))
  · rename_i hb
    rw [if_neg hb] at h
    split
    · rw [if_pos ‹_›] at h
      refine Raises.occurred ?_ k h
      exact (failApply_flow r _ _ _).raises1 (.inr (.inr ⟨rfl, by rw [ha]; simp, rfl⟩))
    · rw [if_neg ‹_›] at h
      split
      · rw [if_pos ‹_›] at h
        rcases succeedApply_occ _ _ _ _ h with rfl | ⟨rfl, h1⟩ | ⟨ch, rfl, h1⟩
        · exact .inr (.inr ⟨rfl, by rw [ha]; simp, rfl⟩)
        · exact h1
        · cases ch <;> exact h1
      · rw [if_neg ‹_›] at h
        exact absurd h (not_raised_of_intPend rfl)

theorem completion_occurred (cv : Conv) (raw : Raw) (f : InFlight) (s : State) (hf : s.inFlight cv = some f) (k : Cause)
    (h : Raised k s (complete cv f raw s)) : Occurred k (.completion cv raw) s (complete cv f raw s) := by
  refine Raises.occurred ?_ k h
  by_cases hc : ∃ cv', f.req.origin = convOrigin cv' ∧ (s.cal cv').progress + 1 = 16 ∧
          (exactOffset ((s.cal cv').sum + raw.toNat) < -64 ∨ 63 < exactOffset ((s.cal cv').sum + raw.toNat))
  · obtain ⟨cv', h1, h2, h3⟩ := hc
    exact (complete_flow cv f raw s).1.raises1 ⟨cv, raw, f, cv', rfl, hf, h1, h2, h3⟩
  · exact ((complete_flow cv f raw s).2 (fun cv' h1 h2 => hc ⟨cv', h1, h2.1, h2.2⟩)).raises

theorem flow_occurred {c : Instr} (f : Flow [] s t) (k : Cause) (h : Raised k s t) : Occurred k c s t :=
  Raises.occurred f.raises k h

theorem appendHall_flow (b : Bank) (r : HallRecord) (s : State) : Flow [] s (appendHall b r s) := by
  unfold appendHall
  simp only
  split
  · exact ((modDrumBank_flow _ _ s).after (rewriteResults_flow _ _ _ _ _)).after (rewriteResults_flow _ _ _ _ _)
  · exact (modDrumBank_flow _ _ s).after (rewriteResults_flow _ _ _ _ _)

end Sys2Proof.Machine
end

