-- ==== Sys2Proof/Laws/PerInstr.lean ====
section
/-! SUPPORT. The family Spelled: a well-formed command that the table names by the word the host writes is the command which
that word spells at its address, so no bit of its operands is dropped in the word (11.3, 11.5, 11.8, 11.9, R174). -/

namespace Sys2Proof.Machine

/-! ### What a written word is called -/

/-- The row of the table that a COMMAND word spells (R174, 11.8). -/
def commandRow (ch : Channel) (w : Word) : Instr :=
  match channelCodeOf (wordCode w) with
  | some .start => .start ch (wordTag w)
  | some .stop => .stop ch (wordTag w)
  | some .brake => .brake ch (wordTag w)
  | some .clearTrip => .clearTrip ch (wordTag w)
  | some .release => .release ch (wordTag w)
  | none => .commandBadCode ch (wordCode w) (wordTag w)

/-- The row of the table that a GCMD word spells (R174, 11.8). -/
def globalRow (w : Word) : Instr :=
  match globalCodeOf (wordCode w) with
  | some .applyConfig => .applyConfig (wordTag w)
  | some .clearProfile => .clearProfile (wordTag w)
  | some .clearFaults => .clearFaults (wordTag w)
  | some .recalibrate => .recalibrate (wordTag w)
  | none => .gcmdBadCode (wordCode w) (wordTag w)

/-- The row of the table that a SWITCH word spells (R4, R174). -/
def switchRow (ch : Channel) (w : Word) : Instr :=
  match switchRequestOf w with
  | .take b => .switchTake ch b
  | .cancel => .switchCancel ch
  | .bad => .switchBadRequest ch w

/-- The row that a host word write spells, where a row names it by its word. -/
def hostWriteRow (a : Nat) (w : Word) : Option Instr :=
  if a = gcmdAddr then some (globalRow w)
  else
    match controlOf a with
    | some (ch, off) =>
      if off = offSwitch then some (switchRow ch w)
      else if off = offCommand then some (commandRow ch w)
      else if off = offGrant then some (.sleepGrantWrite ch w)
      else none
    | none => none

/-- The row that a register write spells (R169). -/
def registerWriteRow (a w : Word) : Instr :=
  if a = 3 then .intEnWrite w
  else if a = 4 then .intClrWrite w
  else if a = 5 ∧ w.getLsbD 0 = true then .softReset w
  else .regWriteIgnored a w

/-! ### Words and their two bytes -/

@[simp] theorem wordTag_commandWord (code tag : Byte) : wordTag (commandWord code tag) = tag := by
  ext i hi
  simp only [wordTag, commandWord, BitVec.getElem_extractLsb', BitVec.getLsbD_append]
  simp [hi]

@[simp] theorem wordCode_commandWord (code tag : Byte) : wordCode (commandWord code tag) = code := by
  ext i hi
  simp only [wordCode, commandWord, BitVec.getElem_extractLsb', BitVec.getLsbD_append]
  simp [hi]

/-- A code outside the table names no channel command. -/
theorem channelCodeOf_bad {code : Byte} (h : isChannelCode code = false) : channelCodeOf code = none := by
  revert code
  decide

/-- A code outside the table names no global command. -/
theorem globalCodeOf_bad {code : Byte} (h : isGlobalCode code = false) : globalCodeOf code = none := by
  revert code
  decide

/-! ### The words the control blocks decode -/

theorem hostWriteRow_command (ch : Channel) (w : Word) :
    hostWriteRow (controlAddr ch offCommand) w = some (commandRow ch w) := by cases ch <;> rfl

theorem hostWriteRow_switch (ch : Channel) (w : Word) :
    hostWriteRow (controlAddr ch offSwitch) w = some (switchRow ch w) := by cases ch <;> rfl

theorem hostWriteRow_grant (ch : Channel) (w : Word) :
    hostWriteRow (controlAddr ch offGrant) w = some (.sleepGrantWrite ch w) := by cases ch <;> rfl

theorem hostWriteRow_global (w : Word) : hostWriteRow gcmdAddr w = some (globalRow w) := rfl

end Sys2Proof.Machine

namespace Sys2Proof.Laws

open Sys2Proof.Machine

/-- A well-formed command that names a word the host writes is the command that the word spells at its address. -/
def Spelled.Statement (i : Instr) : Prop :=
  i.wellFormed = true →
    (∀ a w, hostWriteOf i = some (a, w) → hostWriteRow a w = some i) ∧
    (∀ a w, registerWriteOf i = some (a, w) → registerWriteRow a w = i)

/-- A command that names no written word. -/
theorem spelled_unnamed {i : Instr} (h : hostWriteOf i = none) (g : registerWriteOf i = none) : Spelled.Statement i :=
  fun _ => ⟨fun _ _ e => (nomatch h.symm.trans e), fun _ _ e => (nomatch g.symm.trans e)⟩

/-- A command that names a word of the memory. -/
theorem spelled_host {i : Instr} {a : Nat} {w : Word} (h : hostWriteOf i = some (a, w)) (g : registerWriteOf i = none)
    (r : i.wellFormed = true → hostWriteRow a w = some i) : Spelled.Statement i :=
  fun wf => ⟨fun b v e => by rw [h] at e; cases e; exact r wf, fun _ _ e => (nomatch g.symm.trans e)⟩

/-- A command that names a register. -/
theorem spelled_register {i : Instr} {a w : Word} (h : hostWriteOf i = none) (g : registerWriteOf i = some (a, w))
    (r : i.wellFormed = true → registerWriteRow a w = i) : Spelled.Statement i :=
  fun wf => ⟨fun _ _ e => (nomatch h.symm.trans e), fun b v e => by rw [g] at e; cases e; exact r wf⟩

theorem Spelled.frameOpen (four : Bool) (opcode : Byte) (addr : Word) : Spelled.Statement (.frameOpen four opcode addr) :=
  spelled_unnamed rfl rfl

theorem Spelled.frameClose : Spelled.Statement .frameClose :=
  spelled_unnamed rfl rfl

theorem Spelled.memWriteWord (data : Word) : Spelled.Statement (.memWriteWord data) :=
  spelled_unnamed rfl rfl

theorem Spelled.memReadWord : Spelled.Statement .memReadWord :=
  spelled_unnamed rfl rfl

theorem Spelled.sleepGrantWrite (ch : Channel) (value : Word) : Spelled.Statement (.sleepGrantWrite ch value) :=
  spelled_host rfl rfl (fun _ => hostWriteRow_grant ch value)

theorem Spelled.switchTake (ch : Channel) (bank : Bank) : Spelled.Statement (.switchTake ch bank) :=
  spelled_host rfl rfl (fun _ => by rw [hostWriteRow_switch]; cases bank <;> rfl)

theorem Spelled.switchCancel (ch : Channel) : Spelled.Statement (.switchCancel ch) :=
  spelled_host rfl rfl (fun _ => hostWriteRow_switch ch 3)

theorem Spelled.switchBadRequest (ch : Channel) (value : Word) : Spelled.Statement (.switchBadRequest ch value) :=
  spelled_host rfl rfl (fun h => by
    simp only [Instr.wellFormed, Bool.and_eq_true, bne_iff_ne] at h
    rw [hostWriteRow_switch, switchRow, switchRequestOf, if_neg h.1.1, if_neg h.1.2, if_neg h.2])

theorem Spelled.start (ch : Channel) (tag : Byte) : Spelled.Statement (.start ch tag) :=
  spelled_host rfl rfl (fun _ => by
    rw [hostWriteRow_command, commandRow, wordCode_commandWord, wordTag_commandWord]; rfl)

theorem Spelled.stop (ch : Channel) (tag : Byte) : Spelled.Statement (.stop ch tag) :=
  spelled_host rfl rfl (fun _ => by
    rw [hostWriteRow_command, commandRow, wordCode_commandWord, wordTag_commandWord]; rfl)

theorem Spelled.brake (ch : Channel) (tag : Byte) : Spelled.Statement (.brake ch tag) :=
  spelled_host rfl rfl (fun _ => by
    rw [hostWriteRow_command, commandRow, wordCode_commandWord, wordTag_commandWord]; rfl)

theorem Spelled.clearTrip (ch : Channel) (tag : Byte) : Spelled.Statement (.clearTrip ch tag) :=
  spelled_host rfl rfl (fun _ => by
    rw [hostWriteRow_command, commandRow, wordCode_commandWord, wordTag_commandWord]; rfl)

theorem Spelled.release (ch : Channel) (tag : Byte) : Spelled.Statement (.release ch tag) :=
  spelled_host rfl rfl (fun _ => by
    rw [hostWriteRow_command, commandRow, wordCode_commandWord, wordTag_commandWord]; rfl)

theorem Spelled.commandBadCode (ch : Channel) (code : Byte) (tag : Byte) : Spelled.Statement (.commandBadCode ch code tag) :=
  spelled_host rfl rfl (fun h => by
    simp only [Instr.wellFormed, Bool.not_eq_true'] at h
    rw [hostWriteRow_command, commandRow, wordCode_commandWord, wordTag_commandWord, channelCodeOf_bad h])

theorem Spelled.applyConfig (tag : Byte) : Spelled.Statement (.applyConfig tag) :=
  spelled_host rfl rfl (fun _ => by
    rw [hostWriteRow_global, globalRow, wordCode_commandWord, wordTag_commandWord]; rfl)

theorem Spelled.clearProfile (tag : Byte) : Spelled.Statement (.clearProfile tag) :=
  spelled_host rfl rfl (fun _ => by
    rw [hostWriteRow_global, globalRow, wordCode_commandWord, wordTag_commandWord]; rfl)

theorem Spelled.clearFaults (tag : Byte) : Spelled.Statement (.clearFaults tag) :=
  spelled_host rfl rfl (fun _ => by
    rw [hostWriteRow_global, globalRow, wordCode_commandWord, wordTag_commandWord]; rfl)

theorem Spelled.recalibrate (tag : Byte) : Spelled.Statement (.recalibrate tag) :=
  spelled_host rfl rfl (fun _ => by
    rw [hostWriteRow_global, globalRow, wordCode_commandWord, wordTag_commandWord]; rfl)

theorem Spelled.gcmdBadCode (code : Byte) (tag : Byte) : Spelled.Statement (.gcmdBadCode code tag) :=
  spelled_host rfl rfl (fun h => by
    simp only [Instr.wellFormed, Bool.not_eq_true'] at h
    rw [hostWriteRow_global, globalRow, wordCode_commandWord, wordTag_commandWord, globalCodeOf_bad h])

theorem Spelled.configWordRead : Spelled.Statement .configWordRead :=
  spelled_unnamed rfl rfl

theorem Spelled.intEnWrite (value : Word) : Spelled.Statement (.intEnWrite value) :=
  spelled_register rfl rfl (fun _ => rfl)

theorem Spelled.intClrWrite (value : Word) : Spelled.Statement (.intClrWrite value) :=
  spelled_register rfl rfl (fun _ => rfl)

theorem Spelled.softReset (value : Word) : Spelled.Statement (.softReset value) :=
  spelled_register rfl rfl (fun h => by
    simp only [Instr.wellFormed] at h
    simp [registerWriteRow, h])

theorem Spelled.regWriteIgnored (addr : Word) (value : Word) : Spelled.Statement (.regWriteIgnored addr value) :=
  spelled_register rfl rfl (fun h => by
    simp only [Instr.wellFormed, isIgnoredRegWrite, Bool.and_eq_true, bne_iff_ne, Bool.not_eq_true'] at h
    have h5 : ¬(addr = 5 ∧ value.getLsbD 0 = true) := fun e => by
      rw [e.1, e.2] at h
      exact absurd h.2 (by decide)
    rw [registerWriteRow, if_neg h.1.1, if_neg h.1.2, if_neg h5])

theorem Spelled.resetnAssert : Spelled.Statement .resetnAssert :=
  spelled_unnamed rfl rfl

theorem Spelled.resetnRelease : Spelled.Statement .resetnRelease :=
  spelled_unnamed rfl rfl

theorem Spelled.memorySweep : Spelled.Statement .memorySweep :=
  spelled_unnamed rfl rfl

theorem Spelled.sweepEnd : Spelled.Statement .sweepEnd :=
  spelled_unnamed rfl rfl

theorem Spelled.drumBoundary : Spelled.Statement .drumBoundary :=
  spelled_unnamed rfl rfl

theorem Spelled.pumpBoundary (p : PumpId) : Spelled.Statement (.pumpBoundary p) :=
  spelled_unnamed rfl rfl

theorem Spelled.phaseEdge (ph : Phase) : Spelled.Statement (.phaseEdge ph) :=
  spelled_unnamed rfl rfl

theorem Spelled.deadTimeEnd (ch : Channel) (ph : Phase) : Spelled.Statement (.deadTimeEnd ch ph) :=
  spelled_unnamed rfl rfl

theorem Spelled.pumpPwmEdge (p : PumpId) : Spelled.Statement (.pumpPwmEdge p) :=
  spelled_unnamed rfl rfl

theorem Spelled.hallInputChange (pin : HallPin) (level : Bool) : Spelled.Statement (.hallInputChange pin level) :=
  spelled_unnamed rfl rfl

theorem Spelled.hallEdge : Spelled.Statement .hallEdge :=
  spelled_unnamed rfl rfl

theorem Spelled.peak (p : PumpId) (level : Bool) : Spelled.Statement (.peak p level) :=
  spelled_unnamed rfl rfl

theorem Spelled.alignTimerExpiry (p : PumpId) : Spelled.Statement (.alignTimerExpiry p) :=
  spelled_unnamed rfl rfl

theorem Spelled.rampStepEnd (p : PumpId) : Spelled.Statement (.rampStepEnd p) :=
  spelled_unnamed rfl rfl

theorem Spelled.scheduledCommutation (p : PumpId) : Spelled.Statement (.scheduledCommutation p) :=
  spelled_unnamed rfl rfl

theorem Spelled.timeout (p : PumpId) : Spelled.Statement (.timeout p) :=
  spelled_unnamed rfl rfl

theorem Spelled.eligibility : Spelled.Statement .eligibility :=
  spelled_unnamed rfl rfl

theorem Spelled.expiry (origin : Origin) (slot : Slot) : Spelled.Statement (.expiry origin slot) :=
  spelled_unnamed rfl rfl

theorem Spelled.completion (cv : Conv) (raw : Raw) : Spelled.Statement (.completion cv raw) :=
  spelled_unnamed rfl rfl

theorem Spelled.calDue (cv : Conv) : Spelled.Statement (.calDue cv) :=
  spelled_unnamed rfl rfl

theorem Spelled.calRaiseTime (cv : Conv) : Spelled.Statement (.calRaiseTime cv) :=
  spelled_unnamed rfl rfl

theorem Spelled.enterSleep : Spelled.Statement .enterSleep :=
  spelled_unnamed rfl rfl

theorem Spelled.wakeReach : Spelled.Statement .wakeReach :=
  spelled_unnamed rfl rfl

theorem Spelled.wakingEnd : Spelled.Statement .wakingEnd :=
  spelled_unnamed rfl rfl

theorem Spelled.tripInputChange (pin : TripPin) (level : Bool) : Spelled.Statement (.tripInputChange pin level) :=
  spelled_unnamed rfl rfl

theorem Spelled.inputAssertion (pin : TripPin) : Spelled.Statement (.inputAssertion pin) :=
  spelled_unnamed rfl rfl

theorem Spelled.inputRelease (pin : TripPin) : Spelled.Statement (.inputRelease pin) :=
  spelled_unnamed rfl rfl

theorem Spelled.qualification (supply : Supply) : Spelled.Statement (.qualification supply) :=
  spelled_unnamed rfl rfl

end Sys2Proof.Laws
end

