-- ==== Sys2Proof/Laws/Records.lean ====
section
/-! SUPPORT. Saturating sums, the parity record after a take, and what a drop of shunt requests leaves in the drum's banks, in
the terms of the claims (R9, R58, R103, R130, R167). -/

namespace Sys2Proof.Machine

/-! ### Saturating sums -/

/-- A saturating sum is the exact sum, or the limit. -/
theorem satAdd_toNat {n : Nat} (x : BitVec n) (k : Nat) : (satAdd x k).toNat = min (x.toNat + k) (2 ^ n - 1) := by
  unfold satAdd
  have := x.isLt
  split
  · rw [BitVec.toNat_ofNat, Nat.mod_eq_of_lt ‹_›]
    omega
  · rw [BitVec.toNat_allOnes]
    omega

@[simp] theorem satAdd_zero {n : Nat} (x : BitVec n) : satAdd x 0 = x := by
  apply BitVec.eq_of_toNat_eq
  rw [satAdd_toNat]
  have := x.isLt
  omega

@[simp] theorem satAdd_satAdd {n : Nat} (x : BitVec n) (j k : Nat) : satAdd (satAdd x j) k = satAdd x (j + k) := by
  apply BitVec.eq_of_toNat_eq
  simp only [satAdd_toNat]
  omega

/-- A counter raised by one is a saturating sum. -/
theorem satInc_eq {n : Nat} (x : BitVec n) : satInc x = satAdd x 1 := by
  apply BitVec.eq_of_toNat_eq
  rw [satAdd_toNat]
  unfold satInc
  have := x.isLt
  split
  · rw [‹x = _›, BitVec.toNat_allOnes]
    omega
  · have hx : x.toNat ≠ 2 ^ n - 1 := fun h => ‹¬x = _› (BitVec.eq_of_toNat_eq (by rw [h, BitVec.toNat_allOnes]))
    have hn : n ≠ 0 := by
      rintro rfl
      omega
    have h1 : (1 : Nat) < 2 ^ n := Nat.one_lt_two_pow hn
    have h2 : (1 : BitVec n).toNat = 1 := by
      show (BitVec.ofNat n 1).toNat = 1
      rw [BitVec.toNat_ofNat, Nat.mod_eq_of_lt h1]
    rw [BitVec.toNat_add, h2, Nat.mod_eq_of_lt (by omega)]
    omega

/-! ### The parity record (R9, R167) -/

/-- The parity record after the failing words of a take (R9, R167). -/
theorem reportPlanParity_parity (ch : Channel) (bad : List Nat) (s : State) :
    (reportPlanParity ch bad s).parity = planParity ch bad s.parity := by
  have more : ∀ (bad : List Nat) (s : State), s.parity.count ≠ 0 →
      (reportPlanParity ch bad s).parity = { s.parity with count := satAdd s.parity.count bad.length } := by
    intro bad
    induction bad with
    | nil => intro s _; simp [reportPlanParity]
    | cons a as ih =>
      intro s h
      have h1 : (recordParity (planSource ch) a s).parity = { s.parity with count := satInc s.parity.count } := by
        show s.parity.record _ _ = _
        rw [ParityRecord.record, if_neg h]
      have := ih (recordParity (planSource ch) a s) (by
        rw [h1]
        intro h0
        apply h
        apply BitVec.eq_of_toNat_eq
        have h2 := congrArg BitVec.toNat h0
        simp only [satInc_eq, satAdd_toNat] at h2
        simp at h2)
      rw [show reportPlanParity ch (a :: as) s = reportPlanParity ch as (recordParity (planSource ch) a s) from rfl, this,
        h1]
      simp [satInc_eq, Nat.add_comm]
  cases bad with
  | nil => rfl
  | cons a as =>
    rw [show reportPlanParity ch (a :: as) s = reportPlanParity ch as (recordParity (planSource ch) a s) from rfl]
    have h1 : (recordParity (planSource ch) a s).parity = s.parity.record (w16 a) (planSource ch) := by
      simp [recordParity]
    have hc : (s.parity.record (w16 a) (planSource ch)).count = satAdd s.parity.count 1 := by
      unfold ParityRecord.record
      split
      · rw [‹s.parity.count = 0›]; rfl
      · exact satInc_eq _
    rw [more as _ (by
      rw [h1, hc]
      intro h0
      have h2 := congrArg BitVec.toNat h0
      rw [satAdd_toNat] at h2
      simp at h2), h1, hc]
    simp only [satAdd_satAdd, planParity, List.length_cons, Nat.add_comm 1]
    by_cases h : s.parity.count = 0
    · simp only [ParityRecord.record, if_pos h]
      cases ch <;> rfl
    · simp only [ParityRecord.record, if_neg h]

/-! ### Drops of the drum's shunt requests (R58, R103) -/

/-- The shunt slots of a drum bank with a status where they are hit. -/
def DrumBank.mark (st : SlotStatus) (hitA hitB : Bool) (x : DrumBank) : DrumBank :=
  { x with
    shuntA := if hitA then { x.shuntA with status := st } else x.shuntA,
    shuntB := if hitB then { x.shuntB with status := st } else x.shuntB }

/-- A drum bank whose pair settles, if it is computed and neither slot is open. -/
def DrumBank.settle (x : DrumBank) : DrumBank :=
  if x.window.computed && !x.shuntA.status.isOpen && !x.shuntB.status.isOpen then
    { x with window := reconstruct x.window x.shuntA x.shuntB }
  else x

theorem settle_settle (x : DrumBank) : x.settle.settle = x.settle := by
  unfold DrumBank.settle
  split
  · simp_all [reconstruct]
  · simp_all

theorem drum_bank_setBank (d : Drum) (b c : Bank) (x : DrumBank) :
    (d.setBank b x).bank c = if c = b then x else d.bank c := by
  cases b <;> cases c <;> rfl

theorem settlePair_bank (b c : Bank) (s : State) :
    (settlePair b s).drum.bank c = if c = b then (s.drum.bank c).settle else s.drum.bank c := by
  unfold settlePair DrumBank.settle
  simp only
  split
  · simp only [rewriteResults_drum, modDrumBank_drum, drum_bank_setBank]
    split
    · subst c
      rw [if_pos ‹_›]
    · rfl
  · split
    · subst c
      rw [if_neg ‹_›]
    · rfl

theorem settleAfter_bank (r : Request) (ho : r.origin = .d) (hs : isShunt r.slot = true) (c : Bank) (s : State) :
    (settleAfter r s).drum.bank c = if r.bank = some c then (s.drum.bank c).settle else s.drum.bank c := by
  unfold settleAfter
  rw [if_pos ⟨ho, hs⟩]
  cases hb : r.bank with
  | none => simp
  | some b =>
    simp only [settlePair_bank, Option.some.injEq]
    by_cases h : b = c
    · simp [h]
    · simp [h, Ne.symm h]

theorem writeStatus_drumBank (r : Request) (ho : r.origin = .d) (hs : isShunt r.slot = true) (st : SlotStatus) (c : Bank)
    (s : State) :
    (writeStatus r st s).drum.bank c =
      (s.drum.bank c).mark st (decide (r.slot = .shuntA) && decide (r.bank = some c))
        (decide (r.slot = .shuntB) && decide (r.bank = some c)) := by
  unfold writeStatus modSlotStatus modNamedSlot
  rw [rewriteSlot_drum, ho]
  cases hb : r.bank with
  | none => simp [DrumBank.mark]
  | some b =>
    simp only [modDrumBank_drum, drum_bank_setBank, Option.some.injEq]
    by_cases h : c = b
    · subst c
      cases hr : r.slot <;> simp [hr, isShunt] at hs <;> simp [DrumBank.mark, DrumBank.modSlot]
    · simp [h, Ne.symm h, DrumBank.mark]

theorem mark_mark (st : SlotStatus) (a b c d : Bool) (x : DrumBank) :
    (x.mark st a b).mark st c d = x.mark st (a || c) (b || d) := by
  cases a <;> cases b <;> cases c <;> cases d <;> rfl

theorem foldl_writeStatus_bank (st : SlotStatus) (c : Bank) (l : List Request)
    (h : ∀ r ∈ l, r.origin = .d ∧ isShunt r.slot = true) (s : State) :
    (l.foldl (fun t r => writeStatus r st t) s).drum.bank c =
      (s.drum.bank c).mark st (l.any (fun r => decide (r.slot = .shuntA) && decide (r.bank = some c)))
        (l.any (fun r => decide (r.slot = .shuntB) && decide (r.bank = some c))) := by
  induction l generalizing s with
  | nil => simp [DrumBank.mark]
  | cons r l ih =>
    have hr := h r (by simp)
    rw [List.foldl_cons, ih (fun q hq => h q (by simp [hq])), writeStatus_drumBank r hr.1 hr.2, mark_mark]
    simp only [List.any_cons]

theorem foldl_settleAfter_bank (c : Bank) (l : List Request)
    (h : ∀ r ∈ l, r.origin = .d ∧ isShunt r.slot = true) (s : State) :
    (l.foldl (fun t r => settleAfter r t) s).drum.bank c =
      if l.any (fun r => decide (r.bank = some c)) then (s.drum.bank c).settle else s.drum.bank c := by
  induction l generalizing s with
  | nil => simp
  | cons r l ih =>
    have hr := h r (by simp)
    rw [List.foldl_cons, ih (fun q hq => h q (by simp [hq])), settleAfter_bank r hr.1 hr.2]
    simp only [List.any_cons]
    by_cases h1 : r.bank = some c <;> by_cases h2 : l.any (fun r => decide (r.bank = some c)) = true <;>
      simp [h1, h2, settle_settle]

theorem retireCheck_drum (ch : Channel) (s : State) : (retireCheck ch s).drum = s.drum := by
  unfold retireCheck
  split
  · split
    · rfl
    · simp [retire]
  · rfl

/-- What the drop of the drum's listed shunt requests leaves in its banks (R58, R103). -/
theorem dropShunts_bank (st : SlotStatus) (b : Bank) (s : State) :
    (dropEntries .d st (fun r => isShunt r.slot) s).drum.bank b =
      (s.drum.bank b).dropShunts st (drumListed .shuntA b s) (drumListed .shuntB b s) := by
  unfold dropEntries
  simp only [retireCheck_drum]
  have hl : ∀ r ∈ ((s.arb.list.filter (fun e => decide (e.req.origin = channelOrigin .d) && isShunt e.req.slot)).map Entry.req),
      r.origin = .d ∧ isShunt r.slot = true := by
    intro r hr
    simp [channelOrigin] at hr
    obtain ⟨e, ⟨_, h1, h2⟩, rfl⟩ := hr
    exact ⟨of_decide_eq_true h1, h2⟩
  rw [foldl_settleAfter_bank b _ hl, foldl_writeStatus_bank st b _ hl]
  have hany : ∀ sl : Slot, isShunt sl = true →
      (((s.arb.list.filter (fun e => decide (e.req.origin = channelOrigin .d) && isShunt e.req.slot)).map Entry.req).any
        (fun r => decide (r.slot = sl) && decide (r.bank = some b))) = drumListed sl b s := by
    intro sl hsl
    rw [Bool.eq_iff_iff]
    simp only [List.any_eq_true, List.mem_map, List.mem_filter, drumListed, channelOrigin, Bool.and_eq_true,
      decide_eq_true_eq]
    constructor
    · rintro ⟨r, ⟨e, ⟨he, h1, h2⟩, rfl⟩, h3, h4⟩
      exact ⟨e, he, ⟨of_decide_eq_true h1, h3⟩, h4⟩
    · rintro ⟨e, he, ⟨h1, h3⟩, h4⟩
      exact ⟨e.req, ⟨e, ⟨he, decide_eq_true h1, h3 ▸ hsl⟩, rfl⟩, h3, h4⟩
  have hboth : (((s.arb.list.filter (fun e => decide (e.req.origin = channelOrigin .d)
      && isShunt e.req.slot)).map Entry.req).any
        (fun r => decide (r.bank = some b))) = (drumListed .shuntA b s || drumListed .shuntB b s) := by
    rw [← hany .shuntA rfl, ← hany .shuntB rfl, Bool.eq_iff_iff]
    simp only [List.any_eq_true, Bool.or_eq_true, Bool.and_eq_true, decide_eq_true_eq]
    constructor
    · rintro ⟨r, hr, hb⟩
      have := (hl r hr).2
      simp [isShunt] at this
      rcases this with h | h
      · exact .inl ⟨r, hr, h, hb⟩
      · exact .inr ⟨r, hr, h, hb⟩
    · rintro (⟨r, hr, _, hb⟩ | ⟨r, hr, _, hb⟩) <;> exact ⟨r, hr, hb⟩
  rw [hany .shuntA rfl, hany .shuntB rfl, hboth]
  unfold DrumBank.settle DrumBank.mark DrumBank.dropShunts
  cases drumListed .shuntA b s <;> cases drumListed .shuntB b s <;> simp <;> split <;> simp_all

end Sys2Proof.Machine
end

