-- ==== Sys2Proof/Laws/Step.lean ====
section
/-! SUPPORT. The step: what an idle step does by the phase, and the induction over steps, packaged once: a property kept by
the idle step, by every command, and by what happens to the queue is kept by every step. -/

namespace Sys2Proof.Machine

/-! ### The idle step (R171, notes/assumptions/1.md) -/

theorem idle_held {s : State} (h : s.phase = .held) : idle s = s := by simp [idle, h]

theorem idle_locking {s : State} (h : s.phase = .locking) : idle s = s := by simp [idle, h]

theorem idle_sweeping {s : State} {n : Nat} (h : s.phase = .sweeping n) (hn : n < Config.sweepTicks) :
    idle s = sweepTick n s := by
  simp [idle, h, sweepDone, Nat.not_le.mpr hn]

theorem idle_sweep_done {s : State} {n : Nat} (h : s.phase = .sweeping n) (hn : Config.sweepTicks ≤ n) :
    idle s = queueEvents [.sweepEnd] s := by
  simp [idle, h, sweepDone, hn]

theorem idle_running_tick {s : State} (h : s.phase = .running) (hd : dueEvents s = []) : idle s = tickRunning s := by
  simp [idle, h, hd]

theorem idle_running_due {s : State} (h : s.phase = .running) (hd : dueEvents s ≠ []) :
    idle s = queueEvents (dueEvents s) s := by
  cases hc : dueEvents s with
  | nil => exact absurd hc hd
  | cons e es => simp [idle, h, hc]

/-! A tick of the power control leaves the list, the converters and the power state. -/

@[simp] theorem Arbiter.tick_list (n : Tick) (a : Arbiter) : (a.tick n).list = a.list := rfl
@[simp] theorem Arbiter.tick_cva (n : Tick) (a : Arbiter) : (a.tick n).cva = a.cva := rfl
@[simp] theorem Arbiter.tick_cvb (n : Tick) (a : Arbiter) : (a.tick n).cvb = a.cvb := rfl
@[simp] theorem Arbiter.tick_power (n : Tick) (a : Arbiter) : (a.tick n).power = a.power := rfl
@[simp] theorem Arbiter.tick_wakeEnd (n : Tick) (a : Arbiter) : (a.tick n).wakeEnd = a.wakeEnd := rfl
@[simp] theorem Arbiter.tick_idleStart (n : Tick) (a : Arbiter) : (a.tick n).idleStart = a.idleStart := rfl

/-- Everything an idle step can be. -/
theorem idle_cases (s : State) :
    idle s = s ∨ (∃ n, s.phase = .sweeping n ∧ n < Config.sweepTicks ∧ idle s = sweepTick n s) ∨
      (∃ n, s.phase = .sweeping n ∧ Config.sweepTicks ≤ n ∧ idle s = queueEvents [.sweepEnd] s) ∨
      (s.phase = .running ∧ dueEvents s = [] ∧ idle s = tickRunning s) ∨
      (s.phase = .running ∧ dueEvents s ≠ [] ∧ idle s = queueEvents (dueEvents s) s) := by
  cases hp : s.phase with
  | held => exact .inl (idle_held hp)
  | locking => exact .inl (idle_locking hp)
  | sweeping n =>
    rcases Nat.lt_or_ge n Config.sweepTicks with h | h
    · exact .inr (.inl ⟨n, rfl, h, idle_sweeping hp h⟩)
    · exact .inr (.inr (.inl ⟨n, rfl, h, idle_sweep_done hp h⟩))
  | running =>
    by_cases hd : dueEvents s = []
    · exact .inr (.inr (.inr (.inl ⟨rfl, hd, idle_running_tick hp hd⟩)))
    · exact .inr (.inr (.inr (.inr ⟨rfl, hd, idle_running_due hp hd⟩)))

/-! ### Induction over steps -/

/-- A property that the idle step keeps and that every command keeps, whatever the queue, is kept by every step. -/
theorem step_keeps {P : State → Prop} (queue : ∀ s cs, P s → P { s with pending := cs })
    (idles : ∀ s, P s → P (idle s)) (runs : ∀ c s t, P s → exec c s = .next t → P t) {s t : State} (h : P s)
    (hs : step s = .next t) : P t := by
  unfold step at hs
  split at hs
  · cases hs
    exact idles s h
  · exact runs _ _ t (queue s _ h) hs

end Sys2Proof.Machine
end

