-- ==== Sys2Proof/Tests/Slice0.lean ====
section
/-! SUPPORT. Tests: an ill-formed command for each check of WellFormed; worked cases of spec/, each as its chapter gives the
numbers; and for every statement that has hypotheses a witness that meets them. -/

namespace Sys2Proof.Machine

-- one proof after another: run side by side, their kernel evaluations take too many threads at once
set_option Elab.async false

/-! ### Helpers -/

/-- The state after a command, or the same state if it does not complete. -/
def after (i : Instr) (s : State) : State :=
  match exec i s with
  | .next t => t
  | _ => s

/-- The state with the port in a frame at an address. -/
def inFrame (kind : FrameKind) (addr : Word) (s : State) : State :=
  { s with port := { csLow := true, frame := some { kind := kind, addr := addr, fourLanes := false }, readOut := 0 } }

/-! ### WellFormed refuses an ill-formed command of every check -/

theorem test_ill_switch : (Instr.switchBadRequest .d 2).wellFormed = false := by decide +kernel

theorem test_ill_command : (Instr.commandBadCode .p1 5 9).wellFormed = false := by decide +kernel

theorem test_ill_global : (Instr.gcmdBadCode 1 9).wellFormed = false := by decide +kernel

theorem test_ill_soft_reset : (Instr.softReset 2).wellFormed = false := by decide +kernel

theorem test_ill_ignored_write :
    (Instr.regWriteIgnored 3 0).wellFormed = false ∧ (Instr.regWriteIgnored 4 0).wellFormed = false ∧
      (Instr.regWriteIgnored 5 1).wellFormed = false := by decide +kernel

theorem test_ill_expiry :
    (Instr.expiry .calA .cal).wellFormed = false ∧ (Instr.expiry .d .slot0).wellFormed = false := by decide +kernel

/-! ### Shunt windows: the worked cases of 3.10, T = 1250, Settle 60, Lead 24 -/

/-- A drum plan with these duties and its SHUNT flag set. -/
def dutyPlan (u v w : Word) : DrumPlan :=
  { blankDrumPlan with period := 1250, duty := { u := u, v := v, w := w }, shunt := true }

/-- The layout of a worked case. -/
def caseOf (u v w : Word) : WindowRecord := layoutWindows 1250 60 24 (dutyPlan u v w)

/-- Case 1 (3.10): one shift, both windows open. -/
theorem test_windows_case1 :
    let r := caseOf 760 745 210
    (r.hi, r.mid, r.lo) = (.u, .v, .w) ∧ (r.t1, r.t2, r.t3) = (490, 574, 1040) ∧ r.shift = ⟨0, 69, 0⟩ ∧
      r.up = ⟨490, 574, 1040⟩ ∧ r.down = ⟨490, 436, 1040⟩ ∧ (r.winA, r.winB) = (.open, .open) := by decide +kernel

/-- Case 2 (3.10): both shifts reduced to 0. -/
theorem test_windows_case2 :
    let r := caseOf 1240 1238 1235
    (r.t1, r.t2, r.t3) = (10, 12, 15) ∧ r.shift = ⟨0, 0, 0⟩ ∧ (r.winA, r.winB) = (.narrow, .narrow) ∧
      r.shiftClamped = true := by decide +kernel

/-- Case 3 (3.10): the shift of the mid phase leaves window B narrow. -/
theorem test_windows_case3 :
    let r := caseOf 1100 1095 1090
    (r.t1, r.t2, r.t3) = (150, 234, 288) ∧ r.up = ⟨150, 234, 288⟩ ∧ r.down = ⟨150, 76, 32⟩ ∧
      (r.winA, r.winB) = (.open, .narrow) := by decide +kernel

/-- Case 4 (3.10): a phase at zero duty closes window B with the top of the count. -/
theorem test_windows_case4 :
    let r := caseOf 0 700 400
    (r.hi, r.mid, r.lo) = (.v, .w, .u) ∧ (r.t1, r.t2, r.t3) = (550, 850, 1250) ∧
      (r.winA, r.winB) = (.open, .open) := by decide +kernel

/-- Case 5 (3.10), the first and the last row: equal duties, and a clamped duty. -/
theorem test_windows_case5 :
    (let r := caseOf 625 625 625
     (r.t1, r.t2, r.t3) = (625, 709, 793) ∧ r.shift = ⟨0, 84, 168⟩) ∧
    (let r := caseOf 1400 500 300
     (r.t1, r.t2, r.t3) = (0, 750, 950) ∧ r.clamped = ⟨true, false, false⟩) := by decide +kernel

/-- The results of case 1 (3.10): VALUE 2597 and 2402 give I_U 549, I_V -195, I_W -354 and no SAT. -/
theorem test_currents_case1 :
    let slot := fun v => { blankSlot with status := .valid, value := v }
    let r := reconstruct (caseOf 760 745 210) (slot 2597) (slot 2402)
    r.current = ⟨some 549, some (-195), some (-354)⟩ ∧ r.sat = false := by decide +kernel

/-! ### Offset arithmetic (6.4) -/

/-- The four sums of the table of 6.4 that show the rounding and both clamps. -/
theorem test_offsets :
    (offsetOfSum 32824, offsetOfSum 32700, offsetOfSum 35000, offsetOfSum 30000) = (4, -4, 140, -173) := by decide +kernel

/-! ### Witnesses: states that meet the hypotheses of the statements -/

/-- The state after reset, under the name the witnesses use. -/
def base : State := State.reset

/-- The tick at which the first drum period, of half-period 1250, is over (R23). -/
def drumEnd : State := { base with now := 2500 }

/-- The tick at which the first period of both pumps, of half-period 1000, is over (R63). -/
def pumpEnd : State := { base with now := 2000 }

/-- The drum with a waiting command at its boundary, in a state, its gate supply qualified and asserted or not. -/
def drumWaits (code : ChannelCode) (st : DrumState) (out : DrumOut) (gateOk : Bool) : State :=
  { drumEnd with
    drum := { base.drum with state := st, out := out, waiting := some { code := code, tag := 9 } },
    trm := { base.trm with gateD := { raw := gateOk, level := gateOk, count := 0 },
                           qualD := { timer := 4000, qualified := gateOk } } }

/-- Pump 1 with a waiting command at its boundary, likewise. -/
def pumpWaits (code : ChannelCode) (st : PumpState) (gateOk : Bool) : State :=
  { pumpEnd with
    pump1 := { base.pump1 with state := st, waiting := some { code := code, tag := 9 } },
    trm := { base.trm with gateP := { raw := gateOk, level := gateOk, count := 0 },
                           qualP := { timer := 4000, qualified := gateOk } } }

/-- An APPLY_CONFIG in flight that has read some words. -/
def applying (ws : List Word) (s : State) : State :=
  { s with gcu := { s.gcu with apply := some { tag := 3, start := 0, words := ws } } }

/-- Bank 0 of every channel in a role. -/
def bank0In (r : Role) (s : State) : State :=
  { s with exchD := { s.exchD with role0 := r }, exchP1 := { s.exchP1 with role0 := r },
           exchP2 := { s.exchP2 with role0 := r } }

/-- A plan in drum bank 0: SEQ 7, PERIOD, and the rest 0. -/
def planMemory (period : Word) : Memory := [(0x120, wordOf 7), (0x121, wordOf period)]

/-- A memory with one word of bad parity. -/
def badMemory (a : Nat) : Memory := [(a, { data := 1, parity := true })]

/-- A request of a slot, without a bank. -/
def request (o : Origin) (sl : Slot) (bank : Option Bank) : Request :=
  { origin := o, slot := sl, bank := bank, tag := 0, input := .ext 0, inst := 100, lateMax := some 8, cls := .pump,
    pin := none }

/-- The state at a tick with one entry in the pending list. -/
def listed (now : Tick) (r : Request) : State :=
  { base with now := now, arb := { base.arb with list := [{ req := r, eligible := false }] } }

/-- The state with a conversion in flight on CVA whose 40 ticks are over. -/
def converted (r : Request) : State :=
  { base with now := 140, arb := { base.arb with cva := some { req := r, start := 100, lateness := 0 } } }

/-- A calibration request of CVA. -/
def refRequest : Request :=
  { origin := .calA, slot := .cal, bank := none, tag := 0, input := .ref, inst := 100, lateMax := none,
    cls := .routineCal, pin := some .a }

/-- A trip input whose filter is due to take its raw level. -/
def pinDue (level : Bool) : PinFilter := { raw := level, level := !level, count := 4 }

/-- Pump 1 in RUN or RAMP at a peak after its blanking, with a run of post-crossing samples. -/
def atPeak (st : PumpState) (run : Nat) : State :=
  { base with
    now := 1000,
    pump1 := { base.pump1 with state := st, comm := { clearComm with zc := { clearZc with run := run } } } }

/-- A list of pump 1 and pump 2 requests and of drum requests, so many of them, the lowest-ranked one of pump 2. -/
def listOf (n : Nat) : List Entry :=
  (([request .d .shuntA (some .b0), request .d .shuntB (some .b0), request .d .u1 (some .b0),
      request .d .u2 (some .b0)].map (fun (r : Request) => { r with cls := .drum }) ++
    [request .p1 .slot0 (some .b0), request .p1 .slot1 (some .b0), request .p2 .slot0 (some .b0),
      request .p2 .slot1 (some .b0)]).drop (8 - n)).map (fun r => { req := r, eligible := false })

/-! The step and the queue. -/

theorem test_witness_StepRunsFrontCommand :
    ({ base with pending := [.frameClose, .memReadWord] } : State).pending = .frameClose :: [.memReadWord] := by decide +kernel

/-- Each phase of the power-on sequence, a tick of the sweep that ends a word and one that does not, a tick with events due
and one with none. -/
theorem test_witness_EmptyQueueLetsTimePass :
    ({ base with phase := .held } : State).pending = [] ∧ ({ base with phase := .locking } : State).pending = [] ∧
      ({ base with phase := .sweeping 8191 } : State).pending = [] ∧ 8191 < Config.sweepTicks ∧
      ((8191 + 1) % 4 = 0 ∧ (8190 + 1) % 4 ≠ 0 ∧ base.mem.wf) ∧
      base.phase = .running ∧ dueEvents base ≠ [] ∧
      dueEvents { base with calA := { resetCal with cls := .routine, phase := .setAside },
                            calB := { resetCal with cls := .routine, phase := .setAside } } = [] := by decide +kernel

/-! The port. -/

theorem test_witness_FramesOpenAndClose :
    (base.port.csLow = false ∧ base.phase ≠ .held) ∧
      (let s := { base with phase := .held }
       s.port.csLow = false ∧ s.phase = .held) ∧
      (inFrame .memRead 0 base).port.csLow = true ∧
      (let s := { base with phase := .sweeping 0 }
       ready s = false ∧ hostWriteOf (.start .d 1) ≠ none ∧ registerWriteOf (.intEnWrite 1) ≠ none) ∧
      (let s := inFrame .memRead 0 { base with phase := .sweeping 0 }
       ready s = false ∧ s.port.frame.map Frame.kind = some .memRead) := by decide +kernel

/-- Each range of landing words at both its ends. -/
theorem test_witness_HostWordLands :
    ∀ a ∈ [0x280, 0x7FF, 0x120, 0x27F, 0x40, 0xBF],
      let s := inFrame .memWrite (BitVec.ofNat 16 a) base
      ready s = true ∧ s.mem.wf ∧ s.port.frame.map (fun f => (f.kind, f.addr.toNat)) = some (.memWrite, a) ∧
        s.gcu.apply = none ∧ (s.exch .d).role .b0 = .host ∧ (s.exch .p2).role .b1 = .host ∧
        bankOf 0x120 = some (.d, .b0) ∧ bankOf 0x27F = some (.p2, .b1) := by decide +kernel

/-- Each fault case at the ends of its ranges. -/
theorem test_witness_HostWordFaults :
    ∀ a ∈ [0x800, 0xFFFF, 0x001, 0x03F, 0x0C1, 0x11F, 0x120, 0x12F, 0x040, 0x0BF],
      let s := applying [] (bank0In .pending (inFrame .memWrite (BitVec.ofNat 16 a) base))
      ready s = true ∧ s.mem.wf ∧ s.port.frame.map (fun f => (f.kind, f.addr.toNat)) = some (.memWrite, a) ∧
        (∀ i < 2, dataAt s (accessAddr + i) = s.access.words.getD i 0) ∧ (s.exch .d).role .b0 = .pending ∧
        s.gcu.apply ≠ none ∧ bankOf 0x120 = some (.d, .b0) ∧ bankOf 0x12F = some (.d, .b0) := by decide +kernel

/-- A named write in its frame, in a frame of another kind, in one at another address, in one that RESETn has abandoned, and
with the select pin high. -/
theorem test_witness_NamedWritesAreHostWords :
    hostWriteOf (.start .d 7) = some (0x0C5, 0x107) ∧ registerWriteOf (.intEnWrite 1) = some (3, 1) ∧
      (inFrame .memWrite 0x0C5 base).port.frame.map (fun f => (f.kind, f.addr.toNat)) = some (.memWrite, 0x0C5) ∧
      (inFrame .memRead 0x0C5 base).port.frame.map (fun f => (f.kind, f.addr.toNat)) = some (.memRead, 0x0C5) ∧
      (inFrame .memWrite 0x0C4 base).port.frame.map (fun f => (f.kind, f.addr.toNat)) = some (.memWrite, 0x0C4) ∧
      (inFrame .regWrite 4 base).port.frame.map (fun f => (f.kind, f.addr)) = some (.regWrite, 4) ∧
      (let s := after .resetnAssert (inFrame .memWrite 0x0C5 base)
       s.port.csLow = true ∧ s.port.frame = none) ∧
      (base.port.csLow = false ∧ base.port.frame = none) := by decide +kernel

/-- Reads at both sides of the end of the memory. -/
theorem test_witness_HostReadsAndHpar :
    (∀ a ∈ [0x7FF, 0x800],
      let s := inFrame .memRead (BitVec.ofNat 16 a) base
      ready s = true ∧ s.port.frame.map (fun f => (f.kind, f.addr.toNat)) = some (.memRead, a)) ∧
      portTakes .memWrite 0x000 base = true ∧ portTakes .regWrite 5 base = true ∧
      base.gcu.apply = none ∧ (1 : Word).getLsbD 0 = true := by decide +kernel

theorem test_witness_RegisterWrites :
    ready base = true ∧ portTakes .regWrite 3 base = true ∧ portTakes .regWrite 4 base = true ∧
      isIgnoredRegWrite 5 0 = true ∧ isIgnoredRegWrite 0xFFFF 1 = true ∧
      (inFrame .regRead 1 base).port.frame.map Frame.kind = some .regRead ∧
      (let s := inFrame .regWrite 3 base
       registerWriteOf (.intEnWrite 1) = some (3, 1) ∧ (Instr.intEnWrite 1).wellFormed = true ∧
         s.port.frame = some { kind := .regWrite, addr := 3, fourLanes := false }) := by decide +kernel

/-- The table of R169 with HPAR set and APPLYING clear, and what is left of it while the part is locking (R171). -/
theorem test_register_reads :
    let s := { base with intPend := 0x841, intEn := 0xFFF, hpar := true }
    let reads := fun (s : State) => [0, 1, 2, 3, 4, 5, 0xFFFF].map (regRead s)
    reads s = [0x4A40, 3, 0x841, 0xFFF, 0, 0, 0] ∧
      reads { s with phase := .locking, hpar := false } = [0x4A40, 0, 0, 0, 0, 0, 0] ∧
      regRead (applying [] base) 1 = 5 := by decide +kernel

/-- A REG_READ frame at every address, with the part running and locking. -/
theorem test_witness_RegisterWrites_reads (a : Word) :
    let s := inFrame .regRead a base
    let u := { s with phase := RunPhase.locking }
    s.phase = .running ∧ u.phase ≠ .running ∧
      s.port.frame = some { kind := .regRead, addr := a, fourLanes := false } ∧ u.port.frame = s.port.frame :=
  ⟨rfl, nofun, rfl, rfl⟩

theorem test_witness_FlagsStayPending :
    (Instr.frameClose).wellFormed = true ∧ mayClear .frameClose = false ∧
      exec .frameClose { base with intPend := 5 } = .next (closeFrame { base with intPend := 5 }) := ⟨rfl, rfl, rfl⟩

/-- A cause raised by its occurrence: ACCESS by a faulted host write (R166). -/
theorem test_witness_FlagsStayPending_raised :
    let c := Instr.memWriteWord 7
    let s := inFrame .memWrite 0x800 base
    exec c s = .next (after c s) ∧ s.intPend &&& Cause.access.mask = 0 ∧
      (after c s).intPend &&& Cause.access.mask ≠ 0 ∧ hostWordOf c s = some (0x800, 7) ∧ writeFault 0x800 s ≠ none := by
  refine ⟨rfl, ?_⟩
  decide +kernel

/-! Switch events, commands, resets. -/

theorem test_witness_SwitchTakeTable :
    ∀ r ∈ [Role.host, .pending, .live, .retiring],
      let s := bank0In r base
      ready s = true ∧ portTakes .memWrite (controlWord .d offSwitch) s = true ∧ s.mem.wf ∧
        (s.exch .d).role .b0 = r := by decide +kernel

theorem test_witness_SwitchCancelWithdraws :
    (let s := bank0In .pending base
     ready s = true ∧ portTakes .memWrite (controlWord .p1 offSwitch) s = true ∧ s.mem.wf ∧ (s.exch .p1).Lawful ∧
       (s.exch .p1).role .b0 = .pending) ∧
    (let s := bank0In .live base
     ready s = true ∧ portTakes .memWrite (controlWord .p1 offSwitch) s = true ∧ s.mem.wf ∧ (s.exch .p1).Lawful ∧ (s.exch .p1).role .b0 ≠ .pending ∧
       (s.exch .p1).role .b1 ≠ .pending) := by
  unfold Exchange.Lawful
  decide +kernel

/-- The codes next to the table's on both sides, and each refusal of GCMD. -/
theorem test_witness_RefusalsWriteOutcomes :
    ready base = true ∧ portTakes .memWrite (controlWord .p2 offSwitch) base = true ∧
      portTakes .memWrite (controlWord .d offCommand) base = true ∧ portTakes .memWrite 0x000 base = true ∧
      portTakes .memWrite 0x000 (applying [] base) = true ∧ base.mem.wf ∧ ((0 : Word) ≠ 1 ∧ (4 : Word) ≠ 3) ∧
      (isChannelCode 0 = false ∧ isChannelCode 6 = false) ∧ (isGlobalCode 0 = false ∧ isGlobalCode 5 = false) ∧
      hostWriteOf (.gcmdBadCode 5 1) = some (gcmdAddr, commandWord 5 1) ∧
      hostWriteOf (.clearFaults 1) = some (gcmdAddr, commandWord 3 1) ∧ (applying [] base).gcu.apply ≠ none := by
  decide +kernel

theorem test_witness_CommandsWaitForBoundary :
    (ready base = true ∧ portTakes .memWrite (controlWord .d offCommand) base = true ∧ base.mem.wf ∧
      waitingOf .d base = none) ∧
      (let s := drumWaits .brake .stopped .off true
       ready s = true ∧ portTakes .memWrite (controlWord .d offCommand) s = true ∧ s.mem.wf ∧ waitingOf .d s ≠ none) := by decide +kernel

theorem test_witness_StopActsAtOnce :
    ∀ st ∈ [DrumState.stopped, .running, .tripped],
      let s := { drumWaits .start st .off true with arb := (listed 0 (request .d .shuntA (some .b0))).arb }
      ready s = true ∧ portTakes .memWrite (controlWord .d offCommand) s = true ∧ s.mem.wf ∧ s.drum.state = st ∧
        currentSlot .d (request .d .shuntA (some .b0)) = true ∧
        slotStatusOf (request .d .shuntA (some .b0)) (after (.stop .d 1) s) =
          some (if st = .running then .droppedStop else .notRequested) := by decide +kernel

/-- Bank 0 of a drum with the window of case 1, SHUNT_A VALID and SHUNT_B listed. -/
def halfSettled (s : State) : State :=
  { bank0In .live s with
    drum := { s.drum with bank0 := { freshDrumBank blankDrumPlan with
      window := caseOf 760 745 210, shuntA := { blankSlot with status := .valid },
      shuntB := { blankSlot with status := .queued } } },
    arb := (listed 0 (request .d .shuntB (some .b0))).arb }

/-- The drop of SHUNT_B by STOP and by each trip settles the pair, with SHUNT_B not VALID, and the currents are reconstructed in
the event (R58, R61); with SHUNT_A open still they are not. -/
theorem test_drop_settles_pair :
    (∀ c ∈ [(Instr.stop .d 1, SlotStatus.droppedStop), (.inputAssertion .ocD, .droppedTrip),
        (.inputAssertion .busOv, .droppedTrip)],
      let s := halfSettled (drumWaits .start .running .pwm true)
      let s := { s with trm := (s.trm.setFilter .ocD (pinDue true)).setFilter .busOv (pinDue true) }
      let u := { s with drum := { s.drum with bank0 := { s.drum.bank0 with shuntA := { blankSlot with status := .queued } } } }
      let t := after c.1 s
      drumListed .shuntB .b0 s = true ∧ drumListed .shuntA .b0 s = false ∧ t.arb.list = [] ∧
        t.drum.bank0.shuntB.status = c.2 ∧
        t.drum.bank0.window = reconstruct s.drum.bank0.window s.drum.bank0.shuntA t.drum.bank0.shuntB ∧
        (after c.1 u).drum.bank0.window = u.drum.bank0.window) := by decide +kernel

theorem test_witness_ApplyConfigTaken :
    (ready base = true ∧ portTakes .memWrite 0x000 base = true ∧ base.mem.wf ∧ base.gcu.apply = none ∧
      configLegal base = true) ∧
      (let s := drumWaits .start .braking .short true
       ready s = true ∧ portTakes .memWrite 0x000 s = true ∧ s.mem.wf ∧ s.gcu.apply = none ∧ configLegal s = false) := by decide +kernel

/-- A full read of the default configuration, one word short, as R150 and R152 give its words. -/
def defaultWords : List Word :=
  [40, 60, 24, 3, 0, 1, 0, 0, 4000, 40, 1000, 1000, 40, 40, 0, 0] ++
    [100, 200, 1, 1, 6, 2, 400, 8, 120, 6, 100, 0, 100, 0, 7, 0] ++ [3392, 3, 150, 12, 3392, 3, 150]

/-- Bad parity, a field out of its range, a word that passes, and the last word of the full read. -/
theorem test_witness_ConfigWordRead :
    (let s := applying [] { base with now := 4, mem := badMemory 0x040 }
     ready s = true ∧ s.mem.wf ∧ configReadDue s = true ∧ (s.mem.read 0x040).good = false) ∧
    (let s := applying [] { base with now := 4 }
     configReadDue s = true ∧ (s.mem.read 0x040).good = true ∧ invalidDetail [dataAt s 0x040] = 1) ∧
    (let s := applying [] { base with now := 4, mem := [(0x040, wordOf 40)] }
     configReadDue s = true ∧ invalidDetail [dataAt s 0x040] = 0 ∧ [dataAt s 0x040].length ≠ readLength [dataAt s 0x040]) ∧
    (let s := applying defaultWords { base with now := 160, mem := [(0x0A3, wordOf 12)] }
     configReadDue s = true ∧ s.mem.wf ∧ readAddr defaultWords 39 = 0x0A3 ∧
       invalidDetail (defaultWords ++ [dataAt s 0x0A3]) = 0 ∧ readLength (defaultWords ++ [dataAt s 0x0A3]) = 40) := by
  decide +kernel

theorem test_witness_ProfileClearedSweepsBegun :
    ready base = true ∧ portTakes .memWrite 0x000 base = true ∧ base.mem.wf ∧ base.gcu.apply = none := by decide +kernel

theorem test_witness_FaultRecordsEmptied :
    let s := recordFault 0x800 .outOfRange none base
    ready s = true ∧ portTakes .memWrite 0x000 s = true ∧ s.mem.wf ∧ s.gcu.apply = none ∧ s.access.count = 1 := by decide +kernel

theorem test_witness_SoftResetKeepsMemory :
    ready base = true ∧ portTakes .regWrite 5 base = true ∧ portTakes .regWrite 5 (inFrame .regWrite 5 base) = true ∧
      base.mem.wf ∧ (1 : Word).getLsbD 0 = true ∧ (0xFFFF : Word).getLsbD 0 = true := by decide +kernel

theorem test_witness_ResetPinRestarts :
    ({ base with phase := .held } : State).phase = .held ∧ ({ base with phase := .locking } : State).phase = .locking ∧
      ({ base with phase := .sweeping 8192 } : State).phase = .sweeping 8192 ∧ Config.sweepTicks ≤ 8192 ∧
      base.drum.h1.raw = false ∧ base.drum.h2.raw = false ∧ base.drum.h3.raw = false ∧
      (∀ pin ∈ [TripPin.ocD, .ocP1, .ocP2, .busOv, .gateOkD, .gateOkP], (base.trm.filter pin).raw = false) := by decide +kernel

theorem test_witness_ResetsLeavePairAwake :
    ready base = true ∧ portTakes .regWrite 5 base = true ∧ base.mem.wf ∧ (1 : Word).getLsbD 0 = true ∧
      ({ base with phase := .sweeping 8192 } : State).phase = .sweeping 8192 ∧ (cfg base).idleLimit = 0 := by decide +kernel

/-! The drum. -/

/-- The drum RUNNING with bank 0 LIVE and a number of misses, at its boundary. -/
def runningDrum (misses : Nat) : State :=
  { bank0In .live drumEnd with drum := { base.drum with state := .running, out := .pwm, missCount := misses } }

/-- The drum in a state at its boundary, bank 0 LIVE with a plan. -/
def planned (st : DrumState) (plan : DrumPlan) : State :=
  { runningDrum 0 with drum := { (runningDrum 0).drum with state := st, bank0 := freshDrumBank plan } }

/-- The boundary and the tick before it; OPEN, NARROW and UNUSED windows; a user slot at the last instant of the period, one
past it, and one that is OFF. -/
theorem test_witness_DrumBoundaryOpensPeriod :
    ready drumEnd = true ∧ drumBoundaryDue drumEnd = true ∧ drumBoundaryDue { drumEnd with now := 2499 } = false ∧
    (let s := planned .running { dutyPlan 760 745 210 with
       u1 := { input := some 4, atTick := 2499, lateMax := 5 }, u2 := { input := some 5, atTick := 2500, lateMax := 5 } }
     let t := after .drumBoundary s
     ready s = true ∧ drumBoundaryDue s = true ∧ s.arb.list = [] ∧ liveBank .d t = some .b0 ∧
       t.drum.state = .running ∧ (drumOffers s t).length = 3 ∧ t.drum.bank0.u2.status = .badInstant) ∧
    (let t := after .drumBoundary (planned .running (dutyPlan 1240 1238 1235))
     t.drum.bank0.window.winA = .narrow ∧ t.drum.bank0.window.winB = .narrow) ∧
    (let t := after .drumBoundary (planned .braking (dutyPlan 760 745 210))
     t.drum.state = .braking ∧ t.drum.bank0.window.winA = .unused ∧ t.drum.bank0.plan.u1.input = none) := by
  decide +kernel

/-- The pair asleep at a boundary that offers U1 at an INSTANT 400 ticks away, within reach, or 401, beyond it. -/
def sleepingDrum (u1At : Word) : State :=
  let s := planned .running { dutyPlan 1240 1238 1235 with u1 := { input := some 4, atTick := u1At, lateMax := 5 } }
  { s with arb := { s.arb with power := .sleep } }

/-- The premises of DrumBoundaryOpensPeriod's clauses on the wake, each at its boundary. -/
theorem test_witness_DrumBoundaryOpensPeriod_wake :
    (let s := sleepingDrum 400
     let t := after .drumBoundary s
     ready s = true ∧ drumBoundaryDue s = true ∧ s.arb.power = .sleep ∧ s.mem.wf ∧
       (drumOffers s t).map Request.inst = [s.now + 400] ∧
       t.arb.list.map (fun e => e.req.inst) = [s.now + 400] ∧
       reached (s.now + 400) (s.now + 400) = true ∧ t.arb.power = .waking) ∧
    (let s := sleepingDrum 401
     let t := after .drumBoundary s
     ready s = true ∧ drumBoundaryDue s = true ∧ (drumOffers s t).map Request.inst = [s.now + 401] ∧
       reached (s.now + 400) (s.now + 401) = false ∧ t.arb.power = .sleep) := by decide +kernel

/-- The drum RUNNING at its boundary with a plan of T 1250 and every phase in one position. -/
def runningFrom (pos : LegPos) (plan : DrumPlan) : State :=
  let s := planned .running plan
  { s with drum := { s.drum with legs := Tri.const { offLeg with
      pos := pos, low := decide (pos = .low), high := decide (pos = .high) } } }

/-- The edges of case 1 (3.10), UP 490, 574, 1040 and DOWN 490, 436, 1040, from NOW 2500 on, with no switching of phases that
are low; and the duties T and 0, which have no edge, the first with its up edge on the boundary (R26, R37). -/
theorem test_boundary_edges :
    (let s := runningFrom .low (dutyPlan 760 745 210)
     let t := after .drumBoundary s
     ready s = true ∧ drumBoundaryDue s = true ∧ liveBank .d t = some .b0 ∧ t.drum.state = .running ∧
       t.drum.upAt = ⟨some 2990, some 3074, some 3540⟩ ∧ t.drum.downAt = ⟨some 4510, some 4564, some 3960⟩ ∧
       t.drum.legs = s.drum.legs) ∧
    (let t := after .drumBoundary (runningFrom .low (dutyPlan 1250 625 0))
     liveBank .d t = some .b0 ∧ t.drum.state = .running ∧ t.drum.bank0.window.up.u = 0 ∧
       (t.drum.upAt.u, t.drum.downAt.u, t.drum.upAt.w, t.drum.downAt.w) = (none, none, none, none) ∧
       (t.drum.legs.u.pos, t.drum.legs.u.low, t.drum.legs.u.waiting) = (.high, false, some { side := .high, left := 40 }) ∧
       t.drum.legs.w = (runningFrom .low blankDrumPlan).drum.legs.w) := by decide +kernel

/-- The duties T and 0 from the high position: the phase of duty T keeps it, the other two go low and wait out DT_D; and a
boundary that leaves the drum STOPPED. -/
theorem test_witness_DrumBoundaryOpensPeriod_edges :
    (let s := runningFrom .high (dutyPlan 1250 625 0)
     let t := after .drumBoundary s
     ready s = true ∧ drumBoundaryDue s = true ∧ t.drum.state = .running ∧ t.drum.legs.u = s.drum.legs.u ∧
       (t.drum.legs.w.pos, t.drum.legs.w.high, t.drum.legs.w.waiting) =
         (.low, false, some { side := .low, left := (cfg s).dtD })) ∧
    (let t := after .drumBoundary (runningFrom .float (dutyPlan 1250 625 0))
     (t.drum.legs.u.pos, t.drum.legs.w.pos) = (.high, .low)) ∧
    (1 ≤ (cfg drumEnd).missLimit ∧ (after .drumBoundary drumEnd).drum.state = .stopped ∧
      drumEnd.drum.state ≠ .running) := by decide +kernel

/-- One miss below the limit of 3, and the miss that reaches it. -/
theorem test_witness_DrumMissesAndStarves :
    ∀ n ∈ [1, 2],
      let s := runningDrum n
      ready s = true ∧ drumBoundaryDue s = true ∧ s.drum.waiting = none ∧ pendingBank .d s = none ∧
        liveBank .d s = some .b0 ∧ s.drum.state = .running ∧ (cfg s).missLimit = 3 ∧ (cfg s).safeAction = .off ∧
        s.drum.missCount = n := by decide +kernel

/-- The miss that reaches the limit with SafeAction SHORT under a lost gate supply: TRIPPED from STARVED by GATE alone, with
STALL and HOLD beside TRIP (R35, R138 to R141). -/
theorem test_witness_DrumMissesAndStarves_gate :
    let s := runningDrum 2
    let s := { s with mem := [], gcu := { s.gcu with shadow := { s.gcu.shadow with safeAction := .short } } }
    let t := after .drumBoundary s
    ready s = true ∧ drumBoundaryDue s = true ∧ s.drum.waiting = none ∧ pendingBank .d s = none ∧
      liveBank .d s = some .b0 ∧ s.drum.missCount + 1 = (cfg s).missLimit ∧ (cfg s).safeAction = .short ∧
      gateAsserted .d s = true ∧ s.mem.wf ∧
      (t.drum.state, t.drum.tripPrior, t.drum.out) = (.tripped, .starved, .off) ∧
      t.drum.trip = { clearTripRecord with first := some .gate, gate := true, time := 2500 } ∧
      (∀ c ∈ [Cause.hold, .stall, .trip], isPending c t = true) := by decide +kernel

/-- The drum RUNNING with bank 0 LIVE, of PERIOD 1250, and bank 1 PENDING with a memory that holds its plan. -/
def replacing (m : Memory) : State :=
  { planned .running { blankDrumPlan with period := 1250 } with
    mem := m, exchD := { resetExchange with role0 := .live, role1 := .pending } }

/-- A PENDING bank that is rejected in RUNNING, for each reason, with no command waiting and with START, and the miss that
reaches the limit. -/
theorem test_witness_DrumMissesAndStarves_rejected :
    (∀ m ∈ [badMemory 0x170, [(0x171, wordOf 499)], [(0x171, wordOf 1407)]],
      let s := replacing m
      ready s = true ∧ drumBoundaryDue s = true ∧ s.drum.waiting = none ∧ pendingBank .d s = some .b1 ∧
        liveBank .d s = some .b0 ∧ s.drum.state = .running ∧ s.drum.missCount + 1 < (cfg s).missLimit ∧
        (badPlanWords .d .b1 s ≠ [] ∨ (drumPlanOf (planData .d .b1 s)).period.toNat = 499 ∨
          (drumPlanOf (planData .d .b1 s)).period.toNat = 1407 ∧ (s.drum.bank .b0).plan.period = 1250)) ∧
    (let s := replacing (badMemory 0x170)
     let s := { s with drum := { s.drum with missCount := 2, waiting := some { code := .start, tag := 9 } } }
     let t := after .drumBoundary s
     drumBoundaryDue s = true ∧ s.drum.missCount + 1 = (cfg s).missLimit ∧ badPlanWords .d .b1 s ≠ [] ∧
       t.drum.state = .starved ∧ t.drum.bank0.repeats = 1 ∧ t.exchD.role1 = .host) := by decide +kernel

/-- A staged drum plan of a period, or one with bad parity, at the boundary. -/
def stagedDrum (m : Memory) : State := { bank0In .pending drumEnd with mem := m }

/-- Accepted at both ends of the range, rejected next to them, and rejected for parity, with a command waiting and with
none. -/
theorem test_witness_DrumTakesOrRejects :
    (∀ m ∈ [planMemory 500, planMemory 4000, planMemory 499, planMemory 4001, badMemory 0x120, badMemory 0x12F],
      let s := stagedDrum m
      ready s = true ∧ s.mem.wf ∧ drumBoundaryDue s = true ∧ s.drum.waiting = none ∧ s.exchD.role .b0 = .pending ∧
        s.exchD.role .b1 = .host ∧ s.drum.state ≠ .running) ∧
    (∀ m ∈ [badMemory 0x120, badMemory 0x12F], badPlanWords .d .b0 (stagedDrum m) ≠ []) ∧
    (∀ w ∈ [ChannelCode.start, .brake, .release],
      let s := bank0In .pending (drumWaits w .braking .short true)
      s.drum.waiting = some { code := w, tag := 9 } ∧ s.drum.state ≠ .stopped ∧ s.drum.state ≠ .tripped) := by
  decide +kernel

/-- The plans of that witness are read with the PERIOD they name and good parity. -/
theorem test_staged_periods :
    ∀ p ∈ [500, 4000, 499, 4001],
      badPlanWords .d .b0 (stagedDrum (planMemory (BitVec.ofNat 16 p))) = [] ∧
        (drumPlanOf (planData .d .b0 (stagedDrum (planMemory (BitVec.ofNat 16 p))))).period.toNat = p := by
  decide +kernel

/-- Two failing plan words of the drum at a boundary: the first names the record, with SOURCE PLAN_D, and both count; a record
in use keeps its address and source (R9, R167). -/
theorem test_plan_parity_record :
    let m : Memory := [(0x122, { data := 1, parity := true }), (0x125, { data := 1, parity := true })]
    let s := stagedDrum m
    let t := after .drumBoundary s
    badPlanWords .d .b0 s = [0x122, 0x125] ∧ t.parity = { addr := 0x122, source := .planD, count := 2 } ∧
      Shows s parityAddr s.parity.words ∧
      (after .drumBoundary { s with parity := { addr := 0x1D0, source := .planP2, count := 0xFFFE } }).parity =
        { addr := 0x1D0, source := .planP2, count := 0xFFFF } := by
  unfold Shows
  decide +kernel

/-- A PENDING bank beside a LIVE one: accepted with nothing in flight and with a conversion of the LIVE bank in flight, and
rejected, in RUNNING and outside it. -/
theorem test_witness_DrumTakesOrRejects_replaced :
    (let s := replacing [(0x171, wordOf 1250)]
     let u := { s with arb := { s.arb with
       cva := some { req := request .d .u1 (some .b0), start := 2490, lateness := 0 } } }
     let t := after .drumBoundary s
     ready s = true ∧ s.mem.wf ∧ drumBoundaryDue s = true ∧ drumBoundaryDue u = true ∧ s.drum.waiting = none ∧
       s.exchD.role .b1 = .pending ∧ s.exchD.role .b0 = .live ∧ flying .d .b0 s = false ∧ flying .d .b0 u = true ∧
       badPlanWords .d .b1 s = [] ∧ (drumPlanOf (planData .d .b1 s)).period = 1250 ∧
       (s.drum.bank .b0).plan.period = 1250 ∧ t.exchD.role0 = .host ∧ dataAt t (bankBase .d .b0 + 16) = 2 ∧
       (after .drumBoundary u).exchD.role0 = .retiring) ∧
    (∀ st ∈ [DrumState.running, .braking],
      let s := replacing (badMemory 0x170)
      let s := { s with drum := { s.drum with state := st } }
      ready s = true ∧ s.mem.wf ∧ drumBoundaryDue s = true ∧ s.exchD.role .b1 = .pending ∧ s.exchD.role .b0 = .live ∧
        badPlanWords .d .b1 s ≠ [] ∧ s.drum.state = st) := by decide +kernel

theorem test_replacing_lawful (m : Memory) : (replacing m).exchD.Lawful ∧ noRetiring .d (replacing m) := by
  have h0 : (replacing m).exchD.role0 = .live := rfl
  have h1 : (replacing m).exchD.role1 = .pending := rfl
  refine ⟨by simp [Exchange.Lawful, h0, h1], fun b => ?_⟩
  cases b <;> simp [State.exch, Exchange.role, h0, h1]

/-- A hold outside RUNNING. -/
theorem test_witness_DrumTakesOrRejects_hold :
    let s := planned .braking blankDrumPlan
    ready s = true ∧ drumBoundaryDue s = true ∧ s.drum.waiting = none ∧ pendingBank .d s = none ∧
      liveBank .d s = some .b0 ∧ s.drum.state ≠ .running := by decide +kernel

/-- The step of PERIOD in RUNNING from a live 1250, the numbers of R10: 1094 and 1406 are accepted, 1093 and 1407 are
not. -/
theorem test_period_step :
    ∀ pr ∈ [(1094, Role.live), (1406, .live), (1093, .host), (1407, .host)],
      let s := { planned .running { blankDrumPlan with period := 1250 } with
        mem := [(0x171, wordOf pr.1)], exchD := { resetExchange with role0 := .live, role1 := .pending } }
      (after .drumBoundary s).exchD.role1 = pr.2 := by decide +kernel

theorem test_staged_drum_lawful (m : Memory) : (stagedDrum m).exchD.Lawful ∧ noRetiring .d (stagedDrum m) := by
  have h0 : (stagedDrum m).exchD.role0 = .pending := rfl
  have h1 : (stagedDrum m).exchD.role1 = .host := rfl
  refine ⟨by simp [Exchange.Lawful, h0, h1], fun b => ?_⟩
  cases b <;> simp [State.exch, Exchange.role, h0, h1]

/-- START in each state, with each reason to refuse it and none. -/
theorem test_witness_DrumStartDecided :
    (∀ st ∈ [DrumState.running, .tripped, .stopped, .starved],
      let s := drumWaits .start st .off true
      ready s = true ∧ s.mem.wf ∧ drumBoundaryDue s = true ∧ s.drum.waiting = some { code := .start, tag := 9 } ∧
        s.drum.state = st ∧ s.drum.missCount ≤ (cfg s).missLimit ∧ 1 ≤ (cfg s).missLimit ∧ s.drum.missCount = 0) ∧
    (applying [] (drumWaits .start .stopped .off true)).gcu.apply ≠ none ∧
    gateQualified .d (drumWaits .start .stopped .off false) = false ∧
    (let s := drumWaits .start .stopped .off true
     s.gcu.apply = none ∧ gateQualified .d s = true ∧ liveBank .d (drumPlanStep (drumDropStep s)).1 = none) ∧
    (let s := bank0In .live (drumWaits .start .stopped .off true)
     liveBank .d (drumPlanStep (drumDropStep s)).1 = some .b0) ∧
    (drumPlanStep (drumDropStep (drumWaits .start .starved .off true))).2 = false ∧
    (let s := { bank0In .pending (drumWaits .start .starved .off true) with mem := planMemory 500 }
     s.mem.wf ∧ (drumPlanStep (drumDropStep s)).2 = true) := by decide +kernel

theorem test_witness_DrumCommandsAtBoundary :
    (∀ code ∈ [ChannelCode.brake, .clearTrip, .release], ∀ st ∈ [DrumState.stopped, .braking, .tripped, .running],
      let s := drumWaits code st .off true
      ready s = true ∧ s.mem.wf ∧ drumBoundaryDue s = true ∧ s.drum.waiting = some { code := code, tag := 9 } ∧
        s.drum.state = st) ∧
    gateAsserted .d (drumWaits .brake .stopped .off true) = false ∧
    gateAsserted .d (drumWaits .brake .stopped .off false) = true ∧
    inputsActive .d (drumWaits .clearTrip .tripped .off true) = false ∧
    inputsActive .d (drumWaits .clearTrip .tripped .off false) = true ∧
    (drumWaits .clearTrip .tripped .off true).gcu.apply = none ∧
    (applying [] (drumWaits .clearTrip .tripped .off true)).gcu.apply ≠ none ∧
    (resetExchange.role0 = .host ∧ resetExchange.role1 = .host) := by decide +kernel

/-- BRAKE from RUNNING under a lost gate supply: TRIPPED from BRAKING by GATE alone, at NOW, with the LIVE bank's SEQ, and TRIP
(R138 to R141). -/
theorem test_witness_DrumCommandsAtBoundary_gate :
    let s := { bank0In .live (drumWaits .brake .running .pwm false) with
      exchD := { resetExchange with role0 := .live, liveSeq := 7 } }
    let t := after .drumBoundary s
    ready s = true ∧ s.mem.wf ∧ drumBoundaryDue s = true ∧ gateAsserted .d s = true ∧ s.drum.state ≠ .braking ∧
      s.drum.state ≠ .tripped ∧ (t.drum.state, t.drum.tripPrior, t.drum.out) = (.tripped, .braking, .off) ∧
      t.drum.trip = { clearTripRecord with first := some .gate, gate := true, time := 2500, liveSeq := 7 } ∧
      isPending .trip t = true := by decide +kernel

/-- Bank 0 of every channel LIVE and bank 1 PENDING. -/
def bothOut (s : State) : State :=
  let x := { resetExchange with role0 := .live, role1 := .pending }
  { s with exchD := x, exchP1 := x, exchP2 := x }

/-- RELEASE with a bank LIVE and the other PENDING, of the drum and of a pump, which becomes HOST with CANCELLED (R18). -/
theorem test_witness_ReleaseGivesUpBoth :
    (let s := bothOut (drumWaits .release .tripped .off true)
     let t := after .drumBoundary s
     ready s = true ∧ s.mem.wf ∧ drumBoundaryDue s = true ∧ s.drum.waiting = some { code := .release, tag := 9 } ∧
       s.drum.state = .tripped ∧ s.exchD.role .b0 = .live ∧ s.exchD.role .b1 = .pending ∧ flying .d .b0 s = false ∧
       dataAt t (bankBase .d .b1 + offStatus .d) = 3 ∧ t.exchD.role1 = .host) ∧
    (let s := bothOut (pumpWaits .release .stopped true)
     let t := after (.pumpBoundary .p1) s
     ready s = true ∧ s.mem.wf ∧ pumpBoundaryDue .p1 s = true ∧
       s.pump1.waiting = some { code := .release, tag := 9 } ∧ s.pump1.state.releases = true ∧
       s.exchP1.role .b0 = .live ∧ s.exchP1.role .b1 = .pending ∧ flying .p1 .b0 s = false ∧
       dataAt t (bankBase .p1 .b1 + offStatus .p1) = 3 ∧ t.exchP1.role1 = .host) := by decide +kernel

theorem test_both_out_lawful (ch : Channel) (s : State) :
    ((bothOut s).exch ch).Lawful ∧ noRetiring ch (bothOut s) := by
  cases ch <;>
  · refine ⟨by simp [Exchange.Lawful, bothOut, State.exch], fun b => ?_⟩
    cases b <;> simp [bothOut, State.exch, Exchange.role]

/-- The reset exchange is lawful, as the RELEASE clauses ask. -/
theorem test_reset_exchange_lawful : resetExchange.Lawful := by
  unfold Exchange.Lawful
  decide +kernel

/-- A drum leg U at a position, with edges at the present tick. -/
def edgeAt (pos : LegPos) (up down : Option Tick) : State :=
  { base with drum := { base.drum with legs := (Tri.const offLeg).set .u { offLeg with pos := pos },
                                       upAt := (Tri.const none).set .u up, downAt := (Tri.const none).set .u down } }

theorem test_witness_EdgesObserveDeadTime :
    (let s := edgeAt .low (some 0) none
     ready s = true ∧ reachedOpt s.now (s.drum.upAt.get .u) = true ∧ (s.drum.legs.get .u).pos ≠ .high) ∧
    (let s := edgeAt .high (some 0) none
     reachedOpt s.now (s.drum.upAt.get .u) = true ∧ (s.drum.legs.get .u).pos = .high) ∧
    (let s := edgeAt .high (some 1) (some 0)
     ready s = true ∧ reachedOpt s.now (s.drum.upAt.get .u) = false ∧
       reachedOpt s.now (s.drum.downAt.get .u) = true ∧ (s.drum.legs.get .u).pos ≠ .low) ∧
    (let s := edgeAt .low none (some 0)
     reachedOpt s.now (s.drum.upAt.get .u) = false ∧ (s.drum.legs.get .u).pos = .low) ∧
    (∀ side ∈ [Side.high, .low],
      let s := { base with
        pump2 := { base.pump2 with legs := (Tri.const offLeg).set .w
                                     { offLeg with waiting := some { side := side, left := 0 } } } }
      ready s = true ∧ ((channelLegs .p2 s).get .w).waiting = some { side := side, left := 0 }) := by decide +kernel

/-- The drum with H1 due to be accepted, and so many records in the LIVE bank. -/
def hallReady (n : Nat) (r : Role) : State :=
  { bank0In r base with
    drum := { base.drum with h1 := { raw := true, level := false, count := 40 },
                             bank0 := { base.drum.bank0 with
                               hall := List.replicate n { time := 0, state := 5, valid := true } } } }

theorem test_witness_HallEdgesRecorded :
    (∀ n ∈ [3, 4],
      let s := hallReady n .live
      ready s = true ∧ hallEdgeDue s = true ∧ liveBank .d s = some .b0 ∧ (s.drum.bank .b0).hall.length = n) ∧
    (let s := hallReady 0 .host
     ready s = true ∧ hallEdgeDue s = true ∧ liveBank .d s = none) := by decide +kernel

theorem test_witness_PulsesAndWindows :
    (500 ≤ 1250 ∧ 1250 ≤ 4000) ∧ (caseOf 760 745 210).winA = .open ∧ (caseOf 760 745 210).winB = .open ∧
      0 < (caseOf 760 745 210).shift.get .v ∧ (caseOf 1240 1238 1235).winA = .narrow ∧
      (blankDrumPlan).shunt = false := by decide +kernel

theorem test_witness_CurrentsReconstructed :
    let r := caseOf 760 745 210
    r.hi ≠ r.mid ∧ r.mid ≠ r.lo ∧ r.hi ≠ r.lo ∧ ({ blankSlot with status := .valid } : SlotRecord).status = .valid ∧
      blankSlot.status ≠ .valid := by decide +kernel

/-! The pumps. -/

/-- Pump 1 in RUN at its boundary, bank 0 LIVE with a plan and the slots' countdowns at 0. -/
def plannedPump (plan : PumpPlan) : State :=
  { bank0In .live pumpEnd with pump1 := { base.pump1 with state := .run, bank0 := { blankPumpBank with plan := plan } } }

/-- The boundary and the tick before it; both slots due, EVERY at 1 and above its clamp at 16, and no slot on. -/
theorem test_witness_PumpBoundaryLaysOut :
    ready pumpEnd = true ∧ pumpBoundaryDue .p1 pumpEnd = true ∧ pumpBoundaryDue .p2 pumpEnd = true ∧
      pumpBoundaryDue .p1 { pumpEnd with now := 1999 } = false ∧
      (let s := plannedPump { blankPumpPlan with every0 := 1, every1 := 17 }
       let t := after (.pumpBoundary .p1) s
       ready s = true ∧ pumpBoundaryDue .p1 s = true ∧ s.arb.list.length ≤ 6 ∧ liveBank .p1 t = some .b0 ∧
         (pumpOffers .p1 s t).map (fun r => (r.slot, r.inst)) = [(.slot0, 3000), (.slot1, 3000)] ∧
         (t.pump1.countdown0, t.pump1.countdown1) = (0, 15)) ∧
      (let s := plannedPump blankPumpPlan
       pumpOffers .p1 s (after (.pumpBoundary .p1) s) = []) := by decide +kernel

/-- Pump 1 at a boundary in a state, with a plan's DUTY, ZcMinDuty 120 and Tp 1000. -/
def dutyLayout (st : PumpState) (duty : Word) : State :=
  let s := plannedPump { blankPumpPlan with duty := duty }
  { s with pump1 := { s.pump1 with state := st },
           gcu := { s.gcu with shadow := { s.gcu.shadow with zcMinDuty := 120 } } }

/-- DUTY_RAISED and DUTY_CLAMPED after that boundary. -/
def dutyFlagsAfter (st : PumpState) (duty : Word) : Bool × Bool :=
  let x := (after (.pumpBoundary .p1) (dutyLayout st duty)).pump1.bank0
  (x.dutyRaised, x.dutyClamped)

/-- A RUN layout with DUTY below ZcMinDuty, at it, at Tp and above Tp, and a layout outside RUN (R82). -/
theorem test_duty_flags :
    dutyFlagsAfter .run 119 = (true, false) ∧ dutyFlagsAfter .run 120 = (false, false) ∧
      dutyFlagsAfter .run 1000 = (false, false) ∧ dutyFlagsAfter .run 1001 = (false, true) ∧
      dutyFlagsAfter .stopped 119 = (false, false) := by decide +kernel

theorem test_witness_PumpBoundaryLaysOut_duty :
    (let s := dutyLayout .run 119
     ready s = true ∧ pumpBoundaryDue .p1 s = true ∧ (after (.pumpBoundary .p1) s).pump1.state = .run ∧
       liveBank .p1 (after (.pumpBoundary .p1) s) = some .b0) ∧
    (let s := dutyLayout .stopped 119
     pumpBoundaryDue .p1 s = true ∧ (after (.pumpBoundary .p1) s).pump1.state ≠ .run ∧
       liveBank .p1 (after (.pumpBoundary .p1) s) = some .b0) := by decide +kernel

/-- DUTY at 0, between 0 and Tp, 1000, at Tp and above it, in RUN with ZcMinDuty 0: the high side of the step over no part of
the period, from 3000 - d to 3000 + d, and over all of it (R66). -/
theorem test_modulation_laid_out :
    ∀ d ∈ [(0, false, none, none), (1, false, some 2999, some 3001), (999, false, some 2001, some 3999),
        (1000, true, none, none), (1001, true, none, none)],
      let s := dutyLayout .run (BitVec.ofNat 16 d.1)
      let s := { s with gcu := { s.gcu with shadow := { s.gcu.shadow with zcMinDuty := 0 } } }
      let t := after (.pumpBoundary .p1) s
      ready s = true ∧ pumpBoundaryDue .p1 s = true ∧ t.pump1.state.drives = true ∧
        (t.pump1.pwmOn, t.pump1.onAt, t.pump1.offAt) = d.2 ∧
        (t.pump1.legs.u.pos, t.pump1.legs.v.pos, t.pump1.legs.w.pos) =
          (if d.2.1 then .high else .float, .low, .float) := by decide +kernel

/-- A boundary that leaves the pump STOPPED lays out no modulation. -/
theorem test_witness_PumpBoundaryLaysOut_stopped :
    (after (.pumpBoundary .p1) (dutyLayout .stopped 119)).pump1.state.drives = false := by decide +kernel

/-- The pair asleep at a pump boundary whose SLOT0 is Tp, 400, away, within reach, and Tp, 401, beyond it. -/
theorem test_witness_PumpBoundaryLaysOut_wake :
    ∀ tp ∈ [400, 401],
      let s := plannedPump { blankPumpPlan with every0 := 1 }
      let s := { s with arb := { s.arb with power := .sleep },
                        gcu := { s.gcu with shadow := { s.gcu.shadow with p1 := { s.gcu.shadow.p1 with tp := tp } } } }
      let t := after (.pumpBoundary .p1) s
      ready s = true ∧ pumpBoundaryDue .p1 s = true ∧ s.arb.power = .sleep ∧ s.mem.wf ∧
        (pumpOffers .p1 s t).map Request.inst = [s.now + BitVec.ofNat 32 tp] ∧
        t.arb.list.map (fun e => e.req.inst) = [s.now + BitVec.ofNat 32 tp] ∧
        reached (s.now + 400) (s.now + BitVec.ofNat 32 tp) = decide (tp = 400) ∧
        decide (t.arb.power = .waking) = decide (tp = 400) := by decide +kernel

/-- Agreement of the records with the arbiter, where both converters are IDLE and WAITING and no entry is of CAL. -/
theorem calAgrees_of_waiting {s : State} (hf : ∀ cv, s.inFlight cv = none)
    (hw : ∀ cv, (s.cal cv).phase = .waiting ∧ (s.cal cv).cls = .none)
    (hl : ∀ e ∈ s.arb.list, ∀ cv, e.req.origin ≠ convOrigin cv) : s.CalAgrees :=
  fun cv => ⟨by simp [hw cv], by simpa [hw cv] using fun e he => hl e he cv, fun e he h => absurd h (hl e he cv),
    fun o => by simp [hf, hw cv]⟩

/-- A list in the form of R93 and records that agree with it, as the law of one offer asks, with room and full; and a request of
a channel and one of each calibration sweep. -/
theorem test_witness_OfferLaw :
    (∀ n ∈ [0, 8],
      let s := { base with arb := { base.arb with list := listOf n } }
      s.arb.ListLawful ∧ s.CalAgrees ∧ s.arb.list.length = n) ∧
      (request .p1 .slot0 (some .b0)).CalFormed ∧ ∀ cv, (sweepRequest cv 0 .routineCal).CalFormed := by
  refine ⟨fun n hn => ⟨?_, calAgrees_of_waiting (fun cv => by cases cv <;> rfl) (fun cv => by cases cv <;> exact ⟨rfl, rfl⟩) ?_,
    ?_⟩, fun cv h => ?_, fun cv cv' h => ?_⟩
  · fin_cases hn <;> (unfold Arbiter.ListLawful; decide +kernel)
  · fin_cases hn <;> (intro e he cv; cases cv <;> revert e <;> decide +kernel)
  · fin_cases hn <;> decide +kernel
  · cases cv <;> exact nomatch h
  · cases cv <;> cases cv' <;> first | exact ⟨rfl, rfl⟩ | exact nomatch h

/-- A staged pump bank with good words, and one with a bad last plan word. -/
theorem test_witness_PumpTakesOrRejects :
    (let s := { bank0In .pending pumpEnd with mem := [(0x1C0, wordOf 7)] }
     ready s = true ∧ s.mem.wf ∧ pumpBoundaryDue .p1 s = true ∧ s.pump1.waiting = none ∧
       s.exchP1.role .b0 = .pending ∧ s.exchP1.role .b1 = .host ∧ badPlanWords .p1 .b0 s = []) ∧
    (let s := { bank0In .pending pumpEnd with mem := badMemory 0x1CB }
     s.mem.wf ∧ badPlanWords .p1 .b0 s ≠ []) := by decide +kernel

/-- A failing plan word of each pump names its SOURCE in an empty record (R9, R167). -/
theorem test_pump_parity_record :
    (after (.pumpBoundary .p1) { bank0In .pending pumpEnd with mem := badMemory 0x1CB }).parity =
        { addr := 0x1CB, source := .planP1, count := 1 } ∧
      (after (.pumpBoundary .p2) { bank0In .pending pumpEnd with
        mem := badMemory 0x220 }).parity.source = .planP2 := by decide +kernel

/-- Pump 1 in RUN with bank 0 LIVE and bank 1 PENDING with a memory that holds its plan. -/
def pumpReplacing (m : Memory) : State := { bothOut (plannedPump blankPumpPlan) with mem := m }

/-- A PENDING bank beside a LIVE one: accepted with nothing in flight and with a conversion of the LIVE bank in flight, rejected,
and none PENDING; with each waiting command and with none, and RELEASE where it is not performed. -/
theorem test_witness_PumpTakesOrRejects_live :
    (let s := pumpReplacing [(0x1F0, wordOf 7)]
     let u := { s with arb := { s.arb with
       cvb := some { req := request .p1 .slot0 (some .b0), start := 1990, lateness := 0 } } }
     ready s = true ∧ s.mem.wf ∧ pumpBoundaryDue .p1 s = true ∧ pumpBoundaryDue .p1 u = true ∧ s.pump1.waiting = none ∧
       s.exchP1.role .b1 = .pending ∧ s.exchP1.role .b0 = .live ∧ badPlanWords .p1 .b1 s = [] ∧
       flying .p1 .b0 s = false ∧ flying .p1 .b0 u = true ∧ (after (.pumpBoundary .p1) s).exchP1.role0 = .host ∧
       (after (.pumpBoundary .p1) u).exchP1.role0 = .retiring) ∧
    (let s := pumpReplacing (badMemory 0x1F0)
     let t := after (.pumpBoundary .p1) s
     s.mem.wf ∧ pumpBoundaryDue .p1 s = true ∧ badPlanWords .p1 .b1 s ≠ [] ∧ t.exchP1.role0 = .live ∧
       t.pump1.bank0.periods = 1) ∧
    (let s := plannedPump blankPumpPlan
     pumpBoundaryDue .p1 s = true ∧ s.mem.wf ∧ liveBank .p1 s = some .b0 ∧ s.exchP1.role .b1 = .host) ∧
    (∀ code ∈ [ChannelCode.start, .brake, .clearTrip, .release],
      let s := pumpReplacing (badMemory 0x1F0)
      let s := { s with pump1 := { s.pump1 with waiting := some { code := code, tag := 9 } } }
      pumpBoundaryDue .p1 s = true ∧ s.pump1.state.releases = false) := by decide +kernel

theorem test_witness_PumpStartDecided :
    (∀ st ∈ [PumpState.align, .ramp, .run, .braking, .tripped, .stopped, .stalled .noLock],
      let s := pumpWaits .start st true
      ready s = true ∧ s.mem.wf ∧ pumpBoundaryDue .p1 s = true ∧ s.pump1.waiting = some { code := .start, tag := 9 } ∧
        s.pump1.state = st) ∧
    (applying [] (pumpWaits .start .stopped true)).gcu.apply ≠ none ∧
    gateQualified .p1 (pumpWaits .start .stopped false) = false ∧
    (let s := pumpWaits .start .stopped true
     s.gcu.apply = none ∧ gateQualified .p1 s = true ∧ liveBank .p1 (pumpPlanStep .p1 s) = none) ∧
    (∀ d ∈ [0, 999, 1000],
      let s := bank0In .live (pumpWaits .start .stopped true)
      let s := { s with gcu := { s.gcu with shadow := { s.gcu.shadow with alignDuty := d } } }
      liveBank .p1 (pumpPlanStep .p1 s) = some .b0 ∧ s.gcu.apply = none ∧ gateQualified .p1 s = true ∧
        ((cfg s).pump .p1).tp = 1000) := by decide +kernel

/-- ALIGN on a pump whose switches have long been off: V's low side is on at once (R67). -/
theorem test_align_pattern :
    (after (.pumpBoundary .p1) (bank0In .live (pumpWaits .start .stopped true))).pump1.legs.v.low = true := by
  decide +kernel

theorem test_witness_PumpCommandsAtBoundary :
    (∀ code ∈ [ChannelCode.brake, .clearTrip, .release],
      ∀ st ∈ [PumpState.stopped, .run, .braking, .stalled .zcLost, .tripped],
        let s := pumpWaits code st true
        ready s = true ∧ s.mem.wf ∧ pumpBoundaryDue .p1 s = true ∧ s.pump1.waiting = some { code := code, tag := 9 } ∧
          s.pump1.state = st) ∧
    gateAsserted .p1 (pumpWaits .brake .run true) = false ∧ gateAsserted .p1 (pumpWaits .brake .run false) = true ∧
    inputsActive .p1 (pumpWaits .clearTrip .tripped true) = false ∧
    inputsActive .p1 (pumpWaits .clearTrip .tripped false) = true := by decide +kernel

/-- BRAKE from RUN under a lost gate supply with SLOT0 listed: TRIPPED from BRAKING by GATE alone, STEP_INDEX 3 kept, and the
request DROPPED_TRIP (R103, R138 to R141). -/
theorem test_witness_PumpCommandsAtBoundary_gate :
    let s := bank0In .live (pumpWaits .brake .run false)
    let s := { s with pump1 := { s.pump1 with stepIndex := 3 },
                      arb := (listed 2000 { request .p1 .slot0 (some .b0) with inst := 2100 }).arb }
    let t := after (.pumpBoundary .p1) s
    ready s = true ∧ s.mem.wf ∧ pumpBoundaryDue .p1 s = true ∧ gateAsserted .p1 s = true ∧
      liveBank .p1 t = liveBank .p1 s ∧ (t.pump1.state, t.pump1.tripPrior, t.pump1.stepIndex) = (.tripped, .braking, 3) ∧
      t.pump1.trip = { clearTripRecord with first := some .gate, gate := true, time := 2000 } ∧
      isPending .trip t = true ∧ t.arb.list = [] ∧
      slotStatusOf (request .p1 .slot0 (some .b0)) t = some .droppedTrip := by decide +kernel

/-- Pump 1 in a state with an up edge of its modulation at the present tick, and U's low side off for so long. -/
def upEdgeNow (st : PumpState) (low : Bool) (off : BitVec 8) : State :=
  { base with pump1 := { base.pump1 with
      state := st, onAt := some 0, offAt := some 900,
      legs := { base.pump1.legs with u := { offLeg with low := low, lowOffFor := off } } } }

/-- The low side on, off for one tick less than DT_P, 40, and for DT_P; a state that does not drive; and the down edge. -/
theorem test_witness_ModulationEdge :
    (∀ lo ∈ [(true, 255, 0), (false, 39, 39), (false, 40, 40)],
      let s := upEdgeNow .run lo.1 lo.2.1
      let l := s.pump1.legs.get (sixStep s.pump1.stepIndex).high
      ready s = true ∧ reachedOpt s.now s.pump1.onAt = true ∧ s.pump1.state.drives = true ∧
        ((cfg s).pump .p1).deadTime = 40 ∧ (if l.low then 0 else l.lowOffFor.toNat) = lo.2.2) ∧
    (upEdgeNow .braking false 255).pump1.state.drives = false ∧
    (let s := { base with pump1 := { base.pump1 with state := .run, onAt := none, offAt := some 0 } }
     reachedOpt s.now s.pump1.onAt = false ∧ reachedOpt s.now s.pump1.offAt = true) := by decide +kernel

/-- An up edge 39 ticks after U's low side turned off waits out the last tick of DT_P, 40 (R66). -/
theorem test_modulation_dead_time :
    let u := fun (off : BitVec 8) => (after (.pumpPwmEdge .p1) (upEdgeNow .run false off)).pump1.legs.u
    ((u 39).high, (u 39).waiting, (u 40).high) = (false, some { side := .high, left := 1 }, true) := by decide +kernel

/-- No sample in ALIGN and during blanking, and a sample of either level below ZcFilter, 2. -/
theorem test_witness_PeakSamples :
    (let s := atPeak .align 0
     ready s = true ∧ peakReached .p1 s = true) ∧
    (let s := { atPeak .run 0 with pump1 := { (atPeak .run 0).pump1 with comm := { clearComm with blankEnd := 1001 } } }
     peakReached .p1 s = true ∧ reached s.now s.pump1.comm.blankEnd = false) ∧
    (let s := atPeak .ramp 0
     ready s = true ∧ peakReached .p1 s = true ∧ s.pump1.comm.zc.confirmed = false ∧
       reached s.now s.pump1.comm.blankEnd = true ∧ s.pump1.comm.zc.run + 1 < (cfg s).zcFilter ∧
       postLevel ((cfg s).pump .p1).direction s.pump1.stepIndex ≠ !postLevel ((cfg s).pump .p1).direction
         s.pump1.stepIndex) := by decide +kernel

/-- A confirmed crossing in RAMP below the lock and at it, in RUN, and in RUN at the tick of the timeout and the one
before. -/
theorem test_witness_PeakConfirms :
    ∀ sg ∈ [(PumpState.ramp, 4, none), (.ramp, 5, none), (.run, 0, none), (.run, 0, some 1000), (.run, 0, some 1001)],
      let x := (atPeak sg.1 1).pump1
      let s := { atPeak sg.1 1 with pump1 := { x with comm := { x.comm with good := sg.2.1, timeoutAt := sg.2.2 } } }
      ready s = true ∧ peakReached .p1 s = true ∧ s.pump1.state = sg.1 ∧ s.pump1.comm.zc.confirmed = false ∧
        reached s.now s.pump1.comm.blankEnd = true ∧ (cfg s).zcFilter ≤ s.pump1.comm.zc.run + 1 ∧
        (cfg s).lockCount = 6 ∧ reachedOpt s.now s.pump1.comm.timeoutAt = decide (sg.2.2 = some 1000) := by decide +kernel

/-- LOCK is raised by the confirmation that locks and not by the one before it (R74, R170). -/
theorem test_lock_raised :
    ∀ g ∈ [(4, false), (5, true)],
      let x := (atPeak .ramp 1).pump1
      let s := { atPeak .ramp 1 with pump1 := { x with comm := { x.comm with good := g.1 } } }
      let t := after (.peak .p1 (postLevel ((cfg s).pump .p1).direction s.pump1.stepIndex)) s
      (isPending .lock t, decide (t.pump1.state = .run)) = (g.2, g.2) := by decide +kernel

/-- The worked RUN step of 4.13, at NOW 2,002,000. -/
def runStep : State :=
  { base with
    now := 2002000,
    exchP2 := { base.exchP2 with role0 := .live },
    gcu := { base.gcu with shadow := { base.gcu.shadow with zcFilter := 2 } },
    pump2 := { base.pump2 with
      state := .run, periodStart := 2001000, half := 1000, peakDue := true, stepIndex := 0,
      bank0 := { base.pump2.bank0 with plan := { blankPumpPlan with advance := 8 } },
      comm := { clearComm with zc := { clearZc with run := 1, firstTime := 2000000, sampled := true },
                               prevConfirmed := true, lastZc := 1938600, interval := some 59800, est := 60000,
                               timeoutAt := some 2051100 } } }

/-- The confirmation of 4.13 schedules the commutation for 2,021,537. -/
theorem test_run_step :
    let t := after (.peak .p2 (postLevel .forward 0)) runStep
    (t.pump2.comm.commAt, t.pump2.comm.est, t.pump2.comm.interval, t.pump2.comm.timeoutAt) =
      (some 2021537, 60100, some 60400, none) := by decide +kernel

/-- The results of 4.13 in the LIVE bank: LAST_INTERVAL 60,400, STEP_EST 60,100, and EARLY as it was. -/
theorem test_run_step_results :
    let x := (after (.peak .p2 (postLevel .forward 0)) runStep).pump2.bank0
    (x.lastInterval, x.stepEst, x.early) = (60400, 60100, 0) := by decide +kernel

/-- The RUN step of 4.13 with another state, validity of the present and the last interval, and first sample. -/
def runStepWith (st : PumpState) (prev : Bool) (last : Option Nat) (early : Bool) : State :=
  let x := runStep.pump2
  runStep.setPump .p2 { x with
    state := st,
    comm := { x.comm with zc := { x.comm.zc with firstAfterBlank := early }, prevConfirmed := prev, interval := last,
                          good := 5 } }

/-- The confirmation meets the hypotheses of PeakConfirms with bank 0 LIVE. -/
def confirms (s : State) : Bool :=
  ready s && peakReached .p2 s && decide (liveBank .p2 s = some .b0) && !s.pump2.comm.zc.confirmed &&
    reached s.now s.pump2.comm.blankEnd && decide ((cfg s).zcFilter ≤ s.pump2.comm.zc.run + 1) &&
    decide ((cfg s).lockCount ≤ s.pump2.comm.good + 1)

/-- PeakConfirms with a LIVE bank: a valid interval with its predecessor valid and not, and none; an EARLY crossing; and the
lock. -/
theorem test_witness_PeakConfirms_results :
    confirms (runStepWith .run true (some 59800) false) = true ∧ confirms (runStepWith .run true none false) = true ∧
      confirms (runStepWith .run false (some 59800) true) = true ∧
      confirms (runStepWith .ramp true (some 59800) false) = true ∧ runStep.mem.wf := by decide +kernel

/-- An EARLY crossing with no valid interval raises EARLY and leaves LAST_INTERVAL and STEP_EST (R76 to R78). -/
theorem test_early_crossing :
    let x := (after (.peak .p2 (postLevel .forward 0)) (runStepWith .run false (some 59800) true)).pump2.bank0
    (x.early, x.lastInterval, x.stepEst) = (1, 0, 0) := by decide +kernel

/-- Pump 1 in RAMP under the default table of one entry of 12 steps, with so many begun. -/
def ramping (begun : Nat) (s : State) : State :=
  { s with pump1 := { s.pump1 with state := .ramp, comm := { clearComm with rampAt := some 0, begun := begun } } }

/-- A table of two entries in the shadow of pump 1. -/
def twoEntries : State :=
  { base with gcu := { base.gcu with shadow := { base.gcu.shadow with
      p1 := { base.gcu.shadow.p1 with table := defaultTable ++ defaultTable } } } }

theorem test_witness_RampIsForced :
    (let s := { base with pump1 := { base.pump1 with state := .align, comm := { clearComm with alignAt := some 0 } } }
     ready s = true ∧ alignDue .p1 s = true) ∧
    (let s := ramping 11 base
     ready s = true ∧ rampEndDue .p1 s = true ∧ s.pump1.comm.begun < (rampEntry ((cfg s).pump .p1) 0).steps) ∧
    (let s := ramping 12 twoEntries
     rampEndDue .p1 s = true ∧ (rampEntry ((cfg s).pump .p1) 0).steps ≤ s.pump1.comm.begun ∧
       s.pump1.comm.entry + 1 < ((cfg s).pump .p1).table.length) ∧
    (let s := ramping 12 base
     rampEndDue .p1 s = true ∧ (rampEntry ((cfg s).pump .p1) 0).steps ≤ s.pump1.comm.begun ∧
       ((cfg s).pump .p1).table.length ≤ s.pump1.comm.entry + 1) := by decide +kernel

/-- Pump 1 in RUN with a commutation and a timeout at the present tick, after so many misses. -/
def inRun (misses : Nat) : State :=
  { base with pump1 := { base.pump1 with
      state := .run,
      comm := { clearComm with est := 60100, commAt := some 0, timeoutAt := some 0, missCount := misses } } }

theorem test_witness_RunStepEnds :
    ready (inRun 0) = true ∧ commDue .p1 (inRun 0) = true ∧
      (timeoutDue .p1 (inRun 4) = true ∧ (inRun 4).pump1.comm.missCount + 1 < (cfg (inRun 4)).missLimitP) ∧
      (timeoutDue .p1 (inRun 5) = true ∧ (cfg (inRun 5)).missLimitP ≤ (inRun 5).pump1.comm.missCount + 1) := by
  decide +kernel

/-- The commutation from step 0 to step 1 (R65): U stays high, V's low side turns off, W's turns on at once. -/
theorem test_commutation_switches :
    let x := (inRun 0).pump1
    let s := (inRun 0).setPump .p1
      { x with pwmOn := true, legs := { x.legs with u := { offLeg with high := true }, v := { offLeg with low := true } } }
    let l := (after (.scheduledCommutation .p1) s).pump1.legs
    (l.u.high, l.u.low, l.v.high, l.v.low, l.w.high, l.w.low) = (true, false, false, false, false, true) := by
  decide +kernel

/-! The arbiter, calibration and sleep. -/

/-- Two requests of the pumps at the INSTANT, 100, and not one tick before: CVA starts the better-ranked one, CVB the
other. -/
theorem test_witness_EligibleEntriesStart :
    (let s := { base with now := 100, arb := { base.arb with list :=
       [{ req := request .p1 .slot0 (some .b0), eligible := false },
        { req := request .p2 .slot0 (some .b0), eligible := false }] } }
     let t := after .eligibility s
     ready s = true ∧ eligibilityDue s = true ∧ s.arb.power = .awake ∧ s.arb.list.length ≤ 8 ∧ s.mem.wf ∧
       s.arb.list.Pairwise (fun x y => x.req.sameKey y.req = false ∧ outranks x.req y.req = true) ∧
       s.inFlight .a = none ∧ s.inFlight .b = none ∧
       t.inFlight .a = some { req := request .p1 .slot0 (some .b0), start := 100, lateness := 0 } ∧
       t.inFlight .b = some { req := request .p2 .slot0 (some .b0), start := 100, lateness := 0 }) ∧
    eligibilityDue (listed 99 (request .p1 .slot0 (some .b0))) = false := by decide +kernel

/-- A start with lateness 55 is counted in bin 6 and one with lateness 56 in bin 7 (R128). -/
theorem test_start_bins :
    ∀ lk ∈ [(155, 6), (156, 7)],
      let s := listed (BitVec.ofNat 32 lk.1) (request .p1 .slot0 (some .b0))
      let s := { s with gcu := { s.gcu with shadow := { s.gcu.shadow with profileEnable := true } } }
      (after .eligibility s).lpr.counters.toList = (List.replicate 10 0).set lk.2 1 := by decide +kernel

/-- A request that starts at its INSTANT, with BIN0, ProfileEnable and CombineMask. -/
def startingWith (bin0 : BitVec 32) (enable : Bool) (mask : BitVec 10) : State :=
  let s := listed 100 (request .p1 .slot0 (some .b0))
  { s with lpr := { s.lpr with counters := s.lpr.counters.set 0 bin0 },
           gcu := { s.gcu with shadow := { s.gcu.shadow with profileEnable := enable, combineMask := mask } } }

/-- Whether the start from it is counted in BIN0, SATURATED of BIN0 and LATE after it. -/
def startAccount (bin0 : BitVec 32) (enable : Bool) (mask : BitVec 10) : Bool × Bool × Bool :=
  let s := startingWith bin0 enable mask
  let t := after .eligibility s
  (startCounted .a 0 s t, t.lpr.saturated.getLsbD 0, isPending .late t)

/-- BIN0 two and one below its limit, and at it, with BIN0's CombineMask flag set, with BIN1's, and with ProfileEnable clear:
SATURATED is set in the event that reaches the limit, and LATE is raised by a counted start under the flag alone (R127, R130,
R131). -/
theorem test_start_accounted :
    ready (startingWith 0xFFFFFFFE true 1) = true ∧ eligibilityDue (startingWith 0xFFFFFFFE true 1) = true ∧
      startAccount 0xFFFFFFFD true 1 = (true, false, true) ∧ startAccount 0xFFFFFFFE true 1 = (true, true, true) ∧
      startAccount 0xFFFFFFFF true 1 = (true, false, true) ∧ startAccount 0xFFFFFFFE true 2 = (true, true, false) ∧
      startAccount 0xFFFFFFFE false 1 = (false, false, false) := by decide +kernel

/-- At the expiry tick, INSTANT 100 with LATE_MAX 8, for a slot of each channel; a shunt slot of a period with its window
computed. -/
theorem test_witness_EntriesExpire :
    (∀ os ∈ [(Origin.d, Slot.shuntA), (.d, .u2), (.p1, .slot0), (.p2, .slot1)],
      let s := listed 108 (request os.1 os.2 (some .b0))
      ready s = true ∧ (expiringEntry os.1 os.2 s).isSome = true) ∧
    (expiringEntry .d .shuntA (listed 107 (request .d .shuntA (some .b0)))).isSome = false ∧
    (let s := { listed 108 (request .d .shuntA (some .b0)) with
       drum := { base.drum with bank0 := { freshDrumBank blankDrumPlan with window := caseOf 760 745 210 } } }
     (s.drum.bank .b0).window.computed = true ∧ (s.drum.bank .b0).shuntB.status.isOpen = false) := by decide +kernel

/-- A drum result of the period in progress, one for a RETIRING bank, one of an earlier period, a shunt result that settles
its pair and one that does not, and pump results of both slots, with no later request of the slot listed and with one that
is not eligible. -/
theorem test_witness_ResultsDelivered :
    (∀ r ∈ [Role.live, .retiring],
      let s := bank0In r (converted (request .d .u2 (some .b0)))
      ready s = true ∧ completionDue .a s = true ∧ s.inFlight .a ≠ none ∧ s.exchD.role .b0 = r ∧
        (request .d .u2 (some .b0)).tag = s.drum.periodCount ∧ s.arb.list = []) ∧
    (let s := { bank0In .live (converted (request .d .u1 (some .b0))) with drum := { base.drum with periodCount := 1 } }
     completionDue .a s = true ∧ s.exchD.role .b0 = .live ∧
       (request .d .u1 (some .b0)).tag ≠ s.drum.periodCount) ∧
    (∀ st ∈ [SlotStatus.late, .queued],
      let s := { bank0In .live (converted (request .d .shuntA (some .b0))) with
        drum := { base.drum with bank0 := { freshDrumBank blankDrumPlan with
          window := caseOf 760 745 210, shuntB := { blankSlot with status := st } } } }
      ready s = true ∧ completionDue .a s = true ∧ (s.drum.bank .b0).window.computed = true ∧
        (s.drum.bank .b0).shuntB.status = st) ∧
    (∀ sl ∈ [Slot.slot0, .slot1],
      let s := bank0In .live (converted (request .p1 sl (some .b0)))
      ready s = true ∧ completionDue .a s = true ∧ s.inFlight .a ≠ none ∧
        (listed 140 (request .p1 sl (some .b0))).arb.list.map Entry.eligible = [false]) ∧
    completionDue .a { converted (request .d .u1 (some .b0)) with now := 139 } = false := by decide +kernel

/-- A bank accepted while the motor runs begins with S and the last valid interval, and with the clamp flags of ADVANCE 25,
SLOT0_EVERY 17 and SLOT1_INPUT 8 (R84, R85). -/
theorem test_accepted_pump_bank :
    let s := pumpReplacing [(0x1F2, wordOf 25), (0x1F3, wordOf 17), (0x1F4, wordOf 8)]
    let s := { s with pump1 := { s.pump1 with comm := { clearComm with est := 60100, lastValid := some 60400 } } }
    let x := (after (.pumpBoundary .p1) s).pump1.bank1
    (x.stepEst, x.lastInterval, x.advanceClamped, x.everyClamped, x.inputClamped, x.periods, x.commutations) =
      (60100, 60400, true, true, true, 1, 0) := by decide +kernel

/-- A conversion completed whose request named RETIRING bank 0: the last one, one with another in flight on CVB, and one with a
request of the bank listed. -/
theorem test_witness_ResultsDelivered_retiring :
    let s := bank0In .retiring (converted (request .p1 .slot0 (some .b0)))
    let u := { s with arb := { s.arb with
      cvb := some { req := request .p1 .slot1 (some .b0), start := 110, lateness := 0 } } }
    let v := { s with arb := { s.arb with list := [{ req := request .p1 .slot1 (some .b0), eligible := true }] } }
    let t := after (.completion .a 2000) s
    ready s = true ∧ completionDue .a s = true ∧ completionDue .a u = true ∧ completionDue .a v = true ∧ s.mem.wf ∧
      (s.exch .p1).role .b0 = .retiring ∧ (s.exch .p1).role .b1 = .host ∧ s.arb.list = [] ∧ s.inFlight .b = none ∧
      inFlightNames (u.inFlight .b) .p1 .b0 = true ∧ v.arb.list.any (fun e => e.req.names .p1 .b0) = true ∧
      t.exchP1.role0 = .host ∧ dataAt t (bankBase .p1 .b0 + offStatus .p1) = 2 ∧
      dataAt t (bankBase .p1 .b0 + offRetireTime .p1) = 140 ∧
      (after (.completion .a 2000) u).exchP1.role0 = .retiring := by decide +kernel

/-- A record in WAITING with its LAST_CAL_TIME. -/
def waitingSince (t : Tick) : CalRecord := { resetCal with lastCal := t }

/-- A record of a sweep in progress with DUE 0. -/
def inProgress (cls : CalClass) (ph : CalPhase) : CalRecord := { resetCal with cls := cls, phase := ph }

/-- CVA converting a request, CAL_B's sweep set aside, and a list. -/
def setAsideAt (f : Request) (a : CalRecord) (l : List Entry) : State :=
  { converted f with
    calA := a, calB := inProgress .routine .setAside,
    arb := { (converted f).arb with list := l } }

/-- The sweep set aside is offered again at a completion with room in the list, and left with none (R117). -/
theorem test_set_aside_at_completion :
    (let t := after (.completion .a 2000) (setAsideAt (request .p1 .slot0 none) resetCal (listOf 0))
     t.calB.phase ≠ .setAside) ∧
    (let s := { setAsideAt (request .p1 .slot0 none) resetCal (listOf 8) with now := 140 }
     let s := { s with arb := { s.arb with power := .waking } }
     (after (.completion .a 2000) s).calB.phase = .setAside) := by decide +kernel

/-- The lists and records of ResultsDelivered and SweepsCalibrate agree: a pump's result and a calibration result, with room in
the list and with none, and CAL_B set aside. -/
theorem test_witness_completion_agrees :
    ∀ n ∈ [0, 7, 8],
      (setAsideAt (request .p1 .slot0 (some .b1)) (waitingSince 0) (listOf n)).CalAgrees ∧
      (setAsideAt refRequest (inProgress .routine .converting) (listOf n)).CalAgrees ∧
      (setAsideAt refRequest (inProgress .routine .converting) (listOf n)).arb.ListLawful := by
  intro n hn
  refine ⟨?_, ?_, ?_⟩
  · intro cv
    fin_cases hn <;> cases cv <;> refine ⟨by decide +kernel, by decide +kernel, by decide +kernel, fun o => ?_⟩ <;>
      cases o <;> decide +kernel
  · intro cv
    fin_cases hn <;> cases cv <;> refine ⟨by decide +kernel, by decide +kernel, by decide +kernel, fun o => ?_⟩ <;>
      cases o <;> decide +kernel
  · fin_cases hn <;> (unfold Arbiter.ListLawful; decide +kernel)

/-- A sweep's result that is not the sixteenth with a full list whose lowest-ranked entry it outranks, and one that it does
not; and with room. -/
theorem test_witness_SweepsCalibrate_offered :
    (∀ cl ∈ [(CalClass.routine, false), (.urgent, true)],
      let s := setAsideAt refRequest (inProgress cl.1 .converting) (listOf 8)
      ready s = true ∧ completionDue .a s = true ∧ s.calA.progress + 1 ≠ 16 ∧ s.arb.list.length = 8 ∧
        s.arb.list.getLast? = some { req := request .p2 .slot1 (some .b0), eligible := false } ∧
        outranks (sweepRequest .a s.now s.calA.cls.reqClass) (request .p2 .slot1 (some .b0)) = cl.2) ∧
    (setAsideAt refRequest (inProgress .routine .converting) (listOf 7)).arb.list.length < 8 := by decide +kernel

/-- The results 14 and 15 of a sweep, counted from 0. -/
theorem test_witness_SweepsCalibrate :
    ∀ n ∈ [14, 15],
      let s := { converted refRequest with
        calA := { resetCal with cls := .routine, phase := .converting, progress := n } }
      ready s = true ∧ completionDue .a s = true ∧ s.inFlight .a ≠ none ∧ refRequest.origin = convOrigin .a ∧
        s.calA.progress = n := by decide +kernel

/-- A SUM of 35,000 gives +140, clamped to +63 with CAL_RANGE and CALR (6.4). -/
theorem test_offset_clamped :
    let t := endSweep .a 35000 base
    t.calA.offset = 63 ∧ t.calA.range = true ∧ isPending .calr t = true := by decide +kernel

/-- The mean of a sweep at both ends of the range and one beyond each: CALR is raised by the clamp alone (R118). -/
theorem test_calr_at_the_clamp :
    ∀ o ∈ [(1984, -64, false), (1983, -64, true), (2111, 63, false), (2112, 63, true)],
      let s := { converted refRequest with
        calA := { resetCal with cls := .routine, phase := .converting, progress := 15, sum := 15 * o.1 } }
      let t := after (.completion .a (BitVec.ofNat 12 o.1)) s
      completionDue .a s = true ∧ t.calA.offset = o.2.1 ∧ (t.calA.range, isPending .calr t) = (o.2.2, o.2.2) := by
  decide +kernel

/-- DUE, DUE + I div 2 and DUE + I, with I of 100 ms; a list with room and a full one; a sweep that is set aside, listed and
converting. -/
theorem test_witness_SweepsBeginAndRise :
    (∀ n ∈ [7, 8],
      let s := { base with arb := { base.arb with list := listOf n } }
      ready s = true ∧ s.calA.phase = .waiting ∧ reached s.now s.calA.due = true ∧ s.arb.list.length = n ∧
        s.arb.list.Pairwise (fun x y => x.req.sameKey y.req = false) ∧
        s.arb.list.getLast? = some { req := request .p2 .slot1 (some .b0), eligible := false } ∧
        outranks (sweepRequest .a s.calA.due .routineCal) (request .p2 .slot1 (some .b0)) = false) ∧
    (∀ ph ∈ [CalPhase.setAside, .listed, .converting],
      let s := { base with now := 2000000, calA := { resetCal with cls := .routine, phase := ph } }
      ready s = true ∧ s.calA.cls = .routine ∧ s.calA.phase = ph ∧
        reached s.now (s.calA.due + BitVec.ofNat 32 ((cfg s).calInterval * 40000 / 2)) = true) ∧
    outranks (sweepRequest .a 0 .urgentCal) (request .p2 .slot1 (some .b0)) = true ∧
    (let s := { base with now := 4000000, calA := { resetCal with cls := .urgent, phase := .setAside } }
     s.calA.cls = .urgent ∧ reached s.now (s.calA.due + BitVec.ofNat 32 ((cfg s).calInterval * 40000)) = true) := by
  decide +kernel

/-- A full list whose lowest entry outranks CVA's sweep, every origin counted, EVICTED one below its limit. -/
def evicting (mask : BitVec 10) : State :=
  { base with
    arb := { base.arb with list := listOf 8 },
    lpr := { base.lpr with counters := base.lpr.counters.set 9 0xFFFFFFFE },
    gcu := { base.gcu with shadow := { base.gcu.shadow with
      profileEnable := true, originMask := 15, combineMask := mask } } }

/-- CAL_DUE evicts that sweep: EVICTED reaches its limit with its SATURATED flag, and LATE is raised under its CombineMask flag
and not under the others (R127, R130, R131). -/
theorem test_eviction_accounted :
    counts .calA (evicting 0x200) = true ∧
      ∀ m ∈ [(0x200#10, true), (0x1FF#10, false)],
        let t := after (.calDue .a) (evicting m.1)
        t.arb.list = listOf 8 ∧ t.lpr.counters[9] = 0xFFFFFFFF ∧ t.lpr.saturated.getLsbD 9 = true ∧
          isPending .late t = m.2 := by decide +kernel

/-- The last word of a full read of the default configuration, whose CalInterval is 100 ms, I = 4,000,000, with records of
the two converters and a list. -/
def completing (now : Tick) (a b : CalRecord) (l : List Entry) : State :=
  applying defaultWords
    { base with now := now, mem := [(0x0A3, wordOf 12)], calA := a, calB := b, arb := { base.arb with list := l } }

/-- Agreement of the records with the arbiter, where both converters are IDLE. -/
theorem calAgrees_of_idle {s : State} (hf : ∀ cv, s.inFlight cv = none)
    (h : ∀ cv, ((s.cal cv).cls = .none ↔ (s.cal cv).phase = .waiting) ∧
      ((s.cal cv).phase = .listed ↔ ∃ e ∈ s.arb.list, e.req.origin = convOrigin cv) ∧
      (∀ e ∈ s.arb.list, e.req.origin = convOrigin cv →
        e.req.slot = .cal ∧ e.req.pin = some cv ∧ e.req.lateMax = none) ∧ (s.cal cv).phase ≠ .converting) :
    s.CalAgrees :=
  fun cv => ⟨(h cv).1, (h cv).2.1, (h cv).2.2.1, fun o => by simp [hf, (h cv).2.2.2]⟩

/-- A list that meets R93, and records that agree with it, in the states below: with room and full; WAITING; set aside; and
listed. -/
theorem test_witness_ConfigWordRead_agrees :
    (∀ n ∈ [7, 8], ∀ a ∈ [waitingSince 0, inProgress .routine .setAside],
      let s := completing 4000000 a (waitingSince 1) (listOf n)
      s.arb.ListLawful ∧ s.CalAgrees) ∧
    (let s := completing 4000000 (inProgress .routine .listed) (waitingSince 1)
       [{ req := sweepRequest .a 0 .routineCal, eligible := true }]
     s.arb.ListLawful ∧ s.CalAgrees) := by
  refine ⟨fun n hn a ha => ⟨?_, calAgrees_of_idle (fun cv => by cases cv <;> rfl) fun cv => ?_⟩,
    ?_, calAgrees_of_idle (fun cv => by cases cv <;> rfl) fun cv => ?_⟩
  · fin_cases hn <;> fin_cases ha <;> (unfold Arbiter.ListLawful; decide +kernel)
  · fin_cases hn <;> fin_cases ha <;> cases cv <;> decide +kernel
  · unfold Arbiter.ListLawful; decide +kernel
  · cases cv <;> decide +kernel

/-- A converter that a DONE finds in WAITING: one tick before LAST_CAL_TIME + I, at it, and at the half interval and the
interval after it, with the other converter unmoved; and a sleeping pair. -/
theorem test_witness_ConfigWordRead_waiting :
    (let s := completing 4000000 (waitingSince 0) (waitingSince 1) []
     ready s = true ∧ s.mem.wf ∧ configReadDue s = true ∧ s.gcu.apply.map ApplyRun.words = some defaultWords ∧
       (shadowOf (defaultWords ++ [dataAt s 0x0A3])).calInterval = 100 ∧ s.calA.phase = .waiting ∧
       reached s.now (s.calA.lastCal + 4000000) = true ∧ reached s.now (s.calB.lastCal + 4000000) = false) ∧
    reached 3999999 ((waitingSince 0).lastCal + 4000000) = false ∧
    begunClass 5999999 4000000 4000000 = .routine ∧ begunClass 6000000 4000000 4000000 = .urgent ∧
    begunClass 8000000 4000000 4000000 = .forced ∧
    (let s := completing 4000000 (waitingSince 0) (waitingSince 1) []
     let s := { s with arb := { s.arb with power := .sleep } }
     ready s = true ∧ configReadDue s = true ∧ s.arb.power = .sleep) := by decide +kernel

/-- A sweep in progress that a DONE finds: no raise, one, and two at once, in each phase. -/
theorem test_witness_ConfigWordRead_raised :
    ∀ nc ∈ [((1999999 : Tick), CalClass.routine), (2000000, .urgent), (4000000, .forced)],
      ∀ ph ∈ [CalPhase.listed, .converting, .setAside],
        let s := completing nc.1 (inProgress .routine ph) (waitingSince 1) []
        ready s = true ∧ s.mem.wf ∧ configReadDue s = true ∧ s.calA.phase = ph ∧
          raisedClass s.now s.calA.due 4000000 s.calA.cls = nc.2 ∧
          reached s.now (s.calB.lastCal + 4000000) = false := by decide +kernel

/-- At 8,000,000 under I = 4,000,000 CVA's sweep begins FORCED_CAL with DUE 4,000,000 (R120), and an input released for 3
ticks, less than QualTime 4000, loses its qualification (R148). -/
theorem test_apply_done :
    let s := completing 8000000 (waitingSince 0) (waitingSince 7000000) []
    let s := { s with trm := { s.trm with qualD := { timer := 3, qualified := true } } }
    let t := after .configWordRead s
    (t.calA.cls, t.calA.due, t.calB.phase, t.calB.due, t.trm.qualD.qualified) =
      (.forced, 4000000, .waiting, 11000000, false) := by decide +kernel

/-- An URGENT_CAL offer into a full list evicts the lowest-ranked entry, a pump's, and shows it in the slot (R97). -/
theorem test_eviction :
    let s := { base with now := 2000000, calA := { resetCal with cls := .routine, phase := .setAside },
                         arb := { base.arb with list := listOf 8, power := .waking } }
    let t := after (.calRaiseTime .a) s
    (t.pump2.bank0.slot1.status, t.pump2.bank0.slot1.evictedCount) = (.evicted, 1) ∧ t.calA.phase = .listed ∧
      t.arb.list.length = 8 := by decide +kernel

/-- All three SLEEP_GRANT words set, IdleLimit 100, idle for exactly 100 ticks. -/
def sleepy : State :=
  { base with
    now := 100, mem := [(0x0CA, wordOf 1), (0x0EA, wordOf 1), (0x10A, wordOf 1)],
    gcu := { base.gcu with shadow := { base.gcu.shadow with idleLimit := 100 } } }

/-- The pair in a power state with a pump entry 400 ticks away. -/
def asleep (p : Power) : State :=
  { listed 0 (request .p1 .slot0 (some .b0)) with
    now := 4294966996, arb := { (listed 0 (request .p1 .slot0 (some .b0))).arb with power := p, wakeEnd := 4294966996 } }

theorem test_witness_PairSleepsAndWakes :
    (ready sleepy = true ∧ sleepy.mem.wf ∧ sleepy.arb.power = .awake ∧ 0 < (cfg sleepy).idleLimit ∧
      allGranted sleepy = true ∧ sleepy.arb.cva = none ∧ sleepy.arb.cvb = none ∧
      (cfg sleepy).idleLimit ≤ (sleepy.now - sleepy.arb.idleStart).toNat ∧ sleepy.arb.list = [] ∧
      sleepy.arb.wakeNow = false) ∧
    (let s := asleep .sleep
     ready s = true ∧ s.mem.wf ∧ s.arb.power = .sleep ∧ reached (s.now + 400) 100 = true ∧ wakeReachDue s = true) ∧
    (let s := asleep .waking
     ready s = true ∧ s.mem.wf ∧ s.arb.power = .waking ∧ reached s.now s.arb.wakeEnd = true) ∧
    (let s := { sleepy with arb := { sleepy.arb with power := .sleep } }
     s.arb.power = .sleep ∧ portTakes .memWrite (controlWord .d offGrant) s = true ∧
       allGranted (after (.sleepGrantWrite .d 0) s) = false ∧
       allGranted (after (.sleepGrantWrite .d 2) s) = true) := by decide +kernel

/-- The last word of an APPLY_CONFIG read, at bad parity, on the tick on which the pair could sleep: taken first it keeps the pair
AWAKE on that tick, and the pair sleeps on the next one; taken second it finds SLEEP and begins the wake (R123). -/
theorem test_cause_and_sleep_on_one_tick :
    let s := applying [] { sleepy with mem := (0x040, { data := 1, parity := true }) :: sleepy.mem }
    let t := after .configWordRead s
    ready s = true ∧ sleepDue s = true ∧ configReadDue s = true ∧ t.gcu.apply = none ∧ t.arb.wakeNow = true ∧
      (after .enterSleep t).arb.power = .awake ∧ (after .enterSleep (tickRunning t)).arb.power = .sleep ∧
      (after .configWordRead (after .enterSleep s)).arb.power = .waking := by decide +kernel

/-- A grant cleared and set again on one tick keeps the pair AWAKE on it (R123). -/
theorem test_grant_cleared_and_set :
    let s := inFrame .memWrite 0x0CA sleepy
    let t := after (.memWriteWord 0) s
    let u := after (.sleepGrantWrite .d 1) { t with port := { t.port with csLow := false, frame := none } }
    allGranted t = false ∧ t.arb.wakeNow = true ∧ allGranted u = true ∧ u.arb = t.arb ∧
      (after .enterSleep u).arb.power = .awake := by decide +kernel

/-- A pump entry comes within reach of an AWAKE pair on the tick that makes its INSTANT 400 ticks away, and not on the next; in
WAKING it leaves no mark (R123). -/
theorem test_entry_comes_within_reach :
    let s := { asleep .awake with now := (asleep .awake).now - 1 }
    (tickRunning s).arb.wakeNow = true ∧ (tickRunning (tickRunning s)).arb.wakeNow = false ∧
      (tickRunning { s with arb := { s.arb with power := .waking } }).arb.wakeNow = false := by decide +kernel

/-- An offer to an AWAKE pair with its INSTANT 400 ticks away is a wake cause, and one 401 away is none (R123). -/
theorem test_offer_within_reach :
    (offer { request .p1 .slot0 (some .b0) with inst := 400 } base).arb.wakeNow = true ∧
      (offer { request .p1 .slot0 (some .b0) with inst := 401 } base).arb.wakeNow = false := by decide +kernel

/-! The Trip Monitor. -/

/-- The state with one trip input due to take a level. -/
def tripDue (pin : TripPin) (level : Bool) (s : State) : State :=
  { s with trm := s.trm.setFilter pin (pinDue level) }

theorem test_witness_TripInputsFiltered :
    (∀ pin ∈ [TripPin.ocD, .busOv], ready (tripDue pin false base) = true ∧ releaseDue pin (tripDue pin false base) = true) ∧
      releaseDue .gateOkD (tripDue .gateOkD true base) = true ∧
      (let s := { base with trm := { base.trm with gateD := { raw := true, level := true, count := 0 },
                                                   qualD := { timer := 4000, qualified := false } } }
       ready s = true ∧ qualificationDue .d s = true) := by decide +kernel

theorem test_witness_DrumInputsTrip :
    (let s := tripDue .ocD true base
     ready s = true ∧ assertionDue .ocD s = true ∧ s.drum.state ≠ .tripped) ∧
    (let s := tripDue .gateOkD false (drumWaits .start .braking .short true)
     ready s = true ∧ assertionDue .gateOkD s = true ∧ s.drum.out ≠ .off ∧ s.drum.state ≠ .tripped) ∧
    (let s := tripDue .gateOkD false base
     assertionDue .gateOkD s = true ∧ s.drum.out = .off ∧ s.drum.state ≠ .tripped) ∧
    (let s := tripDue .ocD true (drumWaits .start .tripped .short true)
     assertionDue .ocD s = true ∧ s.drum.state = .tripped) ∧
    (∀ a ∈ [SafeOut.off, .short],
      let s := tripDue .gateOkD false (drumWaits .start .tripped .off true)
      let s := { s with drum := { s.drum with trip := { clearTripRecord with action := a } } }
      ready s = true ∧ assertionDue .gateOkD s = true ∧ s.drum.state = .tripped ∧ s.drum.trip.action = a) ∧
    (let s := { tripDue .ocD true base with arb := (listed 0 (request .d .shuntB (some .b0))).arb }
     currentSlot .d (request .d .shuntB (some .b0)) = true ∧
       slotStatusOf (request .d .shuntB (some .b0)) (after (.inputAssertion .ocD) s) = some .droppedTrip) := by
  decide +kernel

/-- The drum TRIPPED with ACTION OFF by OC_D, from a state and at NOW, 2500, on this tick or 2^32 ticks ago, with GATE_OK_D about
to be asserted. -/
def gateAfterTrip (prior : DrumState) (thisTick : Bool) : State :=
  let s := tripDue .gateOkD false (drumWaits .start .tripped .off true)
  { s with drum := { s.drum with tripPrior := prior, tripNow := thisTick, trip :=
      { clearTripRecord with first := some .oc, oc := true, time := s.now } } }

/-- The premises of DrumInputsTrip's clauses on ACTION OFF: the tick of a trip from a state that drives, a later tick, and the
tick of a trip from a state that does not drive. -/
theorem test_witness_DrumInputsTrip_off :
    (let s := gateAfterTrip .running true
     ready s = true ∧ assertionDue .gateOkD s = true ∧ s.drum.state = .tripped ∧ s.drum.trip.action = .off ∧
       s.drum.tripNow = true ∧ s.drum.tripPrior = .running) ∧
    (let s := gateAfterTrip .running false
     ready s = true ∧ assertionDue .gateOkD s = true ∧ s.drum.state = .tripped ∧ s.drum.trip.action = .off ∧
       s.drum.tripNow ≠ true) ∧
    (let s := gateAfterTrip .stopped true
     ready s = true ∧ assertionDue .gateOkD s = true ∧ s.drum.state = .tripped ∧ s.drum.trip.action = .off ∧
       s.drum.tripPrior = .stopped) := by decide +kernel

/-- A trip from STARVED with SafeAction SHORT, on its tick. -/
theorem test_witness_DrumInputsTrip_starved :
    let s := gateAfterTrip .starved true
    let s := { s with gcu := { s.gcu with shadow := { s.gcu.shadow with safeAction := .short } } }
    s.drum.tripPrior = .starved ∧ (cfg s).safeAction = .short ∧ s.drum.tripNow = true := by decide +kernel

/-- OC_D and then GATE_OK_D on one tick of a RUNNING drum: OC_D is FIRST_CAUSE and CAUSES holds both (R144). -/
theorem test_gate_on_the_trip_tick :
    let t := after (.inputAssertion .gateOkD) (after (.inputAssertion .ocD)
      (tripDue .gateOkD false (tripDue .ocD true (drumWaits .start .running .pwm true))))
    t.drum.trip.first = some .oc ∧ t.drum.trip.oc = true ∧ t.drum.trip.gate = true ∧ t.drum.trip.action = .off := by
  decide +kernel

/-- GATE_OK_D after the tick of the trip, with ACTION OFF: the record stays, though TRIP_TIME is NOW again 2^32 ticks later
(R142). -/
theorem test_gate_after_the_trip_tick :
    let s := gateAfterTrip .running false
    s.drum.trip.time = s.now ∧ (after (.inputAssertion .gateOkD) s).drum.trip.gate = false := by decide +kernel

theorem test_witness_PumpInputsTrip :
    (let s := tripDue .ocP2 true base
     ready s = true ∧ assertionDue .ocP2 s = true ∧ s.pump2.state ≠ .tripped) ∧
    (let s := tripDue .gateOkP false (pumpWaits .start .braking true)
     ready s = true ∧ assertionDue .gateOkP s = true ∧ s.pump1.state.driven = true ∧ s.pump2.state.driven = false ∧
       s.pump2.state ≠ .tripped) ∧
    (∀ pin ∈ [TripPin.ocP1, .gateOkP], ∀ a ∈ [SafeOut.off, .short],
      let s := tripDue pin (faultLevel pin) (pumpWaits .start .tripped true)
      let s := { s with pump1 := { s.pump1 with trip := { clearTripRecord with action := a } } }
      ready s = true ∧ assertionDue pin s = true ∧ s.pump1.state = .tripped ∧ s.pump1.trip.action = a) ∧
    (let s := { tripDue .ocP1 true base with arb := (listed 0 (request .p1 .slot0 (some .b0))).arb }
     currentSlot .p1 (request .p1 .slot0 (some .b0)) = true ∧
       slotStatusOf (request .p1 .slot0 (some .b0)) (after (.inputAssertion .ocP1) s) = some .droppedTrip) := by
  decide +kernel

/-- Pump 1 TRIPPED with ACTION OFF, from a state, on this tick or an earlier one, with GATE_OK_P about to be asserted. -/
def pumpGateAfterTrip (prior : PumpState) (thisTick : Bool) : State :=
  let s := tripDue .gateOkP false (pumpWaits .start .tripped true)
  { s with pump1 := { s.pump1 with tripPrior := prior, tripNow := thisTick } }

/-- The premises of PumpInputsTrip's clauses on ACTION OFF: the tick of a trip from RUN, a later tick, and the tick of a trip
from STOPPED. -/
theorem test_witness_PumpInputsTrip_off :
    (let s := pumpGateAfterTrip .run true
     ready s = true ∧ assertionDue .gateOkP s = true ∧ s.pump1.state = .tripped ∧ s.pump1.trip.action = .off ∧
       s.pump1.tripNow = true ∧ s.pump1.tripPrior.driven = true ∧ s.pump1.trip.gate = false) ∧
    (let s := pumpGateAfterTrip .run false
     ready s = true ∧ assertionDue .gateOkP s = true ∧ s.pump1.state = .tripped ∧ s.pump1.trip.action = .off ∧
       s.pump1.tripNow ≠ true) ∧
    (let s := pumpGateAfterTrip .stopped true
     ready s = true ∧ assertionDue .gateOkP s = true ∧ s.pump1.state = .tripped ∧ s.pump1.trip.action = .off ∧
       s.pump1.tripPrior.driven = false) := by decide +kernel

/-- GATE_OK_P on the tick of a trip from RUN joins CAUSES (R144). -/
theorem test_pump_gate_on_the_trip_tick :
    (after (.inputAssertion .gateOkP) (pumpGateAfterTrip .run true)).pump1.trip.gate = true := by decide +kernel

theorem test_witness_BusOvervoltageTripsAll :
    (let s := tripDue .busOv true base
     ready s = true ∧ assertionDue .busOv s = true ∧ s.drum.state ≠ .tripped ∧ s.pump1.state ≠ .tripped) ∧
    (let s := tripDue .busOv true (drumWaits .start .tripped .off true)
     assertionDue .busOv s = true ∧ s.drum.state = .tripped) ∧
    (let s := tripDue .busOv true (pumpWaits .start .tripped true)
     assertionDue .busOv s = true ∧ s.pump1.state = .tripped) := by decide +kernel

/-- The state with the OvAction of every channel set. -/
def withOvAction (a : SafeOut) (s : State) : State :=
  { s with gcu := { s.gcu with shadow := { s.gcu.shadow with
      ovActionD := a, p1 := { s.gcu.shadow.p1 with ovAction := a }, p2 := { s.gcu.shadow.p2 with ovAction := a } } } }

/-- SHORT taken and denied by the gate supply (R140); SHORT from BRAKING (R28); a TRIPPED channel with ACTION SHORT under
each OvAction (R142); all three TRIPPED with BUS_OV in CAUSES already; and a listed request of a channel that trips (R103). -/
theorem test_witness_BusOvervoltageTripsAll_actions :
    (∀ gate ∈ [true, false],
      let s := withOvAction .short (tripDue .busOv true (drumWaits .start .running .pwm gate))
      assertionDue .busOv s = true ∧ s.drum.state ≠ .tripped ∧ ovAction .d s = .short ∧ gateAsserted .d s = !gate ∧
        (after (.inputAssertion .busOv) s).drum.trip.gate = !gate) ∧
    (let s := withOvAction .short (tripDue .busOv true (drumWaits .start .braking .short true))
     assertionDue .busOv s = true ∧ s.drum.out = .short ∧ gateAsserted .d s = false) ∧
    (∀ a ∈ [SafeOut.off, .short],
      let s := withOvAction a (tripDue .busOv true (drumWaits .start .tripped .short true))
      let s := { s with drum := { s.drum with trip := { clearTripRecord with first := some .busOv, action := .short } } }
      assertionDue .busOv s = true ∧ s.drum.state = .tripped ∧ s.drum.trip.action = .short ∧ ovAction .d s = a ∧
        decide ((after (.inputAssertion .busOv) s).drum.out = .off) = decide (a = .off)) ∧
    (let r := { clearTripRecord with first := some .busOv, busOv := true }
     let s := tripDue .busOv true base
     let s := { s with drum := { s.drum with state := .tripped, trip := r },
                       pump1 := { s.pump1 with state := .tripped, trip := r },
                       pump2 := { s.pump2 with state := .tripped, trip := r } }
     let t := after (.inputAssertion .busOv) s
     assertionDue .busOv s = true ∧ (∀ ch, isTripped ch s = true) ∧ t.drum.trip = s.drum.trip ∧
       t.pump1.trip = s.pump1.trip ∧ t.pump2.trip = s.pump2.trip) ∧
    (let s := { tripDue .busOv true base with arb := (listed 0 (request .d .shuntA (some .b0))).arb }
     isTripped .d s = false ∧ currentSlot .d (request .d .shuntA (some .b0)) = true ∧
       slotStatusOf (request .d .shuntA (some .b0)) (after (.inputAssertion .busOv) s) = some .droppedTrip) := by
  refine ⟨by decide +kernel, by decide +kernel, by decide +kernel, ?_, by decide +kernel⟩
  exact ⟨by decide +kernel, fun ch => by cases ch <;> decide +kernel, by decide +kernel, by decide +kernel,
    by decide +kernel⟩

/-- BUS_OV asserted again while it is in CAUSES of a TRIPPED drum with ACTION SHORT: under OvAction SHORT nothing changes and
nothing is raised (R142); under an OvAction OFF set since, ACTION moves to OFF and TRIP is raised (R148). -/
theorem test_bus_ov_again :
    ∀ a ∈ [SafeOut.off, .short],
      let s := withOvAction a (tripDue .busOv true (drumWaits .start .tripped .short true))
      let r := { clearTripRecord with first := some .busOv, busOv := true, action := .short }
      let s := { s with drum := { s.drum with trip := r },
                        pump1 := { s.pump1 with state := .tripped, trip := { r with action := .off } },
                        pump2 := { s.pump2 with state := .tripped, trip := { r with action := .off } } }
      let t := after (.inputAssertion .busOv) s
      assertionDue .busOv s = true ∧ t.drum.trip = { r with action := a } ∧
        isPending .trip t = decide (a = .off) := by decide +kernel

/-- BRAKING to SHORT is no switching (R28): a low side that waits out a tick of an older dead time waits on under a new DT_D. -/
theorem test_brake_to_short_holds :
    let leg := { offLeg with waiting := some { side := .low, left := 5 } }
    let s := withOvAction .short (tripDue .busOv true (drumWaits .start .braking .short true))
    let s := { s with drum := { s.drum with legs := Tri.const leg } }
    (after (.inputAssertion .busOv) s).drum.legs.u = leg := by decide +kernel

/-! What every step keeps: a state that meets each property, and a step from it. -/

/-- A brake command at a boundary of the drum with a bank LIVE: the witness state of the invariants. -/
def lively : State := { bank0In .live (drumWaits .brake .stopped .off true) with pending := [.drumBoundary] }

/-- A step from it. -/
theorem test_lively_steps : step lively = .next (drumBoundaryEvent { lively with pending := [] }) := rfl

theorem test_witness_PartLeavesHostWords :
    exec .drumBoundary lively = .next (drumBoundaryEvent lively) ∧ Instr.drumBoundary ≠ .sweepEnd ∧
      isHostWord 0x280 = true ∧ hostWriteOf .drumBoundary = none :=
  ⟨rfl, nofun, by decide +kernel, rfl⟩

/-- Words that show a record, found so one by one. -/
theorem shows_of_all (s : State) (a : Nat) (ws : List Word)
    (h : ∀ i < ws.length, dataAt s (a + i) = ws.getD i 0) : Shows s a ws := h

/-- A state in which the words show the records, with a drum bank staged and the drum at its boundary. -/
def mirrored : State := { after (.switchTake .d .b0) drumEnd with pending := [.drumBoundary] }

theorem test_witness_StepKeepsMemoryForm :
    lively.mem.wf ∧ mirrored.mem.wf ∧ mirrored.phase = .running ∧ mirrored.exchD.role0 = .pending ∧ mirrored.Mirrors := by
  refine ⟨by decide +kernel, by decide +kernel, rfl, by decide +kernel,
    ⟨fun ch => ⟨shows_of_all _ _ _ ?_, ?_⟩, ⟨shows_of_all _ _ _ ?_, shows_of_all _ _ _ ?_⟩,
      fun p => ⟨shows_of_all _ _ _ ?_, shows_of_all _ _ _ ?_⟩, fun cv => ⟨?_, shows_of_all _ _ _ ?_⟩, ?_,
      shows_of_all _ _ _ ?_, shows_of_all _ _ _ ?_, shows_of_all _ _ _ ?_, fun ch b h => absurd h ?_⟩⟩
  · cases ch <;> decide +kernel
  · cases ch <;> decide +kernel
  · decide +kernel
  · decide +kernel
  · cases p <;> decide +kernel
  · cases p <;> decide +kernel
  · cases cv <;> decide +kernel
  · cases cv <;> decide +kernel
  · decide +kernel
  · decide +kernel
  · decide +kernel
  · decide +kernel
  · cases ch <;> cases b <;> decide +kernel

theorem test_witness_SwitchesStayApart : lively.Apart := by
  unfold State.Apart Tri.All Leg.Apart
  decide +kernel

theorem test_witness_OutputsFollowStates : lively.drum.OutputsLawful ∧ lively.pump1.OutputsLawful := by
  have h : ∀ l : Leg, l = offLeg → l.Off := fun l e => by subst e; exact ⟨rfl, rfl, rfl⟩
  have g : ∀ l : Leg, l = offLeg → l.NoHigh := fun l e => by subst e; exact ⟨rfl, fun w e => nomatch e⟩
  refine ⟨⟨fun _ => rfl, ⟨nofun, nofun⟩, nofun, fun _ => ⟨h _ rfl, h _ rfl, h _ rfl⟩, fun _ =>
    ⟨⟨g _ rfl, g _ rfl, g _ rfl⟩, rfl, rfl⟩⟩, fun _ => ⟨⟨g _ rfl, g _ rfl, g _ rfl⟩, rfl, rfl, rfl⟩,
    fun _ => ⟨h _ rfl, h _ rfl, h _ rfl⟩, Nat.zero_le 5⟩

theorem test_witness_OutputsFollowStates_trips :
    lively.TripsTimed ∧ (gateAfterTrip .running true).drum.tripNow = true ∧ (gateAfterTrip .running true).TripsTimed := by
  have h : ∀ s : State, s.pump1.tripNow = false → s.pump2.tripNow = false → s.drum.trip.time = s.now → s.TripsTimed :=
    fun s h1 h2 h3 => ⟨fun _ => h3, fun p hp => by cases p <;> simp [State.pump, h1, h2] at hp⟩
  exact ⟨⟨nofun, fun p hp => by cases p <;> exact nomatch hp⟩, by decide +kernel,
    h _ (by decide +kernel) (by decide +kernel) (by decide +kernel)⟩

theorem test_witness_ExchangeLawKept : lively.ExchangesLawful ∧ BoundaryFindsNone lively := by
  refine ⟨by unfold State.ExchangesLawful Exchange.Lawful; decide +kernel, fun c cs ch e h b => ?_⟩
  cases e
  cases h
  cases b <;> decide +kernel

theorem test_witness_ListAndOffsetsInRange :
    (lively.arb.ListLawful ∧ lively.calA.InRange ∧ lively.calB.InRange) ∧
      (let s := { base with now := 100, pending := [.calDue .a], arb := { base.arb with list := listOf 8 } }
       s.arb.ListLawful ∧ s.calA.InRange ∧ s.calB.InRange ∧ s.ConfigLegal ∧ s.arb.Ranked ∧ s.InstantsNear) := by
  refine ⟨by unfold Arbiter.ListLawful CalRecord.InRange; decide +kernel, ⟨?_, ?_, ?_, ⟨?_, nofun⟩, ?_, ?_, fun cv => ?_⟩⟩
  · unfold Arbiter.ListLawful; decide +kernel
  · unfold CalRecord.InRange; decide +kernel
  · unfold CalRecord.InRange; decide +kernel
  · unfold Shadow.Legal PumpConfig.Legal TableLegal; decide +kernel
  · unfold Arbiter.Ranked; decide +kernel
  · unfold nearNow; decide +kernel
  · cases cv <;> unfold nearNow <;> decide +kernel

theorem test_witness_SweepPhasesAgree : lively.CalAgrees := by
  have hl : lively.arb.list = [] := rfl
  have hf : ∀ cv, lively.inFlight cv = none := fun cv => by cases cv <;> rfl
  have hp : ∀ cv, (lively.cal cv).phase = .waiting := fun cv => by cases cv <;> rfl
  have hc : ∀ cv, (lively.cal cv).cls = .none := fun cv => by cases cv <;> rfl
  intro cv
  simp [hl, hf, hp, hc]

theorem test_witness_ConfigurationStaysLegal : lively.ConfigLegal ∧ (applying [] lively).ApplyQuiet := by
  refine ⟨⟨?_, nofun⟩, fun _ => by decide +kernel⟩
  unfold Shadow.Legal PumpConfig.Legal TableLegal
  decide +kernel

theorem test_witness_CountsStayBelowLimits : lively.MissesCounted ∧ lively.PumpCountsLawful := by
  unfold State.MissesCounted State.PumpCountsLawful Pump.CountsLawful
  decide +kernel

theorem test_witness_StepIndexMovesByOne :
    (let s := { inRun 0 with pending := [.scheduledCommutation .p1] }
     s.pump1.state.drives = true ∧ (after (.scheduledCommutation .p1) s).pump1.state.drives = true ∧
       (after (.scheduledCommutation .p1) s).pump1.stepIndex = 1) := by decide +kernel

end Sys2Proof.Machine
end

section
/-! SUPPORT. The words of a Switch event, and the proof that a CANCEL withdraws the PENDING bank (R4, R6). -/

namespace Sys2Proof.Machine

/-! ### One word written by the part -/

theorem keepsOutside_putWord (a : Nat) (v : Word) (s : State) : KeepsOutside s (putWord a v s) [a] :=
  keepsOutside_write (putWord_mem a v s) (List.mem_singleton_self a)

theorem dataAt_putWord_self {s : State} (hm : s.mem.wf) {a : Nat} (ha : a < Config.swmWords) (v : Word) :
    dataAt (putWord a v s) a = v := by
  rw [dataAt, putWord_mem, Memory.write_read_self hm ha, wordOf_data]

theorem KeepsOutside.dataAt_eq {s t : State} {ws : List Nat} (h : KeepsOutside s t ws) {a : Nat} (ha : a ∉ ws) :
    dataAt t a = dataAt s a := congrArg SwmWord.data (h a ha)

/-! ### Addresses of the control blocks and the banks (11.2) -/

theorem controlAddr_lt (ch : Channel) {off : Nat} (h : off < 0x20) : controlAddr ch off < 0x120 := by
  cases ch <;> simp only [controlAddr, controlBase] <;> omega

/-- The status word of a bank lies above the control blocks and inside the memory. -/
theorem statusAddr_bounds (ch : Channel) (b : Bank) :
    0x120 ≤ bankBase ch b + offStatus ch ∧ bankBase ch b + offStatus ch < Config.swmWords := by
  cases ch <;> cases b <;> decide

theorem statusAddr_ne_controlAddr (ch : Channel) (b : Bank) {off : Nat} (h : off < 0x20) :
    bankBase ch b + offStatus ch ≠ controlAddr ch off :=
  Nat.ne_of_gt (Nat.lt_of_lt_of_le (controlAddr_lt ch h) (statusAddr_bounds ch b).1)

theorem switchResultAddr_lt (ch : Channel) : controlAddr ch offSwitchResult < Config.swmWords :=
  Nat.lt_trans (controlAddr_lt ch (by decide)) (by decide)

/-! ### The host's write of a SWITCH word (R4, R164) -/

/-- A word that the port takes changes the port alone. -/
theorem passWord_eq (s : State) : passWord s = { s with port := (passWord s).port } := by
  unfold passWord nextWord
  split <;> rfl

@[simp] theorem passWord_mem (s : State) : (passWord s).mem = s.mem := by rw [passWord_eq]

@[simp] theorem passWord_exch (s : State) (ch : Channel) : (passWord s).exch ch = s.exch ch := by
  rw [passWord_eq]
  cases ch <;> rfl

@[simp] theorem passWord_ready (s : State) : ready (passWord s) = ready s := by rw [passWord_eq]; rfl

/-- The state in which a Switch event acts: the port has passed the host's word, and SWITCH holds it. -/
def switchLanded (ch : Channel) (w : Word) (s : State) : State := putWord (controlAddr ch offSwitch) w (passWord s)

@[simp] theorem switchLanded_exch (ch : Channel) (w : Word) (s : State) (c : Channel) :
    (switchLanded ch w s).exch c = s.exch c := by simp [switchLanded]

theorem switchLanded_wf {s : State} (hm : s.mem.wf) (ch : Channel) (w : Word) : (switchLanded ch w s).mem.wf := by
  rw [switchLanded, putWord_mem, passWord_mem]
  exact Memory.write_wf hm _ _

theorem switchLanded_keeps (ch : Channel) (w : Word) (s : State) :
    KeepsOutside s (switchLanded ch w s) [controlAddr ch offSwitch] :=
  (keepsOutside_of_mem_eq (passWord_mem s) _).trans (keepsOutside_putWord _ _ _)

/-- A landed word and the port are all that the write changes before the Switch event. -/
theorem switchLanded_rest (ch : Channel) (w : Word) (s : State) :
    { switchLanded ch w s with mem := s.mem, port := s.port } = s := by
  rw [switchLanded, passWord_eq]
  rfl

/-- SWITCH is the host's word whatever the roles and the configuration (R165). -/
theorem writeFault_switch (ch : Channel) (s : State) : writeFault (controlAddr ch offSwitch) s = none := by
  cases ch <;> rfl

theorem deliver_switch (ch : Channel) (w : Word) (s : State) :
    deliver (controlAddr ch offSwitch) w s = switchEvent ch w s := by
  cases ch <;> rfl

/-- A SWITCH word that the port takes lands, and its request is performed at once (R4). -/
theorem namedWrite_switch {ch : Channel} {s : State} (hr : ready s = true)
    (ht : portTakes .memWrite (controlWord ch offSwitch) s = true) (w : Word) :
    namedWrite (controlWord ch offSwitch) w s = switchEvent ch w (switchLanded ch w s) := by
  have ha : (controlWord ch offSwitch).toNat = controlAddr ch offSwitch := controlWord_toNat ch offSwitch (by decide)
  rw [namedWrite, if_pos ht, hostWrite, passWord_ready, if_pos hr, hostWriteReady, ha, writeFault_switch]
  exact deliver_switch ch w _

theorem exec_switchCancel (ch : Channel) (s : State) :
    exec (.switchCancel ch) s = .next (namedWrite (controlWord ch offSwitch) 3 s) := rfl

theorem exec_switchCancel_taken {ch : Channel} {s : State} (hr : ready s = true)
    (ht : portTakes .memWrite (controlWord ch offSwitch) s = true) :
    exec (.switchCancel ch) s = .next (switchCancelEvent ch (switchLanded ch 3 s)) := by
  rw [exec_switchCancel, namedWrite_switch hr ht]
  rfl

/-! ### SWITCH_RESULT (R4) -/

theorem writeSwitchResult_keeps (ch : Channel) (o : SwitchOutcome) (b : Option Bank) (s : State) :
    KeepsOutside s (writeSwitchResult ch o b s) [controlAddr ch offSwitchResult] :=
  keepsOutside_putWord _ _ _

theorem writeSwitchResult_result {s : State} (hm : s.mem.wf) (ch : Channel) (o : SwitchOutcome) (b : Option Bank) :
    dataAt (writeSwitchResult ch o b s) (controlAddr ch offSwitchResult) = pack [(o.code, 0), (bankNumber b, 8)] :=
  dataAt_putWord_self hm (switchResultAddr_lt ch) _

/-! ### The roles and the withdrawal of a bank (R3, R5, R6) -/

theorem bankIn_pending_of_role {e : Exchange} (he : e.Lawful) {b : Bank} (hb : e.role b = .pending) :
    e.bankIn .pending = some b := by
  obtain ⟨hsame, -, -⟩ := he
  cases b with
  | b0 => exact if_pos hb
  | b1 =>
    have h1 : e.role1 = .pending := hb
    have h0 : e.role0 ≠ .pending := fun h0 => by
      have := hsame (h0.trans h1.symm)
      rw [h0] at this
      cases this
    rw [Exchange.bankIn, if_neg h0, if_pos h1]

theorem bankIn_eq_none {e : Exchange} {r : Role} (h : ∀ b, e.role b ≠ r) : e.bankIn r = none := by
  have h0 : e.role0 ≠ r := h .b0
  have h1 : e.role1 ≠ r := h .b1
  rw [Exchange.bankIn, if_neg h0, if_neg h1]

/-- A change of role leaves LIVE_SEQ and RETIRED_SEQ as they are, so BANK_ROLES alone is written. -/
theorem modExch_setRole_keeps (ch : Channel) (b : Bank) (r : Role) (s : State) :
    KeepsOutside s (modExch ch (fun e => e.setRole b r) s) [controlAddr ch offRoles] := by
  intro a ha
  rw [List.mem_singleton] at ha
  simp only [modExch_mem, Exchange.words, setRole_liveSeq, setRole_retiredSeq, singles, List.map_cons, List.map_nil,
    Memory.writeChanged, if_true]
  split
  · rfl
  · exact Memory.write_read_ne _ _ ha

theorem cancelBank_keeps (ch : Channel) (b : Bank) (s : State) :
    KeepsOutside s (cancelBank ch b s) [controlAddr ch offRoles, bankBase ch b + offStatus ch] :=
  ((keepsOutside_putWord _ _ s).mono (by simp)).trans ((modExch_setRole_keeps ch b .host _).mono (by simp))

theorem cancelBank_status {s : State} (hm : s.mem.wf) (ch : Channel) (b : Bank) :
    dataAt (cancelBank ch b s) (bankBase ch b + offStatus ch) = 3 := by
  have hne : bankBase ch b + offStatus ch ∉ [controlAddr ch offRoles] :=
    fun h => statusAddr_ne_controlAddr ch b (by decide) (List.mem_singleton.mp h)
  rw [cancelBank, (modExch_setRole_keeps ch b .host _).dataAt_eq hne]
  exact dataAt_putWord_self hm (statusAddr_bounds ch b).2 _

@[simp] theorem cancelBank_exch (ch : Channel) (b : Bank) (s : State) :
    (cancelBank ch b s).exch ch = (s.exch ch).setRole b .host := by simp [cancelBank]

/-! ### CANCEL (R6) -/

theorem switchCancelEvent_pending {ch : Channel} {s : State} (he : (s.exch ch).Lawful) {b : Bank}
    (hb : (s.exch ch).role b = .pending) :
    switchCancelEvent ch s = writeSwitchResult ch .cancelled (some b) (cancelBank ch b s) := by
  rw [switchCancelEvent, pendingBank, bankIn_pending_of_role he hb]

theorem switchCancelEvent_none {ch : Channel} {s : State} (h : ∀ b, (s.exch ch).role b ≠ .pending) :
    switchCancelEvent ch s = writeSwitchResult ch .nothingPending none s := by
  rw [switchCancelEvent, pendingBank, bankIn_eq_none h]

/-- A withdrawal changes the roles of its channel and the memory alone. -/
theorem withdrawal_eq (ch : Channel) (o : SwitchOutcome) (b : Bank) (s : State) :
    writeSwitchResult ch o (some b) (cancelBank ch b s) =
      { s.setExch ch ((s.exch ch).setRole b .host) with
        mem := (writeSwitchResult ch o (some b) (cancelBank ch b s)).mem } := by
  cases ch <;> rfl

/-- An exchange and a memory that were replaced can be put back. -/
theorem setExch_restored (ch : Channel) (e : Exchange) (m : Memory) (s : State) :
    { State.setExch { s.setExch ch e with mem := m } ch (s.exch ch) with mem := s.mem } = s := by
  cases ch <;> rfl

theorem withdrawal_rest (ch : Channel) (o : SwitchOutcome) (b : Bank) (s : State) :
    { (writeSwitchResult ch o (some b) (cancelBank ch b s)).setExch ch (s.exch ch) with mem := s.mem } = s := by
  rw [withdrawal_eq]
  exact setExch_restored ch _ _ s

/-- Settles O11: a CANCEL that lands finds the PENDING bank and withdraws it, or finds none (R6). -/
theorem switchCancelWithdraws : Obligations.SwitchCancelWithdraws := by
  intro ch s hr ht hm he
  have hland : (switchLanded ch 3 s).mem.wf := switchLanded_wf hm ch 3
  refine ⟨fun b hb => ⟨_, exec_switchCancel_taken hr ht, ?_⟩, fun hnone => ⟨_, exec_switchCancel_taken hr ht, ?_⟩⟩
  · rw [switchCancelEvent_pending (by simpa using he) (by simpa using hb)]
    have hwf : (cancelBank ch b (switchLanded ch 3 s)).mem.wf := (cancelBank_effect ch b _).form hland
    have hres := writeSwitchResult_keeps ch .cancelled (some b) (cancelBank ch b (switchLanded ch 3 s))
    refine ⟨by simp, ?status, ?result, ?words, ?rest⟩
    case status =>
      rw [hres.dataAt_eq fun h => statusAddr_ne_controlAddr ch b (by decide) (List.mem_singleton.mp h)]
      exact cancelBank_status hland ch b
    case result =>
      rw [writeSwitchResult_result hwf]
      cases b <;> rfl
    case words =>
      exact (((switchLanded_keeps ch 3 s).mono (by simp)).trans ((cancelBank_keeps ch b _).mono (by simp))).trans
        (hres.mono (by simp))
    case rest =>
      have hw := withdrawal_rest ch .cancelled b (switchLanded ch 3 s)
      rw [switchLanded_exch] at hw
      exact (congrArg (fun t : State => { t with mem := s.mem, port := s.port }) hw).trans (switchLanded_rest ch 3 s)
  · rw [switchCancelEvent_none (by simpa using hnone)]
    refine ⟨?result, ?words, ?rest⟩
    case result =>
      rw [writeSwitchResult_result hland]
      rfl
    case words =>
      exact ((switchLanded_keeps ch 3 s).mono (by simp)).trans ((writeSwitchResult_keeps ch _ _ _).mono (by simp))
    case rest => exact switchLanded_rest ch 3 s

end Sys2Proof.Machine
end

section
/-! SUPPORT. The words that the part writes as its work starts, and the proof that both resets leave the converter pair AWAKE
(R125). -/

namespace Sys2Proof.Machine

/-! ### Words written within a list of addresses -/

theorem dataAt_putWords_out {a b : Nat} {vs : List Word} (h : b < a ∨ a + vs.length ≤ b) (s : State) :
    dataAt (putWords a vs s) b = dataAt s b :=
  congrArg SwmWord.data (Memory.writeList_read_out s.mem a vs h)

/-- Nothing changes but words of the memory at the listed addresses, and the memory keeps its canonical form. -/
structure WritesWithin (ws : List Nat) (s t : State) : Prop where
  onlyMemory : ∃ m, t = { s with mem := m }
  keeps : KeepsOutside s t ws
  form : s.mem.wf → t.mem.wf

theorem WritesWithin.trans {ws : List Nat} {s t u : State} (h : WritesWithin ws s t) (g : WritesWithin ws t u) :
    WritesWithin ws s u where
  onlyMemory := by
    obtain ⟨m, rfl⟩ := h.onlyMemory
    obtain ⟨n, rfl⟩ := g.onlyMemory
    exact ⟨n, rfl⟩
  keeps := h.keeps.trans g.keeps
  form := g.form ∘ h.form

theorem putWord_writesWithin {a : Nat} {ws : List Nat} (h : a ∈ ws) (v : Word) (s : State) :
    WritesWithin ws s (putWord a v s) where
  onlyMemory := ⟨_, rfl⟩
  keeps := keepsOutside_write (putWord_mem a v s) h
  form hm := Memory.write_wf hm a v

theorem putWords_writesWithin {a : Nat} {vs : List Word} {ws : List Nat} (h : ∀ x ∈ span a vs.length, x ∈ ws)
    (s : State) : WritesWithin ws s (putWords a vs s) where
  onlyMemory := ⟨_, rfl⟩
  keeps := keepsOutside_writeList (putWords_mem a vs s) fun i hi => h _ (mem_span.mpr ⟨by omega, by omega⟩)
  form hm := Memory.writeList_wf hm a vs

/-! ### The words written as the part's work starts (R21, R43, R88, R111, R121, R125, R134, R147) -/

/-- The words of a control block that a reset writes are its roles, its state words, TRIP_INPUTS and its trip record. -/
theorem writeControl_writesWithin {ch : Channel} {stateWords tripWords : List Word} {ws : List Nat}
    (hroles : ∀ x ∈ span (controlAddr ch offRoles) 3, x ∈ ws)
    (hstate : ∀ x ∈ span (controlAddr ch offState) stateWords.length, x ∈ ws)
    (hinputs : controlAddr ch offTripInputs ∈ ws)
    (htrip : ∀ x ∈ span (controlAddr ch offTrip) tripWords.length, x ∈ ws) (s : State) :
    WritesWithin ws s (writeControl ch stateWords tripWords s) := by
  have roles := putWords_writesWithin (vs := (s.exch ch).words) hroles s
  have inputs := putWord_writesWithin hinputs (s.trm.inputsWord ch)
  exact ((roles.trans (putWords_writesWithin hstate _)).trans (inputs _)).trans (putWords_writesWithin htrip _)

theorem writeControl_drum_writesWithin (d : Drum) (s : State) :
    WritesWithin softResetWords s (writeControl .d d.words d.tripWords s) :=
  writeControl_writesWithin (by decide) (by rw [drum_words_length]; decide) (by decide)
    (by rw [drum_tripWords_length]; decide) s

theorem writeControl_pump_writesWithin (p : PumpId) (x : Pump) (s : State) :
    WritesWithin softResetWords s (writeControl (pumpChannel p) x.words x.tripWords s) :=
  writeControl_writesWithin (by cases p <;> decide) (by rw [pump_words_length]; cases p <;> decide)
    (by cases p <;> decide) (by rw [pump_tripWords_length]; cases p <;> decide) s

theorem writeCal_writesWithin (cv : Conv) (r : CalRecord) (s : State) :
    WritesWithin softResetWords s (putWords (calAddr cv) r.words s) :=
  putWords_writesWithin (by rw [cal_words_length]; cases cv <;> decide) s

theorem writeProfiler_writesWithin (l : Profiler) (s : State) :
    WritesWithin softResetWords s (putWords profilerAddr l.words s) :=
  putWords_writesWithin (by rw [profiler_words_length]; decide) s

/-- The control blocks and the converter status words, which are written before the power word. -/
theorem writesWithin_before_power (s : State) : WritesWithin softResetWords s
    (putWord (convStatusAddr .b) (convStatusWord s.arb.cvb) (putWord (convStatusAddr .a) (convStatusWord s.arb.cva)
      (writeControl .p2 s.pump2.words s.pump2.tripWords (writeControl .p1 s.pump1.words s.pump1.tripWords
        (writeControl .d s.drum.words s.drum.tripWords s))))) := by
  have controls := ((writeControl_drum_writesWithin s.drum s).trans (writeControl_pump_writesWithin .p1 s.pump1 _)).trans
    (writeControl_pump_writesWithin .p2 s.pump2 _)
  exact (controls.trans (putWord_writesWithin (by decide) _ _)).trans (putWord_writesWithin (by decide) _ _)

/-- The start of the work writes the words of the reset and no others (R172). -/
theorem writeStart_writesWithin (s : State) : WritesWithin softResetWords s (writeStart s) := by
  have power := (writesWithin_before_power s).trans
    (putWord_writesWithin (a := powerAddr) (by decide) (w16 s.arb.power.code) _)
  have cals := (power.trans (writeCal_writesWithin .a s.calA _)).trans (writeCal_writesWithin .b s.calB _)
  exact cals.trans (writeProfiler_writesWithin s.lpr _)

@[simp] theorem writeStart_now (s : State) : (writeStart s).now = s.now := by
  obtain ⟨m, h⟩ := (writeStart_writesWithin s).onlyMemory
  rw [h]

@[simp] theorem writeStart_arb (s : State) : (writeStart s).arb = s.arb := by
  obtain ⟨m, h⟩ := (writeStart_writesWithin s).onlyMemory
  rw [h]

@[simp] theorem writeStart_cfg (s : State) : cfg (writeStart s) = cfg s := by
  obtain ⟨m, h⟩ := (writeStart_writesWithin s).onlyMemory
  rw [h]
  rfl

/-- The power word shows the pair's power as the work starts: the words written after it lie above it (R91). -/
theorem writeStart_power {s : State} (hm : s.mem.wf) : dataAt (writeStart s) powerAddr = w16 s.arb.power.code := by
  rw [writeStart, dataAt_putWords_out (.inl (by decide)), dataAt_putWords_out (.inl (by decide)),
    dataAt_putWords_out (.inl (by decide))]
  exact dataAt_putWord_self ((writesWithin_before_power s).form hm) (by decide) _

/-! ### The blocks reset (R171, R172) -/

section
variable (legsD legs1 legs2 : Tri Leg) (s : State)

@[simp] theorem resetBlocks_mem : (resetBlocks legsD legs1 legs2 s).mem = s.mem := rfl

@[simp] theorem resetBlocks_now : (resetBlocks legsD legs1 legs2 s).now = 0 := rfl

@[simp] theorem resetBlocks_arb : (resetBlocks legsD legs1 legs2 s).arb = resetArbiter := rfl

@[simp] theorem resetBlocks_cfg : cfg (resetBlocks legsD legs1 legs2 s) = defaultShadow := rfl

end

@[simp] theorem resetInPlace_mem (s : State) : (resetInPlace s).mem = s.mem := rfl

/-- The pair is AWAKE with both converters IDLE, its idle start at NOW and its power word AWAKE, and IdleLimit is 0, so that
it does not sleep (R125). -/
def StartsAwake (t : State) : Prop :=
  t.arb.power = .awake ∧ t.arb.idleStart = t.now ∧ dataAt t powerAddr = 0 ∧ t.arb.cva = none ∧ t.arb.cvb = none ∧
    (cfg t).idleLimit = 0

/-- On blocks reset from any state, one with a wake in progress included, the work starts with the pair AWAKE. -/
theorem startsAwake_of_resetBlocks {s : State} (hm : s.mem.wf) (legsD legs1 legs2 : Tri Leg) :
    StartsAwake (writeStart (resetBlocks legsD legs1 legs2 s)) := by
  have harb : (writeStart (resetBlocks legsD legs1 legs2 s)).arb = resetArbiter := by simp
  have hnow : (writeStart (resetBlocks legsD legs1 legs2 s)).now = 0 := by simp
  have hcfg : cfg (writeStart (resetBlocks legsD legs1 legs2 s)) = defaultShadow := by simp
  have hword : dataAt (writeStart (resetBlocks legsD legs1 legs2 s)) powerAddr = w16 resetArbiter.power.code :=
    writeStart_power (by rwa [resetBlocks_mem])
  rw [StartsAwake, harb, hnow, hcfg, hword]
  exact ⟨rfl, rfl, rfl, rfl, rfl, rfl⟩

/-! ### The two resets and the idle limit (R122, R125) -/

theorem exec_softReset (v : Word) (s : State) : exec (.softReset v) s = .next (regWrite 5 v s) := rfl

/-- A write of CONTROL that the port takes with bit 0 set is a soft reset behind the word that has passed (R172). -/
theorem exec_softReset_taken {v : Word} {s : State} (hr : ready s = true) (ht : portTakes .regWrite 5 s = true)
    (hv : v.getLsbD 0 = true) : exec (.softReset v) s = .next (softResetEvent (passWord s)) := by
  have hw : regWriteReady 5 v (passWord s) = softResetEvent (passWord s) := if_pos hv
  rw [exec_softReset, regWrite, if_pos ht, if_pos hr, hw]

theorem softResetEvent_keeps (s : State) : KeepsOutside s (softResetEvent s) softResetWords :=
  (keepsOutside_of_mem_eq (resetInPlace_mem s) _).trans (writeStart_writesWithin _).keeps

/-- SLEEP_GRANT is the host's word, and a reset does not write it (R125). -/
theorem grant_not_mem_softResetWords (ch : Channel) : controlAddr ch offGrant ∉ softResetWords := by
  cases ch <;> decide

theorem sweepDone_of_sweeping {s : State} {n : Nat} (hp : s.phase = .sweeping n) (hn : Config.sweepTicks ≤ n) :
    sweepDone s = true := by
  rw [sweepDone, hp]
  exact decide_eq_true hn

theorem exec_sweepEnd (s : State) : exec .sweepEnd s = if sweepDone s then .next (sweepEndEvent s) else .next s := rfl

theorem sleepDue_of_idleLimit_zero {s : State} (h : (cfg s).idleLimit = 0) : sleepDue s = false := by
  simp [sleepDue, h]

/-- Settles O21: both resets start the part's work on reset blocks, the soft reset with the host's grants kept (R125). -/
theorem resetsLeavePairAwake : Obligations.ResetsLeavePairAwake := by
  refine ⟨?softReset, ?sweepEnd, fun _ => sleepDue_of_idleLimit_zero⟩
  case softReset =>
    intro v s hr ht hm hv
    obtain ⟨hpower, hidle, hword, hcva, hcvb, hlimit⟩ : StartsAwake (softResetEvent (passWord s)) :=
      startsAwake_of_resetBlocks (by rwa [passWord_mem]) _ _ _
    refine ⟨_, exec_softReset_taken hr ht hv, hpower, hidle, hword, hcva, hcvb, hlimit, fun ch => ?_⟩
    rw [softResetEvent_keeps _ _ (grant_not_mem_softResetWords ch), passWord_mem]
  case sweepEnd =>
    intro s n hp hn
    have hexec : exec .sweepEnd s = .next (sweepEndEvent s) := by
      rw [exec_sweepEnd, if_pos (sweepDone_of_sweeping hp hn)]
    exact ⟨_, hexec, startsAwake_of_resetBlocks Memory.nil_wf _ _ _⟩

end Sys2Proof.Machine
end

section
/-! SUPPORT. The words of a global command event, and the proof that CLEAR_FAULTS empties both fault records (R153, R161). -/

namespace Sys2Proof.Machine

/-! ### Words written by the part, read back -/

theorem shows_putWords {s : State} (hm : s.mem.wf) {a : Nat} {vs : List Word} (h : a + vs.length ≤ Config.swmWords) :
    Shows (putWords a vs s) a vs := fun i hi => by
  rw [dataAt, putWords_mem, Memory.writeList_read_in hm a vs hi h, wordOf_data]

/-- Words written as zero read zero. -/
theorem dataAt_putWords_zeros {s : State} (hm : s.mem.wf) {a n b : Nat} (h : a + n ≤ Config.swmWords) (hlo : a ≤ b)
    (hhi : b < a + n) : dataAt (putWords a (List.replicate n 0) s) b = 0 := by
  obtain ⟨i, rfl⟩ := Nat.exists_eq_add_of_le hlo
  have hi : i < n := Nat.lt_of_add_lt_add_left hhi
  rw [shows_putWords hm (by rwa [List.length_replicate]) i (by rwa [List.length_replicate]), List.getD_replicate 0 hi]

/-! ### The host's write of GCMD (R153, R164) -/

/-- The state in which a global command event acts: the port has passed the host's word, and GCMD holds it. -/
def gcmdLanded (w : Word) (s : State) : State := putWord gcmdAddr w (passWord s)

theorem gcmdLanded_wf {s : State} (hm : s.mem.wf) (w : Word) : (gcmdLanded w s).mem.wf := by
  rw [gcmdLanded, putWord_mem, passWord_mem]
  exact Memory.write_wf hm _ _

theorem gcmdLanded_keeps (w : Word) (s : State) : KeepsOutside s (gcmdLanded w s) [gcmdAddr] :=
  (keepsOutside_of_mem_eq (passWord_mem s) _).trans (keepsOutside_putWord _ _ _)

/-- A landed word and the port are all that the write changes before the event. -/
theorem gcmdLanded_eq (w : Word) (s : State) :
    gcmdLanded w s = { s with mem := (gcmdLanded w s).mem, port := (gcmdLanded w s).port } := by
  rw [gcmdLanded, passWord_eq]
  rfl

@[simp] theorem gcmdLanded_gcu (w : Word) (s : State) : (gcmdLanded w s).gcu = s.gcu := by rw [gcmdLanded_eq]

@[simp] theorem gcmdLanded_intPend (w : Word) (s : State) : (gcmdLanded w s).intPend = s.intPend := by
  rw [gcmdLanded_eq]

/-- GCMD is the host's word in every state (R165), so a word that the port takes lands, and its event follows at once. -/
theorem namedWrite_gcmd {s : State} (hr : ready s = true) (ht : portTakes .memWrite 0x000 s = true) (w : Word) :
    namedWrite (w16 gcmdAddr) w s = globalEvent w (gcmdLanded w s) := by
  have htake : portTakes .memWrite (w16 gcmdAddr) s = true := ht
  have hfault : writeFault gcmdAddr (passWord s) = none := rfl
  have haddr : (w16 gcmdAddr).toNat = gcmdAddr := rfl
  rw [namedWrite, if_pos htake, hostWrite, passWord_ready, if_pos hr, hostWriteReady, haddr, hfault]
  rfl

/-! ### A global command event (R153, R154) -/

theorem globalCodeOf_code (g : GlobalCode) : globalCodeOf g.code = some g := by cases g <;> rfl

/-- With no APPLY_CONFIG in flight a word with a known code is carried out. -/
theorem globalEvent_commandWord {s : State} (ha : s.gcu.apply = none) (g : GlobalCode) (tag : Byte) :
    globalEvent (commandWord g.code tag) s = carryOut g tag s := by
  rw [globalEvent, ha, wordCode_commandWord, wordTag_commandWord, globalCodeOf_code]
  rfl

theorem globalDone_keeps (tag code : Byte) (o : Outcome) (n : Nat) (s : State) :
    KeepsOutside s (globalDone tag code o n s) (span gcmdDoneAddr 3) :=
  keepsOutside_writeList (globalDone_mem tag code o n s) fun i hi => by
    rw [mem_span]
    exact ⟨Nat.le_add_right _ i, Nat.add_lt_add_left hi _⟩

theorem globalDone_shows {s : State} (hm : s.mem.wf) (tag code : Byte) (o : Outcome) (n : Nat) :
    Shows (globalDone tag code o n s) gcmdDoneAddr (outcomeWords tag o code ++ [w16 n]) :=
  shows_putWords (vs := outcomeWords tag o code ++ [w16 n]) hm (by decide : gcmdDoneAddr + 3 ≤ Config.swmWords)

/-! ### CLEAR_FAULTS (R161) -/

theorem exec_clearFaults (tag : Byte) (s : State) : exec (.clearFaults tag) s =
    .next (namedWrite (w16 gcmdAddr) (commandWord GlobalCode.clearFaults.code tag) s) := rfl

theorem exec_clearFaults_taken {s : State} (hr : ready s = true) (ht : portTakes .memWrite 0x000 s = true)
    (ha : s.gcu.apply = none) (tag : Byte) : exec (.clearFaults tag) s =
      .next (globalDone tag 3 .done 0 (emptyFaults (gcmdLanded (commandWord GlobalCode.clearFaults.code tag) s))) := by
  rw [exec_clearFaults, namedWrite_gcmd hr ht, globalEvent_commandWord (by rwa [gcmdLanded_gcu])]
  rfl

/-- The ACCESS and PARITY flags stay pending, as every other flag does. -/
@[simp] theorem emptyFaults_intPend (s : State) : (emptyFaults s).intPend = s.intPend := rfl

theorem emptyFaults_wf {s : State} (hm : s.mem.wf) : (emptyFaults s).mem.wf :=
  Memory.writeList_wf (Memory.writeList_wf hm _ _) _ _

/-- The two records stand side by side, and their four words are all that is written. -/
theorem emptyFaults_keeps (s : State) : KeepsOutside s (emptyFaults s) (span 0x006 4) :=
  have emptied : WritesWithin (span 0x006 4) _ (emptyFaults s) :=
    (putWords_writesWithin (vs := emptyAccess.words) (by decide) _).trans
      (putWords_writesWithin (vs := emptyParity.words) (by decide) _)
  emptied.keeps

/-- The words of both records read zero: the parity record is written after the access fault record, and above it. -/
theorem emptyFaults_zero {s : State} (hm : s.mem.wf) {a : Nat} (hlo : 0x006 ≤ a) (hhi : a ≤ 0x009) :
    dataAt (emptyFaults s) a = 0 := by
  have haccess : emptyAccess.words = List.replicate 2 0 := by decide
  have hparity : emptyParity.words = List.replicate 2 0 := by decide
  rw [emptyFaults, haccess, hparity]
  by_cases hp : a < parityAddr
  · rw [dataAt_putWords_out (.inl hp)]
    exact dataAt_putWords_zeros hm (by decide) hlo hp
  · exact dataAt_putWords_zeros (Memory.writeList_wf hm _ _) (by decide) (Nat.le_of_not_lt hp) (Nat.lt_succ_of_le hhi)

/-- The first fault after it fills the record anew (R166). -/
theorem emptyAccess_record (a : Word) (k : FaultKind) (r : Option Role) :
    emptyAccess.record a k r = { addr := a, kind := k, role := r, count := 1 } := rfl

/-- The first parity failure after it fills the record anew (R167). -/
theorem emptyParity_record (a : Word) (src : ParitySource) :
    emptyParity.record a src = { addr := a, source := src, count := 1 } := rfl

/-- Settles O18: a CLEAR_FAULTS that lands with no APPLY_CONFIG in flight empties both records and reports DONE (R161). -/
theorem faultRecordsEmptied : Obligations.FaultRecordsEmptied := by
  intro tag s hr ht hm ha
  have hwf : (gcmdLanded (commandWord GlobalCode.clearFaults.code tag) s).mem.wf := gcmdLanded_wf hm _
  refine ⟨_, exec_clearFaults_taken hr ht ha tag, rfl, rfl, rfl, emptyAccess_record, emptyParity_record, ?zero,
    globalDone_shows (emptyFaults_wf hwf) tag 3 .done 0, ?flags, ?words, ?rest⟩
  case zero =>
    intro a hlo hhi
    have hout : a ∉ span gcmdDoneAddr 3 := by
      rw [mem_span, gcmdDoneAddr]
      omega
    rw [(globalDone_keeps _ _ _ _ _).dataAt_eq hout]
    exact emptyFaults_zero hwf hlo hhi
  case flags => simp
  case words =>
    have hland := (gcmdLanded_keeps (commandWord GlobalCode.clearFaults.code tag) s).mono
      (vs := span 0x000 4 ++ span 0x006 4) (by decide)
    have hrecords := hland.trans ((emptyFaults_keeps _).mono (by decide))
    exact hrecords.trans ((globalDone_keeps _ _ _ _ _).mono (by decide))
  case rest =>
    rw [gcmdLanded_eq]
    rfl

end Sys2Proof.Machine
end

section
/-! SUPPORT. The host's word read, and the proof that it is the one that sets HPAR, which CLEAR_FAULTS and both resets clear
(R168). -/

namespace Sys2Proof.Machine

/-! ### The data word of a MEM_READ frame (R164, R168) -/

theorem exec_memReadWord_memRead {s : State} {f : Frame} (hf : s.port.frame = some f) (hk : f.kind = .memRead) :
    exec .memReadWord s = .next (readWordEvent f s) := by
  have harm : exec .memReadWord s = execMemReadWord s := rfl
  simp only [harm, execMemReadWord, hf, hk]

theorem memReadValue_in {s : State} {a : Word} (hr : ready s = true) (ha : a.toNat < Config.swmWords) :
    memReadValue a s = dataAt s a.toNat := by simp [memReadValue, hr, ha]

theorem memReadValue_out {a : Word} (ha : Config.swmWords ≤ a.toNat) (s : State) : memReadValue a s = 0 := by
  simp [memReadValue, Nat.not_lt.mpr ha]

theorem memReadBad_in {s : State} {a : Word} (hr : ready s = true) (ha : a.toNat < Config.swmWords) :
    memReadBad a s = !(s.mem.read a.toNat).good := by simp [memReadBad, hr, ha]

/-- Beyond the memory there is no word whose parity could fail. -/
theorem memReadBad_out {a : Word} (ha : Config.swmWords ≤ a.toNat) (s : State) : memReadBad a s = false := by
  simp [memReadBad, Nat.not_lt.mpr ha]

section
variable (f : Frame) (s : State)

@[simp] theorem readWordEvent_readOut : (readWordEvent f s).port.readOut = memReadValue f.addr s := rfl

/-- HPAR is sticky: a read can only set it. -/
@[simp] theorem readWordEvent_hpar : (readWordEvent f s).hpar = (s.hpar || memReadBad f.addr s) := rfl

@[simp] theorem readWordEvent_frame : (readWordEvent f s).port.frame = some { f with addr := f.addr + 1 } := rfl

/-- HPAR and the port are all that a read changes: the fault records and the pending causes stay. -/
theorem readWordEvent_rest : { readWordEvent f s with hpar := s.hpar, port := s.port } = s := rfl

end

/-! ### What clears HPAR (R161, R171, R172) -/

@[simp] theorem emptyFaults_hpar (s : State) : (emptyFaults s).hpar = false := rfl

@[simp] theorem resetInPlace_hpar (s : State) : (resetInPlace s).hpar = false := rfl

@[simp] theorem writeStart_hpar (s : State) : (writeStart s).hpar = s.hpar := by
  obtain ⟨m, h⟩ := (writeStart_writesWithin s).onlyMemory
  rw [h]

/-- The words written behind the blocks' reset leave the flag as the reset left it. -/
@[simp] theorem softResetEvent_hpar (s : State) : (softResetEvent s).hpar = false := by
  rw [softResetEvent, writeStart_hpar, resetInPlace_hpar]

@[simp] theorem resetAssertEvent_hpar (s : State) : (resetAssertEvent s).hpar = false := resetInPlace_hpar s

theorem exec_resetnAssert (s : State) : exec .resetnAssert s = .next (resetAssertEvent s) := rfl

/-- Settles O7: a host read shows the stored data and sets HPAR on bad parity in range, and CLEAR_FAULTS and both resets clear
it (R168). -/
theorem hostReadsAndHpar : Obligations.HostReadsAndHpar := by
  refine ⟨?read, ?clearFaults, ?softReset, ?resetn⟩
  case read =>
    intro s f hr hf hk
    refine ⟨_, exec_memReadWord_memRead hf hk, fun hin => ⟨?_, ?_⟩, fun hout => ⟨?_, ?_⟩, readWordEvent_frame f s,
      readWordEvent_rest f s⟩
    · rw [readWordEvent_readOut, memReadValue_in hr hin]
    · rw [readWordEvent_hpar, memReadBad_in hr hin]
    · rw [readWordEvent_readOut, memReadValue_out hout]
    · rw [readWordEvent_hpar, memReadBad_out hout, Bool.or_false]
  case clearFaults =>
    intro tag s hr ht ha
    exact ⟨_, exec_clearFaults_taken hr ht ha tag, (globalDone_hpar _ _ _ _ _).trans (emptyFaults_hpar _)⟩
  case softReset =>
    intro v s hr ht hv
    exact ⟨_, exec_softReset_taken hr ht hv, softResetEvent_hpar _⟩
  case resetn => exact fun s => ⟨_, exec_resetnAssert s, resetAssertEvent_hpar s⟩

end Sys2Proof.Machine
end
